-- ==== Sys2Proof/Word.lean ====
section
/-!
DEFINITION. The widths and index ranges that every other file names (00_scope.md, Conventions).
-/
namespace Sys2Proof

/-- One byte of a frame, of a record or of host memory. -/
abbrev Byte := BitVec 8

/-- A line number, L0 to L7. -/
abbrev Line := Fin 8

/-- A stream id, the number of a stream table entry. -/
abbrev Stream := Fin 64

/-- A delivery channel number. -/
abbrev Chan := Fin 4

/-- A station number, also the number of a roster entry and of a notice slot. -/
abbrev Station := Fin 16

end Sys2Proof
end

