-- ==== Sys2Proof/Syntax.lean ====
section
/-!
DEFINITION. The commands of the part: one constructor for each row of spec/opcode_table.json. The table gives the
rows no operands; the operands here are what each row's rule says the step takes from outside (log 6).
-/
namespace Sys2Proof

/-- What the notice transmitter does at one instant of a notice (R32, R33; log 7). -/
inductive NoticeAct where
  /-- the slot starts: the content is latched and the sending begins (R32) -/
  | begin
  /-- the middle of a bit: the level read on the lane, `true` released (R33); a bit the part asserts that is read
  released tells that its own pull has no effect (R18; log 6) -/
  | sample (released : Bool)
  /-- the end of the two stop bits: the lane is released (R32) -/
  | finish
  deriving DecidableEq, Repr

inductive Instr where
  /-- RESET held low (`held`) or come to its end, with the levels of STN0 to STN3 (R175) -/
  | fullReset (straps : Station) (held : Bool)
  | lockSettings
  | joinCage
  | leaveCage
  | captureReset
  | clearCounters
  | startChannel (c : Chan)
  | stopChannel (c : Chan)
  | flushChannel (c : Chan)
  /-- address and length are read from the argument registers (R170) -/
  | postBuffer (c : Chan)
  | takeClosed (c : Chan)
  | armAttention
  /-- a command code of 0 or of 12 to 255 (R169) -/
  | unknownCommand (code : Byte)
  | settingsValueWrite (value : BitVec 64)
  /-- a read access of `size` bytes at `offset` of the control window (R163, R173) -/
  | attentionCausesRead (offset size : Nat)
  | attentionEnablesWrite (value : BitVec 64)
  /-- a write access of `size` bytes at `offset` of the control window (R163) -/
  | registerWrite (offset size : Nat) (value : BitVec 64)
  | attentionMessageComplete (good : Bool)
  | ownBoundary
  | epoHalfPoint
  | windowOpening
  | windowClose
  | markHoldEnd
  | markLineRise
  | markLineFall
  | pulseWatchRearm
  | noticeSend (act : NoticeAct)
  /-- a slot's end, with what the OTHER stations put on the lane at its 112 sample points, position 0 the most
  significant bit and 1 released (R162); the receiver reads it with the part's own pull (R18; log 6) -/
  | noticeReceive (samples : BitVec 112)
  /-- the raw LOS inputs at a sample point, bit n for line n; 1 is asserted (R66) -/
  | losSample (levels : BitVec 8)
  | receiverAligned (l : Line)
  | receiverNotAligned (l : Line)
  | settleTimeout (l : Line)
  | codeError (l : Line)
  | frameStart (l : Line)
  /-- the bytes delivered since the last event of the frame, the last of them asking for a block (R76) -/
  | furtherBlockRequest (l : Line) (bytes : List Byte)
  /-- the bytes delivered since the last event of the frame, the last of them passing the ceiling (R77) -/
  | oversize (l : Line) (bytes : List Byte)
  /-- the bytes delivered since the last event of the frame, and whether the end is clean (R78, R79) -/
  | frameEnd (l : Line) (bytes : List Byte) (clean : Bool)
  | gapDeclaration (stream : Stream)
  | writeCompleteGood
  | writeCompleteFailed
  | abandonedWriteComplete
  | idleFlushExpiry (c : Chan)
  | markDriveFault
  deriving DecidableEq, Repr

end Sys2Proof
end

