-- ==== Sys2Proof/WellFormed.lean ====
section
/-!
DEFINITION. When the operands of a command are ones the outside can send: a check for each operand whose type
admits more than the rule does. A meaning is total all the same; a command that fails its check is one that no
sender of the spec sends.
-/
namespace Sys2Proof

/-- The longest run of bytes that a frame in CAPTURING can bring: the greatest frame ceiling and the byte that passes it
(R64, R77). A frame that is skipped to its true end may be longer. -/
def maxFrameBytes : Nat := 9601

def Instr.wellFormed : Instr → Bool
  | .unknownCommand code => code.toNat == 0 || decide (12 ≤ code.toNat)
  | .attentionCausesRead offset size => decide (0 < size ∧ offset + size ≤ 4096)
  | .registerWrite offset size _ => decide (0 < size ∧ offset + size ≤ 4096)
  | .furtherBlockRequest _ bytes => decide (0 < bytes.length ∧ bytes.length ≤ maxFrameBytes)
  | .oversize _ bytes => decide (0 < bytes.length ∧ bytes.length ≤ maxFrameBytes)
  | .fullReset _ _ | .lockSettings | .joinCage | .leaveCage | .captureReset | .clearCounters => true
  | .startChannel _ | .stopChannel _ | .flushChannel _ | .postBuffer _ | .takeClosed _ | .armAttention => true
  | .settingsValueWrite _ | .attentionEnablesWrite _ | .attentionMessageComplete _ => true
  | .ownBoundary | .epoHalfPoint | .windowOpening | .windowClose | .markHoldEnd | .markLineRise => true
  | .markLineFall | .pulseWatchRearm | .noticeSend _ | .noticeReceive _ | .losSample _ => true
  | .receiverAligned _ | .receiverNotAligned _ | .settleTimeout _ | .codeError _ | .frameStart _ => true
  | .frameEnd _ _ _ => true
  | .gapDeclaration _ | .writeCompleteGood | .writeCompleteFailed | .abandonedWriteComplete => true
  | .idleFlushExpiry _ | .markDriveFault => true

end Sys2Proof
end

