-- ==== Sys2Proof/Decode.lean ====
section
/-!
DEFINITION. The table of this part gives no row any bits (spec/opcode_table.json, every "fields" empty), so no word
spells a command (log 23). The codes of the command register (R164) are read in Machine/HostCommands.lean, where a
write to that register issues a command.
-/
namespace Sys2Proof

def decodeTableWord (_nbits _w : Nat) : Option Instr := none

end Sys2Proof
end

