-- ==== Sys2Proof/Config.lean ====
section
/-!
DEFINITION. What is fixed for the part, and the free values: opaque constants with no body, for the orders that
the manual leaves open (log 5, log 9).
-/
namespace Sys2Proof.Config

/-- Free value: the sort key that draw number `draw` gives to the `k`-th of several things which the manual lets
fall in either order (R12, R85, R108, R129, R140). Nothing is known of it, so any order can result (log 5). -/
opaque orderKey (draw k : Nat) : Nat

/-- Free value: at a byte that both passes the frame ceiling and needs a further block, whether OVERSIZE is taken
before the block request (R76, R77; log 9). -/
opaque oversizeFirst (draw : Nat) : Bool

/-- Blocks of the Frame Store (05, chapter opening). -/
def storeBlocks : Nat := 4096

/-- Bytes of one block (05, chapter opening). -/
def blockBytes : Nat := 128

/-- Records the pending set holds (06, chapter opening). -/
def pendingCapacity : Nat := 512

/-- Records a channel queue holds (R139). -/
def queueCapacity : Nat := 1024

/-- Entries a closed list holds (R142). -/
def closedCapacity : Nat := 4

/-- The greatest magnitude of the trim (R4). -/
def trimLimit : Int := 858993

/-- Ticks from the fall reference to slot 0 (R30). -/
def slotLead : Nat := 400

/-- Ticks from one slot start to the next (R30). -/
def slotPitch : Nat := 2600

/-- Ticks of one notice bit (R30). -/
def bitTicks : Nat := 20

/-- Ticks of the 112 bits of a notice (R30). -/
def noticeTicks : Nat := 2240

/-- Ticks of the notice area from the fall reference (R30). -/
def noticeArea : Nat := 42000

/-- Ticks in a microsecond of a setting (R2). -/
def ticksPerMicrosecond : Nat := 1000

/-- The greatest value of a 32-bit saturating counter (00_scope.md, Counters). -/
def counterMax : Nat := 4294967295

end Sys2Proof.Config
end

