-- ==== Sys2Proof/Machine/State.lean ====
section
/-!
DEFINITION. All the state the spec gives the part, block by block, as plain data, and its value after full reset.
Ticks that a block holds are plain unsigned numbers (R1); only the running tick itself is the 64-bit count.
-/
namespace Sys2Proof.Machine

/-! ## Time Base (01) -/

inductive Quality where
  | unscaled | holdover | aligning | locked
  deriving DecidableEq, Repr

/-- (tick, epoch number, date count, quality) read at one instant (R12). -/
structure Stamp where
  tick : Nat
  epoch : BitVec 48
  count : Nat
  quality : Quality
  deriving DecidableEq, Repr

structure TimeBase where
  /-- R1 -/
  tick : BitVec 64 := 0
  /-- the part of the running tick already passed, in 2^-32 date-ns at the present rate (log 3) -/
  phase : Nat := 0
  /-- R3: the running flag -/
  running : Bool := false
  /-- whole date-ns since the own boundary (R3); it equals `eCur` only while a due boundary is not yet taken -/
  count : Nat := 0
  /-- the date below one date-ns, in 2^-32 (R3) -/
  frac : Nat := 0
  /-- R5, R6: the length of the epoch now running -/
  eCur : Nat := 1000000
  /-- R4 -/
  trim : Int := 0
  epoch : BitVec 48 := 0
  /-- the EPO pin, high (R16) -/
  epo : Bool := false
  /-- the window opening has been announced in this epoch (R7) -/
  openAnnounced : Bool := false
  /-- the window close has been announced in this epoch (R7) -/
  closeAnnounced : Bool := false
  /-- the running epoch began at an own boundary, and not at settings lock (R7, R15) -/
  ownStart : Bool := false
  deriving DecidableEq, Repr

/-! ## Cage Bus Port (02) -/

/-- The capture of one mark window (R22 to R27); ticks where R23 says so. -/
structure MarkWindow where
  /-- the opening level is asserted -/
  openAsserted : Bool
  /-- released since close, as it stood before the opening was recorded (R25) -/
  releasedBefore : Bool
  expiry : Option Nat := none
  r : Option Nat := none
  f : Option Nat := none
  split : Bool := false
  deriving DecidableEq, Repr

inductive FallSource where
  | window | watch
  deriving DecidableEq, Repr

/-- The instant from which notice slots are timed, and where it comes from (R24, R28, R32). -/
structure FallReference where
  tick : Nat
  source : FallSource
  deriving DecidableEq, Repr

inductive Transmitter where
  | idle
  /-- the slot start tick, the latched notice and the first bit not yet read back (R31, R33) -/
  | sending (start : Nat) (notice : BitVec 112) (bit : Nat)
  deriving DecidableEq, Repr

/-- The pulse watch of LISTEN (R28). -/
inductive PulseWatch where
  | off
  | armed
  | rose (r : Nat)
  | ignoring (f : Nat)
  deriving DecidableEq, Repr

structure CageBus where
  /-- the mark drive: released, or asserted since a tick (R19) -/
  drive : Option Nat := none
  /-- the drive was asserted at an own expiry of this very instant, `true` where it came after f: what it leaves is taken
  when the instant ends (R19, R27; log 38) -/
  asserting : Option Bool := none
  /-- R21 -/
  faultReported : Bool := false
  /-- at least one other station pulls the mark line (R18) -/
  cagePull : Bool := false
  /-- this station's own pull does not reach the mark line, in the hold in progress or, with none, in the next (R21;
  log 6) -/
  pullFails : Bool := false
  window : Option MarkWindow := none
  /-- R25 -/
  releasedSinceClose : Bool := false
  fallRef : Option FallReference := none
  /-- R26 -/
  lastOffset : Int := 0
  transmitter : Transmitter := .idle
  /-- this station's notice of the present notice area was sent to its end (R33, R34) -/
  noticeSent : Bool := false
  /-- the levels that this station's pull gave the notice lane in its own slot of the present notice area, position 0 the
  most significant bit; 1 is released (R18, R33) -/
  lane : BitVec 112 := BitVec.allOnes 112
  /-- the slot the receiver is taking (R34) -/
  receiver : Option Station := none
  watch : PulseWatch := .off
  /-- R36 -/
  profileCode : BitVec 16 := 0
  /-- the strapped station number (R37) -/
  station : Station := 0
  deriving DecidableEq, Repr

/-! ## Scale Controller and Peer Roster (03) -/

inductive ScaleState where
  | quiet | listen | align | locked | held
  deriving DecidableEq, Repr

inductive TimeReason where
  | joined | adopted | founded | gained | offset | voids | stuck | driveFault | silent | resumed | remeasured
  | left | renumbered | muted | unmuted
  deriving DecidableEq, Repr

structure ScaleController where
  state : ScaleState := .quiet
  mutedProfile : Bool := false
  mutedClash : Bool := false
  good : Nat := 0
  voids : Nat := 0
  noMarkRun : Nat := 0
  clashCount : Nat := 0
  clashThisEpoch : Bool := false
  listen : Nat := 0
  phaseSet : Bool := false
  measuredHeld : Bool := false
  deriving DecidableEq, Repr

structure RosterEntry where
  present : Bool := false
  heard : Bool := false
  /-- the state code of the last notice; QUIET, code 0, in a cleared entry (R59, log 25) -/
  lastState : ScaleState := .quiet
  muted : Bool := false
  epoch : BitVec 48 := 0
  offset : Int := 0
  profileMatch : Bool := false
  linesUp : BitVec 8 := 0
  peersHeard : Nat := 0
  silence : Nat := 0
  deriving DecidableEq, Repr

/-- R63 -/
structure CageCounters where
  marks : Nat := 0
  voidEarly : Nat := 0
  voidNoMark : Nat := 0
  voidLong : Nat := 0
  split : Nat := 0
  slotClash : Nat := 0
  noticeError : Nat := 0
  numberSeen : Nat := 0
  epochClash : Nat := 0
  scaleSteps : Nat := 0
  heldEntries : Nat := 0
  deriving DecidableEq, Repr

/-! ## Line Ports (04) -/

inductive LineState where
  | off | down | settling | up | degraded
  deriving DecidableEq, Repr

inductive LineReason where
  | los | alignLost | signal | settled | errors | clean
  deriving DecidableEq, Repr

/-- The frame being captured (R75, R76). The frame length is the number of bytes received. -/
structure PortFrame where
  stamp : Stamp
  /-- blocks held -/
  blocks : Nat
  /-- every byte received so far, the first `stored` of them in the blocks -/
  bytes : List Byte
  stored : Nat
  degraded : Bool
  cut : Bool
  deriving DecidableEq, Repr

inductive Reception where
  | idle
  | capturing (frame : PortFrame)
  | skipping
  deriving DecidableEq, Repr

/-- R83 -/
structure LineCounters where
  captured : Nat := 0
  ignored : Nat := 0
  storeFull : Nat := 0
  cut : Nat := 0
  fcsErrors : Nat := 0
  runts : Nat := 0
  oversize : Nat := 0
  aborts : Nat := 0
  unmatched : Nat := 0
  mergeFull : Nat := 0
  codeErrors : Nat := 0
  losAssertions : Nat := 0
  deriving DecidableEq, Repr

structure LinePort where
  state : LineState := .off
  /-- qualified LOS, asserted (R66, R67) -/
  los : Bool := true
  /-- filter history: none, or the raw level (asserted) of the last sample point (R66) -/
  history : Option Bool := none
  /-- the tick the settle timer runs from (R69) -/
  settle : Option Nat := none
  /-- epoch code errors (R71) -/
  epochErrors : Nat := 0
  /-- pair role is leg B (R65) -/
  legB : Bool := false
  /-- the receiver's block alignment as last reported (R69, R70) -/
  aligned : Bool := false
  reception : Reception := .idle
  counters : LineCounters := {}
  deriving DecidableEq, Repr

/-! ## Frame Store, merge and arbiter (05, 06, 07) -/

structure FrameStore where
  free : Nat := 4096
  lowWater : Nat := 4096
  deriving DecidableEq, Repr

/-- A classified record (05, section 5.4). -/
structure Classified where
  stamp : Stamp
  line : Line
  legB : Bool
  stream : Stream
  seq : Option Nat
  noSeq : Bool
  degraded : Bool
  cut : Bool
  frameLength : Nat
  /-- the captured bytes -/
  captured : List Byte
  /-- blocks that hold the captured bytes -/
  blocks : Nat
  deriving DecidableEq, Repr

structure Merge where
  /-- the start tick of the frame in reception on each line (R102) -/
  inFlight : Vector (Option Nat) 8 := Vector.replicate 8 none
  /-- in order-key order (R104) -/
  pending : List Classified := []
  released : Nat := 0
  peak : Nat := 0
  deriving DecidableEq, Repr

/-- R114 -/
inductive Slot where
  | unseen
  | first (legB : Bool) (tick : Nat)
  | lost (tick : Nat)
  | late (legB : Bool) (tick : Nat)
  deriving DecidableEq, Repr

/-- A sequence window (R114). The slot of number s stands at index s mod 256 (log 29). -/
structure SeqWindow where
  tracking : Bool := false
  n : Nat := 0
  slots : Vector Slot 256 := Vector.replicate 256 .unseen
  holeSince : Option Nat := none
  deadline : Option Nat := none
  /-- effective timeout, in ticks (R118) -/
  timeout : Nat := 0
  deriving DecidableEq, Repr

/-- R136 -/
structure StreamCounters where
  first : Nat := 0
  shadowDelivered : Nat := 0
  shadowSuppressed : Nat := 0
  late : Nat := 0
  lost : Nat := 0
  gaps : Nat := 0
  reseeds : Nat := 0
  noSeq : Nat := 0
  deriving DecidableEq, Repr

structure Arbiter where
  /-- arbiter time (R116) -/
  time : Nat := 0
  windows : Vector SeqWindow 64 := Vector.replicate 64 {}
  /-- line view (R117) -/
  view : Vector LineState 8 := Vector.replicate 8 .off
  counters : Vector StreamCounters 64 := Vector.replicate 64 {}
  deriving DecidableEq, Repr

/-! ## Delivery Engine (08) -/

/-- One unit of delivery (R131, R73, R58, R141). -/
inductive Record where
  | first (f : Classified)
  | shadow (f : Classified) (lag : Nat) (winnerB : Bool)
  | late (f : Classified) (lag : Nat)
  | gap (stream : Stream) (firstLost count holeSince deadline : Nat) (oneLeg : Bool)
  | reseed (stream : Stream) (oldN number tick : Nat) (line : Line) (legB : Bool)
  | line (line : Line) (old new : LineState) (reason : LineReason) (errors : Nat) (stamp : Stamp)
  | time (old new : ScaleState) (reason : TimeReason) (mutedProfile mutedClash : Bool) (offset : Int)
      (peer : Nat) (previous : BitVec 48) (stamp : Stamp)
  | loss (count firstTick lastTick : Nat)
  deriving DecidableEq, Repr

inductive StallReason where
  | noBuffer | closedFull
  deriving DecidableEq, Repr

inductive ChanState where
  | idle | run
  | stalled (reason : StallReason)
  | stopped | error
  deriving DecidableEq, Repr

inductive ChanCommand where
  | stop | flush
  deriving DecidableEq, Repr

inductive ClosureReason where
  | full | flush | idle | stop | error
  deriving DecidableEq, Repr

/-- The loss tally when it is not empty (R141). -/
structure Tally where
  count : Nat
  first : Nat
  last : Nat
  deriving DecidableEq, Repr

structure PostedBuffer where
  addr : Nat
  len : Nat
  deriving DecidableEq, Repr

structure CurrentBuffer where
  addr : Nat
  len : Nat
  fill : Nat := 0
  records : Nat := 0
  firstTick : Nat := 0
  lastTick : Nat := 0
  deriving DecidableEq, Repr

/-- R143 -/
structure ClosedEntry where
  addr : Nat
  fill : Nat
  reason : ClosureReason
  records : Nat
  firstTick : Nat
  lastTick : Nat
  deriving DecidableEq, Repr

/-- R158 -/
structure ChanCounters where
  written : Nat := 0
  bytes : Nat := 0
  lost : Nat := 0
  full : Nat := 0
  flush : Nat := 0
  idle : Nat := 0
  stop : Nat := 0
  error : Nat := 0
  writeErrors : Nat := 0
  deriving DecidableEq, Repr

structure Channel where
  state : ChanState := .idle
  /-- oldest first; a record being written is the head (R139) -/
  queue : List Record := []
  tally : Option Tally := none
  current : Option CurrentBuffer := none
  next : Option PostedBuffer := none
  /-- oldest first -/
  closed : List ClosedEntry := []
  pendingCmd : Option ChanCommand := none
  owed : Bool := false
  /-- expiry tick of the idle timer while it runs (R152) -/
  idleExpiry : Option Nat := none
  /-- a good write of it has completed at this instant, and R148 is still to be judged (log 18) -/
  ended : Bool := false
  counters : ChanCounters := {}
  deriving DecidableEq, Repr

/-- A memory write issued on the host link and not yet completed. -/
structure LinkWrite where
  addr : Nat
  bytes : List Byte
  deriving DecidableEq, Repr

/-- The host writer (R155, R156). -/
inductive Writer where
  | free
  | holding (c : Chan) (run : Nat) (write : LinkWrite)
  /-- the writer has fallen to `c`, of which a write has completed at this instant, with this run count; its next write
  is issued when the instant ends (log 18) -/
  | granted (c : Chan) (run : Nat)
  | abandoned (write : LinkWrite)
  deriving DecidableEq, Repr

/-! ## Control Window (10) -/

structure Attention where
  /-- cause set, bits as in the register at 180h (R163, R173) -/
  causes : BitVec 6 := 0
  enables : BitVec 6 := 0
  armed : Bool := false
  /-- the message in flight (R174) -/
  message : Option LinkWrite := none
  waiting : Bool := false
  deriving DecidableEq, Repr

/-- R164; `pending` is PENDING. -/
inductive ResultCode where
  | pending | done | empty | full | refusedState | refusedLock | badValue
  deriving DecidableEq, Repr

/-- The taken registers (R163). -/
structure Taken where
  addr : Nat := 0
  fill : Nat := 0
  records : Nat := 0
  reason : Nat := 0
  channel : Nat := 0
  firstTick : Nat := 0
  lastTick : Nat := 0
  deriving DecidableEq, Repr

structure ControlWindow where
  locked : Bool := false
  settingsIndex : BitVec 16 := 0
  counterIndex : BitVec 16 := 0
  rosterSelect : Station := 0
  arg0 : BitVec 64 := 0
  arg1 : BitVec 32 := 0
  result : ResultCode := .done
  resultIndex : Nat := 0
  taken : Taken := {}
  /-- what the last read access returned (log 21) -/
  readData : List Byte := []
  deriving DecidableEq, Repr

/-- The settings table (R165): the items whose kept value is not the default, index and value, indexes rising
(log 19). Read with `Settings.item`. -/
structure Settings where
  kept : List (Nat × Nat) := []
  deriving DecidableEq, Repr

/-! ## The part -/

/-- The blocks that records pass through, and what those touch: store, merge, arbiter, channels, writer, attention,
the part's traces in host memory, and the number of free values drawn. -/
structure Path where
  store : FrameStore := {}
  merge : Merge := {}
  arb : Arbiter := {}
  chans : Vector Channel 4 := Vector.replicate 4 {}
  writer : Writer := .free
  att : Attention := {}
  /-- bytes of host memory known to hold what a completed write of the part put there (log 13) -/
  mem : List Host.Cell := []
  /-- free values drawn so far (log 5) -/
  draws : Nat := 0
  deriving DecidableEq, Repr

structure State where
  tb : TimeBase := {}
  bus : CageBus := {}
  sc : ScaleController := {}
  roster : Vector RosterEntry 16 := Vector.replicate 16 {}
  cage : CageCounters := {}
  lines : Vector LinePort 8 := Vector.replicate 8 {}
  /-- ticks since the lock or the last sample point; none while LOS sampling is stopped (R66, R67) -/
  losPhase : Option Nat := none
  path : Path := {}
  settings : Settings := {}
  ctl : ControlWindow := {}
  /-- the RESET pin is held low (R175) -/
  resetLow : Bool := false
  /-- commands waiting, first in, first out -/
  pending : List Instr := []
  deriving DecidableEq, Repr

/-- The part right after full reset (R175). What the spec does not give is listed in log 15. -/
def State.reset : State := {}

/-- Why a command stops the machine. No command of this part does: every row has an effect in every state (log 28),
so the type has no constructor, and nothing raises it. Safe. -/
inductive Fault where
  deriving DecidableEq, Repr

/-- Why a command has no meaning here. -/
inductive Refusal where
  /-- raised by Dispatch.lean alone, for a command whose meaning is not written; safe. No arm raises it now. -/
  | notModelled (mnemonic : String)
  deriving DecidableEq, Repr

end Sys2Proof.Machine
end

