-- ==== Sys2Proof/Machine/Ops.lean ====
section
/-!
DEFINITION. Shared operations: counting, tick arithmetic, indexed updates, the free order, sparse data and the
part's traces in host memory.
-/
namespace Sys2Proof.Machine

/-! ## Counting and tick arithmetic -/

/-- A 32-bit saturating counter advances by `n` (00_scope.md, Counters). -/
def addSat (c n : Nat) : Nat := min (c + n) Config.counterMax

/-- A 32-bit saturating counter advances by one. -/
def countUp (c : Nat) : Nat := addSat c 1

/-- `v` limited to `lo` to `hi`. -/
def clampInt (lo hi v : Int) : Int := max lo (min hi v)

/-- Ticks from `t` to `now` on the wrapping 64-bit tick (R1, R2). -/
def ticksSince (now t : Nat) : Nat := (now + 2 ^ 64 - t % 2 ^ 64) % 2 ^ 64

/-- The modular distance from `a` to `b` at a width of `w` bits (00_scope.md, Modular distance). -/
def modDist (w a b : Nat) : Int :=
  let d := (b + 2 ^ w - a % 2 ^ w) % 2 ^ w
  if d < 2 ^ (w - 1) then (d : Int) else (d : Int) - 2 ^ w

/-- The signed number of ticks from `b` to `a` (R23). -/
def ticksBetween (a b : Nat) : Int := modDist 64 b a

/-- An expiry tick has come: `now` is at or after it on the wrapping tick. -/
def reached (now expiry : Nat) : Bool := decide (ticksSince now expiry < 2 ^ 63)

/-- Blocks that hold `n` bytes (R76, R100). -/
def blocksFor (n : Nat) : Nat := (n + (Config.blockBytes - 1)) / Config.blockBytes

/-! ## Indexed data -/

def updAt {α : Type} {n : Nat} (v : Vector α n) (i : Fin n) (f : α → α) : Vector α n :=
  v.set i (f v[i])

def allLines : List Line := [0, 1, 2, 3, 4, 5, 6, 7]
def allChans : List Chan := [0, 1, 2, 3]
def allStreams : List Stream := List.finRange 64
def allStations : List Station := [0, 1, 2, 3, 4, 5, 6, 7, 8, 9, 10, 11, 12, 13, 14, 15]

/-! ## The free order (log 5) -/

def insertByKey {α : Type} (key : α → Nat) (a : α) : List α → List α
  | [] => [a]
  | b :: l => if key a ≤ key b then a :: b :: l else b :: insertByKey key a l

def sortByKey {α : Type} (key : α → Nat) : List α → List α
  | [] => []
  | a :: l => insertByKey key a (sortByKey key l)

/-- The things of `l` in the order that draw number `draw` gives them: some order, of which nothing is known. -/
def freeOrder {α : Type} (draw : Nat) (l : List α) : List α :=
  (sortByKey (fun p => Config.orderKey draw p.2) l.zipIdx).map (·.1)

/-! ## Sparse data: keys strictly rising -/

namespace Sparse

def get? {α : Type} (k : Nat) : List (Nat × α) → Option α
  | [] => none
  | (j, v) :: l => if j = k then some v else get? k l

def put {α : Type} (k : Nat) (v : α) : List (Nat × α) → List (Nat × α)
  | [] => [(k, v)]
  | (j, w) :: l =>
    if k < j then (k, v) :: (j, w) :: l else if k = j then (k, v) :: l else (j, w) :: put k v l

def erase {α : Type} (k : Nat) : List (Nat × α) → List (Nat × α)
  | [] => []
  | (j, w) :: l => if j = k then l else (j, w) :: erase k l

/-- The canonical form: keys strictly rising. -/
abbrev Rising {α : Type} (l : List (Nat × α)) : Prop := l.Pairwise (fun a b => a.1 < b.1)

end Sparse

/-! ## The part's traces in host memory (log 13)

An unlisted address reads as `none`: the model does not know the byte. -/

namespace Memory

/-- What an unlisted address reads as. -/
def unlisted : Option Byte := none

def read (m : List Host.Cell) (a : Nat) : Option Byte :=
  match Sparse.get? a m with
  | some b => some b
  | none => unlisted

/-- The canonical form; no entry can equal what an unlisted address reads as, which is no byte. -/
abbrev wf (m : List Host.Cell) : Prop := Sparse.Rising m

/-- `bytes` come to stand from address `a` up. -/
def write (a : Nat) : List Byte → List Host.Cell → List Host.Cell
  | [], m => m
  | b :: bs, m => write (a + 1) bs (Sparse.put a b m)

/-- The `n` bytes from address `a` up are no longer known. -/
def forget (a : Nat) : Nat → List Host.Cell → List Host.Cell
  | 0, m => m
  | n + 1, m => forget (a + 1) n (Sparse.erase a m)

end Memory

/-! ## Answers -/

/-- The answer of a command whose effect is `t`: while RESET is held low the part takes nothing (R175, log 14). -/
def answer (s t : State) : Host.Outcome State Fault Refusal :=
  .next (if s.resetLow then s else t)

end Sys2Proof.Machine
end

