-- ==== Sys2Proof/Machine/Flags.lean ====
section
/-!
DEFINITION. Check codes (R31, R36, R78), the codes of states, reasons and results (R161, R164), and the bits of the
attention causes (R163).
-/
namespace Sys2Proof.Machine

/-! ## Cyclic checks -/

/-- One bit enters a check register: combined with the highest bit, shifted up, and the polynomial combined in when
the combined value is 1 (R31, R36, R78). -/
def crcBit {w : Nat} (poly reg : BitVec w) (bit : Bool) : BitVec w :=
  if (bit ^^ reg.msb) then (reg <<< 1) ^^^ poly else reg <<< 1

def crcBits {w : Nat} (poly init : BitVec w) (bits : List Bool) : BitVec w :=
  bits.foldl (crcBit poly) init

/-- The bits of `v`, highest first. -/
def bitsHighFirst {n : Nat} (v : BitVec n) : List Bool :=
  (List.range n).map (fun i => v.getMsbD i)

/-- The bits of a byte, lowest first (R78). -/
def bitsLowFirst (b : Byte) : List Bool :=
  (List.range 8).map (fun j => b.getLsbD j)

/-- The check of a notice over its 101 field bits (R31). -/
def noticeCheck (fields : BitVec 101) : BitVec 8 :=
  crcBits 0x07#8 0#8 (bitsHighFirst fields)

/-- The profile code over E, H, W and S (R36). -/
def profileCodeOf (e h w s : Nat) : BitVec 16 :=
  crcBits 0x1021#16 0xFFFF#16
    (bitsHighFirst (BitVec.ofNat 24 e) ++ bitsHighFirst (BitVec.ofNat 16 h) ++ bitsHighFirst (BitVec.ofNat 16 w)
      ++ bitsHighFirst (BitVec.ofNat 16 s))

/-- The expected frame check sequence over the bytes before it (R78). -/
def fcsOf (bytes : List Byte) : BitVec 32 :=
  ~~~ crcBits 0x04C11DB7#32 0xFFFFFFFF#32 (bytes.flatMap bitsLowFirst)

/-- Bit j of byte i of the frame check sequence holds bit 31 - 8i - j (R78). -/
def fcsHolds (expected : BitVec 32) (last : List Byte) : Bool :=
  (List.range 4).all fun i => (List.range 8).all fun j =>
    (last.getD i 0).getLsbD j == expected.getLsbD (31 - 8 * i - j)

/-- A frame passes its check when its last four bytes hold the expected sequence of those before them (R78). -/
def fcsPasses (bytes : List Byte) : Bool :=
  let n := bytes.length - 4
  fcsHolds (fcsOf (bytes.take n)) (bytes.drop n)

/-! ## Codes -/

def LineState.code : LineState → Nat
  | .off => 0 | .down => 1 | .settling => 2 | .up => 3 | .degraded => 4

def LineReason.code : LineReason → Nat
  | .los => 1 | .alignLost => 2 | .signal => 3 | .settled => 4 | .errors => 5 | .clean => 6

def ScaleState.code : ScaleState → Nat
  | .quiet => 0 | .listen => 1 | .align => 2 | .locked => 3 | .held => 4

def TimeReason.code : TimeReason → Nat
  | .joined => 1 | .adopted => 2 | .founded => 3 | .gained => 4 | .offset => 5 | .voids => 6 | .stuck => 7
  | .driveFault => 8 | .silent => 9 | .resumed => 10 | .remeasured => 11 | .left => 12 | .renumbered => 13
  | .muted => 14 | .unmuted => 15

/-- R11 -/
def Quality.code : Quality → Nat
  | .unscaled => 0 | .holdover => 1 | .aligning => 2 | .locked => 3

def ResultCode.code : ResultCode → Nat
  | .pending => 0 | .done => 1 | .empty => 2 | .full => 3 | .refusedState => 4 | .refusedLock => 5 | .badValue => 6

def ChanState.code : ChanState → Nat
  | .idle => 0 | .run => 1 | .stalled _ => 2 | .stopped => 3 | .error => 4

def ChanState.stallCode : ChanState → Nat
  | .stalled .noBuffer => 1 | .stalled .closedFull => 2 | .idle => 0 | .run => 0 | .stopped => 0 | .error => 0

def ChanCommand.code : Option ChanCommand → Nat
  | none => 0 | some .stop => 1 | some .flush => 2

def ClosureReason.code : ClosureReason → Nat
  | .full => 1 | .flush => 2 | .idle => 3 | .stop => 4 | .error => 5

/-- The state a notice's state field names, when it is one the part sends (R162). -/
def scaleStateOfCode : Nat → Option ScaleState
  | 2 => some .align
  | 3 => some .locked
  | 4 => some .held
  | _ => none

/-- The quality follows the Scale Controller state (R11). -/
def ScaleState.quality : ScaleState → Quality
  | .quiet => .unscaled | .listen => .unscaled | .held => .holdover | .align => .aligning | .locked => .locked

/-- A line counts as up when it is UP or DEGRADED (R68, R117). -/
def LineState.isUp : LineState → Bool
  | .up => true | .degraded => true | .off => false | .down => false | .settling => false

/-! ## Attention causes (R163, R173) -/

inductive Cause where
  | closed | channel | line | time | peer | loss
  deriving DecidableEq, Repr

def Cause.bit : Cause → Nat
  | .closed => 0 | .channel => 1 | .line => 2 | .time => 3 | .peer => 4 | .loss => 5

/-- The cause set that holds one cause. -/
def Cause.mask (c : Cause) : BitVec 6 := 1#6 <<< c.bit

/-! ## Rates -/

/-- The half-point of an epoch length (R16). -/
def halfPoint (len : Nat) : Nat := (len + 1) / 2

end Sys2Proof.Machine
end

