-- ==== Sys2Proof/Machine/Operands.lean ====
section
/-!
DEFINITION. The settings items: their widths and defaults (R165), their names, and the checks that LOCK SETTINGS
makes of them (R35, R38, R64, R95, R137, R168).
-/
namespace Sys2Proof.Machine

/-! ## Items -/

/-- The number of items (R165). -/
def itemCount : Nat := 767

/-- The width of item `i` in bits (R165). -/
def itemWidth (i : Nat) : Nat :=
  if i < 4 then 32
  else if i = 6 then 8
  else if i = 9 then 48
  else if i < 10 then 16
  else if i < 42 then (if (i - 10) % 4 = 0 then 1 else 16)
  else if i < 46 then 1
  else if i < 48 then 16
  else if i < 752 then
    match (i - 48) % 11 with
    | 0 => 1 | 1 => 48 | 2 => 48 | 3 => 8 | 4 => 16 | 5 => 8 | 6 => 1 | 7 => 1 | 8 => 8 | _ => 16
  else if i < 764 then
    match (i - 752) % 3 with
    | 0 => 1 | 1 => 8 | _ => 16
  else if i = 764 then 8
  else 64

/-- The default of item `i` (tables of R35's section, 3.1, 4.1, 5.3 and 8.1; R175). -/
def itemDefault (i : Nat) : Nat :=
  if i < 10 then
    match i with
    | 0 => 10000 | 1 => 1000 | 2 => 500 | 3 => 1000000 | 4 => 50 | 5 => 8 | 6 => 4 | 7 => 4 | 8 => 8 | _ => 0
  else if i < 42 then
    match (i - 10) % 4 with
    | 0 => 0 | 1 => 256 | 2 => 1518 | _ => 16
  else if i < 46 then 0
  else if i = 46 then 10
  else if i = 47 then 100
  else if i < 752 then
    match (i - 48) % 11 with
    | 9 => 64 | 10 => 100 | _ => 0
  else if i < 764 then (if (i - 752) % 3 = 1 then 1 else 0)
  else 0

namespace Settings

/-- The kept value of item `i`; an index above 766 reads 0 (R167). -/
def item (c : Settings) (i : Nat) : Nat :=
  if i < itemCount then (Sparse.get? i c.kept).getD (itemDefault i) else 0

/-- Item `i` takes `v` cut to its width; an index above 766 drops the write (R165, R167). -/
def write (c : Settings) (i v : Nat) : Settings :=
  if i < itemCount then
    let k := v % 2 ^ itemWidth i
    ⟨if k = itemDefault i then Sparse.erase i c.kept else Sparse.put i k c.kept⟩
  else c

/-- The canonical form of the table: indexes rising, and no item listed at its default. -/
abbrev wf (c : Settings) : Prop := Sparse.Rising c.kept ∧ ∀ p ∈ c.kept, p.2 ≠ itemDefault p.1

/-! ### Names of items (R165) -/

/-- Window half-width W. -/
def halfWidth (c : Settings) : Nat := c.item 0
/-- Hold window H. -/
def hold (c : Settings) : Nat := c.item 1
/-- Slew limit S. -/
def slew (c : Settings) : Nat := c.item 2
/-- Epoch length E. -/
def epochLen (c : Settings) : Nat := c.item 3
/-- Lock threshold T. -/
def threshold (c : Settings) : Nat := c.item 4
/-- Lock count C. -/
def lockCount (c : Settings) : Nat := c.item 5
/-- Gain shift k. -/
def gain (c : Settings) : Nat := c.item 6
def silenceLimit (c : Settings) : Nat := c.item 7
def listenLimit (c : Settings) : Nat := c.item 8
def startEpoch (c : Settings) : Nat := c.item 9

def enabled (c : Settings) (l : Line) : Bool := c.item (10 + 4 * l.val) == 1
def captureLen (c : Settings) (l : Line) : Nat := c.item (11 + 4 * l.val)
def ceiling (c : Settings) (l : Line) : Nat := c.item (12 + 4 * l.val)
def errorLimit (c : Settings) (l : Line) : Nat := c.item (13 + 4 * l.val)
/-- The pair of line `l` is PAIRED (R65). -/
def paired (c : Settings) (l : Line) : Bool := c.item (42 + l.val / 2) == 1
/-- The LOS filter period F in ticks (R66). -/
def losPeriod (c : Settings) : Nat := c.item 46 * Config.ticksPerMicrosecond
/-- The settle time in ticks (R69). -/
def settleTicks (c : Settings) : Nat := c.item 47 * Config.ticksPerMicrosecond

/-- Field `k` of stream table entry `e` (R165). -/
def entry (c : Settings) (e : Stream) (k : Nat) : Nat := c.item (48 + 11 * e.val + k)
def valid (c : Settings) (e : Stream) : Bool := c.entry e 0 == 1
def base (c : Settings) (e : Stream) : Nat := c.entry e 1
def mask (c : Settings) (e : Stream) : Nat := c.entry e 2
def inLineSet (c : Settings) (e : Stream) (l : Line) : Bool := (c.entry e 3).testBit l.val
def seqOffset (c : Settings) (e : Stream) : Nat := c.entry e 4
/-- Sequence width in bytes. -/
def seqWidth (c : Settings) (e : Stream) : Nat := c.entry e 5
/-- Sequence width in bits (R115). -/
def seqBits (c : Settings) (e : Stream) : Nat := 8 * c.seqWidth e
def littleEndian (c : Settings) (e : Stream) : Bool := c.entry e 6 == 1
/-- The shadow policy is SUPPRESS. -/
def suppress (c : Settings) (e : Stream) : Bool := c.entry e 7 == 1
def channelOf (c : Settings) (e : Stream) : Chan := Fin.ofNat 4 (c.entry e 8)
def snapLen (c : Settings) (e : Stream) : Nat := c.entry e 9
/-- Gap timeout in ticks (R118). -/
def gapTicks (c : Settings) (e : Stream) : Nat := c.entry e 10 * Config.ticksPerMicrosecond

def urgent (c : Settings) (ch : Chan) : Bool := c.item (752 + 3 * ch.val) == 1
def runLength (c : Settings) (ch : Chan) : Nat := c.item (753 + 3 * ch.val)
/-- Idle flush interval in ticks, 0 for off (R152). -/
def idleTicks (c : Settings) (ch : Chan) : Nat := c.item (754 + 3 * ch.val) * Config.ticksPerMicrosecond
def eventChannel (c : Settings) : Chan := Fin.ofNat 4 (c.item 764)
def attentionAddr (c : Settings) : Nat := c.item 765
def attentionWord (c : Settings) : Nat := c.item 766

/-! ### Lock validation -/

/-- A value lies within `lo` to `hi`. -/
def within (lo hi v : Nat) : Bool := decide (lo ≤ v ∧ v ≤ hi)

/-- The profile checks (R35). -/
def profileItemOk (c : Settings) (i : Nat) : Bool :=
  match i with
  | 0 => within 1000 50000 c.halfWidth
  | 1 => within 100 (c.halfWidth / 2) c.hold
  | 2 => within 1 (c.halfWidth / 4) c.slew
  | _ => within 100000 10000000 c.epochLen && decide (3 * c.halfWidth + 43000 ≤ c.epochLen)

/-- The scale checks (R38). -/
def scaleItemOk (c : Settings) (i : Nat) : Bool :=
  match i with
  | 4 => within 1 1000 c.threshold
  | 5 => within 2 255 c.lockCount
  | 6 => within 0 15 c.gain
  | 7 => within 2 255 c.silenceLimit
  | 8 => within 2 255 c.listenLimit
  | _ => true

/-- The line checks (R64). -/
def lineItemOk (c : Settings) (i : Nat) : Bool :=
  if i < 42 then
    match (i - 10) % 4 with
    | 1 => within 64 2048 (c.item i) && c.item i % 64 == 0
    | 2 => within 1518 9600 (c.item i)
    | _ => true
  else if i = 46 then within 1 1000 (c.item i)
  else true

/-- The stream table checks, valid entries only (R95). -/
def streamItemOk (c : Settings) (i : Nat) : Bool :=
  let e : Stream := Fin.ofNat 64 ((i - 48) / 11)
  !c.valid e ||
    match (i - 48) % 11 with
    | 4 => within 0 255 (c.seqOffset e)
    | 5 => c.seqWidth e == 0 || c.seqWidth e == 2 || c.seqWidth e == 4 || c.seqWidth e == 8
    | 8 => within 0 3 (c.entry e 8)
    | 9 => within 0 2048 (c.snapLen e)
        && allLines.all fun l => !c.inLineSet e l || decide (c.snapLen e ≤ c.captureLen l)
    | _ => true

/-- The channel checks (R137). -/
def channelItemOk (c : Settings) (i : Nat) : Bool :=
  if i = 764 then within 0 3 (c.item i)
  else if (i - 752) % 3 = 1 then within 1 16 (c.item i)
  else true

/-- The check of item `i` by the rule of its owning chapter (R168). -/
def itemOk (c : Settings) (i : Nat) : Bool :=
  if i < 4 then c.profileItemOk i
  else if i < 10 then c.scaleItemOk i
  else if i < 48 then c.lineItemOk i
  else if i < 752 then c.streamItemOk i
  else if i < 765 then c.channelItemOk i
  else if i = 765 then c.attentionAddr % 8 == 0
  else true

/-- The first item, in index order, that fails its check (R168). -/
def firstBad (c : Settings) : Option Nat := (List.range itemCount).find? fun i => !c.itemOk i

end Settings

/-! ## What an operation reads of the rest of the part -/

/-- The tick and the settings, as an operation on the record path reads them. -/
structure Env where
  now : Nat
  cfg : Settings
  deriving DecidableEq, Repr

/-- The tick as a plain number (R1). -/
def State.now (s : State) : Nat := s.tb.tick.toNat

def State.env (s : State) : Env := ⟨s.now, s.settings⟩

end Sys2Proof.Machine
end

