-- ==== Sys2Proof/Machine/TimeBase.lean ====
section
/-!
DEFINITION. The Time Base (01): the rate of the date, the requests it takes, and the positions it announces. The
work the other blocks do at an own boundary stands in Machine/Boundary.lean.
-/
namespace Sys2Proof.Machine

/-- Date units of 2^-32 date-ns in one tick: 2^32 + trim (R3). -/
def rateOf (trim : Int) : Nat := (2 ^ 32 + trim).toNat

namespace TimeBase

/-- EPO is high while the date runs and the count is below the half-point (R16). -/
def epoLevel (tb : TimeBase) : Bool := tb.running && decide (tb.count < halfPoint tb.eCur)

/-- EPO follows the count and E_cur when either of them moves within an epoch (R17). -/
def followEpo (tb : TimeBase) : TimeBase := { tb with epo := tb.epoLevel }

/-- Set trim (R4): limited, in force from this instant; count and fraction do not move. What has passed of the
running tick is told again at the new rate (log 3). -/
def setTrim (v : Int) (tb : TimeBase) : TimeBase :=
  let t := clampInt (-Config.trimLimit) Config.trimLimit v
  { tb with trim := t, phase := tb.phase * rateOf t / rateOf tb.trim }

/-- What an own boundary does to the Time Base (R5): count and fraction restart at 0, the epoch number advances by
one modulo 2^48, E_cur takes E, EPO is asserted, and no position of the new epoch is announced yet (R7). -/
def boundary (c : Settings) (tb : TimeBase) : TimeBase :=
  { tb with count := 0, frac := 0, epoch := tb.epoch + 1, eCur := c.epochLen, epo := true,
            openAnnounced := false, closeAnnounced := false, ownStart := true }

/-- An own boundary is due: the date elapsed has reached E_cur (R5). -/
def boundaryDue (tb : TimeBase) : Bool := tb.running && decide (tb.eCur ≤ tb.count)

/-- The opening position is reached and not yet announced (R7). -/
def openingDue (c : Settings) (tb : TimeBase) : Bool :=
  tb.running && !tb.openAnnounced && decide (tb.eCur - c.halfWidth ≤ tb.count)

/-- The close position is reached after an own boundary and not yet announced (R7). -/
def closeDue (c : Settings) (tb : TimeBase) : Bool :=
  tb.running && tb.ownStart && !tb.closeAnnounced && decide (c.halfWidth ≤ tb.count)

/-- The count has reached the half-point and EPO has not fallen yet (R16). -/
def halfDue (tb : TimeBase) : Bool := tb.running && tb.epo && decide (halfPoint tb.eCur ≤ tb.count)

/-- The length a program-length request comes to: limited to E - S to E + S (R6). -/
def limitedLength (c : Settings) (len : Int) : Nat :=
  (clampInt (c.epochLen - c.slew) (c.epochLen + c.slew) len).toNat

/-- Set count below E_cur (R8): count v, fraction 0; the announcements follow the count (R7) and EPO follows (R17). -/
def placeCount (c : Settings) (v : Nat) (tb : TimeBase) : TimeBase :=
  followEpo { tb with count := v, frac := 0,
                      openAnnounced := decide (tb.eCur - c.halfWidth ≤ v),
                      closeAnnounced := tb.ownStart && decide (c.halfWidth ≤ v) }

/-- Renumber (R10): forward only, by the modular distance at width 48. -/
def renumber (n : BitVec 48) (tb : TimeBase) : TimeBase :=
  if 0 < modDist 48 tb.epoch.toNat n.toNat then { tb with epoch := n } else tb

/-- What the settings lock loads (R15). The instant is an epoch start and not an own boundary. -/
def start (c : Settings) (tb : TimeBase) : TimeBase :=
  followEpo { tb with eCur := c.epochLen, epoch := BitVec.ofNat 48 c.startEpoch, trim := 0, phase := 0, count := 0,
                      frac := 0, running := true, openAnnounced := false, closeAnnounced := false,
                      ownStart := false }

/-- The count as it is read: E_cur itself is never read (R5, R12; log 4). -/
def readCount (tb : TimeBase) : Nat := if tb.running then min tb.count (tb.eCur - 1) else tb.count

/-- Local time moves to the next instant at which the tick or the date count takes a new value (R1, R3; log 1,
log 3). The tick is whole again when the phase reaches the rate. At a positive trim some tick holds two new counts,
where R3 says that the count never moves by more than one within a tick: the model follows R3's rate (log 33). -/
def advance (tb : TimeBase) : TimeBase :=
  if tb.running then
    let toTick := rateOf tb.trim - tb.phase
    let toCount := 2 ^ 32 - tb.frac
    let tb1 :=
      if toCount ≤ toTick then { tb with count := tb.count + 1, frac := 0 }
      else { tb with frac := tb.frac + toTick }
    if toTick ≤ toCount then { tb1 with tick := tb.tick + 1, phase := 0 }
    else { tb1 with phase := tb.phase + toCount }
  else { tb with tick := tb.tick + 1 }

/-- Whether that next instant is a whole tick. -/
def advanceTicks (tb : TimeBase) : Bool :=
  !tb.running || decide (rateOf tb.trim - tb.phase ≤ 2 ^ 32 - tb.frac)

end TimeBase

/-- The stamp of this instant (R12). -/
def State.stamp (s : State) : Stamp :=
  ⟨s.now, s.tb.epoch, s.tb.readCount, s.sc.state.quality⟩

end Sys2Proof.Machine
end

