-- ==== Sys2Proof/Machine/Records.lean ====
section
/-!
DEFINITION. A record's size, tick and blocks (R138), and its bytes in host memory (R159 to R161).
-/
namespace Sys2Proof.Machine

/-- `n` bytes of `v`, least significant first (R159). -/
def leBytes : Nat → Nat → List Byte
  | 0, _ => []
  | n + 1, v => BitVec.ofNat 8 v :: leBytes n (v / 256)

/-- A signed value in `n` bytes, two's complement, least significant first (R159). -/
def leSigned (n : Nat) (v : Int) : List Byte := leBytes n (v % 2 ^ (8 * n)).toNat

/-- `v` rounded up to a multiple of 8 (R138). -/
def roundUp8 (v : Nat) : Nat := (v + 7) / 8 * 8

def Classified.size (f : Classified) : Nat := roundUp8 (40 + f.captured.length)

namespace Record

/-- R138 -/
def size : Record → Nat
  | .first f => f.size
  | .shadow f _ _ => f.size
  | .late f _ => f.size
  | .gap .. => 40
  | .reseed .. => 40
  | .line .. => 40
  | .time .. => 40
  | .loss .. => 40

/-- The record tick (R138). -/
def tick : Record → Nat
  | .first f => f.stamp.tick
  | .shadow f _ _ => f.stamp.tick
  | .late f _ => f.stamp.tick
  | .gap _ _ _ _ deadline _ => deadline
  | .reseed _ _ _ tick _ _ => tick
  | .line _ _ _ _ _ stamp => stamp.tick
  | .time _ _ _ _ _ _ _ _ stamp => stamp.tick
  | .loss _ _ lastTick => lastTick

/-- Frame Store blocks the record holds (R87, R131). -/
def blocks : Record → Nat
  | .first f => f.blocks
  | .shadow f _ _ => f.blocks
  | .late f _ => f.blocks
  | .gap .. => 0
  | .reseed .. => 0
  | .line .. => 0
  | .time .. => 0
  | .loss .. => 0

/-- R159, kind codes -/
def kindCode : Record → Nat
  | .first .. => 1 | .shadow .. => 2 | .late .. => 3 | .gap .. => 4 | .reseed .. => 5 | .line .. => 6
  | .time .. => 7 | .loss .. => 8

/-- The bytes of one header, area by area (R159). -/
def header (kind flags stream line size captured tick : Nat) (areaA areaB areaC areaD : List Byte) : List Byte :=
  leBytes 1 kind ++ leBytes 1 flags ++ leBytes 1 stream ++ leBytes 1 line ++ leBytes 2 size ++ leBytes 2 captured
    ++ leBytes 8 tick ++ areaA ++ areaB ++ areaC ++ areaD

/-- The date of a stamp in area A (R160). -/
def dateArea (st : Stamp) : List Byte :=
  leBytes 6 st.epoch.toNat ++ leBytes 3 st.count ++ leBytes 1 st.quality.code

/-- The flags a frame record always carries: degraded, CUT, NO_SEQ and leg (R159). -/
def frameFlags (f : Classified) : Nat :=
  f.degraded.toNat + 2 * f.cut.toNat + 4 * f.noSeq.toNat + 8 * f.legB.toNat

/-- A frame record: header, captured bytes, padding (R159, R160). -/
def frameBytes (kind extraFlags lag : Nat) (f : Classified) : List Byte :=
  header kind (frameFlags f + extraFlags) f.stream.val f.line.val f.size f.captured.length f.stamp.tick
      (dateArea f.stamp) (leBytes 2 f.frameLength) (leBytes 8 (f.seq.getD 0)) (leBytes 4 lag)
    ++ f.captured ++ List.replicate (f.size - (40 + f.captured.length)) 0

/-- The bytes of a record in host memory (R159 to R161). -/
def encode : Record → List Byte
  | .first f => frameBytes 1 0 0 f
  | .shadow f lag winnerB => frameBytes 2 (16 * winnerB.toNat) lag f
  | .late f lag => frameBytes 3 0 lag f
  | .gap stream firstLost count holeSince deadline oneLeg =>
    header 4 (32 * oneLeg.toNat) stream.val 0 40 0 deadline (leBytes 8 holeSince ++ leBytes 2 0) (leBytes 2 0)
      (leBytes 8 firstLost) (leBytes 4 count)
  | .reseed stream oldN number tick ln legB =>
    header 5 (8 * legB.toNat) stream.val ln.val 40 0 tick (leBytes 8 oldN ++ leBytes 2 0) (leBytes 2 0)
      (leBytes 8 number) (leBytes 4 0)
  | .line ln old new reason errors stamp =>
    header 6 0 0 ln.val 40 0 stamp.tick (dateArea stamp) (leBytes 2 0)
      (leBytes 1 old.code ++ leBytes 1 new.code ++ leBytes 1 reason.code ++ leBytes 5 0) (leBytes 4 errors)
  | .time old new reason mutedProfile mutedClash offset peer previous stamp =>
    header 7 0 0 0 40 0 stamp.tick (dateArea stamp) (leSigned 2 offset)
      (leBytes 1 old.code ++ leBytes 1 new.code ++ leBytes 1 reason.code
        ++ leBytes 1 (mutedProfile.toNat + 2 * mutedClash.toNat))
      (leBytes 6 previous.toNat ++ leBytes 1 peer ++ leBytes 1 0)
  | .loss count firstTick lastTick =>
    header 8 0 0 0 40 0 lastTick (leBytes 8 firstTick ++ leBytes 2 0) (leBytes 2 0) (leBytes 8 0) (leBytes 4 count)

end Record

end Sys2Proof.Machine
end

