-- ==== Sys2Proof/Machine/Channels.lean ====
section
/-!
DEFINITION. The Delivery Engine (08) and the attention message (10.4), as operations on the record path: causes,
offers, closures, stalls, the host writer.
-/
namespace Sys2Proof.Machine.Path

/-! ## Host memory under writes in flight (log 13) -/

/-- The bytes under a write of the part that has not completed are not known. -/
def forgetWrite (w : LinkWrite) (m : List Host.Cell) : List Host.Cell := Memory.forget w.addr w.bytes.length m

/-- Writes issued and not completed. -/
def inFlightWrites (p : Path) : List LinkWrite :=
  (match p.writer with
    | .free => []
    | .holding _ _ w => [w]
    | .granted .. => []
    | .abandoned w => [w]) ++ p.att.message.toList

/-- Forget every byte that a write in flight may yet change. -/
def blur (p : Path) : Path := { p with mem := p.inFlightWrites.foldl (fun m w => forgetWrite w m) p.mem }

/-- A write has completed good: its bytes are in host memory from this instant (R147). -/
def land (w : LinkWrite) (p : Path) : Path := blur { p with mem := Memory.write w.addr w.bytes p.mem }

/-! ## Attention (R173, R174) -/

/-- The message goes out on the link: the attention word to the attention address, both from the settings. -/
def issueMessage (e : Env) (p : Path) : Path :=
  blur { p with att := { p.att with message := some ⟨e.cfg.attentionAddr, leBytes 8 e.cfg.attentionWord⟩ } }

/-- The sending condition: armed, and an enabled cause in the set. -/
def sendDue (p : Path) : Bool := p.att.armed && (p.att.causes &&& p.att.enables) != 0

/-- The message is sent at the first instant at which the sending condition holds (R174). -/
def trySend (e : Env) (p : Path) : Path :=
  if p.sendDue then
    let p1 := { p with att := { p.att with armed := false } }
    match p.att.message with
    | none => issueMessage e p1
    | some _ => { p1 with att := { p1.att with waiting := true } }
  else p

/-- A cause enters the cause set (R173). -/
def setCause (e : Env) (c : Cause) (p : Path) : Path :=
  trySend e { p with att := { p.att with causes := p.att.causes ||| c.mask } }

/-- The message in flight completes, good or failed (R174). -/
def messageComplete (e : Env) (good : Bool) (p : Path) : Path :=
  match p.att.message with
  | none => p
  | some w =>
    let p0 := { p with att := { p.att with message := none } }
    let p1 := if good then land w p0 else { p0 with mem := forgetWrite w p0.mem }
    if p.att.waiting then issueMessage e { p1 with att := { p1.att with waiting := false } } else p1

/-! ## Frame Store returns (R86) -/

def returnBlocks (n : Nat) (p : Path) : Path := { p with store := { p.store with free := p.store.free + n } }

/-! ## Offers to a queue (R140, R141) -/

def modChan (c : Chan) (f : Channel → Channel) (p : Path) : Path := { p with chans := updAt p.chans c f }

/-- A refusal enters the loss tally (R141). -/
def tallyRefusal (t : Option Tally) (tick : Nat) : Tally :=
  match t with
  | none => ⟨1, tick, tick⟩
  | some t => ⟨addSat t.count 1, t.first, tick⟩

/-- The record is accepted by the channel's queue as it stands (R140). -/
def accepts (ch : Channel) : Bool :=
  match ch.tally with
  | none => decide (ch.queue.length < Config.queueCapacity)
  | some _ => decide (ch.queue.length + 2 ≤ Config.queueCapacity)

/-- What stands at the tail of the queue after an acceptance: the record, behind a LOSS record when the tally was
not empty (R140, R141). -/
def accepted (ch : Channel) (r : Record) : Channel :=
  match ch.tally with
  | none => { ch with queue := ch.queue ++ [r] }
  | some t => { ch with queue := ch.queue ++ [.loss t.count t.first t.last, r], tally := none }

/-- The channel after a refusal (R140, R141). -/
def refused (ch : Channel) (r : Record) : Channel :=
  { ch with tally := some (tallyRefusal ch.tally r.tick),
            counters := { ch.counters with lost := countUp ch.counters.lost } }

/-- A record is offered to the queue of channel `c` (R140). -/
def offer (e : Env) (c : Chan) (r : Record) (p : Path) : Path :=
  let ch := p.chans[c]
  if accepts ch then modChan c (fun ch => accepted ch r) p
  else
    let p1 := returnBlocks r.blocks (modChan c (fun ch => refused ch r) p)
    if ch.tally.isNone then setCause e .loss p1 else p1

/-! ## Closures (R143) -/

def countClosure (reason : ClosureReason) (k : ChanCounters) : ChanCounters :=
  match reason with
  | .full => { k with full := countUp k.full }
  | .flush => { k with flush := countUp k.flush }
  | .idle => { k with idle := countUp k.idle }
  | .stop => { k with stop := countUp k.stop }
  | .error => { k with error := countUp k.error }

/-- A posted buffer as it becomes current (R142, R143). -/
def freshBuffer (b : PostedBuffer) : CurrentBuffer := { addr := b.addr, len := b.len }

/-- The channel after its current buffer `b` is closed: the entry at the tail of the closed list; the next buffer
becomes current for every reason but ERROR; the idle timer stops (R143). -/
def closedWith (reason : ClosureReason) (b : CurrentBuffer) (ch : Channel) : Channel :=
  { ch with
    closed := ch.closed ++ [⟨b.addr, b.fill, reason, b.records, b.firstTick, b.lastTick⟩],
    current := if reason = .error then none else ch.next.map freshBuffer,
    next := if reason = .error then ch.next else none,
    idleExpiry := none,
    counters := countClosure reason ch.counters }

/-- A closure of the current buffer of channel `c`, made in a free entry of its closed list (R143). -/
def close (e : Env) (c : Chan) (reason : ClosureReason) (p : Path) : Path :=
  match p.chans[c].current with
  | none => p
  | some b => setCause e .closed (modChan c (closedWith reason b) p)

def hasClosedRoom (ch : Channel) : Bool := decide (ch.closed.length < Config.closedCapacity)

/-! ## Requests, stalls and the writer (R146, R148, R155) -/

/-- The channel's own write is in flight. -/
def writing (p : Path) (c : Chan) : Bool :=
  match p.writer with
  | .free => false
  | .holding h _ _ => h == c
  | .granted .. => false
  | .abandoned _ => false

/-- The channel's own write is in flight, or has completed at this instant: the channel is not judged yet (R148, R150;
log 18). -/
def busy (p : Path) (c : Chan) : Bool := p.writing c || p.chans[c].ended

/-- The head record fits in the room left of the current buffer (R146). -/
def fits (r : Record) (b : CurrentBuffer) : Bool := decide (b.fill + r.size ≤ b.len)

/-- The channel requests the host writer (R146). -/
def requests (ch : Channel) : Bool :=
  match ch.state, ch.queue, ch.current, ch.pendingCmd with
  | .run, r :: _, some b, none => fits r b
  | _, _, _, _ => false

/-- Entry into STALLED, or a change of stall reason (R148). -/
def stall (e : Env) (c : Chan) (reason : StallReason) (p : Path) : Path :=
  setCause e .channel (modChan c (fun ch => { ch with state := .stalled reason, idleExpiry := none }) p)

/-- The channel is left with no current buffer and a record to write: it stalls (R148). -/
def stallIfNoBuffer (e : Env) (c : Chan) (p : Path) : Path :=
  if p.chans[c].current.isNone && !p.chans[c].queue.isEmpty then stall e c .noBuffer p else p

/-- A channel in RUN that is not busy is judged: a queued record with no current buffer stalls it,
and a head that does not fit closes the buffer FULL or stalls it (R148). -/
def judge (e : Env) (c : Chan) (p : Path) : Path :=
  let ch := p.chans[c]
  if ch.state = .run ∧ p.busy c = false then
    match ch.queue, ch.current with
    | [], _ => p
    | _ :: _, none => stall e c .noBuffer p
    | r :: _, some b =>
      if fits r b then p
      else if hasClosedRoom ch then stallIfNoBuffer e c (close e c .full p)
      else stall e c .closedFull p
  else p

/-- The write of the head record of `c`, at the current buffer's address plus its fill (R146). -/
def writeOf (ch : Channel) : Option LinkWrite :=
  match ch.queue, ch.current with
  | r :: _, some b => some ⟨b.addr + b.fill, r.encode⟩
  | _, _ => none

/-- The writer issues the write of channel `c` with run count `run` (R146, R155). -/
def issue (c : Chan) (run : Nat) (p : Path) : Path :=
  match writeOf p.chans[c] with
  | some w => blur { p with writer := .holding c run w }
  | none => p

/-- The channel after the FULL closure that R148 asks of it, if any. -/
def rolled (ch : Channel) : Channel :=
  match ch.queue, ch.current with
  | r :: _, some b => if fits r b || !hasClosedRoom ch then ch else closedWith .full b ch
  | _, _ => ch

/-- The channel requests the writer (R146); with R148 still to be judged, as it will when the buffer has rolled over. -/
def wants (ch : Channel) : Bool := requests (if ch.ended then rolled ch else ch)

/-- The lowest-numbered requesting channel of a class, channel `passed` being passed over (R155, R156). -/
def requester (e : Env) (passed : Option Chan) (urgent : Bool) (p : Path) : Option Chan :=
  allChans.find? fun c => wants p.chans[c] && e.cfg.urgent c == urgent && passed != some c

/-- The writer falls to `c` with this run count. Its write is issued at once, or, where a write of it has completed at
this instant, when the instant ends: until then a STOP finds no write in flight (R150, R155; log 18). -/
def give (c : Chan) (run : Nat) (p : Path) : Path :=
  if p.chans[c].ended then { p with writer := .granted c run } else issue c run p

/-- The writer is granted to a requesting URGENT channel before a BULK one, lowest number first (R155 step 2). -/
def grant (e : Env) (passed : Option Chan) (p : Path) : Path :=
  match (requester e passed true p).or (requester e passed false p) with
  | some c => give c 1 p
  | none => p

/-- Channels in RUN are judged at the end of every event that may have given one something to do (R148; log 18). -/
def serve (e : Env) (p : Path) : Path := allChans.foldl (fun p c => judge e c p) p

/-- The writer's choice at a completion of holder `c`, once the writer has been given up (R155). A holder that has
stopped requesting, by a STOP, a FLUSH or a failed write, is passed over (R156). -/
def choose (e : Env) (c : Chan) (run : Nat) (stopped : Bool) (p : Path) : Path :=
  if !stopped && wants p.chans[c] && decide (run < e.cfg.runLength c)
      && (e.cfg.urgent c || (requester e none true p).isNone) then
    give c (run + 1) p
  else grant e (if stopped then some c else none) p

/-- A STOP or FLUSH of a channel that the writer has fallen to, before its write is issued: the choice passes it over,
as it does when the STOP or FLUSH is taken first (R150, R156; log 18). -/
def revoke (e : Env) (c : Chan) (p : Path) : Path :=
  match p.writer with
  | .granted d _ => if d = c then grant e (some c) { p with writer := .free } else p
  | .free => p
  | .holding .. => p
  | .abandoned _ => p

/-- The instant has something left: a channel to judge (R148), a write to issue (R155), or, with the writer free, a
request to grant (R156). -/
def unsettled (p : Path) : Bool :=
  (allChans.any fun c => p.chans[c].ended) ||
    match p.writer with
    | .free => allChans.any fun c => requests p.chans[c]
    | .holding .. => false
    | .granted .. => true
    | .abandoned _ => false

/-- R148 is to be judged on every channel. -/
def endNone (p : Path) : Path := { p with chans := Vector.ofFn fun c : Chan => { p.chans[c] with ended := false } }

/-- R148 is judged on channel `c`, where its completion has left that to the end of the instant: what POST BUFFER and
TAKE CLOSED find (R147, R148; log 18). -/
def judgeEnded (e : Env) (c : Chan) (p : Path) : Path :=
  if p.chans[c].ended then judge e c (modChan c (fun ch => { ch with ended := false }) p) else p

/-- R148 is judged on every channel of which a completion has left that to the end of the instant. -/
def judgeAll (e : Env) (p : Path) : Path := serve e p.endNone

/-- What the completions of the instant have left: the judging, and the write of the channel that the writer has fallen
to (R148, R155; log 18). A channel that no longer requests gives the writer up. -/
def finishAll (e : Env) (p : Path) : Path :=
  let p1 := judgeAll e p
  match p1.writer with
  | .granted c run =>
    let p2 := { p1 with writer := .free }
    if requests p2.chans[c] then issue c run p2 else p2
  | .free => p1
  | .holding .. => p1
  | .abandoned _ => p1

/-- The end of an instant: what its completions have left, and then a free writer is granted among all the channels that
request (R156; log 18). -/
def settle (e : Env) (p : Path) : Path :=
  let p1 := finishAll e p
  match p1.writer with
  | .free => grant e none p1
  | .granted .. => p1
  | .holding .. => p1
  | .abandoned _ => p1

/-! ## STOP and FLUSH taking effect (R150, R151) -/

/-- The current buffer holds at least one record. -/
def holdsRecord (ch : Channel) : Bool :=
  match ch.current with
  | some b => decide (0 < b.records)
  | none => false

/-- STOP takes effect (R150), before R148 where a write of the channel has completed at this instant. -/
def stopNow (e : Env) (c : Chan) (p : Path) : Path :=
  let ch := p.chans[c]
  let p1 := if holdsRecord ch && hasClosedRoom ch then close e c .stop p else p
  modChan c (fun ch => { ch with state := .stopped, pendingCmd := none, idleExpiry := none, ended := false }) p1

/-- FLUSH takes effect (R151), with its result. The judging of a channel in RUN follows in `serve`. -/
def flushNow (e : Env) (c : Chan) (p : Path) : Path × ResultCode :=
  let p0 := modChan c (fun ch => { ch with pendingCmd := none, ended := false }) p
  let ch := p.chans[c]
  if !holdsRecord ch then (p0, .empty)
  else if hasClosedRoom ch then (close e c .flush p0, .done)
  else (p0, .full)

/-- A pending STOP or FLUSH takes effect at the completion it waited for; none pending leaves the result alone. -/
def pendingNow (e : Env) (c : Chan) (p : Path) : Path × Option ResultCode :=
  match p.chans[c].pendingCmd with
  | none => (p, none)
  | some .stop => (stopNow e c p, some .done)
  | some .flush => ((flushNow e c p).1, some (flushNow e c p).2)

/-! ## Idle timer (R152) -/

/-- The expiry of a timer started at `now`, when the interval is set. -/
def idleFrom (cfg : Settings) (c : Chan) (now : Nat) : Option Nat :=
  if cfg.idleTicks c = 0 then none else some (now + cfg.idleTicks c)

/-- On entry to RUN the timer starts when the interval is set and the current buffer holds a record (R145). -/
def startIdle (e : Env) (c : Chan) (p : Path) : Path :=
  modChan c (fun ch => { ch with idleExpiry := if holdsRecord ch then idleFrom e.cfg c e.now else none }) p

/-- The idle timer of `c` has come to its expiry. -/
def idleDue (now : Nat) (ch : Channel) : Bool :=
  match ch.idleExpiry with
  | some x => reached now x
  | none => false

/-- The idle timer expires (R152). -/
def idleExpire (e : Env) (c : Chan) (p : Path) : Path :=
  let ch := p.chans[c]
  if !idleDue e.now ch then p
  else if p.writing c then modChan c (fun ch => { ch with idleExpiry := none }) p
  else if hasClosedRoom ch then serve e (close e c .idle p)
  else modChan c (fun ch => { ch with idleExpiry := ch.idleExpiry.bind (idleFrom e.cfg c) }) p

/-! ## Completions (R147, R153, R156) -/

/-- The buffer after a record of this size and tick has been written into it (R147 step 1). -/
def filled (size tick : Nat) (b : CurrentBuffer) : CurrentBuffer :=
  { b with fill := b.fill + size, records := b.records + 1,
           firstTick := if b.records = 0 then tick else b.firstTick, lastTick := tick }

/-- Steps 1, 2, 3 and 4 of R147 on the channel whose head record `r` has been written. With no STOP or FLUSH pending,
R148 is judged when the instant ends. -/
def wrote (r : Record) (expiry : Option Nat) (ch : Channel) : Channel :=
  { ch with
    current := ch.current.map (filled r.size r.tick),
    queue := ch.queue.tail,
    counters := { ch.counters with written := countUp ch.counters.written, bytes := addSat ch.counters.bytes r.size },
    idleExpiry := expiry,
    ended := ch.pendingCmd.isNone }

/-- The holder's write completes good, in the order of R147; with the result of a pending STOP or FLUSH. -/
def completeGood (e : Env) (p : Path) : Path × Option ResultCode :=
  match p.writer with
  | .free => (p, none)
  | .granted .. => (p, none)
  | .abandoned _ => (p, none)
  | .holding c run w =>
    let p0 := { p with writer := .free }
    match p.chans[c].queue with
    | [] => (serve e p0, none)
    | r :: _ =>
      let p1 := returnBlocks r.blocks (modChan c (wrote r (idleFrom e.cfg c e.now)) (land w p0))
      let q := pendingNow e c p1
      (choose e c run p.chans[c].pendingCmd.isSome (serve e q.1), q.2)

/-- Steps 1 and 4 of R153 on the channel. -/
def failed (ch : Channel) : Channel :=
  { ch with
    queue := ch.queue.tail,
    counters := { ch.counters with lost := countUp ch.counters.lost, writeErrors := countUp ch.counters.writeErrors },
    state := .error, pendingCmd := none, idleExpiry := none, ended := false }

/-- The holder's write completes failed, in the order of R153; with the result that ends a pending command. -/
def completeFailed (e : Env) (p : Path) : Path × Option ResultCode :=
  match p.writer with
  | .free => (p, none)
  | .granted .. => (p, none)
  | .abandoned _ => (p, none)
  | .holding c run w =>
    let ch := p.chans[c]
    let blocks := (ch.queue.head?.map Record.blocks).getD 0
    let p1 := returnBlocks blocks (modChan c failed { p with writer := .free, mem := forgetWrite w p.mem })
    let p2 := if hasClosedRoom ch then close e c .error p1 else modChan c (fun ch => { ch with owed := true }) p1
    let p3 := setCause e .channel p2
    (choose e c run true (serve e p3), if ch.pendingCmd.isSome then some .refusedState else none)

/-- The link completes the abandoned write: it is passed over and the writer becomes free, to be granted with the other
requests of this instant (R156). -/
def completeAbandoned (e : Env) (p : Path) : Path :=
  match p.writer with
  | .free => p
  | .holding .. => p
  | .granted .. => p
  | .abandoned w => serve e { p with writer := .free, mem := forgetWrite w p.mem }

/-! ## Buffers and channel commands (R142, R144, R145, R149, R154) -/

/-- A post that R142 does not refuse with BAD_VALUE. -/
def postValid (addr len : Nat) : Bool :=
  addr % 4096 == 0 && len % 4096 == 0 && Settings.within 4096 4194304 len && decide (addr + len ≤ 2 ^ 64)

/-- A valid post, in the slots as they stand (R142); a current buffer ends a NO_BUFFER stall (R149). -/
def postInto (e : Env) (c : Chan) (addr len : Nat) (p : Path) : Path × ResultCode :=
  let ch := p.chans[c]
  if ch.current.isNone then
    (serve e (modChan c (fun ch =>
      { ch with current := some (freshBuffer ⟨addr, len⟩),
                state := if ch.state = .stalled .noBuffer then .run else ch.state }) p), .done)
  else if ch.next.isNone then (modChan c (fun ch => { ch with next := some ⟨addr, len⟩ }) p, .done)
  else (p, .full)

/-- POST BUFFER (R142), after the judging that a completion of this instant has left (R148; log 18). -/
def post (e : Env) (c : Chan) (addr len : Nat) (p : Path) : Path × ResultCode :=
  if !postValid addr len then (p, .badValue) else postInto e c addr len (judgeEnded e c p)

/-- The closure that waited for a closed-list entry: an owed ERROR closure (R153), or the FULL closure of a channel
STALLED with CLOSED_FULL, which returns to RUN or waits for a buffer (R149). -/
def waitingClosure (e : Env) (c : Chan) (p : Path) : Path :=
  let ch := p.chans[c]
  if ch.owed then modChan c (fun ch => { ch with owed := false }) (close e c .error p)
  else if ch.state = .stalled .closedFull then
    let p1 := close e c .full p
    if p1.chans[c].current.isNone then stall e c .noBuffer p1
    else modChan c (fun ch => { ch with state := .run }) p1
  else p

/-- The oldest entry of the closed list as it stands, when there is one (R144). -/
def takeFrom (e : Env) (c : Chan) (p : Path) : Path × Option ClosedEntry :=
  match p.chans[c].closed with
  | [] => (p, none)
  | x :: _ =>
    (serve e (waitingClosure e c (modChan c (fun ch => { ch with closed := ch.closed.tail }) p)), some x)

/-- TAKE CLOSED (R144), after the judging that a completion of this instant has left (R148; log 18). -/
def take (e : Env) (c : Chan) (p : Path) : Path × Option ClosedEntry := takeFrom e c (judgeEnded e c p)

/-- The next buffer of a channel in ERROR that has no current buffer becomes current at START (R154). -/
def promote (ch : Channel) : Channel :=
  if ch.current.isNone then { ch with current := ch.next.map freshBuffer, next := none } else ch

/-- Entry to RUN: the idle timer starts and the channel is judged at once (R145). -/
def enterRun (e : Env) (c : Chan) (p : Path) : Path :=
  serve e (startIdle e c (modChan c (fun ch => { ch with state := .run, ended := false }) p))

/-- START CHANNEL (R145, R154). -/
def startChan (e : Env) (c : Chan) (p : Path) : Path × ResultCode :=
  match p.chans[c].state with
  | .idle => (enterRun e c p, .done)
  | .stopped => (enterRun e c p, .done)
  | .error => if p.chans[c].owed then (p, .refusedState) else (enterRun e c (modChan c promote p), .done)
  | .run => (p, .refusedState)
  | .stalled _ => (p, .refusedState)

/-- STOP CHANNEL (R150). -/
def stopChan (e : Env) (c : Chan) (p : Path) : Path × ResultCode :=
  let go :=
    if p.writing c then (modChan c (fun ch => { ch with pendingCmd := some .stop }) p, ResultCode.pending)
    else (revoke e c (stopNow e c p), .done)
  match p.chans[c].state with
  | .run => go
  | .stalled _ => go
  | .idle => (p, .refusedState)
  | .stopped => (p, .refusedState)
  | .error => (p, .refusedState)

/-- FLUSH CHANNEL (R151). -/
def flushChan (e : Env) (c : Chan) (p : Path) : Path × ResultCode :=
  let go :=
    if p.writing c then (modChan c (fun ch => { ch with pendingCmd := some .flush }) p, ResultCode.pending)
    else (revoke e c (serve e (flushNow e c p).1), (flushNow e c p).2)
  match p.chans[c].state with
  | .run => go
  | .stalled _ => go
  | .stopped => go
  | .idle => (p, .refusedState)
  | .error => (p, .refusedState)

/-! ## Resets and counters (R157, R158) -/

/-- What capture reset leaves of the channels and the writer (R157): the write in flight is abandoned. A writer with a
write still to be issued does not stand here, since what the completions of the instant have left comes first (R171; log
18). -/
def resetDelivery (p : Path) : Path :=
  { p with
    chans := Vector.replicate 4 {},
    writer := match p.writer with
      | .free => .free
      | .holding _ _ w => .abandoned w
      | .granted .. => .free
      | .abandoned w => .abandoned w }

end Sys2Proof.Machine.Path
end

