-- ==== Sys2Proof/Machine/Arbiter.lean ====
section
/-!
DEFINITION. The Sequence Arbiter (07): windows, naming, gap declaration, line reports.
-/
namespace Sys2Proof.Machine

/-! ## One window (R114, R121 to R128); `bits` is the stream's sequence width in bits -/

namespace SeqWindow

/-- The slot of number `s`. -/
def slotIndex (s : Nat) : Fin 256 := Fin.ofNat 256 s

def slotAt (w : SeqWindow) (s : Nat) : Slot := w.slots[slotIndex s]

def setSlot (s : Nat) (x : Slot) (w : SeqWindow) : SeqWindow :=
  { w with slots := updAt w.slots (slotIndex s) (fun _ => x) }

def isFirst : Slot → Bool
  | .first _ _ => true
  | .unseen => false
  | .lost _ => false
  | .late _ _ => false

/-- The number at distance `d` ahead of N. -/
def ahead (bits : Nat) (w : SeqWindow) (d : Nat) : Nat := (w.n + d) % 2 ^ bits

/-- N moves forward by one: the number N - 128 leaves, and the new N + 127 enters UNSEEN (R114). -/
def stepN (bits : Nat) (w : SeqWindow) : SeqWindow :=
  setSlot (w.ahead bits 128) .unseen { w with n := w.ahead bits 1 }

/-- N keeps moving on by one while the slot at N is FIRST (R122, R128). -/
def runOn (bits : Nat) : Nat → SeqWindow → SeqWindow
  | 0, w => w
  | fuel + 1, w => if isFirst (w.slotAt w.n) then runOn bits fuel (stepN bits w) else w

/-- The distance to the lowest number ahead of N whose slot is FIRST (R128). -/
def firstAhead (bits : Nat) (w : SeqWindow) : Option Nat :=
  ((List.range 127).map (· + 1)).find? fun d => isFirst (w.slotAt (w.ahead bits d))

/-- The deadline follows hole-since and the effective timeout (R127). -/
def followDeadline (w : SeqWindow) : SeqWindow := { w with deadline := w.holeSince.map (· + w.timeout) }

/-- After N stops: a hole is open from `t` when a FIRST slot lies ahead, and else none is (R122, R128). -/
def holeFrom (bits t : Nat) (w : SeqWindow) : SeqWindow :=
  followDeadline { w with holeSince := if (firstAhead bits w).isSome then some t else none }

/-- The window clears and starts at `s` (R121, R125). -/
def seed (bits s : Nat) (legB : Bool) (tick : Nat) (w : SeqWindow) : SeqWindow :=
  { w with tracking := true, n := (s + 1) % 2 ^ bits,
           slots := updAt (Vector.replicate 256 Slot.unseen) (slotIndex s) (fun _ => .first legB tick),
           holeSince := none, deadline := none }

/-- A record with s = N: the window advances (R122). -/
def advance (bits : Nat) (legB : Bool) (tick : Nat) (w : SeqWindow) : SeqWindow :=
  holeFrom bits tick (runOn bits 256 (stepN bits (setSlot w.n (.first legB tick) w)))

/-- A first copy ahead of N: the slot becomes FIRST, and a hole is timed from the first that shows it (R123). -/
def markAhead (s : Nat) (legB : Bool) (tick : Nat) (w : SeqWindow) : SeqWindow :=
  followDeadline { setSlot s (.first legB tick) w with holeSince := some (w.holeSince.getD tick) }

/-- A deadline is passed when the arbiter time is greater than it (R116). -/
def passed (time : Nat) (w : SeqWindow) : Bool :=
  w.tracking && match w.deadline with
    | some d => decide (d < time)
    | none => false

/-- The run of `k` numbers from N become LOST at `d`, N moving past each (R128 steps 2 and 4). -/
def loseRun (bits d : Nat) : Nat → SeqWindow → SeqWindow
  | 0, w => w
  | k + 1, w => loseRun bits d k (stepN bits (setSlot w.n (.lost d) w))

/-- The window after a declaration at deadline `d` of the `count` numbers below the lowest FIRST ahead (R128). -/
def declared (bits d count : Nat) (w : SeqWindow) : SeqWindow :=
  holeFrom bits d (runOn bits 256 (loseRun bits d count w))

end SeqWindow

/-! ## Naming (R120 to R126) -/

/-- What a record means for its stream. -/
inductive Naming where
  | first
  | shadow (lag : Nat) (winnerB : Bool)
  | late (lag : Nat)
  /-- the window was reseeded; the record itself is FIRST (R125) -/
  | reseed (oldN : Nat)
  deriving DecidableEq, Repr

/-- A lag holds at 4,294,967,295 (R126). -/
def lagOf (tick since : Nat) : Nat := min (tick - since) Config.counterMax

/-- The name of a record numbered `s` under its window, and the window after it (R121 to R125). -/
def nameRecord (bits s : Nat) (legB : Bool) (tick : Nat) (w : SeqWindow) : SeqWindow × Naming :=
  if w.tracking then
    let d := modDist bits w.n s
    if d = 0 then (w.advance bits legB tick, .first)
    else if 1 ≤ d ∧ d ≤ 127 then
      match w.slotAt s with
      | .first b t => (w, .shadow (lagOf tick t) b)
      | .unseen => (w.markAhead s legB tick, .first)
      | .lost _ => (w.markAhead s legB tick, .first)
      | .late _ _ => (w.markAhead s legB tick, .first)
    else if -128 ≤ d ∧ d ≤ -1 then
      match w.slotAt s with
      | .first b t => (w, .shadow (lagOf tick t) b)
      | .late b t => (w, .shadow (lagOf tick t) b)
      | .lost t => (w.setSlot s (.late legB tick), .late (lagOf tick t))
      | .unseen => (w.setSlot s (.first legB tick), .first)
    else (w.seed bits s legB tick, .reseed w.n)
  else (w.seed bits s legB tick, .first)

/-! ## Legs (R118) -/

namespace Settings

/-- The line is a leg of the stream: in its line set, and of a PAIRED pair (R118). -/
def isLeg (c : Settings) (e : Stream) (l : Line) : Bool := c.inLineSet e l && c.paired l

/-- A stream with at least one leg is a paired stream (R118). -/
def pairedStream (c : Settings) (e : Stream) : Bool := allLines.any (c.isLeg e)

end Settings

def legsUp (c : Settings) (view : Vector LineState 8) (e : Stream) : Nat :=
  (allLines.filter fun l => c.isLeg e l && (view[l]).isUp).length

/-- A paired stream with fewer than two legs up in the line view (R118, R128). -/
def oneLegged (c : Settings) (view : Vector LineState 8) (e : Stream) : Bool :=
  c.pairedStream e && decide (legsUp c view e < 2)

/-- The effective timeout (R118). -/
def effectiveTimeout (c : Settings) (view : Vector LineState 8) (e : Stream) : Nat :=
  if oneLegged c view e then 0 else c.gapTicks e

namespace Path

def modWindow (st : Stream) (f : SeqWindow → SeqWindow) (p : Path) : Path :=
  { p with arb := { p.arb with windows := updAt p.arb.windows st f } }

def modStream (st : Stream) (f : StreamCounters → StreamCounters) (p : Path) : Path :=
  { p with arb := { p.arb with counters := updAt p.arb.counters st f } }

/-- The arbiter time does not fall (R116). -/
def raiseTime (t : Nat) (p : Path) : Path := { p with arb := { p.arb with time := max p.arb.time t } }

/-! ## Gap declaration (R128, R129) -/

/-- One declaration of a window whose deadline is passed (R128). -/
def declareOnce (e : Env) (st : Stream) (p : Path) : Path :=
  let w := p.arb.windows[st]
  let bits := e.cfg.seqBits st
  match w.deadline, SeqWindow.firstAhead bits w with
  | some d, some count =>
    let p1 := modWindow st (SeqWindow.declared bits d count) p
    let p2 := modStream st (fun k => { k with lost := addSat k.lost count, gaps := countUp k.gaps }) p1
    offer e (e.cfg.channelOf st)
      (.gap st w.n count (w.holeSince.getD 0) d (oneLegged e.cfg p.arb.view st)) p2
  | _, _ => modWindow st (fun w => { w with holeSince := none, deadline := none }) p

/-- Declared again and again until the window's deadline is absent or not passed (R129). Each declaration moves N at
least two numbers on, so 128 times is enough for the 127 numbers ahead. -/
def declareWhile (e : Env) (st : Stream) : Nat → Path → Path
  | 0, p => p
  | fuel + 1, p =>
    if p.arb.windows[st].passed p.arb.time then declareWhile e st fuel (declareOnce e st p) else p

def declareWindow (e : Env) (st : Stream) (p : Path) : Path := declareWhile e st 128 p

/-- The streams whose deadline is passed. -/
def passedStreams (p : Path) : List Stream := allStreams.filter fun st => p.arb.windows[st].passed p.arb.time

/-- Every window whose deadline is passed is declared, one after another in either order (R129; log 5). -/
def declareAll (e : Env) (p : Path) : Path :=
  (freeOrder p.draws p.passedStreams).foldl (fun p st => declareWindow e st p) { p with draws := p.draws + 1 }

/-! ## Taking a released record (R119) -/

/-- Step 3 of R119, with the counters of R136: the named record is offered, or a suppressed SHADOW freed (R126). -/
def handOn (e : Env) (f : Classified) (name : Naming) (p : Path) : Path :=
  let c := e.cfg.channelOf f.stream
  match name with
  | .first => offer e c (.first f) (modStream f.stream (fun k => { k with first := countUp k.first }) p)
  | .shadow lag winnerB =>
    if e.cfg.suppress f.stream then
      returnBlocks f.blocks
        (modStream f.stream (fun k => { k with shadowSuppressed := countUp k.shadowSuppressed }) p)
    else
      offer e c (.shadow f lag winnerB)
        (modStream f.stream (fun k => { k with shadowDelivered := countUp k.shadowDelivered }) p)
  | .late lag => offer e c (.late f lag) (modStream f.stream (fun k => { k with late := countUp k.late }) p)
  | .reseed oldN =>
    let p1 := offer e c (.reseed f.stream oldN (f.seq.getD 0) f.stamp.tick f.line f.legB)
      (modStream f.stream (fun k => { k with reseeds := countUp k.reseeds }) p)
    offer e c (.first f) (modStream f.stream (fun k => { k with first := countUp k.first }) p1)

/-- Step 2 of R119: the record is named under its stream's window; a record without a number is FIRST and touches no
window (R120). -/
def nameAndHandOn (e : Env) (f : Classified) (p : Path) : Path :=
  match f.seq with
  | some s =>
    let out := nameRecord (e.cfg.seqBits f.stream) s f.legB f.stamp.tick p.arb.windows[f.stream]
    handOn e f out.2 (modWindow f.stream (fun _ => out.1) p)
  | none =>
    if f.noSeq then
      offer e (e.cfg.channelOf f.stream) (.first f)
        (modStream f.stream (fun k => { k with noSeq := countUp k.noSeq }) p)
    else handOn e f .first p

/-- The arbiter takes a released record (R119). -/
def takeRecord (e : Env) (f : Classified) (p : Path) : Path :=
  nameAndHandOn e f (declareAll e (raiseTime f.stamp.tick p))

/-! ## Line reports (R117, R129) -/

/-- The streams a report of line `l` concerns: valid, and with the line among their legs. -/
def streamsOfLeg (c : Settings) (l : Line) : List Stream :=
  allStreams.filter fun st => c.valid st && c.isLeg st l

/-- The effective timeout is recomputed, and with it the deadline of an open hole (R118, R127). -/
def retime (c : Settings) (st : Stream) (p : Path) : Path :=
  modWindow st (fun w => SeqWindow.followDeadline { w with timeout := effectiveTimeout c p.arb.view st }) p

/-- The view and the timeouts after a report, before any declaration (R117, R118). -/
def viewReport (c : Settings) (l : Line) (st : LineState) (p : Path) : Path :=
  (streamsOfLeg c l).foldl (fun p x => retime c x p)
    { p with arb := { p.arb with view := p.arb.view.set l st } }

/-- A line state report is taken (R129). -/
def lineReport (e : Env) (l : Line) (st : LineState) (p : Path) : Path :=
  declareAll e (viewReport e.cfg l st p)

/-- The view and the timeouts that the settings lock sets (R117, R118). -/
def lockView (c : Settings) (p : Path) : Path :=
  let view : Vector LineState 8 := Vector.ofFn fun l => if c.enabled l then .down else .off
  (allStreams.filter c.valid).foldl
    (fun p st => modWindow st (fun w => { w with timeout := effectiveTimeout c view st }) p)
    { p with arb := { p.arb with view := view } }

/-- What capture reset leaves of the arbiter (R134): windows UNSEEDED with their timeouts, the time at the present
tick, the counters 0. -/
def resetArbiter (now : Nat) (p : Path) : Path :=
  { p with arb := { p.arb with
      time := now,
      windows := Vector.ofFn fun st => { ({} : SeqWindow) with timeout := (p.arb.windows[st]).timeout },
      counters := Vector.replicate 64 {} } }

end Path

end Sys2Proof.Machine
end

