-- ==== Sys2Proof/Machine/Merge.lean ====
section
/-!
DEFINITION. The Frame Store's grants (R84) and the Date-Ordered Merge (06): order keys, the in-flight table, the
pending set, release and the horizon.
-/
namespace Sys2Proof.Machine

/-! ## Order keys (R101) -/

structure OrderKey where
  tick : Nat
  line : Line
  deriving DecidableEq, Repr

/-- Earlier: the lower tick, and on equal ticks the lower line number (R101). -/
def OrderKey.earlier (a b : OrderKey) : Bool :=
  decide (a.tick < b.tick) || (a.tick == b.tick && decide (a.line < b.line))

def Classified.key (f : Classified) : OrderKey := ⟨f.stamp.tick, f.line⟩

/-- A record enters a list kept in order-key order (R104). -/
def insertPending (f : Classified) : List Classified → List Classified
  | [] => [f]
  | g :: l => if f.key.earlier g.key then f :: g :: l else g :: insertPending f l

namespace Path

/-! ## Grants (R84, R88) -/

/-- A block request with a free block: granted, and the low-water mark lowered to the count after the grant. -/
def grantBlock (p : Path) : Path :=
  { p with store := { free := p.store.free - 1, lowWater := min p.store.lowWater (p.store.free - 1) } }

def hasBlock (p : Path) : Bool := decide (0 < p.store.free)

/-! ## The in-flight table (R102) -/

def enterInFlight (l : Line) (tick : Nat) (p : Path) : Path :=
  { p with merge := { p.merge with inFlight := p.merge.inFlight.set l (some tick) } }

def leaveInFlight (l : Line) (p : Path) : Path :=
  { p with merge := { p.merge with inFlight := p.merge.inFlight.set l none } }

/-- The keys of the frames in flight. -/
def inFlightKeys (p : Path) : List OrderKey :=
  allLines.filterMap fun l => p.merge.inFlight[l].map fun t => ⟨t, l⟩

/-! ## Release (R106) -/

/-- The record is earlier than every frame in flight. -/
def releasable (keys : List OrderKey) (f : Classified) : Bool := keys.all fun k => f.key.earlier k

/-- The release test, repeated (R106): the set is in order-key order, so the records released are its leading ones
that are earlier than every frame in flight. Each is taken by the arbiter before the next. -/
def release (e : Env) (p : Path) : Path :=
  let keys := p.inFlightKeys
  let out := p.merge.pending.takeWhile (releasable keys)
  let p1 := { p with merge := { p.merge with
    pending := p.merge.pending.dropWhile (releasable keys),
    released := addSat p.merge.released out.length } }
  out.foldl (fun p f => takeRecord e f p) p1

/-! ## The release horizon (R109, R110) -/

def horizon (now : Nat) (p : Path) : Nat :=
  ((p.inFlightKeys.map OrderKey.tick) ++ (p.merge.pending.map fun f => f.stamp.tick)).foldl min now

/-- The horizon is offered to the arbiter, which acts on every deadline it passes (R110, R116). -/
def offerHorizon (e : Env) (p : Path) : Path := declareAll e (raiseTime (horizon e.now p) p)

/-- What follows every removal of an in-flight entry: the releases it allows, then the horizon (R107, R110). -/
def releaseAndOffer (e : Env) (p : Path) : Path := offerHorizon e (release e p)

/-! ## Arrival (R104, R105) -/

/-- The classified record enters the pending set. -/
def addPending (f : Classified) (p : Path) : Path :=
  let pend := insertPending f p.merge.pending
  { p with merge := { p.merge with pending := pend, peak := max p.merge.peak pend.length } }

def pendingFull (p : Path) : Bool := decide (Config.pendingCapacity ≤ p.merge.pending.length)

/-- A classified record arrives (R104), or is refused by a full set and its blocks returned (R105). In both cases the
in-flight entry of its line is removed and the release test follows. -/
def arrive (e : Env) (f : Classified) (p : Path) : Path :=
  let p1 := if p.pendingFull then returnBlocks f.blocks p else addPending f p
  releaseAndOffer e (leaveInFlight f.line p1)

/-- A frame ends without a record: its blocks return, its entry is removed, and the releases follow (R77, R79, R80,
R97, R107). -/
def dropFrame (e : Env) (l : Line) (blocks : Nat) (p : Path) : Path :=
  releaseAndOffer e (leaveInFlight l (returnBlocks blocks p))

/-- What capture reset leaves of the store and the merge (R89, R112). -/
def resetStoreAndMerge (p : Path) : Path := { p with store := {}, merge := {} }

end Path

end Sys2Proof.Machine
end

