-- ==== Sys2Proof/Machine/Classifier.lean ====
section
/-!
DEFINITION. The Stream Classifier (05, sections 5.2 to 5.4): the header parse, the match, the sequence and the
snap-length trim. It keeps no state.
-/
namespace Sys2Proof.Machine

/-- What the parse finds: the destination address, the destination port and the start of the UDP payload. -/
structure Headers where
  addr : Nat
  port : Nat
  payload : Nat
  deriving DecidableEq, Repr

/-- Byte `i` of the parse region; a byte outside it fails the parse (R91). -/
def regionByte (region : List Byte) (i : Nat) : Option Nat := region[i]?.map BitVec.toNat

/-- Two bytes from `i`, most significant first. -/
def regionWord (region : List Byte) (i : Nat) : Option Nat :=
  (regionByte region i).bind fun a => (regionByte region (i + 1)).map fun b => a * 256 + b

/-- The parse region: the first P stored bytes, P the smaller of bytes stored and frame length - 4 (R91). -/
def parseRegion (f : PortFrame) : List Byte := f.bytes.take (min f.stored (f.bytes.length - 4))

/-- Where the network header starts, when the type proper is IPv4 (R91). -/
def networkStart (region : List Byte) : Option Nat :=
  match regionWord region 12 with
  | some t =>
    if t = 0x8100 then
      match regionWord region 16 with
      | some t' => if t' = 0x0800 then some 18 else none
      | none => none
    else if t = 0x0800 then some 14
    else none
  | none => none

/-- The IPv4 and UDP headers from byte `n` (R92). Both must lie whole within the region. -/
def parseFrom (region : List Byte) (n : Nat) : Option Headers := do
  let vl ← regionByte region n
  let words := vl % 16
  let frag ← regionWord region (n + 6)
  let proto ← regionByte region (n + 9)
  let hi ← regionWord region (n + 16)
  let lo ← regionWord region (n + 18)
  let u := n + 4 * words
  let port ← regionWord region (u + 2)
  if vl / 16 = 4 ∧ 5 ≤ words ∧ frag.testBit 13 = false ∧ frag % 8192 = 0 ∧ proto = 17 ∧ u + 8 ≤ region.length then
    some ⟨hi * 65536 + lo, port, u + 8⟩
  else none

def parse (region : List Byte) : Option Headers := (networkStart region).bind (parseFrom region)

/-- The key of a parsed frame (R93). -/
def Headers.key (h : Headers) : Nat := h.addr * 65536 + h.port

/-- The base with every bit under a 1 mask bit taken as 0 (R96). -/
def maskedBase (c : Settings) (e : Stream) : Nat :=
  ((BitVec.ofNat 48 (c.base e)) &&& ~~~ (BitVec.ofNat 48 (c.mask e))).toNat

/-- The entry matches: valid, the line in its set, and key and base agree on every compared bit (R96). -/
def entryMatches (c : Settings) (l : Line) (key : Nat) (e : Stream) : Bool :=
  c.valid e && c.inLineSet e l
    && ((BitVec.ofNat 48 key ^^^ BitVec.ofNat 48 (c.base e)) &&& ~~~ (BitVec.ofNat 48 (c.mask e))) == 0

/-- The better of the winner so far and a later entry: the higher masked base; on equal ones the lower number, which
is the one met first (R96). -/
def betterEntry (c : Settings) (best : Option Stream) (e : Stream) : Option Stream :=
  match best with
  | none => some e
  | some b => if maskedBase c b < maskedBase c e then some e else some b

/-- The stream of a key on a line (R96). -/
def matchStream (c : Settings) (l : Line) (key : Nat) : Option Stream :=
  (allStreams.filter (entryMatches c l key)).foldl (betterEntry c) none

/-- A run of bytes as an unsigned number, most significant first. -/
def beNumber (bytes : List Byte) : Nat := bytes.foldl (fun a b => a * 256 + b.toNat) 0

/-- The sequence field of `w` bytes at `start`, when it lies whole within the region (R99). -/
def readSeq (little : Bool) (start w : Nat) (region : List Byte) : Option Nat :=
  if start + w ≤ region.length then
    let field := (region.drop start).take w
    some (beNumber (if little then field.reverse else field))
  else none

/-- The bytes the snap-length trim keeps (R100). -/
def capturedBytes (c : Settings) (e : Stream) (f : PortFrame) : List Byte :=
  f.bytes.take (min f.stored (c.snapLen e))

/-- A good frame of line `l` becomes a classified record, or is unmatched (R90 to R100). -/
def classify (c : Settings) (l : Line) (legB : Bool) (f : PortFrame) : Option Classified :=
  let region := parseRegion f
  match parse region with
  | none => none
  | some h =>
    match matchStream c l h.key with
    | none => none
    | some e =>
      let w := c.seqWidth e
      let seq := if w = 0 then none else readSeq (c.littleEndian e) (h.payload + c.seqOffset e) w region
      let kept := capturedBytes c e f
      some { stamp := f.stamp, line := l, legB := legB, stream := e, seq := seq,
             noSeq := decide (w ≠ 0) && seq.isNone, degraded := f.degraded, cut := f.cut,
             frameLength := f.bytes.length, captured := kept, blocks := blocksFor kept.length }

end Sys2Proof.Machine
end

