-- ==== Sys2Proof/Machine/LinePorts.lean ====
section
/-!
DEFINITION. The Line Ports (04): line states with their records and reports, LOS filtering, and the frame side.
-/
namespace Sys2Proof.Machine

namespace State

/-! ## Plain updates -/

def modPath (f : Env → Path → Path) (s : State) : State := { s with path := f s.env s.path }

def modLine (l : Line) (f : LinePort → LinePort) (s : State) : State := { s with lines := updAt s.lines l f }

/-- Every port changes at once. -/
def mapLines (f : Line → LinePort → LinePort) (s : State) : State :=
  { s with lines := Vector.ofFn fun l => f l s.lines[l] }

def modLineCounters (l : Line) (f : LineCounters → LineCounters) (s : State) : State :=
  modLine l (fun p => { p with counters := f p.counters }) s

/-! ## Line state changes (R69 to R73, R80, R81) -/

/-- The LINE record goes to the event channel and the LINE cause is set (R73). -/
def lineRecord (l : Line) (old new : LineState) (reason : LineReason) (errors : Nat) (st : Stamp) (e : Env)
    (p : Path) : Path :=
  p.offer e e.cfg.eventChannel (.line l old new reason errors st) |>.setCause e .line

/-- The two effects of a change on the record path, the record and the report to the arbiter, with no order between
them (R73): when the report declares a gap the free order decides, and else the order makes no difference. -/
def lineEffects (l : Line) (old new : LineState) (reason : LineReason) (errors : Nat) (st : Stamp) (e : Env)
    (p : Path) : Path :=
  let acts : List (Path → Path) :=
    [lineRecord l old new reason errors st e, Path.lineReport e l new]
  if (Path.viewReport e.cfg l new p).passedStreams.isEmpty then
    Path.lineReport e l new (lineRecord l old new reason errors st e p)
  else (freeOrder p.draws acts).foldl (fun p act => act p) { p with draws := p.draws + 1 }

/-- Line `l` changes to state `new` (R73); `errors` is what the LINE record carries. -/
def changeLine (l : Line) (new : LineState) (reason : LineReason) (errors : Nat) (s : State) : State :=
  let old := s.lines[l].state
  modPath (lineEffects l old new reason errors s.stamp)
    (modLine l (fun p => { p with state := new, settle := none }) s)

/-- The frame in reception when a line goes DOWN: a captured frame is aborted, a skipped one let go (R80). -/
def abortFrame (l : Line) (s : State) : State :=
  match s.lines[l].reception with
  | .idle => s
  | .skipping => modLine l (fun p => { p with reception := .idle }) s
  | .capturing f =>
    modPath (fun e => Path.dropFrame e l f.blocks)
      (modLineCounters l (fun k => { k with aborts := countUp k.aborts })
        (modLine l (fun p => { p with reception := .idle }) s))

/-- A line in SETTLING, UP or DEGRADED goes DOWN: the abort with its releases first, then the change (R70, R81). -/
def goDown (l : Line) (reason : LineReason) (s : State) : State :=
  match s.lines[l].state with
  | .off => s
  | .down => s
  | .settling => changeLine l .down reason 0 (modLine l (fun p => { p with epochErrors := 0 }) (abortFrame l s))
  | .up => changeLine l .down reason 0 (modLine l (fun p => { p with epochErrors := 0 }) (abortFrame l s))
  | .degraded => changeLine l .down reason 0 (modLine l (fun p => { p with epochErrors := 0 }) (abortFrame l s))

/-- A line in DOWN with clear LOS and an aligned receiver moves to SETTLING, or straight to UP when the settle time
is 0 (R69). -/
def trySettle (l : Line) (s : State) : State :=
  let p := s.lines[l]
  if p.state = .down ∧ p.los = false ∧ p.aligned = true then
    if s.settings.settleTicks = 0 then changeLine l .up .settled 0 s
    else modLine l (fun p => { p with settle := some s.now }) (changeLine l .settling .signal 0 s)
  else s

/-- The settle timer of a line in SETTLING has run for the settle time (R69). -/
def settleDue (l : Line) (s : State) : Bool :=
  match s.lines[l].state, s.lines[l].settle with
  | .settling, some t => decide (s.settings.settleTicks ≤ ticksSince s.now t)
  | _, _ => false

/-! ## LOS filtering (R66, R67) -/

/-- The qualified LOS after a sample of raw level `raw` (R66). -/
def qualify (raw : Bool) (p : LinePort) : Bool :=
  if raw ≠ p.los ∧ p.history = some raw then raw else p.los

/-- The LOS assertions counter adds one when the qualified LOS goes from clear to asserted (R67). -/
def countAssertion (asserts : Bool) (k : LineCounters) : LineCounters :=
  if asserts then { k with losAssertions := countUp k.losAssertions } else k

/-- The filter of one enabled port takes a sample: qualified LOS, history and the LOS assertions counter. -/
def sampleLos (raw : Bool) (p : LinePort) : LinePort :=
  if p.state = .off then p
  else
    { p with
      los := qualify raw p,
      history := some raw,
      counters := countAssertion (qualify raw p && !p.los) p.counters }

/-- What a change of the qualified LOS of line `l` does to its state (R69, R70). -/
def losChanged (l : Line) (s : State) : State :=
  if s.lines[l].los then goDown l .los s else trySettle l s

/-- The sample point has come (R66). -/
def losDue (s : State) : Bool :=
  match s.losPhase with
  | some k => k == s.settings.losPeriod
  | none => false

/-- One sample point of all eight ports (R66). The ports whose qualified LOS changes act one after another in either
order (log 5). -/
def losSample (levels : BitVec 8) (s : State) : State :=
  let changed := allLines.filter fun l => qualify (levels.getLsbD l.val) s.lines[l] != s.lines[l].los
      && s.lines[l].state != .off
  let s1 := mapLines (fun l => sampleLos (levels.getLsbD l.val)) { s with losPhase := some 0 }
  let s2 := { s1 with path := { s1.path with draws := s1.path.draws + 1 } }
  (freeOrder s.path.draws changed).foldl (fun s l => losChanged l s) s2

/-! ## Code errors (R71, R72) -/

def codeErrorAt (l : Line) (s : State) : State :=
  if s.lines[l].state = .off then s
  else
    modLine l (fun p =>
      { p with counters := { p.counters with codeErrors := countUp p.counters.codeErrors },
               epochErrors := if p.state.isUp then min (p.epochErrors + 1) 65535 else p.epochErrors }) s

/-- The state the code-error test of a boundary moves a line to (R72). -/
def errorVerdict (limit : Nat) (p : LinePort) : Option (LineState × LineReason) :=
  match p.state with
  | .up => if limit < p.epochErrors then some (.degraded, .errors) else none
  | .degraded => if p.epochErrors ≤ limit then some (.up, .clean) else none
  | .off => none
  | .down => none
  | .settling => none

/-- The code-error test of line `l` at an own boundary (R72). -/
def errorTest (l : Line) (s : State) : State :=
  match errorVerdict (s.settings.errorLimit l) s.lines[l] with
  | some (new, reason) => changeLine l new reason s.lines[l].epochErrors s
  | none => s

/-- The epoch code errors become 0 on every enabled line (R72). -/
def clearEpochErrors (s : State) : State :=
  mapLines (fun _ p => if p.state = .off then p else { p with epochErrors := 0 }) s

/-! ## Frames (R74 to R80) -/

/-- The frame record of a frame that has been granted its first block (R75). -/
def newFrame (st : Stamp) (degraded : Bool) : PortFrame :=
  { stamp := st, blocks := 1, bytes := [], stored := 0, degraded := degraded, cut := false }

/-- A frame start (R74, R75). -/
def frameStartAt (l : Line) (s : State) : State :=
  let p := s.lines[l]
  let skip := modLine l (fun p => { p with reception := .skipping })
  match p.reception with
  | .capturing _ => s
  | .skipping => s
  | .idle =>
    match p.state with
    | .off => s
    | .down => skip (modLineCounters l (fun k => { k with ignored := countUp k.ignored }) s)
    | .settling => skip (modLineCounters l (fun k => { k with ignored := countUp k.ignored }) s)
    | .up | .degraded =>
      if s.path.hasBlock then
        modPath (fun e p => Path.enterInFlight l e.now (Path.grantBlock p))
          (modLine l (fun q => { q with reception := .capturing (newFrame s.stamp (q.state == .degraded)) }) s)
      else skip (modLineCounters l (fun k => { k with storeFull := countUp k.storeFull }) s)

def setFrame (l : Line) (f : PortFrame) (s : State) : State :=
  modLine l (fun p => { p with reception := .capturing f }) s

/-- The frame passes its ceiling: it is ended as OVERSIZE (R77). -/
def endOversize (l : Line) (f : PortFrame) (s : State) : State :=
  modPath (fun e => Path.dropFrame e l f.blocks)
    (modLineCounters l (fun k => { k with oversize := countUp k.oversize })
      (modLine l (fun p => { p with reception := .skipping }) s))

/-- The byte is to be stored, and no block held has room for it: a further block is asked for (R76). -/
def needsBlock (cap : Nat) (f : PortFrame) : Bool :=
  !f.cut && decide (f.stored < cap) && decide (Config.blockBytes * f.blocks ≤ f.stored)

/-- Byte `b` of frame `f` is received, and stored when it is below the capture length, the frame is not CUT and a
block has room or is granted (R76). -/
def storeByte (l : Line) (f : PortFrame) (b : Byte) (s : State) : State :=
  let f1 := { f with bytes := f.bytes ++ [b] }
  if f.cut || decide (s.settings.captureLen l ≤ f.stored) then setFrame l f1 s
  else if needsBlock (s.settings.captureLen l) f then
    if s.path.hasBlock then
      setFrame l { f1 with blocks := f.blocks + 1, stored := f.stored + 1 } (modPath (fun _ => Path.grantBlock) s)
    else
      modLineCounters l (fun k => { k with cut := countUp k.cut }) (setFrame l { f1 with cut := true } s)
  else setFrame l { f1 with stored := f.stored + 1 } s

/-- One byte arrives in CAPTURING (R76, R77). At a byte that passes the ceiling and also asks for a block, a free
value says which comes first (log 9). -/
def takeByte (l : Line) (f : PortFrame) (b : Byte) (s : State) : State :=
  if s.settings.ceiling l < f.bytes.length + 1 then
    if needsBlock (s.settings.captureLen l) f && !Config.oversizeFirst s.path.draws then
      let s1 := storeByte l f b { s with path := { s.path with draws := s.path.draws + 1 } }
      match s1.lines[l].reception with
      | .capturing f1 => endOversize l f1 s1
      | .idle => s1
      | .skipping => s1
    else endOversize l f s
  else storeByte l f b s

/-- The bytes delivered on line `l`, in order; outside CAPTURING they are let pass. -/
def feed (l : Line) : List Byte → State → State
  | [], s => s
  | b :: bs, s =>
    match s.lines[l].reception with
    | .capturing f => feed l bs (takeByte l f b s)
    | .idle => s
    | .skipping => s

/-- A good frame goes to the classifier (R79, R90): a matched one arrives at the merge with what the trim leaves it,
an unmatched one is discarded (R97). -/
def goodFrame (l : Line) (f : PortFrame) (s : State) : State :=
  let s1 := modLineCounters l (fun k => { k with captured := countUp k.captured }) s
  match classify s.settings l s.lines[l].legB f with
  | some r =>
    let s2 := modPath (fun _ => Path.returnBlocks (f.blocks - r.blocks)) s1
    let s3 := if s2.path.pendingFull then
      modLineCounters l (fun k => { k with mergeFull := countUp k.mergeFull }) s2 else s2
    modPath (fun e => Path.arrive e r) s3
  | none =>
    modPath (fun e => Path.dropFrame e l f.blocks)
      (modLineCounters l (fun k => { k with unmatched := countUp k.unmatched }) s1)

/-- The frame end, judged in the order of R79; `clean` is no error indication from the receiver (R78). -/
def frameEndAt (l : Line) (clean : Bool) (s : State) : State :=
  let idle := modLine l (fun p => { p with reception := .idle }) s
  match s.lines[l].reception with
  | .idle => s
  | .skipping => idle
  | .capturing f =>
    if f.bytes.length < 64 then
      modPath (fun e => Path.dropFrame e l f.blocks)
        (modLineCounters l (fun k => { k with runts := countUp k.runts }) idle)
    else if !clean || !fcsPasses f.bytes then
      modPath (fun e => Path.dropFrame e l f.blocks)
        (modLineCounters l (fun k => { k with fcsErrors := countUp k.fcsErrors }) idle)
    else goodFrame l f idle

/-- Capture reset at one port (R82): a captured frame is abandoned and skipped to its end; the counters clear. -/
def resetPort (p : LinePort) : LinePort :=
  { p with counters := {},
           reception := match p.reception with
             | .capturing _ => .skipping
             | .skipping => .skipping
             | .idle => .idle }

end State

end Sys2Proof.Machine
end

