-- ==== Sys2Proof/Machine/Scale.lean ====
section
/-!
DEFINITION. The level of the mark line and the release of the own drive (R18, R20), and the Scale Controller (03):
state changes with their TIME records, entries to ALIGN and HELD, muting, and the Peer Roster.
-/
namespace Sys2Proof.Machine

namespace CageBus

/-- The mark line as the port reads it: asserted while at least one station pulls it, this one included (R18). -/
def markLine (b : CageBus) : Bool := b.cagePull || (b.drive.isSome && !b.pullFails)

/-- The first fall after r is f and the fall reference (R24). -/
def fallInWindow (now : Nat) (b : CageBus) : CageBus :=
  match b.window with
  | some w =>
    if w.r.isSome && w.f.isNone then
      { b with window := some { w with f := some now }, fallRef := some ⟨now, .window⟩ }
    else b
  | none => b

/-- The mark line has come to read released: released since close is yes (R25), and an open window takes the fall
(R24). -/
def lineFell (now : Nat) (b : CageBus) : CageBus := fallInWindow now { b with releasedSinceClose := true }

/-- The mark drive is released, and the line falls with it unless another station pulls (R18, R19, R20). There is no
pulse watch to take the fall while a drive is asserted (R28; log 34). A release at the very instant of the expiry leaves
a station that does not drive there (R19; log 38). -/
def releaseDrive (now : Nat) (b : CageBus) : CageBus :=
  match b.drive with
  | some _ =>
    let b1 := { b with drive := none, asserting := none, pullFails := b.pullFails && b.asserting.isSome }
    if b.markLine && !b1.markLine then lineFell now b1 else b1
  | none => b

end CageBus

namespace ScaleController

/-- Muted while at least one reason is held (R56). -/
def muted (sc : ScaleController) : Bool := sc.mutedProfile || sc.mutedClash

/-- The driving condition of R19. -/
def mayDrive (sc : ScaleController) : Bool := (sc.state == .align || sc.state == .locked) && !sc.muted

/-- ALIGN or LOCKED. -/
def inScale (sc : ScaleController) : Bool := sc.state == .align || sc.state == .locked

/-- ALIGN, LOCKED or HELD: windows open and notices go out (R22, R32). -/
def inCage (sc : ScaleController) : Bool := sc.inScale || sc.state == .held

/-- Good count, void count and no-mark run at 0 (R43, R44, R50, R52). -/
def clearRuns (sc : ScaleController) : ScaleController := { sc with good := 0, voids := 0, noMarkRun := 0 }

end ScaleController

namespace State

/-! ## TIME records (R58) -/

/-- A TIME record with the present stamp, muting and last offset goes to the event channel, and the TIME cause is
set (R58). -/
def emitTime (old new : ScaleState) (reason : TimeReason) (peer : Nat) (previous : BitVec 48) (s : State) : State :=
  modPath (fun e p =>
    (p.offer e e.cfg.eventChannel
      (.time old new reason s.sc.mutedProfile s.sc.mutedClash s.bus.lastOffset peer previous s.stamp)).setCause
        e .time) s

/-- The mark drive is released (R19, R20). -/
def releaseDrive (s : State) : State := { s with bus := s.bus.releaseDrive s.now }

/-- A mark drive is released at once when the driving condition ends (R20). -/
def dropDrive (s : State) : State := if s.sc.mayDrive then s else releaseDrive s

/-- The Scale Controller moves to `new` with a TIME record (R58). -/
def moveTo (new : ScaleState) (reason : TimeReason) (peer : Nat) (previous : BitVec 48) (s : State) : State :=
  emitTime s.sc.state new reason peer previous (dropDrive { s with sc := { s.sc with state := new } })

/-- What leaving LISTEN does to the port: released since close is taken from the line level (R25), and the watch is
discarded (R28). -/
def leaveListen (s : State) : State :=
  { s with bus := { s.bus with releasedSinceClose := !s.bus.markLine, watch := .off } }

/-- Founding: to ALIGN with the epoch number held (R44). -/
def found (s : State) : State :=
  moveTo .align .founded 0 0 (leaveListen { s with sc := s.sc.clearRuns })

/-- Adoption: the notice's epoch number is set, then to ALIGN (R43, R9). -/
def adopt (peer : Station) (n : BitVec 48) (s : State) : State :=
  moveTo .align .adopted peer.val s.tb.epoch
    (leaveListen { s with sc := s.sc.clearRuns, tb := { s.tb with epoch := n } })

/-- Entry into HELD (R50). -/
def enterHeld (reason : TimeReason) (s : State) : State :=
  moveTo .held reason 0 0
    { s with sc := { s.sc.clearRuns with measuredHeld := false },
             cage := { s.cage with heldEntries := countUp s.cage.heldEntries } }

/-- The Scale Controller takes a DRIVE FAULT report (R50): from ALIGN or LOCKED to HELD, and nothing elsewhere. -/
def takeDriveFault (s : State) : State := if s.sc.inScale then enterHeld .driveFault s else s

/-- A renumbering (R53): the Time Base takes the number (R10), EPOCH CLASH is counted, RENUMBERED is emitted. -/
def renumberTo (peer : Station) (n : BitVec 48) (s : State) : State :=
  emitTime s.sc.state s.sc.state .renumbered peer.val s.tb.epoch
    { s with tb := s.tb.renumber n, cage := { s.cage with epochClash := countUp s.cage.epochClash } }

/-! ## Muting (R54, R55) -/

/-- A change of the muted reasons is recorded, and a drive of a station that became muted is released (R54, R20). -/
def afterMuting (added : Bool) (s : State) : State :=
  emitTime s.sc.state s.sc.state (if added then .muted else .unmuted) 0 0 (dropDrive s)

/-- Present entries with the given profile match (R54, R61). -/
def presentWith (m : Bool) (s : State) : Nat :=
  (allStations.filter fun j => (s.roster[j]).present && (s.roster[j]).profileMatch == m).length

/-- Present entries of the roster (R31, R62). -/
def peersPresent (s : State) : Nat := (allStations.filter fun j => (s.roster[j]).present).length

/-- The PROFILE test (R54). -/
def profileTest (s : State) : State :=
  let outvoted := decide (s.presentWith true + 1 < s.presentWith false)
  if outvoted == s.sc.mutedProfile then s
  else afterMuting outvoted { s with sc := { s.sc with mutedProfile := outvoted } }

/-- The clash count test, first of the boundary work (R55). -/
def clashTest (s : State) : State :=
  { s with sc := { s.sc with clashCount := if s.sc.clashThisEpoch then s.sc.clashCount else 0,
                             clashThisEpoch := false } }

/-- The Scale Controller takes a SLOT CLASH report (R55). -/
def takeClash (s : State) : State :=
  let n := min (s.sc.clashCount + 1) 3
  let s1 := { s with sc := { s.sc with clashThisEpoch := true, clashCount := n } }
  if n = 3 ∧ s.sc.mutedClash = false then afterMuting true { s1 with sc := { s1.sc with mutedClash := true } }
  else s1

/-! ## Peer Roster (R60, R61) -/

def modEntry (j : Station) (f : RosterEntry → RosterEntry) (s : State) : State :=
  { s with roster := updAt s.roster j f }

/-- The PEER cause (R62). -/
def peerCause (s : State) : State := modPath (fun e => Path.setCause e .peer) s

/-- One entry at an own boundary (R61): its silence count, and whether it goes absent. -/
def ageEntry (limit : Nat) (x : RosterEntry) : RosterEntry :=
  if x.present && !x.heard then
    { x with heard := false, silence := min (x.silence + 1) 255,
             present := decide (min (x.silence + 1) 255 < limit) }
  else { x with heard := false }

/-- Silence accounting of one entry, with the PEER cause when it goes absent (R61, R62). -/
def ageStation (j : Station) (s : State) : State :=
  let x := s.roster[j]
  let s1 := modEntry j (ageEntry s.settings.silenceLimit) s
  if x.present && !(ageEntry s.settings.silenceLimit x).present then peerCause s1 else s1

def silenceAccounting (s : State) : State := allStations.foldl (fun s j => ageStation j s) s

/-- What a valid notice says (R31, R162). -/
structure NoticeContent where
  station : Station
  state : ScaleState
  muted : Bool
  epoch : BitVec 48
  offset : Int
  profile : BitVec 16
  linesUp : BitVec 8
  peersHeard : Nat
  deriving DecidableEq, Repr

/-- The entry of the sender after a valid notice (R60). -/
def heardEntry (code : BitVec 16) (n : NoticeContent) (_ : RosterEntry) : RosterEntry :=
  { present := true, heard := true, lastState := n.state, muted := n.muted, epoch := n.epoch, offset := n.offset,
    profileMatch := n.profile == code, linesUp := n.linesUp, peersHeard := n.peersHeard, silence := 0 }

/-- The roster takes a valid notice (R60). -/
def rosterTake (n : NoticeContent) (s : State) : State :=
  let s1 := modEntry n.station (heardEntry s.bus.profileCode n) s
  if (s.roster[n.station]).present then s1 else peerCause s1

/-- The Scale Controller takes a valid notice: adoption in LISTEN (R43), renumbering in ALIGN and LOCKED (R53). -/
def scaleTake (n : NoticeContent) (s : State) : State :=
  if n.state = .align ∨ n.state = .locked then
    if s.sc.state = .listen then (if s.sc.phaseSet then adopt n.station n.epoch s else s)
    else if s.sc.inScale ∧ 0 < modDist 48 s.tb.epoch.toNat n.epoch.toNat then renumberTo n.station n.epoch s
    else s
  else s

/-- At the end of an event the Delivery Engine does what the event gave it to do. -/
def served (s : State) : State := modPath Path.serve s

end State

end Sys2Proof.Machine
end

