-- ==== Sys2Proof/Machine/Boundary.lean ====
section
/-!
DEFINITION. The own boundary with the work of every block at it (R5, R19, R41, R52, R54, R55, R61, R72), and the
requests that can cause one (R6, R8).
-/
namespace Sys2Proof.Machine.State

/-- The port at the own expiry: the tick is recorded in an open window (R22). -/
def recordExpiry (s : State) : State :=
  { s with bus := { s.bus with window := s.bus.window.map fun w => { w with expiry := some s.now } } }

/-- A SPLIT is noted and counted once in a window (R27). -/
def noteSplit (s : State) : State :=
  match s.bus.window with
  | some w =>
    if w.split then s
    else { s with bus := { s.bus with window := some { w with split := true } },
                  cage := { s.cage with split := countUp s.cage.split } }
  | none => s

/-- A tick `k` ticks after the fall reference lies in the notice bits of a slot (R27, R30). -/
def inSlotBits (k : Nat) : Bool :=
  decide (Config.slotLead ≤ k ∧ k < Config.noticeArea)
    && decide ((k - Config.slotLead) % Config.slotPitch < Config.noticeTicks)

/-- A rise in an open window: the first is r; after f it may be a SPLIT (R24, R27). -/
def riseInWindow (s : State) : State :=
  match s.bus.window with
  | some w =>
    if w.r.isNone then { s with bus := { s.bus with window := some { w with r := some s.now } } }
    else
      match w.f with
      | some f => if inSlotBits (ticksSince s.now f) then s else noteSplit s
      | none => s
  | none => s

/-- The open window has f (R24). -/
def afterFall (s : State) : Bool :=
  match s.bus.window with
  | some w => w.f.isSome
  | none => false

/-- The mark line is driven from this instant when the driving condition holds (R19). The line rises with it when no
station pulled before and the own pull reaches it (R18, R24). What the drive leaves is taken when the instant ends, so
that a change of the Scale Controller at the same instant is taken too (log 38). -/
def driveAtExpiry (s : State) : State :=
  if s.sc.mayDrive then
    let s1 := { s with bus := { s.bus with drive := some s.now, asserting := some s.afterFall } }
    if !s.bus.markLine && s1.bus.markLine && !s.afterFall then riseInWindow s1 else s1
  else s

/-- The instant of an own expiry ends with the mark line still driven: the hold has begun, with no fault reported (R21),
and a drive after f is a SPLIT, wherever it falls (R27; log 38). -/
def driveStands (s : State) : State :=
  match s.bus.asserting with
  | none => s
  | some after =>
    let s1 := { s with bus := { s.bus with asserting := none, faultReported := false } }
    if after then noteSplit s1 else s1

/-- In LISTEN: the listen count, and a founding at its limit (R41, R44). -/
def listenWork (s : State) : State :=
  let s1 := { s with sc := { s.sc with listen := s.sc.listen + 1 } }
  if s.settings.listenLimit ≤ s1.sc.listen then found s1 else s1

/-- In HELD: the exit test, on the line level at the boundary when unmuted (R29, R52). -/
def heldWork (s : State) : State :=
  if s.sc.muted then
    if s.sc.measuredHeld then moveTo .align .remeasured 0 0 { s with sc := s.sc.clearRuns } else s
  else if s.bus.markLine then s
  else moveTo .align .resumed 0 0 { s with sc := s.sc.clearRuns }

/-- The Scale Controller's work at a boundary after the tests on muting, by its state (R41, R52). -/
def stateWork (s : State) : State :=
  match s.sc.state with
  | .listen => listenWork s
  | .held => heldWork s
  | .quiet => s
  | .align => s
  | .locked => s

/-- The phase-set-this-epoch flag becomes no, after the listen count has been tested (R41). -/
def clearPhaseSet (s : State) : State := { s with sc := { s.sc with phaseSet := false } }

/-- The work of the roster and the Scale Controller at one own boundary, in the order of R54 (R55, R61, R54, R41,
R52), and the drive decision with what it leaves (R19). In QUIET there is none (R57, R59). -/
def scaleWork (s : State) : State :=
  if s.sc.state = .quiet then s
  else driveAtExpiry (clearPhaseSet (stateWork (profileTest (silenceAccounting (clashTest s)))))

/-- The blocks with something to do at a boundary that another block could see: the Scale Controller, and each line
whose state its code-error test changes. The announcement sets no order among them (R5). -/
def boundaryWork (s : State) : List (State → State) :=
  (if s.sc.state = .quiet then [] else [scaleWork])
    ++ (allLines.filter fun l => (errorVerdict (s.settings.errorLimit l) s.lines[l]).isSome).map errorTest

/-- An own boundary (R5): the Time Base first, then the other blocks, each on its own state, in either order. -/
def ownBoundary (s : State) : State :=
  let s1 := recordExpiry { s with tb := s.tb.boundary s.settings }
  let s2 := { s1 with path := { s1.path with draws := s1.path.draws + 1 } }
  clearEpochErrors ((freeOrder s1.path.draws (boundaryWork s1)).foldl (fun s work => work s) s2)

/-- Program length (R6): the limited length applies to the running epoch, which ends at once when the count is
already at it; EPO follows (R17). -/
def programLength (len : Int) (s : State) : State :=
  let n := TimeBase.limitedLength s.settings len
  if n ≤ s.tb.count then ownBoundary { s with tb := { s.tb with eCur := n } }
  else { s with tb := ({ s.tb with eCur := n }).followEpo }

/-- Set count, in LISTEN alone (R8). -/
def setCount (v : Nat) (s : State) : State :=
  if s.sc.state = .listen then
    if s.tb.eCur ≤ v then ownBoundary s else { s with tb := s.tb.placeCount s.settings v }
  else s

/-- The phase set of a complete pulse from `r` to `f` (R42). -/
def phaseSetFrom (pulse : Nat) (s : State) : State :=
  let s1 := setCount ((pulse + s.settings.hold) / 2) s
  { s1 with sc := { s1.sc with phaseSet := true },
            cage := { s1.cage with scaleSteps := countUp s1.cage.scaleSteps } }

/-! ## Steering at window close (R45 to R49) -/

/-- The trim step of an offset, rounded toward zero (R45; log 16). -/
def trimStep (c : Settings) (d : Int) : Int := Int.tdiv (d * 2 ^ 32) (c.epochLen * 2 ^ c.gain)

/-- Program length and set trim for an offset `d` (R45). -/
def steer (d : Int) (s : State) : State :=
  let slew : Int := s.settings.slew
  let s1 := programLength (s.settings.epochLen - clampInt (-slew) slew d) s
  { s1 with tb := s1.tb.setTrim (s.tb.trim + trimStep s.settings d) }

/-- A complete outcome in ALIGN: the good count, and GAINED at C (R46). -/
def countGood (d : Int) (s : State) : State :=
  if d.natAbs ≤ s.settings.threshold then
    let n := min (s.sc.good + 1) 255
    let s1 := { s with sc := { s.sc with good := n } }
    if s.settings.lockCount ≤ n then moveTo .locked .gained 0 0 s1 else s1
  else { s with sc := { s.sc with good := 0 } }

/-- A complete outcome in LOCKED: OFFSET beyond 2T (R47). -/
def testOffset (d : Int) (s : State) : State :=
  if 2 * s.settings.threshold < d.natAbs then moveTo .align .offset 0 0 { s with sc := { s.sc with good := 0 } }
  else s

/-- The Scale Controller takes a complete outcome (R45 to R47, R51). -/
def takeComplete (d : Int) (s : State) : State :=
  let steered := steer d { s with sc := { s.sc with voids := 0, noMarkRun := 0 } }
  match s.sc.state with
  | .align => countGood d steered
  | .locked => testOffset d steered
  | .held => { s with sc := { s.sc with measuredHeld := true } }
  | .quiet => s
  | .listen => s

/-- The Scale Controller takes a void outcome (R48, R49). -/
def takeVoid (noMark : Bool) (s : State) : State :=
  if s.sc.inScale then
    let run := if noMark && s.sc.muted then s.sc.noMarkRun + 1 else 0
    let s1 := { s with sc := { s.sc with good := 0, voids := min (s.sc.voids + 1) 255, noMarkRun := run } }
    if 2 ≤ run then enterHeld .silent s1
    else if s.sc.state = .locked ∧ 2 ≤ s1.sc.voids then moveTo .align .voids 0 0 s1
    else s1
  else s

/-- The Scale Controller takes a STUCK outcome (R50). -/
def takeStuck (s : State) : State := if s.sc.inScale then enterHeld .stuck s else s

end Sys2Proof.Machine.State
end

