-- ==== Sys2Proof/Machine/CageBus.lean ====
section
/-!
DEFINITION. The Cage Bus Port (02): mark windows and their outcomes, edges of the mark line, the drive, the LISTEN
pulse watch, and the notices.
-/
namespace Sys2Proof.Machine

/-! ## Mark windows (R22 to R27) -/

/-- The outcome of a mark window (R26). -/
inductive Outcome where
  | stuck | early | noMark | long
  | complete (d : Int)
  deriving DecidableEq, Repr

namespace MarkWindow

/-- Window time of tick `t`: the own expiry falls at W (R23). -/
def windowTime (halfWidth : Nat) (w : MarkWindow) (t : Nat) : Int :=
  halfWidth + ticksBetween t (w.expiry.getD 0)

/-- The offset of a complete measurement: d = W - floor((r + f - H)/2) (R26). -/
def offset (halfWidth hold : Nat) (w : MarkWindow) (r f : Nat) : Int :=
  halfWidth - (w.windowTime halfWidth r + w.windowTime halfWidth f - hold) / 2

/-- Exactly one outcome, the first of the tests that holds (R26). -/
def outcome (halfWidth hold : Nat) (w : MarkWindow) : Outcome :=
  if w.openAsserted && !w.releasedBefore then .stuck
  else if w.openAsserted then .early
  else
    match w.r, w.f with
    | none, _ => .noMark
    | some _, none => .long
    | some r, some f => .complete (w.offset halfWidth hold r f)

end MarkWindow

/-- One mark or one void by its reason is counted; a STUCK is not (R26, R63). -/
def countOutcome (o : Outcome) (k : CageCounters) : CageCounters :=
  match o with
  | .stuck => k
  | .early => { k with voidEarly := countUp k.voidEarly }
  | .noMark => { k with voidNoMark := countUp k.voidNoMark }
  | .long => { k with voidLong := countUp k.voidLong }
  | .complete _ => { k with marks := countUp k.marks }

/-! ## Notices (R30 to R34, R162) -/

/-- The 101 field bits from station number to peers heard, in the order they are sent (R31). -/
def noticeFields (station : Station) (state : ScaleState) (muted : Bool) (epoch : BitVec 48) (offset : Int)
    (profile : BitVec 16) (linesUp : BitVec 8) (peers : Nat) : BitVec 101 :=
  BitVec.ofNat 4 station.val ++ BitVec.ofNat 3 state.code ++ BitVec.ofBool muted ++ epoch ++ BitVec.ofInt 16 offset
    ++ profile ++ linesUp ++ BitVec.ofNat 5 peers

/-- A whole notice: start, fields, check, stop (R31). -/
def noticeBits (fields : BitVec 101) : BitVec 112 := 0#1 ++ fields ++ noticeCheck fields ++ 3#2

/-- The field of `w` bits from position `a` of a slot's samples (R162: position 0 is the highest bit). -/
def noticeField (samples : BitVec 112) (a w : Nat) : BitVec w := samples.extractLsb' (112 - a - w) w

/-- What the samples of a slot say, when start, check and stop bits match and every field lies in the ranges the part
sends (R34, R162). -/
def readNotice (samples : BitVec 112) : Option State.NoticeContent :=
  let fields : BitVec 101 := noticeField samples 1 101
  let offset := noticeField samples 57 16
  match scaleStateOfCode (noticeField samples 5 3).toNat with
  | some st =>
    if noticeField samples 0 1 = 0#1 ∧ noticeField samples 102 8 = noticeCheck fields ∧ noticeField samples 110 2 = 3#2
        ∧ offset ≠ 0x8000#16 ∧ (noticeField samples 97 5).toNat ≤ 15 then
      some { station := Fin.ofNat 16 (noticeField samples 1 4).toNat, state := st,
             muted := noticeField samples 8 1 == 1#1, epoch := noticeField samples 9 48, offset := offset.toInt,
             profile := noticeField samples 73 16, linesUp := noticeField samples 89 8,
             peersHeard := (noticeField samples 97 5).toNat }
    else none
  | none => none

/-- What this station's pull gives the notice lane in its own slot: the notice it sends, or what it has put there (R18,
R32, R33). -/
def CageBus.ownLane (b : CageBus) : BitVec 112 :=
  match b.transmitter with
  | .sending _ notice _ => notice
  | .idle => b.lane

namespace State

/-! ## Window events -/

/-- A window opens (R22, R30). -/
def openWindow (s : State) : State :=
  { s with bus := { s.bus with
      window := some { openAsserted := s.bus.markLine, releasedBefore := s.bus.releasedSinceClose },
      fallRef := none, noticeSent := false, lane := BitVec.allOnes 112 } }

/-- The window opening is announced, and a window opens in ALIGN, LOCKED or HELD (R7, R22). R30 clears the fall
reference at the next window opening: that an opening announced in LISTEN, at which no window opens, keeps the watch's
is the model's choice (log 37). -/
def windowOpening (s : State) : State :=
  if s.tb.openingDue s.settings then
    let s1 := { s with tb := { s.tb with openAnnounced := true } }
    if s1.sc.inCage then openWindow s1 else s1
  else s

/-- The last offset after an outcome: d, limited (R26). -/
def offsetAfter (o : Outcome) (last : Int) : Int :=
  match o with
  | .complete d => clampInt (-32767) 32767 d
  | .stuck => last
  | .early => last
  | .noMark => last
  | .long => last

/-- The Scale Controller takes the outcome of a window (R45 to R51). -/
def takeOutcome (o : Outcome) (s : State) : State :=
  match o with
  | .stuck => takeStuck s
  | .early => takeVoid false s
  | .noMark => takeVoid true s
  | .long => takeVoid false s
  | .complete d => takeComplete d s

/-- The port's own part of a window close: the record ends, released since close is set from the line, the offset is
kept and the outcome counted (R25, R26). -/
def endWindow (o : Outcome) (s : State) : State :=
  { s with bus := { s.bus with window := none, releasedSinceClose := !s.bus.markLine,
                               lastOffset := offsetAfter o s.bus.lastOffset },
           cage := countOutcome o s.cage }

/-- The window close is announced, and an open window yields exactly one outcome (R7, R26). R25 sets released since
close at each window close: that a close announced with no window open leaves the flag is the model's choice (log 37). -/
def windowClose (s : State) : State :=
  if s.tb.closeDue s.settings then
    let s1 := { s with tb := { s.tb with closeAnnounced := true } }
    match s1.bus.window with
    | some w =>
      let o := w.outcome s.settings.halfWidth s.settings.hold
      served (takeOutcome o (endWindow o s1))
    | none => s1
  else s

/-! ## The drive (R19, R21) -/

/-- The hold has lasted H ticks (R19). -/
def holdDue (s : State) : Bool :=
  match s.bus.drive with
  | some t => decide (s.settings.hold ≤ ticksSince s.now t)
  | none => false

def markHoldEnd (s : State) : State :=
  if s.holdDue then releaseDrive s else s

/-- The present instant lies strictly inside the hold (R21). -/
def insideHold (s : State) : Bool :=
  match s.bus.drive with
  | some t => decide (0 < ticksSince s.now t ∧ ticksSince s.now t < s.settings.hold)
  | none => false

/-- DRIVE FAULT is reported, once in a hold (R21, R50). -/
def driveFault (s : State) : State :=
  if s.bus.faultReported then s else takeDriveFault { s with bus := { s.bus with faultReported := true } }

/-- The line reads released strictly inside the hold, and it has not been reported (R21). -/
def faultDue (s : State) : Bool := s.insideHold && !s.bus.markLine && !s.bus.faultReported

def markDriveFault (s : State) : State := if s.faultDue then served (driveFault s) else s

/-! ## Edges (R24, R25, R27, R28, R42) -/

/-- A rise starts a pulse of an armed watch (R28). -/
def riseInWatch (s : State) : State :=
  match s.bus.watch with
  | .armed => { s with bus := { s.bus with watch := .rose s.now } }
  | .off => s
  | .rose _ => s
  | .ignoring _ => s

/-- The other stations begin to pull; the line rises with it when it read released, and then an open window and an
armed watch take the rise (R18, R24, R28). -/
def markLineRise (s : State) : State :=
  let s1 := { s with bus := { s.bus with cagePull := true } }
  if s.bus.markLine then s1 else riseInWatch (riseInWindow s1)

/-- A fall ends the watch's pulse: the fall reference, the watch ignoring the line, and the phase set (R28, R42). -/
def fallInWatch (s : State) : State :=
  match s.bus.watch with
  | .rose r =>
    phaseSetFrom (ticksSince s.now r)
      { s with bus := { s.bus with
          watch := .ignoring s.now, fallRef := some ⟨s.now, .watch⟩, noticeSent := false, lane := BitVec.allOnes 112 } }
  | .off => s
  | .armed => s
  | .ignoring _ => s

/-- The pull from outside ceases: that of the other stations, or, with none of them pulling, the own pull's way to the
line (R18, R21; log 6). -/
def ceasePull (b : CageBus) : CageBus :=
  if b.cagePull then { b with cagePull := false } else { b with pullFails := true }

/-- A pull ceases; when the line falls with it, the flag and an open window take the fall (R18, R24, R25), a fall inside
the own hold is a DRIVE FAULT (R21), and a watch takes the end of its pulse (R28). -/
def markLineFall (s : State) : State :=
  let s1 := { s with bus := ceasePull s.bus }
  if s.bus.markLine && !s1.bus.markLine then
    let s2 := { s1 with bus := s1.bus.lineFell s1.now }
    let s3 := if s2.insideHold then driveFault s2 else s2
    served (fallInWatch s3)
  else s1

/-- The watch has ignored the line to the end of the notice area (R28). -/
def rearmDue (s : State) : Bool :=
  match s.bus.watch with
  | .ignoring f => decide (Config.noticeArea ≤ ticksSince s.now f)
  | .off => false
  | .armed => false
  | .rose _ => false

def pulseWatchRearm (s : State) : State :=
  if s.rearmDue then { s with bus := { s.bus with watch := .armed } } else s

/-! ## Sending (R31 to R33) -/

/-- One bit per line, 1 when the line is UP or DEGRADED, the bit of L7 first (R31, R162). -/
def linesUp (s : State) : BitVec 8 :=
  BitVec.ofNat 8 (allLines.foldl (fun a l => if (s.lines[l]).state.isUp then a + 2 ^ l.val else a) 0)

/-- The notice of this instant (R31). -/
def noticeNow (s : State) : BitVec 112 :=
  noticeBits (noticeFields s.bus.station s.sc.state s.sc.muted s.tb.epoch s.bus.lastOffset s.bus.profileCode s.linesUp
    s.peersPresent)

/-- The station's slot starts now and the conditions of R32 hold. -/
def sendDue (s : State) : Bool :=
  s.sc.inCage && !s.sc.mutedClash && s.bus.transmitter == .idle && !s.bus.noticeSent
    && match s.bus.fallRef with
      | some f => f.source == .window
          && ticksSince s.now f.tick == Config.slotLead + Config.slotPitch * s.bus.station.val
      | none => false

def noticeBegin (s : State) : State :=
  if s.sendDue then { s with bus := { s.bus with transmitter := .sending s.now s.noticeNow 0 } } else s

/-- What a notice puts on the lane that is abandoned at position `k`: its bits before, and the lane released from there
on (R33). -/
def laneUpTo (notice : BitVec 112) (k : Nat) : BitVec 112 := notice ||| (BitVec.allOnes 112 >>> k)

/-- The notice is abandoned at position `k` and the lane released (R33). -/
def abandonNotice (notice : BitVec 112) (k : Nat) (s : State) : State :=
  { s with bus := { s.bus with transmitter := .idle, lane := laneUpTo notice k } }

/-- The middle of bit `k` of the slot that started at `start` is now (R30). -/
def atBitMiddle (s : State) (start k : Nat) : Bool :=
  ticksSince s.now start == Config.bitTicks * k + Config.bitTicks / 2

/-- This station's pull on the notice lane: an asserted bit of the notice being sent (R18, R30, R32). -/
def pullsLane (s : State) : Bool :=
  match s.bus.transmitter with
  | .idle => false
  | .sending start notice _ =>
    let k := ticksSince s.now start / Config.bitTicks
    decide (k < 112) && !notice.getMsbD k

/-- The read-back of one bit at its middle, with the level read (R33): a released bit read asserted is a SLOT CLASH. The
level read includes the own pull (R18), so an asserted bit read released tells that the pull has no effect, a DRIVE FAULT
(log 6). -/
def noticeSample (released : Bool) (s : State) : State :=
  match s.bus.transmitter with
  | .idle => s
  | .sending start notice bit =>
    let k := ticksSince s.now start / Config.bitTicks
    if atBitMiddle s start k && decide (bit ≤ k ∧ k < 112) then
      if !s.pullsLane && !released then
        served (takeClash
          { abandonNotice notice k s with cage := { s.cage with slotClash := countUp s.cage.slotClash } })
      else if s.pullsLane && released then served (takeDriveFault (abandonNotice notice k s))
      else { s with bus := { s.bus with transmitter := .sending start notice (k + 1) } }
    else s

/-- The notice being sent has come to the end of its 112 bits. -/
def finishDue (s : State) : Bool :=
  match s.bus.transmitter with
  | .idle => false
  | .sending start _ _ => decide (Config.noticeTicks ≤ ticksSince s.now start)

/-- The lane is released at the end of the stop bits, and the notice has been sent (R32, R33). -/
def noticeFinish (s : State) : State :=
  if s.finishDue then
    { s with bus := { s.bus with transmitter := .idle, noticeSent := true, lane := s.bus.ownLane } }
  else s

def noticeSend (act : NoticeAct) (s : State) : State :=
  match act with
  | .begin => noticeBegin s
  | .sample released => noticeSample released s
  | .finish => noticeFinish s

/-! ## Receiving (R34) -/

/-- The slot that `k` ticks after the fall reference lie in, its end included. -/
def slotOf (k : Nat) : Option Station :=
  if Config.slotLead ≤ k ∧ k < Config.noticeArea ∧ (k - Config.slotLead) % Config.slotPitch ≤ Config.noticeTicks then
    some (Fin.ofNat 16 ((k - Config.slotLead) / Config.slotPitch))
  else none

/-- The receiver takes the slot of this instant, in all states other than QUIET (R34). -/
def trackReceiver (s : State) : State :=
  { s with bus := { s.bus with receiver :=
      if s.sc.state = .quiet then none else s.bus.fallRef.bind fun f => slotOf (ticksSince s.now f.tick) } }

/-- The slot the receiver is taking ends now (R34). -/
def slotEnds (s : State) (k : Station) : Bool :=
  s.sc.state != .quiet &&
    match s.bus.fallRef with
    | some f => ticksSince s.now f.tick == Config.slotLead + Config.slotPitch * k.val + Config.noticeTicks
    | none => false

/-- This station sent the notice of this area to its end (R33, R34). -/
def sentToEnd (s : State) : Bool := s.bus.noticeSent || s.finishDue

/-- The samples of slot `k` are classified (R34), and a valid notice is handed to the roster and to the Scale
Controller, which take it with no order between them. -/
def classifySlot (k : Station) (samples : BitVec 112) (s : State) : State :=
  let error := { s with cage := { s.cage with noticeError := countUp s.cage.noticeError } }
  if samples = BitVec.allOnes 112 then s
  else
    match readNotice samples with
    | none => error
    | some n =>
      if n.station ≠ k then error
      else if n.station ≠ s.bus.station then served (scaleTake n (rosterTake n s))
      else if s.sentToEnd then s
      else { s with cage := { s.cage with numberSeen := countUp s.cage.numberSeen } }

/-- The levels of the lane at the samples of slot `k`, of which the other stations' pulls give `others`: a level reads
asserted while at least one station pulls, this one included, and this one pulls in its own slot alone (R18, R32). -/
def slotLevels (k : Station) (others : BitVec 112) (s : State) : BitVec 112 :=
  if k = s.bus.station then others &&& s.bus.ownLane else others

/-- The receiver reads the slot that ends now; `others` is what the other stations put on the lane (R34, R18). -/
def noticeReceive (others : BitVec 112) (s : State) : State :=
  match s.bus.receiver with
  | some k =>
    if s.slotEnds k then classifySlot k (s.slotLevels k others) { s with bus := { s.bus with receiver := none } } else s
  | none => s

/-! ## The notice area ends with QUIET (R28, R30, R32, R34, R37) -/

/-- LEAVE at the port: drive released, window and fall reference discarded, notice and slot abandoned, no watch. -/
def quietBus (s : State) : State :=
  { s with bus := { s.bus.releaseDrive s.now with
      window := none, fallRef := none, transmitter := .idle, noticeSent := false, lane := BitVec.allOnes 112,
      receiver := none, watch := .off } }

/-- JOIN at the port (R37, R40): window record, fall reference and last offset cleared, the watch armed. -/
def joinBus (s : State) : State :=
  { s with bus := { s.bus with window := none, fallRef := none, transmitter := .idle, noticeSent := false,
                               lane := BitVec.allOnes 112, receiver := none, lastOffset := 0, watch := .armed } }

end State

end Sys2Proof.Machine
end

