-- ==== Sys2Proof/Machine/HostCommands.lean ====
section
/-!
DEFINITION. The Control Window (10): taking a command, the effect of each command, settings writes, register writes
and the attention enables. The executions in Machine/Host*.lean call these.
-/
namespace Sys2Proof.Machine.State

/-! ## Results (R169) -/

def setResult (r : ResultCode) (index : Nat) (s : State) : State :=
  { s with ctl := { s.ctl with result := r, resultIndex := index } }

/-- A command is taken unless the result reads PENDING, when the write is dropped (R169). -/
def takeCommand (body : State → State) (s : State) : State := if s.ctl.result = .pending then s else body s

/-- A Delivery Engine command: its effect on the record path, and its result with index 0. -/
def chanCommand (f : Env → Path → Path × ResultCode) (s : State) : State :=
  setResult (f s.env s.path).2 0 { s with path := (f s.env s.path).1 }

/-! ## LOCK SETTINGS (R168) -/

/-- One port at the lock: its pair role, and DOWN when enabled (R65, R68). -/
def lockPort (c : Settings) (l : Line) (p : LinePort) : LinePort :=
  { p with legB := c.paired l && l.val % 2 == 1, state := if c.enabled l then .down else p.state }

/-- Every item has passed: the settings lock and the blocks take them (R168, R15, R36, R65, R66, R68, R117, R118). -/
def lockNow (s : State) : State :=
  let c := s.settings
  let s1 := mapLines (lockPort c) s
  { s1 with
    tb := s1.tb.start c,
    bus := { s1.bus with profileCode := profileCodeOf c.epochLen c.hold c.halfWidth c.slew },
    losPhase := some 0,
    path := s1.path.lockView c,
    ctl := { s1.ctl with locked := true } }

def lockSettings (s : State) : State :=
  if s.ctl.locked then setResult .refusedLock 0 s
  else
    match s.settings.firstBad with
    | some i => setResult .badValue i s
    | none => setResult .done 0 (lockNow s)

/-! ## JOIN CAGE and LEAVE CAGE (R40, R57) -/

/-- The Scale Controller's counts and flags at JOIN (R40). -/
def joinCounts (sc : ScaleController) : ScaleController :=
  { sc.clearRuns with listen := 0, clashCount := 0, clashThisEpoch := false, phaseSet := false, measuredHeld := false }

def joinNow (s : State) : State :=
  moveTo .listen .joined 0 0
    (joinBus { s with sc := joinCounts s.sc, roster := Vector.replicate 16 {} })

def joinCage (s : State) : State :=
  if s.ctl.locked = false then setResult .refusedLock 0 s
  else if s.sc.state ≠ .quiet then setResult .refusedState 0 s
  else setResult .done 0 (served (joinNow s))

def leaveNow (s : State) : State :=
  moveTo .quiet .left 0 0
    (quietBus { s with sc := { s.sc with mutedProfile := false, mutedClash := false } })

def leaveCage (s : State) : State :=
  if s.sc.state = .quiet then setResult .refusedState 0 s
  else setResult .done 0 (served (leaveNow s))

/-! ## CAPTURE RESET and CLEAR COUNTERS (R171, R172) -/

/-- The record path after capture reset (R89, R112, R134, R157). -/
def resetPath (now : Nat) (p : Path) : Path := Path.resetDelivery (Path.resetArbiter now (Path.resetStoreAndMerge p))

/-- What the completions of this instant have left comes first, and the reset acts on that (R147, R155, R171; log 18). -/
def captureNow (s : State) : State :=
  modPath (fun e p => resetPath e.now (Path.finishAll e p)) (mapLines (fun _ => resetPort) s)

def captureReset (s : State) : State :=
  if s.ctl.locked = false then setResult .refusedLock 0 s
  else setResult .done 0 (captureNow s)

/-- The counters of the record path, and the low-water mark (R172). -/
def clearPathCounters (p : Path) : Path :=
  { p with
    store := { p.store with lowWater := p.store.free },
    merge := { p.merge with released := 0, peak := p.merge.pending.length },
    arb := { p.arb with counters := Vector.replicate 64 {} },
    chans := Vector.ofFn fun c : Chan => { p.chans[c] with counters := {} } }

/-- CLEAR COUNTERS (R172), after the judging that a completion of this instant has left (R148; log 18). -/
def clearCounters (s : State) : State :=
  setResult .done 0
    (modPath (fun e p => clearPathCounters (Path.judgeAll e p))
      (mapLines (fun _ p => { p with counters := {} }) { s with cage := {} }))

/-! ## The channel commands (R142, R144, R145, R150, R151) -/

def startChannel (c : Chan) (s : State) : State := chanCommand (fun e => Path.startChan e c) s
def stopChannel (c : Chan) (s : State) : State := chanCommand (fun e => Path.stopChan e c) s
def flushChannel (c : Chan) (s : State) : State := chanCommand (fun e => Path.flushChan e c) s

/-- Address and length are read at the instant the command is taken (R170). -/
def postBuffer (c : Chan) (s : State) : State :=
  chanCommand (fun e => Path.post e c s.ctl.arg0.toNat s.ctl.arg1.toNat) s

/-- The taken registers after an entry of channel `c` is returned (R163, R170). -/
def takenOf (c : Chan) (x : ClosedEntry) : Taken :=
  { addr := x.addr, fill := x.fill, records := x.records, reason := x.reason.code, channel := c.val,
    firstTick := x.firstTick, lastTick := x.lastTick }

def takeClosed (c : Chan) (s : State) : State :=
  let out := Path.take s.env c s.path
  let s1 := { s with path := out.1 }
  match out.2 with
  | some x => setResult .done 0 { s1 with ctl := { s1.ctl with taken := takenOf c x } }
  | none => setResult .empty 0 s1

/-! ## Attention (R174) and unknown codes (R169) -/

def armAttention (s : State) : State :=
  setResult .done 0 (modPath (fun e p => Path.trySend e { p with att := { p.att with armed := true } }) s)

def unknownCommand (s : State) : State := setResult .badValue 0 s

/-- A write replaces the whole enable set, and may send the message (R174). -/
def writeEnables (v : BitVec 64) (s : State) : State :=
  modPath (fun e p => Path.trySend e { p with att := { p.att with enables := v.truncate 6 } }) s

/-! ## Settings writes (R167) -/

def settingsValueWrite (v : BitVec 64) (s : State) : State :=
  if s.ctl.locked then
    (if s.ctl.result = .pending then s else setResult .refusedLock 0 s)
  else { s with settings := s.settings.write s.ctl.settingsIndex.toNat v.toNat }

/-! ## The command register (R164, R169) -/

/-- The command a code names, with the channel number of bits 8 and 9. -/
def commandBody (code : Nat) (c : Chan) : State → State :=
  match code with
  | 1 => lockSettings
  | 2 => joinCage
  | 3 => leaveCage
  | 4 => captureReset
  | 5 => clearCounters
  | 6 => startChannel c
  | 7 => stopChannel c
  | 8 => flushChannel c
  | 9 => postBuffer c
  | 10 => takeClosed c
  | 11 => armAttention
  | _ => unknownCommand

def issueCommand (v : BitVec 64) (s : State) : State :=
  takeCommand (commandBody (v.toNat % 256) (Fin.ofNat 4 (v.toNat / 256))) s

/-! ## Register writes (R163) -/

/-- A write of a whole register: the ones the host can write; any other is dropped. -/
def writeRegister (offset : Nat) (v : BitVec 64) (s : State) : State :=
  match offset with
  | 0x010 => { s with ctl := { s.ctl with settingsIndex := v.truncate 16 } }
  | 0x018 => settingsValueWrite v s
  | 0x020 => issueCommand v s
  | 0x028 => { s with ctl := { s.ctl with arg0 := v } }
  | 0x030 => { s with ctl := { s.ctl with arg1 := v.truncate 32 } }
  | 0x070 => { s with ctl := { s.ctl with counterIndex := v.truncate 16 } }
  | 0x080 => { s with ctl := { s.ctl with rosterSelect := Fin.ofNat 16 v.toNat } }
  | 0x188 => writeEnables v s
  | _ => s

/-- A write access: a whole register at its offset, or dropped (R163). -/
def registerWrite (offset size : Nat) (v : BitVec 64) (s : State) : State :=
  if size = 8 ∧ offset % 8 = 0 then writeRegister offset v s else s

end Sys2Proof.Machine.State
end

