-- ==== Sys2Proof/Machine/WindowReads.lean ====
section
/-!
DEFINITION. What a read of the control window returns (R163, R164, R166, R167, R172), and the one read that changes
something, that of the attention causes (R173).
-/
namespace Sys2Proof.Machine

/-- Fields of a register, each at its lowest bit: their sum. R163 does not say what the bits of a register read that no
field occupies; the model's choice is 0 (log 35). -/
def fieldsAt (l : List (Nat × Nat)) : Nat := (l.map fun p => p.2 * 2 ^ p.1).sum

/-! ## Counters by index (R166) -/

def CageCounters.nth (k : CageCounters) : Nat → Nat
  | 0 => k.marks | 1 => k.voidEarly | 2 => k.voidNoMark | 3 => k.voidLong | 4 => k.split | 5 => k.slotClash
  | 6 => k.noticeError | 7 => k.numberSeen | 8 => k.epochClash | 9 => k.scaleSteps | 10 => k.heldEntries | _ => 0

def LineCounters.nth (k : LineCounters) : Nat → Nat
  | 0 => k.captured | 1 => k.ignored | 2 => k.storeFull | 3 => k.cut | 4 => k.fcsErrors | 5 => k.runts
  | 6 => k.oversize | 7 => k.aborts | 8 => k.unmatched | 9 => k.mergeFull | 10 => k.codeErrors
  | 11 => k.losAssertions | _ => 0

def StreamCounters.nth (k : StreamCounters) : Nat → Nat
  | 0 => k.first | 1 => k.shadowDelivered | 2 => k.shadowSuppressed | 3 => k.late | 4 => k.lost | 5 => k.gaps
  | 6 => k.reseeds | 7 => k.noSeq | _ => 0

def ChanCounters.nth (k : ChanCounters) : Nat → Nat
  | 0 => k.written | 1 => k.bytes | 2 => k.lost | 3 => k.full | 4 => k.flush | 5 => k.idle | 6 => k.stop
  | 7 => k.error | 8 => k.writeErrors | _ => 0

namespace State

/-- The counter an index names, 0 for an index that names none (R166). -/
def counter (i : Nat) (s : State) : Nat :=
  if i < 16 then s.cage.nth i
  else if i < 144 then ((s.lines[(Fin.ofNat 8 ((i - 16) / 16) : Line)]).counters).nth ((i - 16) % 16)
  else if i = 144 then s.path.merge.released
  else if i = 145 then s.path.merge.peak
  else if i < 256 then 0
  else if i < 768 then (s.path.arb.counters[(Fin.ofNat 64 ((i - 256) / 8) : Stream)]).nth ((i - 256) % 8)
  else if i < 832 then ((s.path.chans[(Fin.ofNat 4 ((i - 768) / 16) : Chan)]).counters).nth ((i - 768) % 16)
  else 0

/-! ## Registers (R163, R164) -/

def rosterRegister (s : State) : Nat :=
  let x := s.roster[s.ctl.rosterSelect]
  fieldsAt [(0, x.present.toNat), (1, x.heard.toNat), (4, x.lastState.code), (7, x.muted.toNat),
    (8, x.profileMatch.toNat), (16, x.linesUp.toNat), (24, x.peersHeard), (32, x.silence)]

def scaleRegister (s : State) : Nat :=
  fieldsAt [(0, s.sc.state.code), (4, s.sc.mutedProfile.toNat), (5, s.sc.mutedClash.toNat), (8, s.sc.good),
    (16, s.sc.listen)]

def linesRegister (s : State) : Nat := fieldsAt (allLines.map fun l => (4 * l.val, (s.lines[l]).state.code))

def writerRegister (s : State) : Nat :=
  match s.path.writer with
  | .free => 0
  | .holding .. => 0
  | .granted .. => 0
  | .abandoned _ => 1

def statusRegister (c : Chan) (s : State) : Nat :=
  let ch := s.path.chans[c]
  fieldsAt [(0, ch.state.code), (4, ch.state.stallCode), (6, ChanCommand.code ch.pendingCmd),
    (8, ch.current.isSome.toNat), (9, ch.next.isSome.toNat), (10, ch.owed.toNat), (11, (s.path.writing c).toNat),
    (16, ch.queue.length), (28, ch.closed.length), (32, (ch.current.map CurrentBuffer.fill).getD 0)]

/-- The four registers of channel `c` (R163). -/
def chanRegister (c : Chan) (k : Nat) (s : State) : Nat :=
  let t := s.path.chans[c].tally
  match k with
  | 0 => statusRegister c s
  | 1 => (t.map Tally.count).getD 0
  | 2 => (t.map Tally.first).getD 0
  | _ => (t.map Tally.last).getD 0

/-- The register at `offset`, 0 where there is none or where it is write-only (R163). -/
def register (offset : Nat) (s : State) : Nat :=
  if 0x100 ≤ offset ∧ offset < 0x180 then
    chanRegister (Fin.ofNat 4 ((offset - 0x100) / 0x20)) ((offset - 0x100) % 0x20 / 8) s
  else
    match offset with
    | 0x000 => fieldsAt [(0, 0x4C44), (16, 0x0330), (32, 1), (40, s.bus.station.val)]
    | 0x008 => fieldsAt [(0, s.ctl.locked.toNat), (16, s.bus.profileCode.toNat)]
    | 0x010 => s.ctl.settingsIndex.toNat
    | 0x018 => s.settings.item s.ctl.settingsIndex.toNat
    | 0x028 => s.ctl.arg0.toNat
    | 0x030 => s.ctl.arg1.toNat
    | 0x038 => fieldsAt [(0, s.ctl.result.code), (16, s.ctl.resultIndex)]
    | 0x040 => s.ctl.taken.addr
    | 0x048 => fieldsAt [(0, s.ctl.taken.fill), (32, s.ctl.taken.records)]
    | 0x050 => fieldsAt [(0, s.ctl.taken.reason), (8, s.ctl.taken.channel)]
    | 0x058 => s.ctl.taken.firstTick
    | 0x060 => s.ctl.taken.lastTick
    | 0x070 => s.ctl.counterIndex.toNat
    | 0x078 => s.counter s.ctl.counterIndex.toNat
    | 0x080 => s.ctl.rosterSelect.val
    | 0x088 => s.rosterRegister
    | 0x090 => (s.roster[s.ctl.rosterSelect]).epoch.toNat
    | 0x098 => ((s.roster[s.ctl.rosterSelect]).offset % 2 ^ 16).toNat
    | 0x0A0 => s.scaleRegister
    | 0x0A8 => s.linesRegister
    | 0x0B0 => fieldsAt [(0, s.path.store.free), (16, s.path.store.lowWater)]
    | 0x0B8 => fieldsAt [(0, s.path.inFlightKeys.length), (16, s.path.merge.pending.length)]
    | 0x0C0 => s.writerRegister
    | 0x180 => s.path.att.causes.toNat
    | 0x188 => s.path.att.enables.toNat
    | 0x190 => s.path.att.armed.toNat
    | _ => 0

/-- The byte at `a` of the window: registers are stored least significant byte first (R159, R163). -/
def readByte (s : State) (a : Nat) : Byte := BitVec.ofNat 8 (s.register (a / 8 * 8) / 256 ^ (a % 8))

/-- A read access of `size` bytes at `offset` returns the bytes of the registers it covers (R163). -/
def readBytes (offset size : Nat) (s : State) : List Byte := (List.range size).map fun k => s.readByte (offset + k)

/-- The read covers the low byte of the attention causes register (R173). -/
def coversCauses (offset size : Nat) : Bool := decide (offset ≤ 0x180 ∧ 0x180 < offset + size)

/-- A read access: what it returns, and the causes it returned leave the set (R173). -/
def readWindow (offset size : Nat) (s : State) : State :=
  let s1 := { s with ctl := { s.ctl with readData := s.readBytes offset size } }
  if coversCauses offset size then { s1 with path := { s1.path with att := { s1.path.att with causes := 0 } } } else s1

end State

end Sys2Proof.Machine
end

