-- ==== Sys2Proof/Machine/Clock.lean ====
section
/-!
DEFINITION. The passing of time on an empty queue (log 1): the next instant, the events that fall due at it, and full
reset (R175).
-/
namespace Sys2Proof.Machine.State

/-! ## Full reset -/

/-- Full reset (R175). What is outside the blocks stays: the pull of the other stations, the receivers' reports, what
the part's completed writes left in host memory, and the queue. Writes in flight end (R158, R174), so the bytes under
them are not known. -/
def fullReset (straps : Station) (held : Bool) (s : State) : State :=
  { State.reset with
    bus := { station := straps, cagePull := s.bus.cagePull },
    lines := Vector.ofFn fun l : Line => { aligned := (s.lines[l]).aligned },
    path := { mem := (Path.blur s.path).mem, draws := s.path.draws },
    resetLow := held,
    pending := s.pending }

/-! ## Due events -/

/-- The arbiter time that the present horizon gives (R110, R116). -/
def offeredTime (s : State) : Nat := max s.path.arb.time (Path.horizon s.now s.path)

/-- The window's deadline is passed by the horizon of this instant. -/
def gapDue (st : Stream) (s : State) : Bool := (s.path.arb.windows[st]).passed s.offeredTime

/-- The events of the part's own clockwork that have come at this instant and have not been taken. -/
def dueEvents (s : State) : List Instr :=
  (if s.tb.boundaryDue then [.ownBoundary] else [])
    ++ (if s.tb.halfDue then [.epoHalfPoint] else [])
    ++ (if s.tb.openingDue s.settings then [.windowOpening] else [])
    ++ (if s.tb.closeDue s.settings then [.windowClose] else [])
    ++ (if s.holdDue then [.markHoldEnd] else [])
    ++ (if s.faultDue then [.markDriveFault] else [])
    ++ (if s.rearmDue then [.pulseWatchRearm] else [])
    ++ (if s.sendDue then [.noticeSend .begin] else [])
    ++ (if s.finishDue then [.noticeSend .finish] else [])
    ++ (allLines.filter fun l => s.settleDue l).map .settleTimeout
    ++ (allStreams.filter fun st => s.gapDue st).map .gapDeclaration
    ++ (allChans.filter fun c => Path.idleDue s.now s.path.chans[c]).map .idleFlushExpiry

/-! ## The next instant -/

/-- The LOS sampling counter at a new tick (R66): it starts again after a sample point. -/
def losTick (period : Nat) (k : Option Nat) : Option Nat := k.map fun n => (if period ≤ n then 0 else n) + 1

/-- What a new tick does beside the Time Base: the LOS sampling counter, the slot the receiver is taking, and the
arbiter time, which advances with the present tick when the merge is empty (R66, R34, R116). R129 lets a line report and
a horizon offer of one instant fall in either order: that the arbiter time always rises here, before the commands of the
instant, is the model's choice (log 36). -/
def onTick (s : State) : State :=
  let s1 := trackReceiver { s with losPhase := losTick s.settings.losPeriod s.losPhase }
  { s1 with path := s1.path.raiseTime (Path.horizon s1.now s1.path) }

/-- Local time moves to the next instant at which the tick or the date count takes a new value (R1, R3). -/
def advance (s : State) : State :=
  let s1 := { s with tb := s.tb.advance }
  if s.tb.advanceTicks then onTick s1 else s1

/-- The due events are put in the queue, in either order (log 5). -/
def queueDue (s : State) : State :=
  { s with pending := freeOrder s.path.draws s.dueEvents, path := { s.path with draws := s.path.draws + 1 } }

/-- Something is left of the instant: what a drive leaves (R19), or what stands in the delivery engine to be judged,
issued or granted (R148, R155, R156). -/
def unsettled (s : State) : Bool := s.bus.asserting.isSome || s.path.unsettled

/-- The end of the instant (log 18, log 38). -/
def settle (s : State) : State := modPath Path.settle (driveStands s)

/-- What the part does with nothing to take: in full reset nothing (R1, R175); else events that are due are put in
its queue; with none due what is left of the instant is taken; and with that done too the next instant
comes, with the events due at it (log 1, log 18). -/
def idle (s : State) : State :=
  if s.resetLow then s
  else if s.dueEvents.isEmpty = false then s.queueDue
  else if s.unsettled then s.settle
  else s.advance.queueDue

end Sys2Proof.Machine.State
end

