-- ==== Sys2Proof/Machine/HostCommandExecs.lean ====
section
/-!
DEFINITION. The meanings of the host's rows: full reset, the commands of R164, register accesses and the completion of
the attention message.
-/
namespace Sys2Proof.Machine

/-- The result of an execution. -/
abbrev Answer := Host.Outcome State Fault Refusal

/-- FULL_RESET (R175). It acts while RESET is held low too: each takes the straps again. -/
def execFullReset (straps : Station) (held : Bool) (s : State) : Answer := .next (s.fullReset straps held)

/-- LOCK_SETTINGS (R168). -/
def execLockSettings (s : State) : Answer := answer s (s.takeCommand State.lockSettings)

/-- JOIN_CAGE (R40). -/
def execJoinCage (s : State) : Answer := answer s (s.takeCommand State.joinCage)

/-- LEAVE_CAGE (R57). -/
def execLeaveCage (s : State) : Answer := answer s (s.takeCommand State.leaveCage)

/-- CAPTURE_RESET (R171). -/
def execCaptureReset (s : State) : Answer := answer s (s.takeCommand State.captureReset)

/-- CLEAR_COUNTERS (R172). -/
def execClearCounters (s : State) : Answer := answer s (s.takeCommand State.clearCounters)

/-- START_CHANNEL (R145, R154). -/
def execStartChannel (c : Chan) (s : State) : Answer := answer s (s.takeCommand (State.startChannel c))

/-- STOP_CHANNEL (R150). -/
def execStopChannel (c : Chan) (s : State) : Answer := answer s (s.takeCommand (State.stopChannel c))

/-- FLUSH_CHANNEL (R151). -/
def execFlushChannel (c : Chan) (s : State) : Answer := answer s (s.takeCommand (State.flushChannel c))

/-- POST_BUFFER (R142). -/
def execPostBuffer (c : Chan) (s : State) : Answer := answer s (s.takeCommand (State.postBuffer c))

/-- TAKE_CLOSED (R144). -/
def execTakeClosed (c : Chan) (s : State) : Answer := answer s (s.takeCommand (State.takeClosed c))

/-- ARM_ATTENTION (R174). -/
def execArmAttention (s : State) : Answer := answer s (s.takeCommand State.armAttention)

/-- UNKNOWN_COMMAND (R169): whatever the code, BAD_VALUE with index 0. -/
def execUnknownCommand (_code : Byte) (s : State) : Answer := answer s (s.takeCommand State.unknownCommand)

/-- SETTINGS_VALUE_WRITE (R167). -/
def execSettingsValueWrite (v : BitVec 64) (s : State) : Answer := answer s (s.settingsValueWrite v)

/-- ATTENTION_CAUSES_READ (R173), any read access of the window (R163). -/
def execAttentionCausesRead (offset size : Nat) (s : State) : Answer := answer s (s.readWindow offset size)

/-- ATTENTION_ENABLES_WRITE (R174). -/
def execAttentionEnablesWrite (v : BitVec 64) (s : State) : Answer := answer s (s.writeEnables v)

/-- REGISTER_WRITE (R163), any write access of the window. -/
def execRegisterWrite (offset size : Nat) (v : BitVec 64) (s : State) : Answer :=
  answer s (s.registerWrite offset size v)

/-- ATTENTION_MESSAGE_COMPLETE (R174). -/
def execAttentionMessageComplete (good : Bool) (s : State) : Answer :=
  answer s (s.modPath fun e => Path.messageComplete e good)

end Sys2Proof.Machine
end

