-- ==== Sys2Proof/Machine/CageExecs.lean ====
section
/-!
DEFINITION. The meanings of the rows of the Time Base, the Cage Bus Port and the Scale Controller. An event that the
part's own clockwork brings acts when it has come, and is passed over at any other instant (log 2).
-/
namespace Sys2Proof.Machine

/-- OWN_BOUNDARY (R5): the date has reached E_cur. -/
def execOwnBoundary (s : State) : Answer :=
  answer s (if s.tb.boundaryDue then (s.ownBoundary).served else s)

/-- EPO_HALF_POINT (R16): the count has reached the half-point and EPO falls. -/
def execEpoHalfPoint (s : State) : Answer :=
  answer s (if s.tb.halfDue then { s with tb := { s.tb with epo := false } } else s)

/-- WINDOW_OPENING (R7, R22). -/
def execWindowOpening (s : State) : Answer := answer s s.windowOpening

/-- WINDOW_CLOSE (R7, R26). -/
def execWindowClose (s : State) : Answer := answer s s.windowClose

/-- MARK_HOLD_END (R19). -/
def execMarkHoldEnd (s : State) : Answer := answer s s.markHoldEnd

/-- MARK_LINE_RISE (R18, R24, R27, R28). -/
def execMarkLineRise (s : State) : Answer := answer s s.markLineRise

/-- MARK_LINE_FALL (R18, R24, R21, R28, R42). -/
def execMarkLineFall (s : State) : Answer := answer s s.markLineFall

/-- PULSE_WATCH_REARM (R28). -/
def execPulseWatchRearm (s : State) : Answer := answer s s.pulseWatchRearm

/-- NOTICE_SEND (R32, R33). -/
def execNoticeSend (act : NoticeAct) (s : State) : Answer := answer s (s.noticeSend act)

/-- NOTICE_RECEIVE (R34). -/
def execNoticeReceive (samples : BitVec 112) (s : State) : Answer := answer s (s.noticeReceive samples)

/-- MARK_DRIVE_FAULT (R21). -/
def execMarkDriveFault (s : State) : Answer := answer s s.markDriveFault

end Sys2Proof.Machine
end

