-- ==== Sys2Proof/Machine/LineExecs.lean ====
section
/-!
DEFINITION. The meanings of the rows of the Line Ports and of what follows from them in the store, the merge and the
arbiter.
-/
namespace Sys2Proof.Machine

/-- LOS_SAMPLE (R66): at a sample point, the eight raw levels are filtered. -/
def execLosSample (levels : BitVec 8) (s : State) : Answer :=
  answer s (if s.losDue then (s.losSample levels).served else s)

/-- RECEIVER_ALIGNED (R69): the report is kept, and a line in DOWN may settle. -/
def execReceiverAligned (l : Line) (s : State) : Answer :=
  answer s (State.trySettle l (State.modLine l (fun p => { p with aligned := true }) s)).served

/-- RECEIVER_NOT_ALIGNED (R70, R81): the report is kept, and a line in SETTLING, UP or DEGRADED goes DOWN. -/
def execReceiverNotAligned (l : Line) (s : State) : Answer :=
  answer s (State.goDown l .alignLost (State.modLine l (fun p => { p with aligned := false }) s)).served

/-- SETTLE_TIMEOUT (R69). -/
def execSettleTimeout (l : Line) (s : State) : Answer :=
  answer s (if s.settleDue l then (State.changeLine l .up .settled 0 s).served else s)

/-- CODE_ERROR (R71). -/
def execCodeError (l : Line) (s : State) : Answer := answer s (s.codeErrorAt l)

/-- FRAME_START (R74, R75). -/
def execFrameStart (l : Line) (s : State) : Answer := answer s (s.frameStartAt l)

/-- FURTHER_BLOCK_REQUEST (R76): the bytes up to the one that asks. -/
def execFurtherBlockRequest (l : Line) (bytes : List Byte) (s : State) : Answer :=
  answer s (State.feed l bytes s).served

/-- OVERSIZE (R77): the bytes up to the one that passes the ceiling. -/
def execOversize (l : Line) (bytes : List Byte) (s : State) : Answer :=
  answer s (State.feed l bytes s).served

/-- FRAME_END (R79): the last bytes, then the judgement. -/
def execFrameEnd (l : Line) (bytes : List Byte) (clean : Bool) (s : State) : Answer :=
  answer s (State.frameEndAt l clean (State.feed l bytes s)).served

/-- GAP_DECLARATION (R128, R129): the horizon is offered and the window declared while its deadline is passed. -/
def execGapDeclaration (st : Stream) (s : State) : Answer :=
  answer s (s.modPath fun e p =>
    Path.serve e (Path.declareWindow e st (p.raiseTime (Path.horizon e.now p))))

end Sys2Proof.Machine
end

