-- ==== Sys2Proof/Machine/DeliveryExecs.lean ====
section
/-!
DEFINITION. The meanings of the rows of the Delivery Engine: completions of writes and the idle timer.
-/
namespace Sys2Proof.Machine

/-- A completion's effect on the part: the record path, and the result of a STOP or FLUSH that waited for it (R150,
R151, R153, R169). -/
def State.complete (f : Env → Path → Path × Option ResultCode) (s : State) : State :=
  let s1 := { s with path := (f s.env s.path).1 }
  match (f s.env s.path).2 with
  | some r => s1.setResult r 0
  | none => s1

/-- WRITE_COMPLETE_GOOD (R147). -/
def execWriteCompleteGood (s : State) : Answer := answer s (s.complete Path.completeGood)

/-- WRITE_COMPLETE_FAILED (R153). -/
def execWriteCompleteFailed (s : State) : Answer := answer s (s.complete Path.completeFailed)

/-- ABANDONED_WRITE_COMPLETE (R156). -/
def execAbandonedWriteComplete (s : State) : Answer := answer s (s.modPath Path.completeAbandoned)

/-- IDLE_FLUSH_EXPIRY (R152). -/
def execIdleFlushExpiry (c : Chan) (s : State) : Answer := answer s (s.modPath fun e => Path.idleExpire e c)

end Sys2Proof.Machine
end

