-- ==== Sys2Proof/Machine/Dispatch.lean ====
section
/-!
DEFINITION. One arm for each command, each a call of its meaning.
-/
namespace Sys2Proof.Machine

def exec (i : Instr) (s : State) : Host.Outcome State Fault Refusal :=
  match i with
  | .fullReset straps held => Sys2Proof.Machine.execFullReset straps held s
  | .lockSettings => Sys2Proof.Machine.execLockSettings s
  | .joinCage => Sys2Proof.Machine.execJoinCage s
  | .leaveCage => Sys2Proof.Machine.execLeaveCage s
  | .captureReset => Sys2Proof.Machine.execCaptureReset s
  | .clearCounters => Sys2Proof.Machine.execClearCounters s
  | .startChannel c => Sys2Proof.Machine.execStartChannel c s
  | .stopChannel c => Sys2Proof.Machine.execStopChannel c s
  | .flushChannel c => Sys2Proof.Machine.execFlushChannel c s
  | .postBuffer c => Sys2Proof.Machine.execPostBuffer c s
  | .takeClosed c => Sys2Proof.Machine.execTakeClosed c s
  | .armAttention => Sys2Proof.Machine.execArmAttention s
  | .unknownCommand code => Sys2Proof.Machine.execUnknownCommand code s
  | .settingsValueWrite value => Sys2Proof.Machine.execSettingsValueWrite value s
  | .attentionCausesRead offset size => Sys2Proof.Machine.execAttentionCausesRead offset size s
  | .attentionEnablesWrite value => Sys2Proof.Machine.execAttentionEnablesWrite value s
  | .registerWrite offset size value => Sys2Proof.Machine.execRegisterWrite offset size value s
  | .attentionMessageComplete good => Sys2Proof.Machine.execAttentionMessageComplete good s
  | .ownBoundary => Sys2Proof.Machine.execOwnBoundary s
  | .epoHalfPoint => Sys2Proof.Machine.execEpoHalfPoint s
  | .windowOpening => Sys2Proof.Machine.execWindowOpening s
  | .windowClose => Sys2Proof.Machine.execWindowClose s
  | .markHoldEnd => Sys2Proof.Machine.execMarkHoldEnd s
  | .markLineRise => Sys2Proof.Machine.execMarkLineRise s
  | .markLineFall => Sys2Proof.Machine.execMarkLineFall s
  | .pulseWatchRearm => Sys2Proof.Machine.execPulseWatchRearm s
  | .noticeSend act => Sys2Proof.Machine.execNoticeSend act s
  | .noticeReceive samples => Sys2Proof.Machine.execNoticeReceive samples s
  | .losSample levels => Sys2Proof.Machine.execLosSample levels s
  | .receiverAligned l => Sys2Proof.Machine.execReceiverAligned l s
  | .receiverNotAligned l => Sys2Proof.Machine.execReceiverNotAligned l s
  | .settleTimeout l => Sys2Proof.Machine.execSettleTimeout l s
  | .codeError l => Sys2Proof.Machine.execCodeError l s
  | .frameStart l => Sys2Proof.Machine.execFrameStart l s
  | .furtherBlockRequest l bytes => Sys2Proof.Machine.execFurtherBlockRequest l bytes s
  | .oversize l bytes => Sys2Proof.Machine.execOversize l bytes s
  | .frameEnd l bytes clean => Sys2Proof.Machine.execFrameEnd l bytes clean s
  | .gapDeclaration stream => Sys2Proof.Machine.execGapDeclaration stream s
  | .writeCompleteGood => Sys2Proof.Machine.execWriteCompleteGood s
  | .writeCompleteFailed => Sys2Proof.Machine.execWriteCompleteFailed s
  | .abandonedWriteComplete => Sys2Proof.Machine.execAbandonedWriteComplete s
  | .idleFlushExpiry c => Sys2Proof.Machine.execIdleFlushExpiry c s
  | .markDriveFault => Sys2Proof.Machine.execMarkDriveFault s

end Sys2Proof.Machine
end

