-- ==== Sys2Proof/Safety.lean ====
section
/-!
DEFINITION. What the statements speak of: the families of commands, the blocks held, and the laws of the part that
every step keeps.
-/
namespace Sys2Proof

inductive Family where
  | host | cage | line | delivery
  deriving DecidableEq, Repr

/-- The family of a command: the host's rows, the cage side's, the lines' and the delivery side's. -/
def Instr.family : Instr → Family
  | .fullReset _ _ | .lockSettings | .joinCage | .leaveCage | .captureReset | .clearCounters => .host
  | .startChannel _ | .stopChannel _ | .flushChannel _ | .postBuffer _ | .takeClosed _ | .armAttention => .host
  | .unknownCommand _ | .settingsValueWrite _ | .attentionCausesRead _ _ | .attentionEnablesWrite _ => .host
  | .registerWrite _ _ _ | .attentionMessageComplete _ => .host
  | .ownBoundary | .epoHalfPoint | .windowOpening | .windowClose | .markHoldEnd | .markLineRise => .cage
  | .markLineFall | .pulseWatchRearm | .noticeSend _ | .noticeReceive _ | .markDriveFault => .cage
  | .losSample _ | .receiverAligned _ | .receiverNotAligned _ | .settleTimeout _ | .codeError _ => .line
  | .frameStart _ | .furtherBlockRequest _ _ | .oversize _ _ | .frameEnd _ _ _ | .gapDeclaration _ => .line
  | .writeCompleteGood | .writeCompleteFailed | .abandonedWriteComplete | .idleFlushExpiry _ => .delivery

/-- The command is a full reset. -/
def Instr.isFullReset : Instr → Bool
  | .fullReset _ _ => true
  | _ => false

/-- The twelve rows that are writes to the command register (R164, R169). -/
def Instr.isHostCommand : Instr → Bool
  | .lockSettings | .joinCage | .leaveCage | .captureReset | .clearCounters | .startChannel _ => true
  | .stopChannel _ | .flushChannel _ | .postBuffer _ | .takeClosed _ | .armAttention => true
  | .unknownCommand _ => true
  | _ => false

namespace Machine

/-- The part is out of full reset and a write to the command register is taken (R169, R175). -/
abbrev State.Takes (s : State) : Prop := s.resetLow = false ∧ s.ctl.result ≠ .pending

/-- The entry that a closure of buffer `b` puts on the closed list (R143). -/
def CurrentBuffer.entry (b : CurrentBuffer) (reason : ClosureReason) : ClosedEntry :=
  ⟨b.addr, b.fill, reason, b.records, b.firstTick, b.lastTick⟩

/-- R148 asks nothing of the channel: it is not in RUN, or nothing is queued, or the head fits its current buffer. -/
def Channel.Ready (ch : Channel) : Prop :=
  ch.state = .run → ∀ (r : Record) (rest : List Record), ch.queue = r :: rest →
    ∃ b, ch.current = some b ∧ b.fill + r.size ≤ b.len

/-- What the channel becomes when R148 is judged on it: with a record to write and no current buffer it stalls
NO_BUFFER; a head that does not fit closes the buffer FULL into a free closed-list entry, and the next buffer, if any,
becomes current; with the closed list full it stalls CLOSED_FULL. -/
def Channel.JudgedTo (ch out : Channel) : Prop :=
  (ch.Ready → out = ch)
    ∧ (ch.state = .run → ∀ (r : Record) (rest : List Record), ch.queue = r :: rest →
      (ch.current = none → out = { ch with state := .stalled .noBuffer, idleExpiry := none })
      ∧ ∀ b : CurrentBuffer, ch.current = some b → b.len < b.fill + r.size →
        (ch.closed.length < 4 → out =
          { ch with
            state := if ch.next = none then .stalled .noBuffer else .run
            closed := ch.closed ++ [b.entry .full]
            current := ch.next.map fun n =>
              { addr := n.addr, len := n.len, fill := 0, records := 0, firstTick := 0, lastTick := 0 }
            next := none, idleExpiry := none
            counters := { ch.counters with full := countUp ch.counters.full } })
        ∧ (4 ≤ ch.closed.length → out = { ch with state := .stalled .closedFull, idleExpiry := none }))

/-- What POST BUFFER and TAKE CLOSED find of channel `c`: the channel as it stands, or, where its good write has
completed at this instant, as R148 has left it (log 18). -/
def Path.FindsChannel (p : Path) (c : Chan) (found : Channel) : Prop :=
  let ch : Channel := { p.chans[c] with ended := false }
  ((p.chans[c]).ended = false → found = p.chans[c])
    ∧ ((p.chans[c]).ended = true →
        (p.writing c = true → found = ch) ∧ (p.writing c = false → ch.JudgedTo found))

/-! ## The host writer (R146, R155, R156) -/

/-- The channel requests the host writer (R146). -/
def Channel.Requests (ch : Channel) : Prop :=
  ch.state = .run ∧ ch.pendingCmd = none
    ∧ ∃ (r : Record) (rest : List Record) (b : CurrentBuffer),
        ch.queue = r :: rest ∧ ch.current = some b ∧ b.fill + r.size ≤ b.len

/-- The channel counts as requesting in a choice of the writer: it requests, or a good write of it has completed at this
instant and it will request when R148 has rolled it over to its next buffer (log 18). -/
def Channel.Wants (ch : Channel) : Prop :=
  ch.Requests ∨ (ch.ended = true ∧ ch.state = .run ∧ ch.pendingCmd = none ∧ ch.closed.length < 4
    ∧ ∃ (r : Record) (rest : List Record) (b : CurrentBuffer) (n : PostedBuffer),
        ch.queue = r :: rest ∧ ch.current = some b ∧ b.len < b.fill + r.size ∧ ch.next = some n ∧ r.size ≤ n.len)

/-- The writer has fallen to channel `k` with this run count: the write of its head record is in flight, to its current
buffer's address plus its fill (R146), or, where a good write of the channel has completed at this instant, is to be
issued when the instant ends (log 18). -/
def Path.FallsTo (p : Path) (k : Chan) (run : Nat) : Prop :=
  if p.chans[k].ended then p.writer = .granted k run
  else ∃ (r : Record) (rest : List Record) (b : CurrentBuffer),
    p.chans[k].queue = r :: rest ∧ p.chans[k].current = some b
      ∧ p.writer = .holding k run ⟨b.addr + b.fill, r.encode⟩

/-- Steps 2 and 3 of R155, a channel `passed` being passed over (R156): a requesting URGENT channel before a BULK one,
the lowest number of a class, with a run count of 1; and with no request the writer is free. -/
def Path.Grants (urgent : Chan → Bool) (passed : Option Chan) (p : Path) : Prop :=
  let asks := fun k : Chan => p.chans[k].Wants ∧ passed ≠ some k
  ((∀ k : Chan, ¬ asks k) → p.writer = .free)
    ∧ ∀ k : Chan, asks k →
      (∀ j : Chan, asks j → (urgent j = true → urgent k = true) ∧ (urgent j = urgent k → k ≤ j)) → p.FallsTo k 1

/-! ## The attention causes of the channels (R173) -/

/-- What became of the channels from `p` to `q` has set its causes, and no cause has left the set: CLOSED (bit 0) where
a closed list has grown, CHANNEL (bit 1) where a channel has entered STALLED, changed the reason of its stall or entered
ERROR. -/
def Path.Attended (p q : Path) : Prop :=
  (∀ i : Nat, p.att.causes.getLsbD i = true → q.att.causes.getLsbD i = true)
    ∧ ∀ k : Chan,
      ((p.chans[k]).closed.length < (q.chans[k]).closed.length → q.att.causes.getLsbD 0 = true)
      ∧ (∀ r : StallReason, (q.chans[k]).state = .stalled r → (p.chans[k]).state ≠ .stalled r →
          q.att.causes.getLsbD 1 = true)
      ∧ ((q.chans[k]).state = .error → (p.chans[k]).state ≠ .error → q.att.causes.getLsbD 1 = true)

/-! ## Blocks of the Frame Store (R87) -/

/-- Blocks that the frame in reception on a port holds. -/
def LinePort.heldBlocks (p : LinePort) : Nat :=
  match p.reception with
  | .capturing f => f.blocks
  | .idle => 0
  | .skipping => 0

namespace Path

def pendingBlocks (p : Path) : Nat := (p.merge.pending.map Classified.blocks).sum

def queuedBlocks (p : Path) : Nat := (allChans.map fun c => ((p.chans[c]).queue.map Record.blocks).sum).sum

/-- The free blocks and those held by pending and queued records. -/
def downstreamBlocks (p : Path) : Nat := p.store.free + p.pendingBlocks + p.queuedBlocks

/-- The pending set stands in order-key order (R104): no record stands before one with an earlier key. -/
def Sorted (p : Path) : Prop := p.merge.pending.Pairwise fun a b => b.key.earlier a.key = false

/-- The earliest pending record is not earlier than every frame in flight (R107). -/
def HeldBack (p : Path) : Prop :=
  ∀ f : Classified, p.merge.pending.head? = some f → releasable p.inFlightKeys f = false

/-- The queues, the closed lists and the pending set are within their capacities (R139, R143, R104). -/
def WithinCapacity (p : Path) : Prop :=
  (∀ c : Chan, (p.chans[c]).queue.length ≤ 1024 ∧ (p.chans[c]).closed.length ≤ 4)
    ∧ p.merge.pending.length ≤ 512

end Path

namespace SeqWindow

/-- The law of a tracking window (R114, R122, R123, R127): slot N is UNSEEN, the slots ahead are UNSEEN or FIRST, a
hole is open exactly while one of them is FIRST, and the deadline follows it. -/
def Law (bits : Nat) (w : SeqWindow) : Prop :=
  w.n < 2 ^ bits ∧ w.slotAt w.n = .unseen
    ∧ (∀ d : Nat, 1 ≤ d → d ≤ 127 →
        w.slotAt (w.ahead bits d) = .unseen ∨ isFirst (w.slotAt (w.ahead bits d)) = true)
    ∧ (w.holeSince.isSome = true ↔ ∃ d, 1 ≤ d ∧ d ≤ 127 ∧ isFirst (w.slotAt (w.ahead bits d)) = true)
    ∧ w.deadline = w.holeSince.map (· + w.timeout)

end SeqWindow

namespace State

/-- What the event channel's queue holds in `t` when `records` were offered to it one after another since `s`: they
stand behind those it held, where its tally is empty and it has room for them (R58, R73, R140). -/
def EventQueueTakes (s t : State) (records : List Record) : Prop :=
  let ch := s.path.chans[s.settings.eventChannel]
  ch.tally = none → ch.queue.length + records.length ≤ 1024 →
    (t.path.chans[s.settings.eventChannel]).queue = ch.queue ++ records

/-- The record path once the frame in reception on line `l`, if one is captured, has been aborted: its blocks and its
in-flight entry gone, and what they held back released (R80, R81, R107). -/
def afterAbort (s : State) (l : Line) : Path :=
  match (s.lines[l]).reception with
  | .capturing f => Path.dropFrame s.env l f.blocks s.path
  | .idle => s.path
  | .skipping => s.path

/-- What the change of line `l` to `new` tells in `t`, from the record path `p` that it finds: the LINE record where the
report passes no deadline (R73), the arbiter's view, and in each stream's window what the report makes of it (R117,
R127), with every deadline that is passed then declared (R129). -/
def LineChangeTold (s t : State) (p : Path) (l : Line) (new : LineState) (reason : LineReason) (errors : Nat) : Prop :=
  let q := Path.viewReport s.settings l new p
  (q.passedStreams = [] → State.EventQueueTakes { s with path := p } t
      [.line l (s.lines[l]).state new reason errors ⟨s.now, s.tb.epoch, s.tb.readCount, s.sc.state.quality⟩])
    ∧ t.path.arb.view = q.arb.view ∧ t.path.arb.time = p.arb.time
    ∧ ∀ e : Stream,
      let w := q.arb.windows[e]
      let bits := s.settings.seqBits e
      (w.passed p.arb.time = false →
        t.path.arb.windows[e] = w ∧ t.path.arb.counters[e] = p.arb.counters[e])
      ∧ t.path.arb.windows[e] = (Path.declareWindow s.env e q).arb.windows[e]
      ∧ t.path.arb.counters[e] = (Path.declareWindow s.env e q).arb.counters[e]
      ∧ (bits = 16 ∨ bits = 32 ∨ bits = 64 → (w.tracking = true → w.Law bits) →
          (t.path.arb.windows[e]).passed p.arb.time = false)

def receptionBlocks (s : State) : Nat := (allLines.map fun l => (s.lines[l]).heldBlocks).sum

/-- The law of R87, with the bytes stored of every frame in reception within its blocks (R76). -/
def BlocksConserved (s : State) : Prop :=
  s.receptionBlocks + s.path.downstreamBlocks = 4096
    ∧ ∀ (l : Line) (f : PortFrame), (s.lines[l]).reception = .capturing f → f.stored ≤ 128 * f.blocks

/-- The laws of R19 and R28: the mark line is driven only in ALIGN or LOCKED, not muted, and the pulse watch runs in
LISTEN alone. -/
def DriveLawful (s : State) : Prop :=
  (s.bus.drive.isSome = true →
    (s.sc.state = .align ∨ s.sc.state = .locked) ∧ s.sc.mutedProfile = false ∧ s.sc.mutedClash = false)
    ∧ (s.bus.watch ≠ .off → s.sc.state = .listen)

/-- The laws of R3, R4, R6 and R15: the date runs only under locked settings, with a length within E - S to E + S, the
trim within its limits, the fraction below one date-ns, and what has passed of the running tick below one tick (log
3). -/
def DateBounded (s : State) : Prop :=
  (s.tb.running = true →
      s.ctl.locked = true
        ∧ (s.settings.epochLen : Int) - s.settings.slew ≤ s.tb.eCur
        ∧ s.tb.eCur ≤ s.settings.epochLen + s.settings.slew)
    ∧ -858993 ≤ s.tb.trim ∧ s.tb.trim ≤ 858993 ∧ s.tb.frac < 2 ^ 32 ∧ s.tb.phase < rateOf s.tb.trim

/-- Before the lock nothing runs: QUIET, the date stopped, every line OFF (R14, R39, R68, R137). -/
def QuietBeforeLock (s : State) : Prop :=
  s.ctl.locked = false →
    s.sc.state = .quiet ∧ s.tb.running = false ∧ ∀ l : Line, (s.lines[l]).state = .off

/-- The merge's laws: the in-flight table holds exactly the frames in reception (R102), the pending set is in
order-key order (R104), and its earliest record waits for a frame in flight (R107). -/
def MergeLawful (s : State) : Prop :=
  (∀ l : Line, s.path.merge.inFlight[l] =
      match (s.lines[l]).reception with
      | .capturing f => some f.stamp.tick
      | .idle => none
      | .skipping => none)
    ∧ s.path.Sorted ∧ s.path.HeldBack

/-- The sparse tables are in their canonical form: the bytes known of host memory and the settings. -/
def Canonical (s : State) : Prop := Memory.wf s.path.mem ∧ s.settings.wf

end State

end Machine

end Sys2Proof
end

