-- ==== Sys2Proof/Certificates/Slice0/Obligations.lean ====
section
/-!
DEFINITION. The statements for the provers. A statement that begins from a state speaks of every state; where a
clause rests on a choice of the model its docstring names the log entry.
-/
open Sys2Proof Sys2Proof.Machine

/-! ## The queue, full reset and the passing of time -/

/-- A step with a command at the front runs it on the state with the queue's rest. -/
def Obligations.StepRunsTheFrontCommand : Prop :=
  ∀ (c : Instr) (rest : List Instr) (s : State),
    step { s with pending := c :: rest } = exec c { s with pending := rest }

/-- Every command answers a next state, and none touches the queue (log 28). -/
def Obligations.EveryCommandAnswersAndKeepsTheQueue : Prop :=
  ∀ (c : Instr) (s : State), ∃ t, exec c s = .next t ∧ t.pending = s.pending

/-- While RESET is low the part takes nothing but RESET itself (R175, log 14). A write to the command register is
dropped while the result reads PENDING, and an unknown code that is taken returns BAD_VALUE with index 0 and changes
nothing (R169). -/
def Obligations.CommandsThatHaveNoEffect : Prop :=
  (∀ (c : Instr) (s : State), s.resetLow = true → c.isFullReset = false → exec c s = .next s)
    ∧ (∀ (c : Instr) (s : State), s.ctl.result = .pending → c.isHostCommand = true → exec c s = .next s)
    ∧ ∀ (code : Byte) (s : State), s.Takes →
      exec (.unknownCommand code) s = .next { s with ctl := { s.ctl with result := .badValue, resultIndex := 0 } }

/-- What full reset leaves, block by block (R14, R37, R39, R59, R67, R82, R88, R94, R112, R135, R158, R175). What the
other stations pull is not the part's and stays (log 15). -/
def Obligations.FullResetClearsThePart : Prop :=
  ∀ (straps : Station) (held : Bool) (s : State), ∃ t, exec (.fullReset straps held) s = .next t
    ∧ t.tb.tick = 0 ∧ t.tb.running = false ∧ t.tb.count = 0 ∧ t.tb.frac = 0 ∧ t.tb.epoch = 0
    ∧ t.tb.eCur = 1000000 ∧ t.tb.trim = 0 ∧ t.tb.epo = false ∧ t.stamp.quality = .unscaled
    ∧ t.bus.drive = none ∧ t.bus.asserting = none ∧ t.bus.window = none ∧ t.bus.fallRef = none
    ∧ t.bus.transmitter = .idle ∧ t.bus.lane = BitVec.allOnes 112
    ∧ t.bus.receiver = none ∧ t.bus.lastOffset = 0 ∧ t.bus.profileCode = 0 ∧ t.bus.station = straps
    ∧ t.sc = { state := .quiet, mutedProfile := false, mutedClash := false, good := 0, voids := 0, noMarkRun := 0,
               clashCount := 0, clashThisEpoch := false, listen := 0, phaseSet := false, measuredHeld := false }
    ∧ t.bus.watch = .off ∧ t.bus.pullFails = false ∧ t.bus.cagePull = s.bus.cagePull
    ∧ (∀ j : Station, t.roster[j] =
        { present := false, heard := false, lastState := .quiet, muted := false, epoch := 0, offset := 0,
          profileMatch := false, linesUp := 0, peersHeard := 0, silence := 0 })
    ∧ t.losPhase = none
    ∧ (∀ l : Line, (t.lines[l]).state = .off ∧ (t.lines[l]).los = true ∧ (t.lines[l]).history = none
        ∧ (t.lines[l]).settle = none ∧ (t.lines[l]).epochErrors = 0 ∧ (t.lines[l]).legB = false
        ∧ (t.lines[l]).reception = .idle)
    ∧ t.path.store = ⟨4096, 4096⟩
    ∧ (∀ l : Line, t.path.merge.inFlight[l] = none) ∧ t.path.merge.pending = []
    ∧ t.path.arb.time = 0
    ∧ (∀ st : Stream, (t.path.arb.windows[st]).tracking = false ∧ (t.path.arb.windows[st]).timeout = 0)
    ∧ (∀ l : Line, t.path.arb.view[l] = .off)
    ∧ (∀ c : Chan, (t.path.chans[c]).state = .idle ∧ (t.path.chans[c]).queue = [] ∧ (t.path.chans[c]).tally = none
        ∧ (t.path.chans[c]).current = none ∧ (t.path.chans[c]).next = none ∧ (t.path.chans[c]).closed = []
        ∧ (t.path.chans[c]).pendingCmd = none ∧ (t.path.chans[c]).owed = false
        ∧ (t.path.chans[c]).idleExpiry = none)
    ∧ t.path.writer = .free
    ∧ t.path.att = { causes := 0, enables := 0, armed := false, message := none, waiting := false }
    ∧ (∀ i : Nat, i < itemCount → t.settings.item i = itemDefault i)
    ∧ t.ctl.locked = false ∧ t.ctl.settingsIndex = 0 ∧ t.ctl.counterIndex = 0 ∧ t.ctl.rosterSelect = 0
    ∧ t.ctl.arg0 = 0 ∧ t.ctl.arg1 = 0 ∧ t.ctl.result = .done ∧ t.ctl.resultIndex = 0
    ∧ t.ctl.taken = { addr := 0, fill := 0, records := 0, reason := 0, channel := 0, firstTick := 0, lastTick := 0 }
    ∧ (∀ i : Nat, t.counter i = 0)
    ∧ t.resetLow = held

/-- Full reset alone moves the tick by a command, and alone unlocks the settings: once locked, settings and lock stay
through every other command (R1, R168, R175). -/
def Obligations.OnlyFullResetMovesTickAndLock : Prop :=
  ∀ (c : Instr) (s t : State), c.isFullReset = false → exec c s = .next t →
    t.tb.tick = s.tb.tick ∧ (s.ctl.locked = true → t.ctl.locked = true ∧ t.settings = s.settings)

/-- With an empty queue, no event due and nothing left to settle, a step is the passing of time: the date stopped, the
tick advances alone; the date running, the tick and the count each stay or advance by one, and one of them at least
advances, both together when the trim is 0 and they are in step. The date, told in 2^-32 date-ns, advances by
2^32 + trim from the start of one tick to the start of the next; what has passed of a running tick stands in the phase
(R1, R3; the step to the next instant is the model's own, log 1 and log 3, and the rate decides where R3 says that the
count moves by one at most within a tick, log 33). At a new tick the LOS sampling counter counts on, from a sample point
anew (R66; where no sample was sent there, log 6), the receiver takes the slot whose bits pass, its end included (R34,
log 17), and the arbiter time rises to the merge's horizon (R109, R110, R116; that it rises in this step, before the
declarations that it makes due, is log 36). The events due at the new instant stand in the queue, in some order (log 5),
and everything else is as it was. -/
def Obligations.TimePassesOnAnEmptyQueue : Prop :=
  ∀ s : State, s.pending = [] → s.resetLow = false → s.dueEvents = [] → s.bus.asserting = none →
    s.path.unsettled = false →
    ∃ t, step s = .next t
      ∧ t.pending.Perm t.dueEvents ∧ t.path.draws = s.path.draws + 1
      ∧ t.tb = { s.tb with tick := t.tb.tick, count := t.tb.count, frac := t.tb.frac, phase := t.tb.phase }
      ∧ (s.tb.running = false →
          t.tb.tick = s.tb.tick + 1 ∧ t.tb.count = s.tb.count ∧ t.tb.frac = s.tb.frac)
      ∧ (s.tb.running = true →
          ((t.tb.tick = s.tb.tick ∧ t.tb.count = s.tb.count + 1)
            ∨ (t.tb.tick = s.tb.tick + 1 ∧ (t.tb.count = s.tb.count ∨ t.tb.count = s.tb.count + 1))))
      ∧ (s.tb.running = true → s.tb.trim = 0 → s.tb.phase = s.tb.frac →
          t.tb.tick = s.tb.tick + 1 ∧ t.tb.count = s.tb.count + 1 ∧ t.tb.phase = t.tb.frac)
      ∧ (s.tb.running = true → s.DateBounded →
          ((t.tb.count * 2 ^ 32 + t.tb.frac : Nat) : Int) + s.tb.phase
            = ((s.tb.count * 2 ^ 32 + s.tb.frac : Nat) : Int) + t.tb.phase
              + (if t.tb.tick = s.tb.tick then 0 else 2 ^ 32 + s.tb.trim)
          ∧ (t.tb.tick ≠ s.tb.tick → t.tb.phase = 0))
      ∧ t.sc = s.sc ∧ t.lines = s.lines ∧ t.settings = s.settings ∧ t.ctl = s.ctl
      ∧ t.roster = s.roster ∧ t.cage = s.cage ∧ t.resetLow = s.resetLow
      ∧ t.path.chans = s.path.chans ∧ t.path.merge = s.path.merge ∧ t.path.store = s.path.store
      ∧ t.path.writer = s.path.writer ∧ t.path.att = s.path.att ∧ t.path.mem = s.path.mem
      ∧ t.bus = { s.bus with receiver := t.bus.receiver }
      ∧ t.path.arb = { s.path.arb with time := t.path.arb.time }
      ∧ (t.tb.tick = s.tb.tick →
          t.losPhase = s.losPhase ∧ t.bus.receiver = s.bus.receiver ∧ t.path.arb.time = s.path.arb.time)
      ∧ (t.tb.tick ≠ s.tb.tick →
          (s.losPhase = none → t.losPhase = none)
          ∧ (∀ n, s.losPhase = some n → n < s.settings.losPeriod → t.losPhase = some (n + 1))
          ∧ (∀ n, s.losPhase = some n → s.settings.losPeriod ≤ n → t.losPhase = some 1)
          ∧ (∀ k : Station, t.bus.receiver = some k ↔
              s.sc.state ≠ .quiet ∧ ∃ f, s.bus.fallRef = some f
                ∧ 400 + 2600 * k.val ≤ ticksSince t.now f.tick
                ∧ ticksSince t.now f.tick ≤ 400 + 2600 * k.val + 2240)
          ∧ ∃ horizon : Nat, horizon ≤ t.now
            ∧ (∀ (l : Line) (x : Nat), s.path.merge.inFlight[l] = some x → horizon ≤ x)
            ∧ (∀ f ∈ s.path.merge.pending, horizon ≤ f.stamp.tick)
            ∧ (horizon = t.now ∨ (∃ l : Line, s.path.merge.inFlight[l] = some horizon)
                ∨ ∃ f ∈ s.path.merge.pending, f.stamp.tick = horizon)
            ∧ t.path.arb.time = max s.path.arb.time horizon)

/-- What a step on an empty queue does before time passes: nothing while RESET is low; else the due events come into
the queue in some order (log 5); and with none due the instant is settled. Something is left to settle when the mark
line is driven from this very instant, when a channel whose good write completed at this instant is to be judged, when a
write is to be issued to the channel that the writer has fallen to, or when the writer is free and a channel requests.
Then the drive stands: its hold has had no fault reported (R21), and a drive after f is a SPLIT (R27); R148 is judged on
every channel but the one that writes, with the causes of what becomes of the channels (R173), the write is issued
(R146, R155), and a free writer is granted among all the channels that request (R156). That this stands at the end of
the instant, and that a writer fallen to a channel which no longer requests is granted anew, is the model's reading (log
18, log 38). -/
def Obligations.EmptyQueueSettlesTheWriter : Prop :=
  (∀ s : State, s.unsettled = true ↔
      s.bus.asserting ≠ none ∨ (∃ k : Chan, (s.path.chans[k]).ended = true)
        ∨ (∃ c run, s.path.writer = .granted c run)
        ∨ (s.path.writer = .free ∧ ∃ c : Chan, s.path.chans[c].Requests))
    ∧ (∀ s : State, s.pending = [] → s.resetLow = true → step s = .next s)
    ∧ (∀ s : State, s.pending = [] → s.resetLow = false → s.dueEvents ≠ [] →
      ∃ q, step s = .next { s with pending := q, path := { s.path with draws := s.path.draws + 1 } }
        ∧ q.Perm s.dueEvents)
    ∧ ∀ s : State, s.pending = [] → s.resetLow = false → s.dueEvents = [] → s.unsettled = true →
      ∃ t, step s = .next t
        ∧ t = { s with
                bus := { s.bus with
                  asserting := none, faultReported := t.bus.faultReported, window := t.bus.window }
                cage := { s.cage with split := t.cage.split }
                path := { s.path with
                  chans := t.path.chans, writer := t.path.writer, att := t.path.att, mem := t.path.mem } }
        ∧ (s.bus.asserting = none → t.bus = s.bus ∧ t.cage = s.cage)
        ∧ (∀ after, s.bus.asserting = some after → t.bus.faultReported = false
            ∧ (after = false ∨ s.bus.window = none → t.bus.window = s.bus.window ∧ t.cage = s.cage)
            ∧ ∀ w, after = true → s.bus.window = some w →
                t.bus.window = some { w with split := true }
                  ∧ t.cage.split = if w.split then s.cage.split else countUp s.cage.split)
        ∧ (∀ k : Chan,
            let ch : Channel := { s.path.chans[k] with ended := false }
            let writes := ∃ run w, s.path.writer = .holding k run w
            (writes → t.path.chans[k] = ch) ∧ (¬ writes → ch.JudgedTo t.path.chans[k]))
        ∧ s.path.Attended t.path
        ∧ ((∀ k : Chan, (s.path.chans[k]).Ready ∨ ∃ run w, s.path.writer = .holding k run w) →
            t.path.att = s.path.att)
        ∧ (∀ a : Nat, (∀ x ∈ t.path.inFlightWrites, a < x.addr ∨ x.addr + x.bytes.length ≤ a) →
            Memory.read t.path.mem a = Memory.read s.path.mem a)
        ∧ (∀ c run w, s.path.writer = .holding c run w → t.path.writer = .holding c run w)
        ∧ (∀ w, s.path.writer = .abandoned w → t.path.writer = .abandoned w)
        ∧ (∀ c run, s.path.writer = .granted c run →
            (t.path.chans[c].Requests → t.path.FallsTo c run)
            ∧ (¬ t.path.chans[c].Requests → t.path.Grants s.settings.urgent none))
        ∧ (s.path.writer = .free → t.path.Grants s.settings.urgent none)

/-! ## Frames -/

/-- The commands of the line and delivery families leave the whole cage side, the settings and the control window as
they are, but for the result of a STOP or FLUSH that waited; those of the delivery family leave the lines, the merge
and the arbiter too. -/
def Obligations.CaptureSideKeepsTheCageSide : Prop :=
  ∀ (c : Instr) (s t : State), c.family = .line ∨ c.family = .delivery → exec c s = .next t →
    t.tb = s.tb ∧ t.bus = s.bus ∧ t.sc = s.sc ∧ t.roster = s.roster ∧ t.cage = s.cage ∧ t.settings = s.settings
      ∧ t.resetLow = s.resetLow
      ∧ t.ctl = { s.ctl with result := t.ctl.result, resultIndex := t.ctl.resultIndex }
      ∧ t.path.att.enables = s.path.att.enables
      ∧ (c.family = .line → t.ctl = s.ctl)
      ∧ (c.family = .delivery → t.lines = s.lines ∧ t.losPhase = s.losPhase ∧ t.path.merge = s.path.merge
          ∧ t.path.arb = s.path.arb ∧ t.path.store.lowWater = s.path.store.lowWater)

/-- The commands of the cage family leave the settings, the control window, LOS sampling, the merge and the enable set
as they are; those that bring no own boundary leave the lines and the arbiter too. -/
def Obligations.CageSideKeepsTheControlWindow : Prop :=
  ∀ (c : Instr) (s t : State), c.family = .cage → exec c s = .next t →
    t.settings = s.settings ∧ t.ctl = s.ctl ∧ t.resetLow = s.resetLow ∧ t.losPhase = s.losPhase
      ∧ t.path.merge = s.path.merge ∧ t.path.att.enables = s.path.att.enables
      ∧ (c ≠ .ownBoundary → c ≠ .windowClose → c ≠ .markLineFall → t.lines = s.lines ∧ t.path.arb = s.path.arb)

/-- A command of START to ARM ATTENTION changes nothing but the channels, the attention set and message, what is known
of the host memory bytes under a write in flight (log 13), and the result and taken registers; but for a STOP or FLUSH
of the channel that the writer has fallen to at this very instant, which makes the writer's choice again (log 18). -/
def Obligations.ChannelCommandsKeepTheRest : Prop :=
  ∀ (c : Chan) (i : Instr) (s t : State),
    i = .startChannel c ∨ i = .stopChannel c ∨ i = .flushChannel c ∨ i = .postBuffer c ∨ i = .takeClosed c
      ∨ i = .armAttention →
    exec i s = .next t →
    t = { s with
          path := { s.path with
                    chans := t.path.chans, writer := t.path.writer, att := t.path.att, mem := t.path.mem }
          ctl := { s.ctl with result := t.ctl.result, resultIndex := t.ctl.resultIndex, taken := t.ctl.taken } }
      ∧ ((i ≠ .stopChannel c ∧ i ≠ .flushChannel c) ∨ (∀ run, s.path.writer ≠ .granted c run) →
          t.path.writer = s.path.writer)
      ∧ t.path.att.enables = s.path.att.enables
      ∧ (∀ k : Chan, (t.path.chans[k]).queue = (s.path.chans[k]).queue
          ∧ (t.path.chans[k]).tally = (s.path.chans[k]).tally)
      ∧ (∀ a : Nat, (∀ x ∈ t.path.inFlightWrites, a < x.addr ∨ x.addr + x.bytes.length ≤ a) →
          Memory.read t.path.mem a = Memory.read s.path.mem a)

/-! ## Laws kept by every step -/

/-- R87: the free count plus the blocks held always numbers 4,096: so after reset, and kept by every step. -/
def Obligations.BlocksStayConserved : Prop :=
  State.reset.BlocksConserved ∧ ∀ s t : State, s.BlocksConserved → step s = .next t → t.BlocksConserved

/-- R139, R143, R104: queues, closed lists and the pending set stay within their capacities. -/
def Obligations.CapacitiesAreKept : Prop :=
  ∀ s t : State, s.path.WithinCapacity → step s = .next t → t.path.WithinCapacity

/-- R19, R20, R28: the mark line stays driven only in ALIGN or LOCKED, not muted, and the pulse watch runs in LISTEN
alone. -/
def Obligations.DriveStaysLawful : Prop :=
  ∀ s t : State, s.DriveLawful → step s = .next t → t.DriveLawful

/-- R3, R4, R6, R8: the trim stays within its limits and the epoch length within E - S to E + S, and the fraction and
the passed part of the running tick (log 3) stay below one date-ns and one tick. -/
def Obligations.DateStaysBounded : Prop :=
  ∀ s t : State, s.DateBounded → step s = .next t → t.DateBounded

/-- R14, R39, R68: until the lock nothing runs. -/
def Obligations.NothingRunsBeforeTheLock : Prop :=
  ∀ s t : State, s.QuietBeforeLock → step s = .next t → t.QuietBeforeLock

/-- R102, R104, R107: the in-flight table mirrors the frames in reception, the pending set stays in key order and its
earliest record waits for a frame in flight. -/
def Obligations.MergeStaysLawful : Prop :=
  ∀ s t : State, s.MergeLawful → step s = .next t → t.MergeLawful

/-- The sparse tables keep their canonical form (log 13, log 19). -/
def Obligations.TablesStayCanonical : Prop :=
  ∀ s t : State, s.Canonical → step s = .next t → t.Canonical

/-- Every law holds right after reset. -/
def Obligations.LawsHoldAtReset : Prop :=
  State.reset.BlocksConserved ∧ State.reset.path.WithinCapacity ∧ State.reset.DriveLawful ∧ State.reset.DateBounded
    ∧ State.reset.QuietBeforeLock ∧ State.reset.MergeLawful ∧ State.reset.Canonical

/-- R116: the arbiter time does not fall, at any step, the step on an empty queue included, but one that takes a full
reset, a capture reset or a register write (which may issue one). -/
def Obligations.ArbiterTimeDoesNotFall : Prop :=
  ∀ s t : State,
    (∀ (c : Instr) (rest : List Instr), s.pending = c :: rest → c.isFullReset = false ∧ c ≠ .captureReset
      ∧ ∀ offset size v, c ≠ .registerWrite offset size v) →
    step s = .next t → s.path.arb.time ≤ t.path.arb.time

/-! ## Settings and the control window -/

/-- The three outcomes of a write to the settings value register; a write that is taken stores the value cut to the
item's width and leaves every other item (R165, R167). -/
def Obligations.SettingsValueWriteOutcomes : Prop :=
  ∀ (v : BitVec 64) (s : State), s.resetLow = false →
    (s.ctl.locked = false → s.settings.wf →
      ∃ t, exec (.settingsValueWrite v) s = .next t ∧ t = { s with settings := t.settings } ∧ t.settings.wf
        ∧ ∀ j : Nat, t.settings.item j =
            if j = s.ctl.settingsIndex.toNat ∧ j < itemCount then v.toNat % 2 ^ itemWidth j else s.settings.item j)
    ∧ (s.ctl.locked = true → s.ctl.result ≠ .pending →
      exec (.settingsValueWrite v) s
        = .next { s with ctl := { s.ctl with result := .refusedLock, resultIndex := 0 } })
    ∧ (s.ctl.locked = true → s.ctl.result = .pending → exec (.settingsValueWrite v) s = .next s)

/-- The check of every item (R35, R38, R64, R95, R137, R168; the item indexes are those of R165). LOCK SETTINGS fails at
the first item, in index order, that fails its check, and else locks and starts the date, the lines and the arbiter's
view (R168, R15, R36, R65, R66, R68, R117, R118). -/
def Obligations.LockSettingsValidatesAndStarts : Prop :=
  (∀ c : Settings,
    let ok := fun i : Nat => c.itemOk i = true
    let v := c.item
    (ok 0 ↔ 1000 ≤ v 0 ∧ v 0 ≤ 50000) ∧ (ok 1 ↔ 100 ≤ v 1 ∧ v 1 ≤ v 0 / 2) ∧ (ok 2 ↔ 1 ≤ v 2 ∧ v 2 ≤ v 0 / 4)
    ∧ (ok 3 ↔ 100000 ≤ v 3 ∧ v 3 ≤ 10000000 ∧ 3 * v 0 + 43000 ≤ v 3)
    ∧ (ok 4 ↔ 1 ≤ v 4 ∧ v 4 ≤ 1000) ∧ (ok 5 ↔ 2 ≤ v 5 ∧ v 5 ≤ 255) ∧ (ok 6 ↔ v 6 ≤ 15)
    ∧ (ok 7 ↔ 2 ≤ v 7 ∧ v 7 ≤ 255) ∧ (ok 8 ↔ 2 ≤ v 8 ∧ v 8 ≤ 255) ∧ ok 9
    ∧ (∀ l : Line, ok (10 + 4 * l.val) ∧ ok (13 + 4 * l.val)
        ∧ (ok (11 + 4 * l.val) ↔ 64 ≤ v (11 + 4 * l.val) ∧ v (11 + 4 * l.val) ≤ 2048 ∧ v (11 + 4 * l.val) % 64 = 0)
        ∧ (ok (12 + 4 * l.val) ↔ 1518 ≤ v (12 + 4 * l.val) ∧ v (12 + 4 * l.val) ≤ 9600))
    ∧ ok 42 ∧ ok 43 ∧ ok 44 ∧ ok 45 ∧ (ok 46 ↔ 1 ≤ v 46 ∧ v 46 ≤ 1000) ∧ ok 47
    ∧ (∀ e : Stream,
        let b := 48 + 11 * e.val
        (∀ k ∈ [0, 1, 2, 3, 6, 7, 10], ok (b + k)) ∧ (v b ≠ 1 → ok (b + 4) ∧ ok (b + 5) ∧ ok (b + 8) ∧ ok (b + 9))
        ∧ (v b = 1 → (ok (b + 4) ↔ v (b + 4) ≤ 255)
            ∧ (ok (b + 5) ↔ v (b + 5) = 0 ∨ v (b + 5) = 2 ∨ v (b + 5) = 4 ∨ v (b + 5) = 8)
            ∧ (ok (b + 8) ↔ v (b + 8) ≤ 3)
            ∧ (ok (b + 9) ↔ v (b + 9) ≤ 2048
                ∧ ∀ l : Line, (v (b + 3)).testBit l.val = true → v (b + 9) ≤ v (11 + 4 * l.val))))
    ∧ (∀ k : Chan, ok (752 + 3 * k.val) ∧ ok (754 + 3 * k.val)
        ∧ (ok (753 + 3 * k.val) ↔ 1 ≤ v (753 + 3 * k.val) ∧ v (753 + 3 * k.val) ≤ 16))
    ∧ (ok 764 ↔ v 764 ≤ 3) ∧ (ok 765 ↔ v 765 % 8 = 0) ∧ ok 766)
  ∧ ∀ s : State, s.Takes →
    (s.ctl.locked = true →
      exec .lockSettings s = .next { s with ctl := { s.ctl with result := .refusedLock, resultIndex := 0 } })
    ∧ (∀ i : Nat, s.ctl.locked = false → i < itemCount → s.settings.itemOk i = false →
        (∀ j : Nat, j < i → s.settings.itemOk j = true) →
        exec .lockSettings s = .next { s with ctl := { s.ctl with result := .badValue, resultIndex := i } })
    ∧ (s.ctl.locked = false → (∀ i : Nat, i < itemCount → s.settings.itemOk i = true) →
        ∃ t, exec .lockSettings s = .next t
          ∧ t.ctl = { s.ctl with locked := true, result := .done, resultIndex := 0 }
          ∧ t.settings = s.settings ∧ t.sc = s.sc ∧ t.roster = s.roster ∧ t.cage = s.cage
          ∧ t.tb.running = true ∧ t.tb.eCur = s.settings.epochLen
          ∧ t.tb.epoch = BitVec.ofNat 48 s.settings.startEpoch ∧ t.tb.trim = 0 ∧ t.tb.count = 0 ∧ t.tb.frac = 0
          ∧ t.tb.tick = s.tb.tick ∧ (0 < s.settings.epochLen → t.tb.epo = true)
          ∧ t.bus = { s.bus with profileCode :=
                        (profileCodeOf s.settings.epochLen s.settings.hold s.settings.halfWidth s.settings.slew) }
          ∧ t.losPhase = some 0
          ∧ (∀ l : Line, t.lines[l] =
              { s.lines[l] with
                legB := s.settings.paired l && l.val % 2 == 1,
                state := if s.settings.enabled l then .down else (s.lines[l]).state })
          ∧ (∀ l : Line, t.path.arb.view[l] = if s.settings.enabled l then .down else .off)
          ∧ (∀ st : Stream, s.settings.valid st = true →
              (t.path.arb.windows[st]).timeout = effectiveTimeout s.settings t.path.arb.view st)
          ∧ t.path.chans = s.path.chans ∧ t.path.merge = s.path.merge ∧ t.path.store = s.path.store)

/-- What a write access of the window does: nothing unless it is a whole register at its offset; the index, argument
and roster registers take the value cut to their width; the command register issues the command its code names; any
other register drops the write (R163, R164, R169). That a value above the fields of a register is cut to them, and that
a write at 018h, 020h or 188h does what the row of its own does, is the model's reading (DEDUCED, log 20). -/
def Obligations.RegisterWriteReachesItsRegister : Prop :=
  ∀ (offset size : Nat) (v : BitVec 64) (s : State), s.resetLow = false →
    (size ≠ 8 ∨ offset % 8 ≠ 0 → exec (.registerWrite offset size v) s = .next s)
    ∧ (offset ∉ [0x010, 0x018, 0x020, 0x028, 0x030, 0x070, 0x080, 0x188] →
        exec (.registerWrite offset size v) s = .next s)
    ∧ exec (.registerWrite 0x010 8 v) s = .next { s with ctl := { s.ctl with settingsIndex := v.truncate 16 } }
    ∧ exec (.registerWrite 0x028 8 v) s = .next { s with ctl := { s.ctl with arg0 := v } }
    ∧ exec (.registerWrite 0x030 8 v) s = .next { s with ctl := { s.ctl with arg1 := v.truncate 32 } }
    ∧ exec (.registerWrite 0x070 8 v) s = .next { s with ctl := { s.ctl with counterIndex := v.truncate 16 } }
    ∧ exec (.registerWrite 0x080 8 v) s = .next { s with ctl := { s.ctl with rosterSelect := Fin.ofNat 16 v.toNat } }
    ∧ exec (.registerWrite 0x018 8 v) s = exec (.settingsValueWrite v) s
    ∧ exec (.registerWrite 0x188 8 v) s = exec (.attentionEnablesWrite v) s
    ∧ exec (.registerWrite 0x020 8 v) s =
        (let c : Chan := Fin.ofNat 4 (v.toNat / 256)
         match v.toNat % 256 with
         | 1 => exec .lockSettings s
         | 2 => exec .joinCage s
         | 3 => exec .leaveCage s
         | 4 => exec .captureReset s
         | 5 => exec .clearCounters s
         | 6 => exec (.startChannel c) s
         | 7 => exec (.stopChannel c) s
         | 8 => exec (.flushChannel c) s
         | 9 => exec (.postBuffer c) s
         | 10 => exec (.takeClosed c) s
         | 11 => exec .armAttention s
         | n => exec (.unknownCommand (BitVec.ofNat 8 n)) s)

/-- A read access returns the bytes it covers and changes nothing, but that a read which covers the low byte of the
attention causes empties the cause set (R163, R173; where the bytes stand is the model's own field, log 21). What each
register holds, its fields each at its lowest bit (R163, R164), with 0 in the bits that no field occupies (the model's
choice, log 35), and which counter an index names (R166). -/
def Obligations.ReadsChangeOnlyTheCauses : Prop :=
  (∀ (offset size : Nat) (s : State), s.resetLow = false →
    ∃ t, exec (.attentionCausesRead offset size) s = .next t
      ∧ t = { s with ctl := { s.ctl with readData := t.ctl.readData },
                     path := { s.path with att := { s.path.att with causes := t.path.att.causes } } }
      ∧ t.ctl.readData.length = size
      ∧ (∀ k : Nat, k < size → t.ctl.readData[k]? =
          some (BitVec.ofNat 8 (s.register ((offset + k) / 8 * 8) / 256 ^ ((offset + k) % 8))))
      ∧ t.path.att.causes = (if offset ≤ 0x180 ∧ 0x180 < offset + size then 0 else s.path.att.causes))
  ∧ (∀ fields : List (Nat × Nat), fieldsAt fields = (fields.map fun x => x.2 * 2 ^ x.1).sum)
  ∧ (∀ s : State,
    let x := s.roster[s.ctl.rosterSelect]
    s.register 0x000 = fieldsAt [(0, 0x4C44), (16, 0x0330), (32, 1), (40, s.bus.station.val)]
    ∧ s.register 0x008 = fieldsAt [(0, s.ctl.locked.toNat), (16, s.bus.profileCode.toNat)]
    ∧ s.register 0x010 = s.ctl.settingsIndex.toNat
    ∧ s.register 0x018 = s.settings.item s.ctl.settingsIndex.toNat
    ∧ s.register 0x020 = 0
    ∧ s.register 0x028 = s.ctl.arg0.toNat
    ∧ s.register 0x030 = s.ctl.arg1.toNat
    ∧ s.register 0x038 = fieldsAt [(0, s.ctl.result.code), (16, s.ctl.resultIndex)]
    ∧ s.register 0x040 = s.ctl.taken.addr
    ∧ s.register 0x048 = fieldsAt [(0, s.ctl.taken.fill), (32, s.ctl.taken.records)]
    ∧ s.register 0x050 = fieldsAt [(0, s.ctl.taken.reason), (8, s.ctl.taken.channel)]
    ∧ s.register 0x058 = s.ctl.taken.firstTick
    ∧ s.register 0x060 = s.ctl.taken.lastTick
    ∧ s.register 0x070 = s.ctl.counterIndex.toNat
    ∧ s.register 0x078 = s.counter s.ctl.counterIndex.toNat
    ∧ s.register 0x080 = s.ctl.rosterSelect.val
    ∧ s.register 0x088 = fieldsAt [(0, x.present.toNat), (1, x.heard.toNat), (4, x.lastState.code), (7, x.muted.toNat),
        (8, x.profileMatch.toNat), (16, x.linesUp.toNat), (24, x.peersHeard), (32, x.silence)]
    ∧ s.register 0x090 = x.epoch.toNat
    ∧ s.register 0x098 = (x.offset % 2 ^ 16).toNat
    ∧ s.register 0x0A0 = fieldsAt [(0, s.sc.state.code), (4, s.sc.mutedProfile.toNat), (5, s.sc.mutedClash.toNat),
        (8, s.sc.good), (16, s.sc.listen)]
    ∧ s.register 0x0A8 = fieldsAt (allLines.map fun l => (4 * l.val, (s.lines[l]).state.code))
    ∧ s.register 0x0B0 = fieldsAt [(0, s.path.store.free), (16, s.path.store.lowWater)]
    ∧ s.register 0x0B8 = fieldsAt [(0, (allLines.filter fun l => (s.path.merge.inFlight[l]).isSome).length),
        (16, s.path.merge.pending.length)]
    ∧ s.register 0x0C0 = (match s.path.writer with
        | .abandoned _ => 1
        | _ => 0)
    ∧ (∀ c : Chan,
        let ch := s.path.chans[c]
        s.register (0x100 + 0x20 * c.val) = fieldsAt [(0, ch.state.code), (4, ch.state.stallCode),
            (6, ChanCommand.code ch.pendingCmd), (8, ch.current.isSome.toNat), (9, ch.next.isSome.toNat),
            (10, ch.owed.toNat), (11, (s.path.writing c).toNat), (16, ch.queue.length), (28, ch.closed.length),
            (32, (ch.current.map CurrentBuffer.fill).getD 0)]
        ∧ s.register (0x108 + 0x20 * c.val) = (ch.tally.map Tally.count).getD 0
        ∧ s.register (0x110 + 0x20 * c.val) = (ch.tally.map Tally.first).getD 0
        ∧ s.register (0x118 + 0x20 * c.val) = (ch.tally.map Tally.last).getD 0)
    ∧ s.register 0x180 = s.path.att.causes.toNat
    ∧ s.register 0x188 = s.path.att.enables.toNat
    ∧ s.register 0x190 = s.path.att.armed.toNat
    ∧ ∀ offset : Nat, 0x0C0 < offset ∧ offset < 0x100 ∨ 0x190 < offset ∨ offset = 0x068 → s.register offset = 0)
  ∧ ∀ s : State,
    (∀ i : Nat, i < 11 → s.counter i =
      [s.cage.marks, s.cage.voidEarly, s.cage.voidNoMark, s.cage.voidLong, s.cage.split, s.cage.slotClash,
        s.cage.noticeError, s.cage.numberSeen, s.cage.epochClash, s.cage.scaleSteps, s.cage.heldEntries].getD i 0)
    ∧ (∀ (l : Line) (i : Nat), i < 12 →
        let k := (s.lines[l]).counters
        s.counter (16 + 16 * l.val + i) =
          [k.captured, k.ignored, k.storeFull, k.cut, k.fcsErrors, k.runts, k.oversize, k.aborts, k.unmatched,
            k.mergeFull, k.codeErrors, k.losAssertions].getD i 0)
    ∧ s.counter 144 = s.path.merge.released ∧ s.counter 145 = s.path.merge.peak
    ∧ (∀ (e : Stream) (i : Nat), i < 8 →
        let k := s.path.arb.counters[e]
        s.counter (256 + 8 * e.val + i) =
          [k.first, k.shadowDelivered, k.shadowSuppressed, k.late, k.lost, k.gaps, k.reseeds, k.noSeq].getD i 0)
    ∧ (∀ (c : Chan) (i : Nat), i < 9 →
        let k := (s.path.chans[c]).counters
        s.counter (768 + 16 * c.val + i) =
          [k.written, k.bytes, k.lost, k.full, k.flush, k.idle, k.stop, k.error, k.writeErrors].getD i 0)

/-- CLEAR COUNTERS (R172): every counter 0, the low-water mark at the free count, the peak at the number pending. A
channel whose good write completed at this very instant is judged first (R148), so that a closure which the completion
owes is counted before the clear: the model's reading (log 18). Where R148 asks nothing of any channel, the command
changes nothing else. -/
def Obligations.ClearCountersClearsCountersOnly : Prop :=
  ∀ s : State, s.Takes → ∃ t, exec .clearCounters s = .next t
    ∧ t = { s with
            cage := t.cage, lines := t.lines
            path := { s.path with
                      store := { s.path.store with lowWater := s.path.store.free }
                      merge := { s.path.merge with released := 0, peak := s.path.merge.pending.length }
                      arb := { s.path.arb with counters := t.path.arb.counters }
                      chans := t.path.chans, att := t.path.att, mem := t.path.mem }
            ctl := { s.ctl with result := .done, resultIndex := 0 } }
    ∧ t.cage = {} ∧ (∀ l : Line, t.lines[l] = { s.lines[l] with counters := {} })
    ∧ (∀ st : Stream, t.path.arb.counters[st] = {})
    ∧ (∀ c : Chan,
        let ch : Channel := { s.path.chans[c] with ended := false }
        (s.path.writing c = true → t.path.chans[c] = { ch with counters := {} })
        ∧ (s.path.writing c = false → ∃ out : Channel, ch.JudgedTo out ∧ t.path.chans[c] = { out with counters := {} }))
    ∧ s.path.Attended t.path
    ∧ ((∀ c : Chan, (s.path.chans[c]).Ready ∨ s.path.writing c = true) →
        t.path.att = s.path.att ∧ t.path.mem = s.path.mem)
    ∧ (∀ a : Nat, (∀ x ∈ t.path.inFlightWrites, a < x.addr ∨ x.addr + x.bytes.length ≤ a) →
        Memory.read t.path.mem a = Memory.read s.path.mem a)
    ∧ (∀ i : Nat, i ≠ 145 → t.counter i = 0)

/-- CAPTURE RESET (R171, R82, R89, R112, R134, R157): refused while unlocked; else the capture path is empty and the
rest is left. What the completions of this very instant have left comes first (log 18): their channels are judged, with
the causes of that (R148, R173), in `q`, and the write that the writer has fallen to is issued, and abandoned with it;
a writer fallen to a channel that no longer requests is free. -/
def Obligations.CaptureResetEmptiesTheCapturePath : Prop :=
  ∀ s : State, s.Takes →
    (s.ctl.locked = false →
      exec .captureReset s = .next { s with ctl := { s.ctl with result := .refusedLock, resultIndex := 0 } })
    ∧ (s.ctl.locked = true → ∃ (t : State) (q : Path), exec .captureReset s = .next t
        ∧ (∀ k : Chan,
            let ch : Channel := { s.path.chans[k] with ended := false }
            (s.path.writing k = true → q.chans[k] = ch) ∧ (s.path.writing k = false → ch.JudgedTo q.chans[k]))
        ∧ s.path.Attended q
        ∧ ((∀ k : Chan, (s.path.chans[k]).Ready ∨ s.path.writing k = true) → q.att = s.path.att)
        ∧ (∀ a : Nat, (∀ x ∈ t.path.inFlightWrites, a < x.addr ∨ x.addr + x.bytes.length ≤ a) →
            Memory.read q.mem a = Memory.read s.path.mem a)
        ∧ t = { s with lines := t.lines
                       path := { t.path with att := q.att, mem := q.mem, draws := s.path.draws }
                       ctl := { s.ctl with result := .done, resultIndex := 0 } }
        ∧ t.path.store = ⟨4096, 4096⟩
        ∧ (∀ l : Line, t.path.merge.inFlight[l] = none) ∧ t.path.merge.pending = [] ∧ t.path.merge.released = 0
        ∧ t.path.merge.peak = 0
        ∧ t.path.arb.time = s.now ∧ t.path.arb.view = s.path.arb.view
        ∧ (∀ st : Stream, t.path.arb.windows[st] =
            { tracking := false, n := 0, slots := Vector.replicate 256 .unseen, holeSince := none, deadline := none,
              timeout := (s.path.arb.windows[st]).timeout })
        ∧ (∀ st : Stream, t.path.arb.counters[st] = {})
        ∧ (∀ c : Chan, t.path.chans[c] = {})
        ∧ (s.path.writer = .free → t.path.writer = .free)
        ∧ (∀ c run w, s.path.writer = .holding c run w → t.path.writer = .abandoned w)
        ∧ (∀ w, s.path.writer = .abandoned w → t.path.writer = .abandoned w)
        ∧ (∀ c run, s.path.writer = .granted c run →
            (q.chans[c].Requests → ∃ (r : Record) (rest : List Record) (b : CurrentBuffer),
              q.chans[c].queue = r :: rest ∧ q.chans[c].current = some b
                ∧ t.path.writer = .abandoned ⟨b.addr + b.fill, r.encode⟩)
            ∧ (¬ q.chans[c].Requests → t.path.writer = .free))
        ∧ (∀ l : Line, (∀ f, (s.lines[l]).reception ≠ .capturing f) →
            t.lines[l] = { s.lines[l] with counters := {} })
        ∧ (∀ (l : Line) (f : PortFrame), (s.lines[l]).reception = .capturing f →
            t.lines[l] = { s.lines[l] with counters := {}, reception := .skipping }))

/-! ## Attention -/

/-- ARM ATTENTION and a write of the enable set, with the message they may send; and the completion of the message in
flight, good or failed: a waiting message is issued, and else none is in flight (R174). A good one leaves its bytes in
host memory, but for those that a write in flight may still change (log 13). -/
def Obligations.AttentionMessageIsSentAndCompleted : Prop :=
  ∀ (v : BitVec 64) (good : Bool) (s : State), s.resetLow = false →
    (s.ctl.result ≠ .pending → ∃ t, exec .armAttention s = .next t
      ∧ t.ctl = { s.ctl with result := .done, resultIndex := 0 }
      ∧ t.path.att.causes = s.path.att.causes ∧ t.path.att.enables = s.path.att.enables
      ∧ ((s.path.att.causes &&& s.path.att.enables) = 0 →
          t.path.att = { s.path.att with armed := true } ∧ t.path.mem = s.path.mem)
      ∧ ((s.path.att.causes &&& s.path.att.enables) ≠ 0 → t.path.att.armed = false
          ∧ (s.path.att.message = none →
              t.path.att.message = some ⟨s.settings.attentionAddr, leBytes 8 s.settings.attentionWord⟩
                ∧ t.path.att.waiting = s.path.att.waiting)
          ∧ (s.path.att.message ≠ none →
              t.path.att.message = s.path.att.message ∧ t.path.att.waiting = true)))
    ∧ (∃ t, exec (.attentionEnablesWrite v) s = .next t
      ∧ t.ctl = s.ctl ∧ t.path.att.causes = s.path.att.causes ∧ t.path.att.enables = v.truncate 6
      ∧ (s.path.att.armed = false ∨ (s.path.att.causes &&& v.truncate 6) = 0 →
          t.path.att = { s.path.att with enables := v.truncate 6 } ∧ t.path.mem = s.path.mem)
      ∧ (s.path.att.armed = true → (s.path.att.causes &&& v.truncate 6) ≠ 0 → t.path.att.armed = false
          ∧ (s.path.att.message = none →
              t.path.att.message = some ⟨s.settings.attentionAddr, leBytes 8 s.settings.attentionWord⟩)
          ∧ (s.path.att.message ≠ none →
              t.path.att.message = s.path.att.message ∧ t.path.att.waiting = true)))
    ∧ ∀ w : LinkWrite, s.path.att.message = some w →
      ∃ t, exec (.attentionMessageComplete good) s = .next t
        ∧ t.path.att = { s.path.att with
            message := (if s.path.att.waiting
              then some ⟨s.settings.attentionAddr, leBytes 8 s.settings.attentionWord⟩ else none),
            waiting := false }
        ∧ t = { s with path := { s.path with att := t.path.att, mem := t.path.mem } }
        ∧ (good = true → ∀ k : Nat, k < w.bytes.length →
            (∀ x ∈ t.path.inFlightWrites, w.addr + k < x.addr ∨ x.addr + x.bytes.length ≤ w.addr + k) →
            Memory.read t.path.mem (w.addr + k) = w.bytes[k]?)
        ∧ (∀ a : Nat, a < w.addr ∨ w.addr + w.bytes.length ≤ a →
            (∀ x ∈ t.path.inFlightWrites, a < x.addr ∨ x.addr + x.bytes.length ≤ a) →
            Memory.read t.path.mem a = Memory.read s.path.mem a)

/-! ## Channels -/

/-- What an offer does to the queue, the loss tally, the lost counter and the store (R140, R141). -/
def Obligations.OfferFollowsTheTally : Prop :=
  ∀ (e : Env) (c : Chan) (r : Record) (p : Path), p.WithinCapacity →
    let ch := p.chans[c]
    let q := p.offer e c r
    (ch.tally = none → ch.queue.length < 1024 →
      q = { p with chans := q.chans } ∧ q.chans[c] = { ch with queue := ch.queue ++ [r] })
    ∧ (∀ t : Tally, ch.tally = some t → ch.queue.length + 2 ≤ 1024 →
      q = { p with chans := q.chans }
        ∧ q.chans[c] = { ch with queue := ch.queue ++ [.loss t.count t.first t.last, r], tally := none })
    ∧ (ch.tally = none → ch.queue.length = 1024 →
      q.chans[c] = { ch with tally := some ⟨1, r.tick, r.tick⟩,
                             counters := { ch.counters with lost := countUp ch.counters.lost } }
        ∧ q.store.free = p.store.free + r.blocks ∧ q.att.causes = p.att.causes ||| 0b100000#6)
    ∧ (∀ t : Tally, ch.tally = some t → 1024 ≤ ch.queue.length + 1 →
      q.chans[c] = { ch with tally := some ⟨min (t.count + 1) 4294967295, t.first, r.tick⟩,
                             counters := { ch.counters with lost := countUp ch.counters.lost } }
        ∧ q.store.free = p.store.free + r.blocks ∧ q.att = p.att)
    ∧ ∀ k : Chan, k ≠ c → q.chans[k] = p.chans[k]

/-- START CHANNEL (R145, R148, R154, R173): refused in RUN, STALLED and ERROR with an owed closure; else DONE, the next
buffer promoted out of ERROR, the idle timer started from this instant when its interval is set and the current buffer
holds a record (R152), and the channel judged at once, with the causes of what becomes of it. A channel of which a write
is in flight, as no run has it in these states, is not judged. -/
def Obligations.StartChannelEntersRun : Prop :=
  ∀ (c : Chan) (s : State), s.Takes →
    let ch := s.path.chans[c]
    let promoted := ch.state = .error ∧ ch.current = none
    let cur := if promoted then ch.next.map Path.freshBuffer else ch.current
    let next := if promoted then none else ch.next
    (ch.state = .run ∨ (∃ r, ch.state = .stalled r) ∨ (ch.state = .error ∧ ch.owed = true) →
      exec (.startChannel c) s = .next { s with ctl := { s.ctl with result := .refusedState, resultIndex := 0 } })
    ∧ (ch.state = .idle ∨ ch.state = .stopped ∨ (ch.state = .error ∧ ch.owed = false) →
        ∃ t, exec (.startChannel c) s = .next t ∧ t.ctl = { s.ctl with result := .done, resultIndex := 0 }
          ∧ t.path.writer = s.path.writer ∧ s.path.Attended t.path
          ∧ (∀ k : Chan, k ≠ c → (s.path.chans[k]).Ready → t.path.chans[k] = s.path.chans[k])
          ∧ ∃ entered : Channel,
              entered = { ch with state := .run, current := cur, next := next, ended := false,
                                  idleExpiry := entered.idleExpiry }
              ∧ (s.settings.idleTicks c ≠ 0 → (∃ b, cur = some b ∧ 0 < b.records) →
                  entered.idleExpiry = some (s.now + s.settings.idleTicks c))
              ∧ (s.settings.idleTicks c = 0 ∨ (∀ b, cur = some b → b.records = 0) → entered.idleExpiry = none)
              ∧ (s.path.writing c = false → entered.JudgedTo t.path.chans[c])
              ∧ (s.path.writing c = true → t.path.chans[c] = entered))

/-- STOP CHANNEL (R150): refused in IDLE, STOPPED and ERROR; PENDING while the channel's write is in flight; else the
channel stops at once, with a STOP closure of a buffer that holds a record when the closed list has room. Where the
writer has fallen to the channel at this very instant, its choice is made again and passes the channel over (R156; log
18). -/
def Obligations.StopChannelStops : Prop :=
  ∀ (c : Chan) (s : State), s.Takes →
    let ch := s.path.chans[c]
    (ch.state = .idle ∨ ch.state = .stopped ∨ ch.state = .error →
      exec (.stopChannel c) s = .next { s with ctl := { s.ctl with result := .refusedState, resultIndex := 0 } })
    ∧ (ch.state = .run ∨ (∃ r, ch.state = .stalled r) →
        (s.path.writing c = true → ∃ t, exec (.stopChannel c) s = .next t
          ∧ t.ctl = { s.ctl with result := .pending, resultIndex := 0 }
          ∧ t.path = { s.path with chans := t.path.chans }
          ∧ t.path.chans[c] = { ch with pendingCmd := some .stop }
          ∧ ∀ k : Chan, k ≠ c → t.path.chans[k] = s.path.chans[k])
        ∧ (s.path.writing c = false → ∃ t, exec (.stopChannel c) s = .next t
          ∧ t.ctl = { s.ctl with result := .done, resultIndex := 0 }
          ∧ t.path.chans[c].state = .stopped ∧ t.path.chans[c].pendingCmd = none
          ∧ t.path.chans[c].idleExpiry = none ∧ t.path.chans[c].queue = ch.queue ∧ t.path.chans[c].tally = ch.tally
          ∧ ((∀ run, s.path.writer ≠ .granted c run) → t.path.writer = s.path.writer)
          ∧ (∀ run, s.path.writer = .granted c run → t.path.Grants s.settings.urgent (some c))
          ∧ (∀ k : Chan, k ≠ c → t.path.chans[k] = s.path.chans[k])
          ∧ (∀ b, ch.current = some b → 0 < b.records → ch.closed.length < 4 →
              t.path.chans[c].closed = ch.closed ++ [b.entry .stop]
                ∧ t.path.chans[c].current = ch.next.map Path.freshBuffer ∧ t.path.chans[c].next = none
                ∧ t.path.att.causes = s.path.att.causes ||| 0b000001#6)
          ∧ ((∀ b, ch.current = some b → b.records = 0 ∨ 4 ≤ ch.closed.length) →
              t.path.chans[c].closed = ch.closed ∧ t.path.chans[c].current = ch.current
                ∧ t.path.chans[c].next = ch.next ∧ t.path.att = s.path.att)))

/-- FLUSH CHANNEL (R151): refused in IDLE and ERROR; PENDING while the channel's write is in flight; else EMPTY, DONE
with a FLUSH closure, or FULL, and a channel in RUN is judged at once (R148), each with its causes (R173). Where the
writer has fallen to the channel at this very instant, its choice is made again and passes the channel over (R156; log
18). -/
def Obligations.FlushChannelFlushes : Prop :=
  ∀ (c : Chan) (s : State), s.Takes →
    let ch := s.path.chans[c]
    let kept : Channel := { ch with pendingCmd := none, ended := false }
    (ch.state = .idle ∨ ch.state = .error →
      exec (.flushChannel c) s = .next { s with ctl := { s.ctl with result := .refusedState, resultIndex := 0 } })
    ∧ (ch.state ≠ .idle → ch.state ≠ .error →
        (s.path.writing c = true → ∃ t, exec (.flushChannel c) s = .next t
          ∧ t.ctl = { s.ctl with result := .pending, resultIndex := 0 }
          ∧ t.path = { s.path with chans := t.path.chans }
          ∧ t.path.chans[c] = { ch with pendingCmd := some .flush }
          ∧ ∀ k : Chan, k ≠ c → t.path.chans[k] = s.path.chans[k])
        ∧ (s.path.writing c = false → ∃ t, exec (.flushChannel c) s = .next t ∧ t.ctl.resultIndex = 0
          ∧ s.path.Attended t.path
          ∧ ((∀ run, s.path.writer ≠ .granted c run) → t.path.writer = s.path.writer)
          ∧ (∀ run, s.path.writer = .granted c run → t.path.Grants s.settings.urgent (some c))
          ∧ (∀ k : Chan, k ≠ c → (s.path.chans[k]).Ready → t.path.chans[k] = s.path.chans[k])
          ∧ ((∀ b, ch.current = some b → b.records = 0) →
              t.ctl.result = .empty ∧ kept.JudgedTo t.path.chans[c])
          ∧ (∀ b, ch.current = some b → 0 < b.records → ch.closed.length < 4 → t.ctl.result = .done
              ∧ t.path.att.causes.getLsbD 0 = true
              ∧ Channel.JudgedTo { kept with
                  closed := ch.closed ++ [b.entry .flush], current := ch.next.map Path.freshBuffer, next := none,
                  idleExpiry := none, counters := { ch.counters with flush := countUp ch.counters.flush } }
                  t.path.chans[c])
          ∧ (∀ b, ch.current = some b → 0 < b.records → 4 ≤ ch.closed.length →
              t.ctl.result = .full ∧ kept.JudgedTo t.path.chans[c])))

/-- POST BUFFER (R142, R149, R170): address and length come from the argument registers; BAD_VALUE, the current buffer,
the next buffer, or FULL; a current buffer ends a NO_BUFFER stall, and a channel in RUN is judged on it (R148), with its
causes (R173). The slots are those of the channel as the command finds it: a channel whose good write completed at this
very instant has been judged first (log 18). -/
def Obligations.PostBufferFillsTheSlots : Prop :=
  ∀ (c : Chan) (s : State), s.Takes →
    let addr := s.ctl.arg0.toNat
    let len := s.ctl.arg1.toNat
    let valid := addr % 4096 = 0 ∧ len % 4096 = 0 ∧ 4096 ≤ len ∧ len ≤ 4194304 ∧ addr + len ≤ 2 ^ 64
    (¬ valid →
      exec (.postBuffer c) s = .next { s with ctl := { s.ctl with result := .badValue, resultIndex := 0 } })
    ∧ (valid → ∃ (t : State) (found : Channel), exec (.postBuffer c) s = .next t
        ∧ s.path.FindsChannel c found ∧ s.path.Attended t.path
        ∧ (∀ k : Chan, k ≠ c → (s.path.chans[k]).Ready → t.path.chans[k] = s.path.chans[k])
        ∧ (found.current ≠ none → found.next ≠ none →
            t.ctl = { s.ctl with result := .full, resultIndex := 0 } ∧ t.path.chans[c] = found
              ∧ (found = s.path.chans[c] → t.path = s.path))
        ∧ (found.current ≠ none → found.next = none →
            t.ctl = { s.ctl with result := .done, resultIndex := 0 }
              ∧ t.path.chans[c] = { found with next := some ⟨addr, len⟩ }
              ∧ (found = s.path.chans[c] → t.path = { s.path with chans := t.path.chans }))
        ∧ (found.current = none →
            let filled : Channel := { found with
              current := some { addr := addr, len := len, fill := 0, records := 0, firstTick := 0, lastTick := 0 }
              state := if found.state = .stalled .noBuffer then .run else found.state }
            t.ctl = { s.ctl with result := .done, resultIndex := 0 }
              ∧ (s.path.writing c = true → t.path.chans[c] = filled)
              ∧ (s.path.writing c = false → filled.JudgedTo t.path.chans[c])))

/-- TAKE CLOSED (R144, R149, R153, R170): EMPTY, or the oldest entry in the taken registers, and the closure that
waited for the freed entry made at once, with its causes (R173). The closed list is that of the channel as the command
finds it: a channel whose good write completed at this very instant has been judged first (log 18). -/
def Obligations.TakeClosedReturnsTheOldest : Prop :=
  ∀ (c : Chan) (s : State), s.Takes →
    ∃ (t : State) (found : Channel), exec (.takeClosed c) s = .next t
      ∧ s.path.FindsChannel c found ∧ s.path.Attended t.path
      ∧ (∀ k : Chan, k ≠ c → (s.path.chans[k]).Ready → t.path.chans[k] = s.path.chans[k])
      ∧ (found.closed = [] →
          t.ctl = { s.ctl with result := .empty, resultIndex := 0 } ∧ t.path.chans[c] = found
            ∧ (found = s.path.chans[c] → t.path = s.path))
      ∧ (∀ x rest, found.closed = x :: rest →
          t.ctl = { s.ctl with
            result := .done, resultIndex := 0,
            taken := { addr := x.addr, fill := x.fill, records := x.records, reason := x.reason.code,
                       channel := c.val, firstTick := x.firstTick, lastTick := x.lastTick } }
          ∧ (∀ b, found.owed = true → found.current = some b →
              t.path.chans[c].closed = rest ++ [b.entry .error] ∧ t.path.chans[c].owed = false
                ∧ t.path.chans[c].current = none ∧ t.path.chans[c].next = found.next
                ∧ t.path.att.causes.getLsbD 0 = true)
          ∧ (∀ b, found.owed = false → found.state = .stalled .closedFull → found.current = some b →
              t.path.att.causes.getLsbD 0 = true
              ∧ (found.next = none → t.path.chans[c].closed = rest ++ [b.entry .full]
                  ∧ t.path.chans[c].current = none ∧ t.path.chans[c].state = .stalled .noBuffer
                  ∧ t.path.att.causes.getLsbD 1 = true)
              ∧ ∀ n, found.next = some n →
                  let rolled : Channel := { found with
                    state := .run, closed := rest ++ [b.entry .full], current := some (Path.freshBuffer n), next := none
                    idleExpiry := none, counters := { found.counters with full := countUp found.counters.full } }
                  (s.path.writing c = true → t.path.chans[c] = rolled)
                  ∧ (s.path.writing c = false → rolled.JudgedTo t.path.chans[c]))
          ∧ (found.owed = false → found.state ≠ .stalled .closedFull →
              (s.path.writing c = true → t.path.chans[c] = { found with closed := rest })
              ∧ (s.path.writing c = false → Channel.JudgedTo { found with closed := rest } t.path.chans[c])))

/-- A good completion of the holder's write, the six steps of R147, with a pending STOP or FLUSH taking effect (R150,
R151), each closure with its cause (R173), and the writer's choice (R155), which passes over a holder that a STOP or
FLUSH has stopped (R156). With none pending R148 is judged when the instant ends, and a write that falls to this same
channel is issued then (log 18). Each byte of the write is in host memory from this instant where no write in flight may
still change it (log 13). -/
def Obligations.GoodCompletionMovesTheRecordOut : Prop :=
  ∀ (c : Chan) (run : Nat) (w : LinkWrite) (r : Record) (rest : List Record) (b : CurrentBuffer) (s : State),
    s.resetLow = false → s.path.writer = .holding c run w →
    s.path.chans[c].queue = r :: rest → s.path.chans[c].current = some b →
    let ch := s.path.chans[c]
    let b' : CurrentBuffer :=
      { b with fill := b.fill + r.size, records := b.records + 1,
               firstTick := if b.records = 0 then r.tick else b.firstTick, lastTick := r.tick }
    let expiry := if s.settings.idleTicks c = 0 then none else some (s.now + s.settings.idleTicks c)
    let written : Channel :=
      { ch with
        queue := rest, current := some b', idleExpiry := expiry,
        counters := { ch.counters with written := countUp ch.counters.written,
                                       bytes := addSat ch.counters.bytes r.size } }
    ∃ t, exec .writeCompleteGood s = .next t
      ∧ (let keeps := ch.pendingCmd = none ∧ run < s.settings.runLength c ∧ t.path.chans[c].Wants
            ∧ (s.settings.urgent c = true ∨ ∀ k : Chan, t.path.chans[k].Wants → s.settings.urgent k = false)
         (keeps → t.path.FallsTo c (run + 1))
         ∧ (¬ keeps → t.path.Grants s.settings.urgent (if ch.pendingCmd = none then none else some c)))
      ∧ t.path.store = { s.path.store with free := s.path.store.free + r.blocks }
      ∧ (ch.pendingCmd = none → t.ctl = s.ctl ∧ t.path.chans[c] = { written with ended := true })
      ∧ (ch.pendingCmd = some .stop → t.ctl = { s.ctl with result := .done, resultIndex := 0 }
          ∧ (ch.closed.length < 4 → t.path.chans[c] =
              { written with
                state := .stopped, pendingCmd := none, idleExpiry := none, ended := false,
                closed := ch.closed ++ [b'.entry .stop], current := ch.next.map Path.freshBuffer, next := none,
                counters := { written.counters with stop := countUp ch.counters.stop } })
          ∧ (4 ≤ ch.closed.length → t.path.chans[c] =
              { written with state := .stopped, pendingCmd := none, idleExpiry := none, ended := false }))
      ∧ (ch.pendingCmd = some .flush →
          t.ctl = { s.ctl with result := (if ch.closed.length < 4 then .done else .full), resultIndex := 0 }
          ∧ (ch.closed.length < 4 → Channel.JudgedTo
              { written with
                pendingCmd := none, idleExpiry := none, ended := false, closed := ch.closed ++ [b'.entry .flush],
                current := ch.next.map Path.freshBuffer, next := none,
                counters := { written.counters with flush := countUp ch.counters.flush } } t.path.chans[c])
          ∧ (4 ≤ ch.closed.length →
              Channel.JudgedTo { written with pendingCmd := none, ended := false } t.path.chans[c]))
      ∧ (∀ k : Chan, k ≠ c → (s.path.chans[k]).Ready → t.path.chans[k] = s.path.chans[k])
      ∧ s.path.Attended t.path
      ∧ (ch.pendingCmd ≠ none → ch.closed.length < 4 → t.path.att.causes.getLsbD 0 = true)
      ∧ (ch.pendingCmd = none → (∀ k : Chan, k ≠ c → (s.path.chans[k]).Ready) → t.path.att = s.path.att)
      ∧ (∀ k : Nat, k < w.bytes.length →
          (∀ x ∈ t.path.inFlightWrites, w.addr + k < x.addr ∨ x.addr + x.bytes.length ≤ w.addr + k) →
          Memory.read t.path.mem (w.addr + k) = w.bytes[k]?)
      ∧ (∀ a : Nat, a < w.addr ∨ w.addr + w.bytes.length ≤ a →
          (∀ x ∈ t.path.inFlightWrites, a < x.addr ∨ x.addr + x.bytes.length ≤ a) →
          Memory.read t.path.mem a = Memory.read s.path.mem a)

/-- A failed completion of the holder's write, the five steps of R153, with the causes (R173); the writer's choice
passes over the channel, which requests no more (R155, R156). -/
def Obligations.FailedCompletionStopsInError : Prop :=
  ∀ (c : Chan) (run : Nat) (w : LinkWrite) (r : Record) (rest : List Record) (b : CurrentBuffer) (s : State),
    s.resetLow = false → s.path.writer = .holding c run w →
    s.path.chans[c].queue = r :: rest → s.path.chans[c].current = some b →
    let ch := s.path.chans[c]
    ∃ t, exec .writeCompleteFailed s = .next t
      ∧ t.path.Grants s.settings.urgent (some c)
      ∧ t.path.chans[c].queue = rest ∧ t.path.chans[c].tally = ch.tally
      ∧ t.path.chans[c].counters.lost = countUp ch.counters.lost
      ∧ t.path.chans[c].counters.writeErrors = countUp ch.counters.writeErrors
      ∧ t.path.chans[c].state = .error ∧ t.path.chans[c].pendingCmd = none ∧ t.path.chans[c].idleExpiry = none
      ∧ t.path.store.free = s.path.store.free + r.blocks
      ∧ t.path.att.causes.getLsbD 1 = true ∧ s.path.Attended t.path
      ∧ (ch.closed.length < 4 → t.path.att.causes.getLsbD 0 = true
          ∧ t.path.chans[c].closed = ch.closed ++ [b.entry .error]
          ∧ t.path.chans[c].current = none ∧ t.path.chans[c].next = ch.next ∧ t.path.chans[c].owed = ch.owed)
      ∧ (4 ≤ ch.closed.length → t.path.chans[c].closed = ch.closed ∧ t.path.chans[c].current = some b
          ∧ t.path.chans[c].owed = true)
      ∧ (ch.pendingCmd = none → t.ctl = s.ctl)
      ∧ (ch.pendingCmd ≠ none → t.ctl = { s.ctl with result := .refusedState, resultIndex := 0 })
      ∧ (∀ k : Chan, k ≠ c → (s.path.chans[k]).Ready → t.path.chans[k] = s.path.chans[k])
      ∧ (∀ a : Nat, a < w.addr ∨ w.addr + w.bytes.length ≤ a →
          (∀ x ∈ t.path.inFlightWrites, a < x.addr ∨ x.addr + x.bytes.length ≤ a) →
          Memory.read t.path.mem a = Memory.read s.path.mem a)

/-- The completion of an abandoned write is passed over and the writer is free (R156); it is granted at the end of the
instant (log 18), as EmptyQueueSettlesTheWriter states. A channel on which R148 asks nothing stays, the causes of what
becomes of another are set (R173), the attention state stays when no channel has anything asked, and host memory reads
as before outside the bytes of the abandoned write and those of the writes in flight. -/
def Obligations.AbandonedCompletionFreesTheWriter : Prop :=
  ∀ (w : LinkWrite) (s : State), s.resetLow = false → s.path.writer = .abandoned w →
    ∃ t, exec .abandonedWriteComplete s = .next t
      ∧ t = { s with path := { s.path with
                chans := t.path.chans, writer := .free, att := t.path.att, mem := t.path.mem } }
      ∧ s.path.Attended t.path
      ∧ (∀ c : Chan, (s.path.chans[c]).Ready → t.path.chans[c] = s.path.chans[c])
      ∧ ((∀ c : Chan, (s.path.chans[c]).Ready) → t.path.att = s.path.att)
      ∧ (∀ a : Nat, a < w.addr ∨ w.addr + w.bytes.length ≤ a →
          (∀ x ∈ t.path.inFlightWrites, a < x.addr ∨ x.addr + x.bytes.length ≤ a) →
          Memory.read t.path.mem a = Memory.read s.path.mem a)

/-- A STOP and a completion of the channel's write at one instant give the same outcome in either order, and the
completion's own is what stands when it is failed (R150, R153). That a FLUSH and a completion agree too, and that the
writer's choice after them passes the channel over whichever came first, are the model's reading (R151, R156; log 18).
The two commands, each way round, lead to one state, with the result of the command set. The other channels are such
that R148 asks nothing of them, as it is whenever the commands before have been taken, and what is known of host memory
is in its canonical form, as every step keeps it. -/
def Obligations.StopAndCompletionAgree : Prop :=
  ∀ (c : Chan) (run : Nat) (w : LinkWrite) (r : Record) (rest : List Record) (b : CurrentBuffer) (s : State),
    s.Takes → s.path.writer = .holding c run w → s.path.chans[c].queue = r :: rest →
    s.path.chans[c].current = some b → s.path.chans[c].state = .run → s.path.chans[c].pendingCmd = none →
    (∀ k : Chan, k ≠ c → (s.path.chans[k]).Ready) → Memory.wf s.path.mem →
    let agree := fun (command completion : Instr) (v : State) => ∃ t u,
      exec command s = .next t ∧ exec completion t = .next v
        ∧ exec completion s = .next u ∧ exec command u = .next v ∧ v.path.Grants s.settings.urgent (some c)
    (∃ v, agree (.stopChannel c) .writeCompleteGood v
      ∧ v.ctl = { s.ctl with result := .done, resultIndex := 0 } ∧ v.path.chans[c].state = .stopped
      ∧ v.path.chans[c].queue = rest)
    ∧ (∃ v, agree (.flushChannel c) .writeCompleteGood v
      ∧ v.ctl = { s.ctl with result := (if s.path.chans[c].closed.length < 4 then .done else .full),
                             resultIndex := 0 }
      ∧ v.path.chans[c].queue = rest)
    ∧ (∃ v, agree (.stopChannel c) .writeCompleteFailed v
      ∧ v.ctl = { s.ctl with result := .refusedState, resultIndex := 0 } ∧ v.path.chans[c].state = .error)
    ∧ ∃ v, agree (.flushChannel c) .writeCompleteFailed v
      ∧ v.ctl = { s.ctl with result := .refusedState, resultIndex := 0 } ∧ v.path.chans[c].state = .error

/-- The expiry of the idle timer (R152), and the judging that follows it (R148), with the causes (R173); a channel of
which a good write has completed at this very instant is judged when the instant ends (log 18). -/
def Obligations.IdleFlushExpiryCloses : Prop :=
  ∀ (c : Chan) (x : Nat) (s : State), s.resetLow = false → s.path.chans[c].idleExpiry = some x →
    ticksSince s.now x < 2 ^ 63 →
    let ch := s.path.chans[c]
    ∃ t, exec (.idleFlushExpiry c) s = .next t ∧ s.path.Attended t.path
      ∧ (s.path.writing c = true → t = { s with path := { s.path with chans := t.path.chans } }
          ∧ t.path.chans[c] = { ch with idleExpiry := none })
      ∧ (∀ b, s.path.writing c = false → ch.current = some b → ch.closed.length < 4 →
          let closed : Channel :=
            { ch with
              closed := ch.closed ++ [b.entry .idle], current := ch.next.map Path.freshBuffer, next := none,
              idleExpiry := none, counters := { ch.counters with idle := countUp ch.counters.idle } }
          t.path.att.causes.getLsbD 0 = true ∧ t.path.writer = s.path.writer
            ∧ (ch.ended = false → closed.JudgedTo t.path.chans[c])
            ∧ (ch.ended = true → t.path.chans[c] = closed))
      ∧ (s.path.writing c = false → 4 ≤ ch.closed.length →
          t = { s with path := { s.path with chans := t.path.chans } }
            ∧ t.path.chans[c] =
                { ch with idleExpiry :=
                    (if s.settings.idleTicks c = 0 then none else some (x + s.settings.idleTicks c)) })

/-- A record in host memory: as many bytes as its size says, a multiple of 8 (R138), each header field least
significant byte first at its offset (R159). Frame records use the header as R160 says, with the captured bytes from
offset 40 and zero bytes to the end; records that carry no frame use it as R161 says, with its codes of states and
reasons and R11's of the quality. `lies` lists offset, length and value of fields. -/
def Obligations.RecordsHaveTheirSize : Prop :=
  let lies := fun (r : Record) (fields : List (Nat × Nat × Nat)) =>
    ∀ x ∈ fields, (r.encode.drop x.1).take x.2.1 = leBytes x.2.1 x.2.2
  let dated := fun (r : Record) (st : Stamp) =>
    lies r [(8, 8, st.tick), (16, 6, st.epoch.toNat), (22, 3, st.count), (25, 1, st.quality.code)]
  (∀ n v : Nat, (leBytes n v).length = n
      ∧ ∀ i, i < n → (leBytes n v)[i]? = some (BitVec.ofNat 8 (v / 256 ^ i)))
  ∧ (∀ r : Record, r.encode.length = r.size ∧ r.size % 8 = 0 ∧ 40 ≤ r.size
      ∧ lies r [(0, 1, r.kindCode), (4, 2, r.size), (8, 8, r.tick)])
  ∧ (∀ f : Classified, f.captured.length ≤ 2048 → f.size ≤ 2088)
  ∧ (∀ (f : Classified) (lag : Nat) (winnerB : Bool) (r : Record) (kind flags lagField : Nat),
      (r = .first f ∧ kind = 1 ∧ flags = 0 ∧ lagField = 0)
        ∨ (r = .shadow f lag winnerB ∧ kind = 2 ∧ flags = 16 * winnerB.toNat ∧ lagField = lag)
        ∨ (r = .late f lag ∧ kind = 3 ∧ flags = 0 ∧ lagField = lag) →
      r.size = (40 + f.captured.length + 7) / 8 * 8
        ∧ lies r [(0, 1, kind),
            (1, 1, f.degraded.toNat + 2 * f.cut.toNat + 4 * f.noSeq.toNat + 8 * f.legB.toNat + flags),
            (2, 1, f.stream.val), (3, 1, f.line.val), (4, 2, r.size), (6, 2, f.captured.length),
            (26, 2, f.frameLength), (28, 8, f.seq.getD 0), (36, 4, lagField)]
        ∧ dated r f.stamp
        ∧ (r.encode.drop 40).take f.captured.length = f.captured
        ∧ ∀ i, 40 + f.captured.length ≤ i → i < r.size → r.encode[i]? = some 0)
  ∧ (∀ (st : Stream) (firstLost count since deadline : Nat) (oneLeg : Bool),
      lies (.gap st firstLost count since deadline oneLeg) [(0, 1, 4), (1, 1, 32 * oneLeg.toNat), (2, 1, st.val),
        (3, 1, 0), (4, 2, 40), (6, 2, 0), (8, 8, deadline), (16, 8, since), (24, 2, 0), (26, 2, 0), (28, 8, firstLost),
        (36, 4, count)])
  ∧ (∀ (st : Stream) (oldN number tick : Nat) (l : Line) (legB : Bool),
      lies (.reseed st oldN number tick l legB) [(0, 1, 5), (1, 1, 8 * legB.toNat), (2, 1, st.val), (3, 1, l.val),
        (4, 2, 40), (6, 2, 0), (8, 8, tick), (16, 8, oldN), (24, 2, 0), (26, 2, 0), (28, 8, number), (36, 4, 0)])
  ∧ (∀ (l : Line) (old new : LineState) (reason : LineReason) (errors : Nat) (st : Stamp),
      let r := Record.line l old new reason errors st
      dated r st ∧ lies r [(0, 1, 6), (1, 1, 0), (2, 1, 0), (3, 1, l.val), (4, 2, 40), (6, 2, 0), (26, 2, 0),
        (28, 1, old.code), (29, 1, new.code), (30, 1, reason.code), (31, 5, 0), (36, 4, errors)])
  ∧ (∀ (old new : ScaleState) (reason : TimeReason) (profile clash : Bool) (offset : Int) (peer : Nat)
        (previous : BitVec 48) (st : Stamp),
      let r := Record.time old new reason profile clash offset peer previous st
      dated r st ∧ lies r [(0, 1, 7), (1, 1, 0), (2, 1, 0), (3, 1, 0), (4, 2, 40), (6, 2, 0),
        (26, 2, (offset % 65536).toNat), (28, 1, old.code), (29, 1, new.code), (30, 1, reason.code),
        (31, 1, profile.toNat + 2 * clash.toNat), (32, 6, previous.toNat), (38, 1, peer), (39, 1, 0)])
  ∧ (∀ count first last : Nat,
      lies (.loss count first last) [(0, 1, 8), (1, 1, 0), (2, 1, 0), (3, 1, 0), (4, 2, 40), (6, 2, 0), (8, 8, last),
        (16, 8, first), (24, 2, 0), (26, 2, 0), (28, 8, 0), (36, 4, count)])
  ∧ [LineState.off, .down, .settling, .up, .degraded].map LineState.code = [0, 1, 2, 3, 4]
  ∧ [LineReason.los, .alignLost, .signal, .settled, .errors, .clean].map LineReason.code = [1, 2, 3, 4, 5, 6]
  ∧ [ScaleState.quiet, .listen, .align, .locked, .held].map ScaleState.code = [0, 1, 2, 3, 4]
  ∧ [ScaleState.quiet, .listen, .align, .locked, .held].map (fun x => x.quality.code) = [0, 0, 2, 3, 1]
  ∧ [TimeReason.joined, .adopted, .founded, .gained, .offset, .voids, .stuck, .driveFault, .silent, .resumed,
      .remeasured, .left, .renumbered, .muted, .unmuted].map TimeReason.code
      = [1, 2, 3, 4, 5, 6, 7, 8, 9, 10, 11, 12, 13, 14, 15]

/-! ## The cage side -/

/-- JOIN CAGE (R40, R37, R59, R58): refused while unlocked or outside QUIET; else LISTEN with every count and flag
cleared, the roster cleared, the watch armed, and a TIME record with the TIME cause. LEAVE CAGE (R57, R37, R58): refused
in QUIET; else QUIET with the muted reasons cleared, the drive, the window and the notice abandoned, the other counts,
the roster and the date kept, and a TIME record with the TIME cause. A drive asserted at this very instant leaves
nothing of itself, neither a SPLIT nor the end of a failure of the own pull (R19; log 6, log 38). -/
def Obligations.JoinListensAndLeaveGoesQuiet : Prop :=
  ∀ s : State, s.Takes →
    (s.ctl.locked = false →
      exec .joinCage s = .next { s with ctl := { s.ctl with result := .refusedLock, resultIndex := 0 } })
    ∧ (s.ctl.locked = true → s.sc.state ≠ .quiet →
      exec .joinCage s = .next { s with ctl := { s.ctl with result := .refusedState, resultIndex := 0 } })
    ∧ (s.ctl.locked = true → s.sc.state = .quiet → ∃ t, exec .joinCage s = .next t
        ∧ t.ctl = { s.ctl with result := .done, resultIndex := 0 }
        ∧ t.sc = { state := .listen, mutedProfile := s.sc.mutedProfile, mutedClash := s.sc.mutedClash,
                   good := 0, voids := 0, noMarkRun := 0, clashCount := 0, clashThisEpoch := false, listen := 0,
                   phaseSet := false, measuredHeld := false }
        ∧ (∀ j : Station, t.roster[j] = {})
        ∧ t.bus.window = none ∧ t.bus.fallRef = none ∧ t.bus.transmitter = .idle ∧ t.bus.receiver = none
        ∧ t.bus.lastOffset = 0 ∧ t.bus.watch = .armed ∧ t.bus.drive = none
        ∧ t.bus.releasedSinceClose = (s.bus.releasedSinceClose || (s.bus.markLine && !s.bus.cagePull))
        ∧ t.bus.station = s.bus.station ∧ t.bus.profileCode = s.bus.profileCode
        ∧ t.bus.cagePull = s.bus.cagePull ∧ t.bus.markLine = s.bus.cagePull
        ∧ t.tb = s.tb ∧ t.cage = s.cage ∧ t.lines = s.lines ∧ t.settings = s.settings
        ∧ t.path.att.causes.getLsbD 3 = true
        ∧ s.EventQueueTakes t [.time .quiet .listen .joined s.sc.mutedProfile s.sc.mutedClash 0 0 0
            ⟨s.now, s.tb.epoch, s.tb.readCount, .unscaled⟩])
    ∧ (s.sc.state = .quiet →
      exec .leaveCage s = .next { s with ctl := { s.ctl with result := .refusedState, resultIndex := 0 } })
    ∧ (s.sc.state ≠ .quiet → ∃ t, exec .leaveCage s = .next t
        ∧ t.ctl = { s.ctl with result := .done, resultIndex := 0 }
        ∧ t.sc = { s.sc with state := .quiet, mutedProfile := false, mutedClash := false }
        ∧ t.bus.drive = none ∧ t.bus.window = none ∧ t.bus.fallRef = none ∧ t.bus.transmitter = .idle
        ∧ t.bus.lane = BitVec.allOnes 112 ∧ t.bus.receiver = none ∧ t.bus.watch = .off
        ∧ (s.bus.drive ≠ none → t.bus.asserting = none
            ∧ t.bus.pullFails = (s.bus.pullFails && s.bus.asserting.isSome))
        ∧ t.bus.faultReported = s.bus.faultReported
        ∧ t.bus.lastOffset = s.bus.lastOffset ∧ t.bus.station = s.bus.station
        ∧ t.bus.profileCode = s.bus.profileCode
        ∧ t.bus.releasedSinceClose = (s.bus.releasedSinceClose || (s.bus.markLine && !s.bus.cagePull))
        ∧ t.bus.cagePull = s.bus.cagePull ∧ t.bus.markLine = s.bus.cagePull
        ∧ t.tb = s.tb ∧ t.cage = s.cage ∧ t.roster = s.roster ∧ t.lines = s.lines ∧ t.settings = s.settings
        ∧ t.path.att.causes.getLsbD 3 = true
        ∧ s.EventQueueTakes t [.time s.sc.state .quiet .left false false s.bus.lastOffset 0 0
            ⟨s.now, s.tb.epoch, s.tb.readCount, .unscaled⟩])

/-- What an own boundary does to the Time Base (R5): count and fraction 0, the epoch number one on modulo 2^48, the
length E again, EPO asserted, tick and trim untouched, and the opening and the close of the new epoch to be announced
(R7). And the code-error test of an own boundary (R72): UP and DEGRADED
change on the limit, and the epoch code errors of every enabled line become 0. -/
def Obligations.OwnBoundaryRestartsTheDateAndTestsTheLines : Prop :=
  ∀ s : State, s.resetLow = false → s.tb.running = true → s.tb.eCur ≤ s.tb.count →
    ∃ t, exec .ownBoundary s = .next t
      ∧ t.tb.count = 0 ∧ t.tb.frac = 0 ∧ t.tb.epoch.toNat = (s.tb.epoch.toNat + 1) % 2 ^ 48
      ∧ t.tb.eCur = s.settings.epochLen ∧ t.tb.epo = true
      ∧ t.tb.tick = s.tb.tick ∧ t.tb.trim = s.tb.trim ∧ t.tb.running = true ∧ t.tb.phase = s.tb.phase
      ∧ t.tb.openAnnounced = false ∧ t.tb.closeAnnounced = false ∧ t.tb.ownStart = true
      ∧ ∀ l : Line,
        ((s.lines[l]).state ≠ .off → (t.lines[l]).epochErrors = 0)
        ∧ ((s.lines[l]).state = .up → (t.lines[l]).state =
            if s.settings.errorLimit l < (s.lines[l]).epochErrors then .degraded else .up)
        ∧ ((s.lines[l]).state = .degraded → (t.lines[l]).state =
            if (s.lines[l]).epochErrors ≤ s.settings.errorLimit l then .up else .degraded)
        ∧ ((s.lines[l]).state ≠ .up → (s.lines[l]).state ≠ .degraded → (t.lines[l]).state = (s.lines[l]).state)
        ∧ (t.lines[l]).reception = (s.lines[l]).reception ∧ (t.lines[l]).los = (s.lines[l]).los
        ∧ (t.lines[l]).counters = (s.lines[l]).counters ∧ (t.lines[l]).legB = (s.lines[l]).legB

/-- The work of an own boundary on roster, Scale Controller and drive (R61, R62, R55, R41, R44, R52, R19), with the PEER
cause when a station falls silent (R173) and the rise of the mark line that the own pull makes (R18, R24); in QUIET
there is none. What the drive leaves, the SPLIT of a drive after f (R27) and a hold with no fault reported (R21), stands
in `asserting` until the instant ends, where EmptyQueueSettlesTheWriter takes it: the model's reading of R19 (log 38).
That the own pull can fail (pullFails) is the model's own (log 6). Its TIME records are MUTED or UNMUTED where the
profile test changes the muting, and then FOUNDED, RESUMED or REMEASURED where the state changes, with the date of the
epoch that begins (R58, R5); they are told where no line changes state at the boundary. -/
def Obligations.OwnBoundaryWorksTheCage : Prop :=
  ∀ s : State, s.resetLow = false → s.tb.running = true → s.tb.eCur ≤ s.tb.count →
    ∃ t, exec .ownBoundary s = .next t
      ∧ (s.sc.state = .quiet → t.sc = s.sc ∧ t.roster = s.roster)
      ∧ (s.sc.state ≠ .quiet →
          (∀ j : Station, t.roster[j] =
            if (s.roster[j]).present = true ∧ (s.roster[j]).heard = false then
              { s.roster[j] with
                heard := false, silence := min ((s.roster[j]).silence + 1) 255,
                present := decide (min ((s.roster[j]).silence + 1) 255 < s.settings.silenceLimit) }
            else { s.roster[j] with heard := false })
          ∧ ((∃ j : Station, (s.roster[j]).present = true ∧ (t.roster[j]).present = false) →
              t.path.att.causes.getLsbD 4 = true)
          ∧ t.sc.clashThisEpoch = false ∧ t.sc.phaseSet = false
          ∧ t.sc.clashCount = (if s.sc.clashThisEpoch then s.sc.clashCount else 0)
          ∧ t.sc.mutedClash = s.sc.mutedClash
          ∧ (t.sc.mutedProfile = true ↔ t.presentWith true + 1 < t.presentWith false))
      ∧ (s.sc.state = .listen → t.sc.listen = s.sc.listen + 1
          ∧ t.sc.state = if s.settings.listenLimit ≤ s.sc.listen + 1 then .align else .listen)
      ∧ (s.sc.state = .held → s.bus.drive = none → t.sc.state =
          if t.sc.mutedProfile || t.sc.mutedClash then (if s.sc.measuredHeld then .align else .held)
          else (if s.bus.markLine then .held else .align))
      ∧ (s.sc.state = .align ∨ s.sc.state = .locked → t.sc.state = s.sc.state)
      ∧ (let drives := (t.sc.state = .align ∨ t.sc.state = .locked) ∧ t.sc.mutedProfile = false
            ∧ t.sc.mutedClash = false;
         (drives → s.sc.state ≠ .quiet → t.bus.drive = some s.now ∧ t.bus.asserting ≠ none)
         ∧ (drives → s.sc.state ≠ .quiet → s.bus.drive = none →
            t.bus.asserting = some (s.bus.window.any fun w => w.f.isSome))
         ∧ (¬ drives → s.sc.state ≠ .quiet → s.bus.drive = none → t.bus.drive = none)
         ∧ (s.sc.state ≠ .quiet → t.bus.faultReported = s.bus.faultReported ∧ t.cage.split = s.cage.split)
         ∧ (drives → s.sc.state ≠ .quiet → s.bus.drive = none → s.bus.pullFails = false → t.bus.markLine = true)
         ∧ ∀ w : MarkWindow, s.bus.window = some w → s.bus.drive = none →
            (¬ drives → t.bus.window = some { w with expiry := some s.now })
            ∧ (drives → w.r = none → w.f = none →
                t.bus.window = some { w with
                  expiry := some s.now
                  r := (if s.bus.cagePull = false ∧ s.bus.pullFails = false then some s.now else none) })
            ∧ (drives → w.r ≠ none ∨ w.f ≠ none → t.bus.window = some { w with expiry := some s.now }))
      ∧ ((∀ l : Line, ((s.lines[l]).state = .up → (s.lines[l]).epochErrors ≤ s.settings.errorLimit l)
            ∧ ((s.lines[l]).state = .degraded → s.settings.errorLimit l < (s.lines[l]).epochErrors)) →
          let old := s.sc.state
          let record := fun (x : ScaleState) (new : ScaleState) (reason : TimeReason) =>
            Record.time x new reason t.sc.mutedProfile s.sc.mutedClash s.bus.lastOffset 0 0
              ⟨s.now, s.tb.epoch + 1, 0, new.quality⟩
          let muting := if t.sc.mutedProfile = s.sc.mutedProfile then []
            else [record old old (if t.sc.mutedProfile then .muted else .unmuted)]
          let moving := if t.sc.state = old then []
            else if old = .listen then [record .listen .align .founded]
            else [record .held .align (if t.sc.mutedProfile || t.sc.mutedClash then .remeasured else .resumed)]
          s.EventQueueTakes t (muting ++ moving))

/-- The fall of EPO and the rearming of the pulse watch, each whole (R16, R28); the end of the hold, with which the
line falls unless another station pulls (R18, R19, R24, R25); and the opening of a mark window in ALIGN, LOCKED and
HELD at the opening position, with the level and the flag as they stand, and the fall reference cleared (R7, R22, R25,
R30). That a failure of the own pull (pullFails) ends with the hold is the model's choice (log 6), and so is that the
mark of a notice sent to its end (noticeSent) and the levels that the own notice gave the lane are cleared at the
opening (log 7), and that an opening announced in LISTEN keeps the watch's fall reference (log 37). A hold that ends in
the very instant of its start is not one that stood (log 38). -/
def Obligations.ClockworkEventsAndTheWindowOpening : Prop :=
  ∀ s : State, s.resetLow = false →
    (s.tb.running = true → s.tb.epo = true → (s.tb.eCur + 1) / 2 ≤ s.tb.count →
      exec .epoHalfPoint s = .next { s with tb := { s.tb with epo := false } })
    ∧ (∀ start : Nat, s.bus.drive = some start → s.settings.hold ≤ ticksSince s.now start →
      let released : CageBus :=
        { s.bus with drive := none, asserting := none, pullFails := s.bus.pullFails && s.bus.asserting.isSome }
      (s.bus.cagePull = true ∨ s.bus.pullFails = true →
        exec .markHoldEnd s = .next { s with bus := released })
      ∧ (s.bus.cagePull = false → s.bus.pullFails = false →
        (∀ w r, s.bus.window = some w → w.r = some r → w.f = none →
          exec .markHoldEnd s = .next { s with bus := { released with
            releasedSinceClose := true, window := some { w with f := some s.now },
            fallRef := some ⟨s.now, .window⟩ } })
        ∧ ((∀ w, s.bus.window = some w → w.r = none ∨ w.f ≠ none) →
          exec .markHoldEnd s = .next { s with bus := { released with releasedSinceClose := true } })))
    ∧ (∀ f : Nat, s.bus.watch = .ignoring f → 42000 ≤ ticksSince s.now f →
      exec .pulseWatchRearm s = .next { s with bus := { s.bus with watch := .armed } })
    ∧ (s.tb.running = true → s.tb.openAnnounced = false → s.tb.eCur ≤ s.tb.count + s.settings.halfWidth →
      ∃ t, exec .windowOpening s = .next t
        ∧ t = { s with tb := { s.tb with openAnnounced := true }, bus := t.bus }
        ∧ (s.sc.state = .align ∨ s.sc.state = .locked ∨ s.sc.state = .held →
            t.bus.window = some { openAsserted := s.bus.markLine, releasedBefore := s.bus.releasedSinceClose,
                                  expiry := none, r := none, f := none, split := false }
            ∧ t.bus.fallRef = none
            ∧ t.bus = { s.bus with
                window := t.bus.window, fallRef := none, noticeSent := false, lane := BitVec.allOnes 112 })
        ∧ (s.sc.state = .quiet ∨ s.sc.state = .listen → t.bus = s.bus))

/-- The outcome of a mark window (R26, R23): the first test that holds, with d = W - floor((r + f - H)/2). -/
def Obligations.OutcomeIsTheFirstThatHolds : Prop :=
  ∀ (halfWidth hold x : Nat) (w : MarkWindow), w.expiry = some x →
    (w.openAsserted = true → w.releasedBefore = false → w.outcome halfWidth hold = .stuck)
    ∧ (w.openAsserted = true → w.releasedBefore = true → w.outcome halfWidth hold = .early)
    ∧ (w.openAsserted = false → w.r = none → w.outcome halfWidth hold = .noMark)
    ∧ (∀ r, w.openAsserted = false → w.r = some r → w.f = none → w.outcome halfWidth hold = .long)
    ∧ (∀ r f, w.openAsserted = false → w.r = some r → w.f = some f →
        w.outcome halfWidth hold = .complete
          ((halfWidth : Int) -
            ((halfWidth + modDist 64 x r) + (halfWidth + modDist 64 x f) - hold) / 2))

/-- A window close ends the window: one outcome is counted, the last offset takes a complete d, the flag is taken from
the line as it reads at the close (R7, R25, R26); in HELD a complete outcome is noted and nothing is steered (R51). -/
def Obligations.WindowCloseEndsTheWindow : Prop :=
  ∀ (w : MarkWindow) (s : State), s.resetLow = false → s.tb.running = true → s.tb.ownStart = true →
    s.tb.closeAnnounced = false → s.settings.halfWidth ≤ s.tb.count → s.bus.window = some w →
    let o := w.outcome s.settings.halfWidth s.settings.hold
    ∃ t, exec .windowClose s = .next t
      ∧ t.bus.window = none ∧ (s.bus.drive = none → t.bus.releasedSinceClose = !s.bus.markLine)
      ∧ (s.bus.markLine = false → t.bus.releasedSinceClose = true)
      ∧ t.bus.lastOffset = (match o with
          | .complete d => max (-32767) (min 32767 d)
          | _ => s.bus.lastOffset)
      ∧ t.cage.marks = (match o with
          | .complete _ => countUp s.cage.marks
          | _ => s.cage.marks)
      ∧ t.cage.voidEarly = (if o = .early then countUp s.cage.voidEarly else s.cage.voidEarly)
      ∧ t.cage.voidNoMark = (if o = .noMark then countUp s.cage.voidNoMark else s.cage.voidNoMark)
      ∧ t.cage.voidLong = (if o = .long then countUp s.cage.voidLong else s.cage.voidLong)
      ∧ t.settings = s.settings ∧ t.ctl = s.ctl
      ∧ (s.sc.state = .held → t.tb = { s.tb with closeAnnounced := true } ∧ t.roster = s.roster
          ∧ t.sc = { s.sc with measuredHeld := (match o with
              | .complete _ => true
              | _ => s.sc.measuredHeld) })

/-- A complete outcome in ALIGN or LOCKED steers: the length E - d within the slew limit, the trim one step on, the
runs cleared; the good count leads ALIGN to LOCKED, and an offset beyond 2T leads LOCKED to ALIGN (R45, R46, R47; that
it is the step which is rounded toward zero, and not its sum with the trim, is log 16). EPO follows the new length
(R17), and a change of state is told in a TIME record, GAINED or OFFSET, with the offset just measured (R58). -/
def Obligations.CompleteCloseSteers : Prop :=
  ∀ (w : MarkWindow) (d : Int) (s : State), s.resetLow = false → s.tb.running = true → s.tb.ownStart = true →
    s.tb.closeAnnounced = false → s.settings.halfWidth ≤ s.tb.count → s.bus.window = some w →
    w.outcome s.settings.halfWidth s.settings.hold = .complete d →
    s.settings.slew ≤ s.settings.epochLen → s.tb.count < s.settings.epochLen - s.settings.slew →
    s.sc.state = .align ∨ s.sc.state = .locked →
    ∃ t, exec .windowClose s = .next t
      ∧ (t.tb.eCur : Int) = s.settings.epochLen - max (-(s.settings.slew : Int)) (min s.settings.slew d)
      ∧ t.tb.trim = max (-858993) (min 858993
          (s.tb.trim + Int.tdiv (d * 4294967296) (s.settings.epochLen * 2 ^ s.settings.gain)))
      ∧ t.tb.count = s.tb.count ∧ t.tb.frac = s.tb.frac ∧ t.tb.epoch = s.tb.epoch ∧ t.tb.tick = s.tb.tick
      ∧ t.sc.voids = 0 ∧ t.sc.noMarkRun = 0
      ∧ (s.sc.state = .align → d.natAbs ≤ s.settings.threshold →
          t.sc.good = min (s.sc.good + 1) 255
            ∧ t.sc.state = if s.settings.lockCount ≤ min (s.sc.good + 1) 255 then .locked else .align)
      ∧ (s.sc.state = .align → s.settings.threshold < d.natAbs → t.sc.good = 0 ∧ t.sc.state = .align)
      ∧ (s.sc.state = .locked → d.natAbs ≤ 2 * s.settings.threshold →
          t.sc.good = s.sc.good ∧ t.sc.state = .locked)
      ∧ (s.sc.state = .locked → 2 * s.settings.threshold < d.natAbs → t.sc.good = 0 ∧ t.sc.state = .align)
      ∧ t.tb.epo = decide (s.tb.count < (t.tb.eCur + 1) / 2)
      ∧ (let record := fun (new : ScaleState) (reason : TimeReason) =>
            Record.time s.sc.state new reason s.sc.mutedProfile s.sc.mutedClash (max (-32767) (min 32767 d)) 0 0
              ⟨s.now, s.tb.epoch, s.tb.count, new.quality⟩
         s.EventQueueTakes t
           (if t.sc.state = s.sc.state then []
            else if s.sc.state = .align then [record .locked .gained] else [record .align .offset]))

/-- A void or STUCK outcome in ALIGN or LOCKED: no request to the Time Base; the counts of R48 and R49 and the moves to
ALIGN (VOIDS) and to HELD (SILENT, STUCK) they lead to (R48, R49, R50), each told in a TIME record (R58). -/
def Obligations.VoidAndStuckCloses : Prop :=
  ∀ (w : MarkWindow) (s : State), s.resetLow = false → s.tb.running = true → s.tb.ownStart = true →
    s.tb.closeAnnounced = false → s.settings.halfWidth ≤ s.tb.count → s.bus.window = some w →
    s.sc.state = .align ∨ s.sc.state = .locked →
    let o := w.outcome s.settings.halfWidth s.settings.hold
    let muted := s.sc.mutedProfile || s.sc.mutedClash
    let record := fun (new : ScaleState) (reason : TimeReason) =>
      Record.time s.sc.state new reason s.sc.mutedProfile s.sc.mutedClash s.bus.lastOffset 0 0
        ⟨s.now, s.tb.epoch, s.tb.readCount, new.quality⟩
    (∀ d, o ≠ .complete d) →
    ∃ t, exec .windowClose s = .next t
      ∧ t.tb = { s.tb with closeAnnounced := true }
      ∧ t.sc.good = 0
      ∧ (o = .stuck → t.sc.state = .held ∧ t.bus.drive = none ∧ t.sc.measuredHeld = false
          ∧ t.cage.heldEntries = countUp s.cage.heldEntries ∧ s.EventQueueTakes t [record .held .stuck])
      ∧ (o = .noMark → muted = true → 1 ≤ s.sc.noMarkRun → t.sc.state = .held ∧ t.bus.drive = none
          ∧ t.sc.voids = 0 ∧ t.sc.noMarkRun = 0 ∧ t.cage.heldEntries = countUp s.cage.heldEntries
          ∧ s.EventQueueTakes t [record .held .silent])
      ∧ (o ≠ .stuck → (o = .noMark → muted = true → s.sc.noMarkRun = 0) →
          t.sc.voids = min (s.sc.voids + 1) 255
            ∧ t.sc.noMarkRun = (if o = .noMark ∧ muted = true then 1 else 0)
            ∧ t.sc.state = (if s.sc.state = .locked ∧ 1 ≤ s.sc.voids then .align else s.sc.state)
            ∧ t.cage.heldEntries = s.cage.heldEntries
            ∧ s.EventQueueTakes t (if s.sc.state = .locked ∧ 1 ≤ s.sc.voids then [record .align .voids] else []))

/-- The mark line reads asserted while at least one station pulls it, this one included (R18; log 6), and the edges the
other stations make in a window, in the LISTEN watch and under the own hold (R24, R25, R27, R28, R42, R8, R21, R50),
with EPO as it follows a set count (R17) and the TIME record of a drive fault (R58). A rise or a fall that leaves the
level as it was is noted alone (log 27). -/
def Obligations.MarkLineEdges : Prop :=
  ∀ s : State, s.resetLow = false →
    (s.bus.cagePull = true → s.bus.markLine = true)
    ∧ (∀ start, s.bus.drive = some start → s.bus.pullFails = false → s.bus.markLine = true)
    ∧ (s.bus.cagePull = false → s.bus.drive = none ∨ s.bus.pullFails = true → s.bus.markLine = false)
    ∧ (s.bus.markLine = true → exec .markLineRise s = .next { s with bus := { s.bus with cagePull := true } })
    ∧ (s.bus.markLine = false → s.bus.cagePull = false
        ∧ exec .markLineFall s = .next { s with bus := { s.bus with pullFails := true } })
    ∧ (∀ start, s.bus.cagePull = true → s.bus.drive = some start → s.bus.pullFails = false →
        exec .markLineFall s = .next { s with bus := { s.bus with cagePull := false } })
    ∧ (s.bus.markLine = false → ∃ t, exec .markLineRise s = .next t
        ∧ t = { s with bus := t.bus, cage := t.cage } ∧ t.bus.cagePull = true ∧ t.bus.markLine = true
        ∧ t.bus.drive = s.bus.drive ∧ t.bus.releasedSinceClose = s.bus.releasedSinceClose
        ∧ (∀ w, s.bus.window = some w → w.r = none →
            t.bus.window = some { w with r := some s.now } ∧ t.cage = s.cage)
        ∧ (∀ w r f, s.bus.window = some w → w.r = some r → w.f = some f → w.split = false →
            (ticksSince s.now f < 400 ∨ 42000 ≤ ticksSince s.now f
              ∨ 2240 ≤ (ticksSince s.now f - 400) % 2600) →
            t.bus.window = some { w with split := true } ∧ t.cage = { s.cage with split := countUp s.cage.split })
        ∧ (∀ w r f, s.bus.window = some w → w.r = some r → w.f = some f → 400 ≤ ticksSince s.now f →
            ticksSince s.now f < 42000 → (ticksSince s.now f - 400) % 2600 < 2240 →
            t.bus.window = s.bus.window ∧ t.cage = s.cage)
        ∧ (s.bus.watch = .armed → t.bus.watch = .rose s.now)
        ∧ (s.bus.watch ≠ .armed → t.bus.watch = s.bus.watch))
    ∧ (s.bus.markLine = true → s.bus.cagePull = false ∨ s.bus.drive = none ∨ s.bus.pullFails = true →
        ∃ t, exec .markLineFall s = .next t
        ∧ t.bus.cagePull = false ∧ t.bus.releasedSinceClose = true ∧ (s.bus.watch = .off → t.bus.markLine = false)
        ∧ (∀ w r, s.bus.watch = .off → s.bus.window = some w → w.r = some r → w.f = none →
            t.bus.window = some { w with f := some s.now } ∧ t.bus.fallRef = some ⟨s.now, .window⟩)
        ∧ (∀ w, s.bus.watch = .off → s.bus.window = some w → (w.r = none ∨ w.f ≠ none) →
            t.bus.window = some w ∧ t.bus.fallRef = s.bus.fallRef)
        ∧ (∀ r, s.bus.watch = .rose r → s.bus.drive = none → s.sc.state = .listen →
            let v := (ticksSince s.now r + s.settings.hold) / 2
            (t.sc.phaseSet = true ∧ t.cage.scaleSteps = countUp s.cage.scaleSteps
              ∧ t.bus.fallRef = some ⟨s.now, .watch⟩)
            ∧ (v < s.tb.eCur → t.tb.count = v ∧ t.tb.frac = 0 ∧ t.tb.epoch = s.tb.epoch
                ∧ t.tb.epo = (s.tb.running && decide (v < (s.tb.eCur + 1) / 2)) ∧ t.bus.watch = .ignoring s.now)
            ∧ (s.tb.eCur ≤ v → t.tb.count = 0 ∧ t.tb.epoch = s.tb.epoch + 1 ∧ t.tb.epo = true))
        ∧ (∀ start, s.bus.drive = some start → 0 < ticksSince s.now start →
            ticksSince s.now start < s.settings.hold → s.bus.faultReported = false → s.bus.watch = .off →
            s.sc.state = .align ∨ s.sc.state = .locked →
            t.sc.state = .held ∧ t.bus.drive = none ∧ t.bus.faultReported = true
              ∧ s.EventQueueTakes t [.time s.sc.state .held .driveFault s.sc.mutedProfile s.sc.mutedClash
                  s.bus.lastOffset 0 0 ⟨s.now, s.tb.epoch, s.tb.readCount, .holdover⟩]))

/-- DRIVE FAULT (R21, R50): a released line strictly inside the hold, reported once, takes ALIGN and LOCKED to HELD,
where the drive ends, and one HELD entry is counted, with the TIME record of the change (R58). -/
def Obligations.DriveFaultEntersHeld : Prop :=
  ∀ (start : Nat) (s : State), s.resetLow = false → s.bus.drive = some start → 0 < ticksSince s.now start →
    ticksSince s.now start < s.settings.hold → s.bus.markLine = false → s.bus.faultReported = false →
    ∃ t, exec .markDriveFault s = .next t ∧ t.bus.faultReported = true
      ∧ t.tb = s.tb ∧ t.lines = s.lines ∧ t.bus.window = s.bus.window ∧ t.bus.transmitter = s.bus.transmitter
      ∧ (s.sc.state = .align ∨ s.sc.state = .locked →
          t.sc = { s.sc with state := .held, good := 0, voids := 0, noMarkRun := 0, measuredHeld := false }
          ∧ t.bus.drive = none ∧ t.cage = { s.cage with heldEntries := countUp s.cage.heldEntries }
          ∧ t.path.att.causes.getLsbD 3 = true
          ∧ s.EventQueueTakes t [.time s.sc.state .held .driveFault s.sc.mutedProfile s.sc.mutedClash
              s.bus.lastOffset 0 0 ⟨s.now, s.tb.epoch, s.tb.readCount, .holdover⟩])
      ∧ (s.sc.state ≠ .align → s.sc.state ≠ .locked →
          t.sc = s.sc ∧ t.cage = s.cage ∧ t.bus.drive = some start)

/-- Sending a notice (R31, R32, R33, R55): the content latched at the slot start, the own pull on the lane, which is an
asserted bit of the notice being sent (R18), the read-back of each bit with its SLOT CLASH or DRIVE FAULT, and the end,
with the levels that the own pull has given the lane, released from an abandoned bit on; a clash that mutes and a fault
that leads to HELD are told in a TIME record (R58). The parts are the model's cut of one step, and so are the mark
noticeSent and the levels kept (log 7). -/
def Obligations.NoticeSendingAndReadBack : Prop :=
  ∀ s : State, s.resetLow = false →
    (∀ f : Nat, s.sc.state = .align ∨ s.sc.state = .locked ∨ s.sc.state = .held → s.sc.mutedClash = false →
      s.bus.transmitter = .idle → s.bus.noticeSent = false → s.bus.fallRef = some ⟨f, .window⟩ →
      ticksSince s.now f = 400 + 2600 * s.bus.station.val →
      exec (.noticeSend .begin) s = .next { s with bus := { s.bus with transmitter :=
        (.sending s.now (noticeBits (noticeFields s.bus.station s.sc.state (s.sc.mutedProfile || s.sc.mutedClash)
          s.tb.epoch s.bus.lastOffset s.bus.profileCode s.linesUp s.peersPresent)) 0) } })
    ∧ (s.bus.transmitter = .idle → s.pullsLane = false)
    ∧ (∀ (start k bit : Nat) (notice : BitVec 112), s.bus.transmitter = .sending start notice bit → k < 112 →
        20 * k ≤ ticksSince s.now start → ticksSince s.now start < 20 * (k + 1) →
        s.pullsLane = !notice.getMsbD k)
    ∧ (∀ (start k : Nat) (notice : BitVec 112), s.bus.transmitter = .sending start notice k → k < 112 →
        ticksSince s.now start = 20 * k + 10 →
        (notice.getMsbD k = true → exec (.noticeSend (.sample true)) s
          = .next { s with bus := { s.bus with transmitter := .sending start notice (k + 1) } })
        ∧ (notice.getMsbD k = false → exec (.noticeSend (.sample false)) s
          = .next { s with bus := { s.bus with transmitter := .sending start notice (k + 1) } })
        ∧ (notice.getMsbD k = true → ∃ t, exec (.noticeSend (.sample false)) s = .next t
            ∧ t.bus.transmitter = .idle ∧ t.cage = { s.cage with slotClash := countUp s.cage.slotClash }
            ∧ (∀ p : Nat, p < 112 → t.bus.lane.getMsbD p = if p < k then notice.getMsbD p else true)
            ∧ t.sc.clashThisEpoch = true ∧ t.sc.clashCount = min (s.sc.clashCount + 1) 3
            ∧ (t.sc.mutedClash = true ↔ s.sc.mutedClash = true ∨ 2 ≤ s.sc.clashCount)
            ∧ t.sc.state = s.sc.state
            ∧ s.EventQueueTakes t (if t.sc.mutedClash = s.sc.mutedClash then []
                else [.time s.sc.state s.sc.state .muted s.sc.mutedProfile true s.bus.lastOffset 0 0
                  ⟨s.now, s.tb.epoch, s.tb.readCount, s.sc.state.quality⟩]))
        ∧ (notice.getMsbD k = false → ∃ t, exec (.noticeSend (.sample true)) s = .next t
            ∧ t.bus.transmitter = .idle
            ∧ (∀ p : Nat, p < 112 → t.bus.lane.getMsbD p = if p < k then notice.getMsbD p else true)
            ∧ (s.sc.state = .align ∨ s.sc.state = .locked → t.sc.state = .held ∧ t.bus.drive = none
                ∧ s.EventQueueTakes t [.time s.sc.state .held .driveFault s.sc.mutedProfile s.sc.mutedClash
                    s.bus.lastOffset 0 0 ⟨s.now, s.tb.epoch, s.tb.readCount, .holdover⟩])
            ∧ (s.sc.state ≠ .align → s.sc.state ≠ .locked → t.sc = s.sc)))
    ∧ (∀ (start k : Nat) (notice : BitVec 112), s.bus.transmitter = .sending start notice k →
        2240 ≤ ticksSince s.now start →
        exec (.noticeSend .finish) s
          = .next { s with bus := { s.bus with transmitter := .idle, noticeSent := true, lane := notice } })

/-- The classification of a slot at its end, and what the roster and the Scale Controller take of a valid notice (R34,
R60, R43, R53). The levels read are those of the lane: what the other stations put on it, which the command brings (log
6), and in the own slot this station's own pull with it (R18, R32). An adoption or a renumbering is told in a TIME
record with the sender's number and the epoch number held before (R58). That an own notice counts as sent to its end by
the mark noticeSent, or when its end is due at this very instant, is the model's choice (log 7). -/
def Obligations.NoticesAreClassifiedAndTaken : Prop :=
  ∀ (k : Station) (f : FallReference) (others : BitVec 112) (s : State), s.resetLow = false →
    s.sc.state ≠ .quiet → s.bus.receiver = some k → s.bus.fallRef = some f →
    ticksSince s.now f.tick = 400 + 2600 * k.val + 2240 →
    let ownPull := match s.bus.transmitter with
      | .sending _ notice _ => notice
      | .idle => s.bus.lane
    let samples := if k = s.bus.station then others &&& ownPull else others
    let done : State := { s with bus := { s.bus with receiver := none } }
    let error : CageCounters := { s.cage with noticeError := countUp s.cage.noticeError }
    let seen : CageCounters := { s.cage with numberSeen := countUp s.cage.numberSeen }
    (samples = BitVec.allOnes 112 → exec (.noticeReceive others) s = .next done)
    ∧ (samples ≠ BitVec.allOnes 112 → readNotice samples = none →
        exec (.noticeReceive others) s = .next { done with cage := error })
    ∧ (∀ n, samples ≠ BitVec.allOnes 112 → readNotice samples = some n → n.station ≠ k →
        exec (.noticeReceive others) s = .next { done with cage := error })
    ∧ (∀ n, samples ≠ BitVec.allOnes 112 → readNotice samples = some n → n.station = k → k = s.bus.station →
        exec (.noticeReceive others) s
          = .next (if s.bus.noticeSent || s.finishDue then done else { done with cage := seen }))
    ∧ (∀ n, samples ≠ BitVec.allOnes 112 → readNotice samples = some n → n.station = k → k ≠ s.bus.station →
        ∃ t, exec (.noticeReceive others) s = .next t ∧ t.bus.receiver = none
          ∧ t.roster[k] =
              { present := true, heard := true, lastState := n.state, muted := n.muted, epoch := n.epoch,
                offset := n.offset, profileMatch := n.profile == s.bus.profileCode, linesUp := n.linesUp,
                peersHeard := n.peersHeard, silence := 0 }
          ∧ (∀ j : Station, j ≠ k → t.roster[j] = s.roster[j])
          ∧ ((s.roster[k]).present = false → t.path.att.causes.getLsbD 4 = true)
          ∧ (n.state = .align ∨ n.state = .locked → s.sc.state = .listen → s.sc.phaseSet = true →
              t.sc.state = .align ∧ t.tb = { s.tb with epoch := n.epoch }
                ∧ t.sc.good = 0 ∧ t.sc.voids = 0 ∧ t.sc.noMarkRun = 0
                ∧ s.EventQueueTakes t [.time .listen .align .adopted s.sc.mutedProfile s.sc.mutedClash
                    s.bus.lastOffset k.val s.tb.epoch ⟨s.now, n.epoch, s.tb.readCount, .aligning⟩])
          ∧ (n.state = .align ∨ n.state = .locked → s.sc.state = .align ∨ s.sc.state = .locked →
              t.sc = s.sc
                ∧ t.tb = (if 0 < modDist 48 s.tb.epoch.toNat n.epoch.toNat
                    then { s.tb with epoch := n.epoch } else s.tb)
                ∧ t.cage = (if 0 < modDist 48 s.tb.epoch.toNat n.epoch.toNat
                    then { s.cage with epochClash := countUp s.cage.epochClash } else s.cage)
                ∧ s.EventQueueTakes t (if 0 < modDist 48 s.tb.epoch.toNat n.epoch.toNat
                    then [.time s.sc.state s.sc.state .renumbered s.sc.mutedProfile s.sc.mutedClash
                      s.bus.lastOffset k.val s.tb.epoch ⟨s.now, n.epoch, s.tb.readCount, s.sc.state.quality⟩]
                    else []))
          ∧ (n.state = .held ∨ s.sc.state = .held ∨ (s.sc.state = .listen ∧ s.sc.phaseSet = false) →
              t.sc = s.sc ∧ t.tb = s.tb ∧ t.cage = s.cage))

/-- A notice that is sent is read back as what was sent, with every field at every value the part sends (R31, R34,
R162). Samples with a wrong start, check or stop bit, a state code other than 2, 3 and 4, an offset of 8000h or more
than 15 peers heard are no valid notice, and all others are (R34, R162); position p of a slot is bit 111 - p. -/
def Obligations.NoticeIsReadAsSent : Prop :=
  (∀ (station : Station) (state : ScaleState) (muted : Bool) (epoch : BitVec 48) (offset : Int)
      (profile : BitVec 16) (linesUp : BitVec 8) (peers : Nat),
    state = .align ∨ state = .locked ∨ state = .held → -32767 ≤ offset → offset ≤ 32767 → peers ≤ 15 →
    readNotice (noticeBits (noticeFields station state muted epoch offset profile linesUp peers))
      = some { station := station, state := state, muted := muted, epoch := epoch, offset := offset,
               profile := profile, linesUp := linesUp, peersHeard := peers })
  ∧ ∀ samples : BitVec 112,
    let field := fun (p width : Nat) => (samples.extractLsb' (112 - p - width) width).toNat
    let valid := samples.getMsbD 0 = false ∧ samples.extractLsb' 2 8 = noticeCheck (samples.extractLsb' 10 101)
      ∧ samples.getMsbD 110 = true ∧ samples.getMsbD 111 = true ∧ (field 5 3 = 2 ∨ field 5 3 = 3 ∨ field 5 3 = 4)
      ∧ field 57 16 ≠ 0x8000 ∧ field 97 5 ≤ 15
    (¬ valid → readNotice samples = none)
    ∧ (valid → ∃ n, readNotice samples = some n
        ∧ n.station.val = field 1 4 ∧ n.state.code = field 5 3 ∧ n.muted = samples.getMsbD 8
        ∧ n.epoch.toNat = field 9 48 ∧ (n.offset % 65536).toNat = field 57 16 ∧ -32767 ≤ n.offset ∧ n.offset ≤ 32767
        ∧ n.profile.toNat = field 73 16 ∧ n.linesUp.toNat = field 89 8 ∧ n.peersHeard = field 97 5)

/-! ## Lines, store, merge and arbiter -/

/-- One LOS sample point (R66, R67, R69, R70). A line that LOS takes DOWN aborts its frame and leaves nothing of it
(R80); each line that changes is reported to the arbiter with the LINE cause (R73, R117), and one that changes alone
tells its LINE record, LOS, SIGNAL or SETTLED, after the releases of its abort (R70, R73, R81). Where several lines
change at one sample point, which tells its record first is open: one free value says it (log 5), and `s1` is the state
with that value used up. -/
def Obligations.LosSampleFilters : Prop :=
  ∀ (levels : BitVec 8) (s : State), s.resetLow = false → s.losPhase = some s.settings.losPeriod →
    let qualified := fun l : Line =>
      if levels.getLsbD l.val ≠ (s.lines[l]).los ∧ (s.lines[l]).history = some (levels.getLsbD l.val)
      then levels.getLsbD l.val else (s.lines[l]).los
    let changes := fun l : Line => (s.lines[l]).state ≠ .off ∧ qualified l ≠ (s.lines[l]).los
    let s1 : State := { s with path := { s.path with draws := s.path.draws + 1 } }
    ∃ t, exec (.losSample levels) s = .next t ∧ t.losPhase = some 0
      ∧ ∀ l : Line,
        let p := s.lines[l]
        let q := qualified l
        let moves := p.state = .down ∧ p.aligned = true
        (p.state = .off → t.lines[l] = p)
        ∧ (p.state ≠ .off → (t.lines[l]).history = some (levels.getLsbD l.val) ∧ (t.lines[l]).los = q
            ∧ (t.lines[l]).counters.losAssertions =
                (if q = true ∧ p.los = false then countUp p.counters.losAssertions else p.counters.losAssertions)
            ∧ (q = p.los → (t.lines[l]).state = p.state ∧ (t.lines[l]).reception = p.reception)
            ∧ (q = true → p.los = false → (t.lines[l]).state = .down)
            ∧ (q = true → p.los = false → p.state ≠ .down →
                (t.lines[l]).reception = .idle ∧ (t.lines[l]).settle = none ∧ (t.lines[l]).epochErrors = 0
                ∧ t.path.arb.view[l] = .down ∧ t.path.att.causes.getLsbD 2 = true
                ∧ (∀ f, p.reception = .capturing f → t.path.merge.inFlight[l] = none
                    ∧ (t.lines[l]).counters.aborts = countUp p.counters.aborts)
                ∧ ((∀ f, p.reception ≠ .capturing f) → (t.lines[l]).counters.aborts = p.counters.aborts)
                ∧ ((∀ k : Line, k ≠ l → ¬ changes k) → s1.LineChangeTold t (s1.afterAbort l) l .down .los 0))
            ∧ (q = false → p.los = true → (t.lines[l]).state =
                if moves then (if s.settings.settleTicks = 0 then .up else .settling) else p.state)
            ∧ (q = false → p.los = true → moves →
                t.path.arb.view[l] = (t.lines[l]).state ∧ t.path.att.causes.getLsbD 2 = true
                ∧ (0 < s.settings.settleTicks → (t.lines[l]).settle = some s.now)
                ∧ ((∀ k : Line, k ≠ l → ¬ changes k) →
                    (s.settings.settleTicks = 0 → s1.LineChangeTold t s1.path l .up .settled 0)
                    ∧ (0 < s.settings.settleTicks → s1.LineChangeTold t s1.path l .settling .signal 0))))

/-- The receiver's reports, the settle timer, code errors and the code-error test (R69, R70, R71, R72, R73, R80, R81),
with the LINE record that each change sends to the event channel (R73), where the queue has room, the tally is empty and
the report passes no deadline; the record and the report of a line that goes DOWN in mid-frame stand behind the releases
of the abort (R81). Each change is reported to the arbiter, which recomputes the effective timeout of every
valid stream that has the line among its legs, 0 for a paired stream with fewer than two legs up (R117, R118), moves the
deadline of an open hole with it (R127), and declares at once what that passes (R129). -/
def Obligations.LineReportsMoveTheLine : Prop :=
  let leg := fun (c : Settings) (e : Stream) (l : Line) =>
    (c.item (51 + 11 * e.val)).testBit l.val = true ∧ c.item (42 + l.val / 2) = 1
  let up := fun (view : Vector LineState 8) (l : Line) => view[l] = .up ∨ view[l] = .degraded
  let short := fun (c : Settings) (view : Vector LineState 8) (e : Stream) =>
    (∃ l, leg c e l) ∧ ∀ a b : Line, leg c e a → up view a → leg c e b → up view b → a = b
  (∀ (c : Settings) (view : Vector LineState 8) (e : Stream),
    (short c view e → oneLegged c view e = true ∧ effectiveTimeout c view e = 0)
    ∧ (¬ short c view e →
        oneLegged c view e = false ∧ effectiveTimeout c view e = c.item (58 + 11 * e.val) * 1000))
  ∧ (∀ (c : Settings) (l : Line) (new : LineState) (p : Path),
      let q := Path.viewReport c l new p
      q.arb.time = p.arb.time ∧ q.arb.counters = p.arb.counters
      ∧ (∀ k : Line, q.arb.view[k] = if k = l then new else p.arb.view[k])
      ∧ ∀ e : Stream,
        let w := p.arb.windows[e]
        let timeout := effectiveTimeout c q.arb.view e
        (c.item (48 + 11 * e.val) = 1 → leg c e l →
          q.arb.windows[e] = { w with timeout := timeout, deadline := w.holeSince.map (· + timeout) })
        ∧ (c.item (48 + 11 * e.val) ≠ 1 ∨ ¬ leg c e l → q.arb.windows[e] = w))
  ∧ ∀ (l : Line) (s : State), s.resetLow = false →
    let p := s.lines[l]
    let told := fun (t : State) => s.LineChangeTold t s.path l
    (∃ t, exec (.receiverAligned l) s = .next t ∧ (t.lines[l]).aligned = true
      ∧ (p.state = .down → p.los = false → 0 < s.settings.settleTicks →
          (t.lines[l]).state = .settling ∧ (t.lines[l]).settle = some s.now ∧ t.path.arb.view[l] = .settling
            ∧ t.path.att.causes.getLsbD 2 = true ∧ told t .settling .signal 0)
      ∧ (p.state = .down → p.los = false → s.settings.settleTicks = 0 →
          (t.lines[l]).state = .up ∧ t.path.arb.view[l] = .up ∧ t.path.att.causes.getLsbD 2 = true
            ∧ told t .up .settled 0)
      ∧ (p.state ≠ .down ∨ p.los = true → t.lines[l] = { p with aligned := true })
      ∧ ∀ k : Line, k ≠ l → t.lines[k] = s.lines[k])
    ∧ (∃ t, exec (.receiverNotAligned l) s = .next t ∧ (t.lines[l]).aligned = false
      ∧ (p.state = .off ∨ p.state = .down → t.lines[l] = { p with aligned := false })
      ∧ (p.state = .settling ∨ p.state = .up ∨ p.state = .degraded →
          (t.lines[l]).state = .down ∧ (t.lines[l]).settle = none ∧ (t.lines[l]).epochErrors = 0
            ∧ (t.lines[l]).reception = .idle ∧ t.path.arb.view[l] = .down ∧ t.path.att.causes.getLsbD 2 = true
            ∧ s.LineChangeTold t (s.afterAbort l) l .down .alignLost 0
            ∧ (∀ f, p.reception = .capturing f →
                (t.lines[l]).counters = { p.counters with aborts := countUp p.counters.aborts }
                  ∧ t.path.merge.inFlight[l] = none)
            ∧ ((∀ f, p.reception ≠ .capturing f) → (t.lines[l]).counters = p.counters))
      ∧ ∀ k : Line, k ≠ l → t.lines[k] = s.lines[k])
    ∧ (∀ start : Nat, p.state = .settling → p.settle = some start →
        s.settings.settleTicks ≤ ticksSince s.now start →
        ∃ t, exec (.settleTimeout l) s = .next t
          ∧ t.lines[l] = { p with state := .up, settle := none } ∧ t.path.arb.view[l] = .up
          ∧ t.path.att.causes.getLsbD 2 = true ∧ told t .up .settled 0
          ∧ ∀ k : Line, k ≠ l → t.lines[k] = s.lines[k])
    ∧ (p.state = .up → s.settings.errorLimit l < p.epochErrors →
        told (State.errorTest l s) .degraded .errors p.epochErrors)
    ∧ (p.state = .degraded → p.epochErrors ≤ s.settings.errorLimit l →
        told (State.errorTest l s) .up .clean p.epochErrors)
    ∧ (p.state = .off → exec (.codeError l) s = .next s)
    ∧ (p.state ≠ .off → ∃ t, exec (.codeError l) s = .next t ∧ t = { s with lines := t.lines }
        ∧ t.lines[l] = { p with
            counters := { p.counters with codeErrors := countUp p.counters.codeErrors },
            epochErrors := if p.state = .up ∨ p.state = .degraded then min (p.epochErrors + 1) 65535
              else p.epochErrors }
        ∧ ∀ k : Line, k ≠ l → t.lines[k] = s.lines[k])

/-- A frame start (R74, R75, R84, R88, R102): stamped and captured with a first block, dropped STORE FULL, or
ignored. -/
def Obligations.FrameStartCapturesOrSkips : Prop :=
  ∀ (l : Line) (s : State), s.resetLow = false → (s.lines[l]).reception = .idle →
    let p := s.lines[l]
    (p.state = .off → exec (.frameStart l) s = .next s)
    ∧ (p.state = .down ∨ p.state = .settling → ∃ t, exec (.frameStart l) s = .next t
        ∧ t = { s with lines := t.lines } ∧ (∀ k : Line, k ≠ l → t.lines[k] = s.lines[k])
        ∧ t.lines[l] = { p with reception := .skipping,
                                counters := { p.counters with ignored := countUp p.counters.ignored } })
    ∧ (p.state = .up ∨ p.state = .degraded → s.path.store.free = 0 → ∃ t, exec (.frameStart l) s = .next t
        ∧ t = { s with lines := t.lines } ∧ (∀ k : Line, k ≠ l → t.lines[k] = s.lines[k])
        ∧ t.lines[l] = { p with reception := .skipping,
                                counters := { p.counters with storeFull := countUp p.counters.storeFull } })
    ∧ (p.state = .up ∨ p.state = .degraded → 0 < s.path.store.free → ∃ t, exec (.frameStart l) s = .next t
        ∧ t = { s with lines := t.lines,
                       path := { s.path with store := t.path.store, merge := t.path.merge } }
        ∧ (∀ k : Line, k ≠ l → t.lines[k] = s.lines[k])
        ∧ t.lines[l] = { p with reception := (.capturing
            { stamp := ⟨s.now, s.tb.epoch, s.tb.readCount, s.sc.state.quality⟩, blocks := 1, bytes := [],
              stored := 0, degraded := p.state == .degraded, cut := false }) }
        ∧ t.path.store = ⟨s.path.store.free - 1, min s.path.store.lowWater (s.path.store.free - 1)⟩
        ∧ t.path.merge.inFlight[l] = some s.now
        ∧ (∀ k : Line, k ≠ l → t.path.merge.inFlight[k] = s.path.merge.inFlight[k])
        ∧ t.path.merge.pending = s.path.merge.pending)

/-- A run of bytes whose last asks for a block, granted or refused with CUT, and a run whose last passes the ceiling,
none before it asking for a block: the frame is ended OVERSIZE and its blocks return, to the free blocks themselves
where no pending record is there to be released (R76, R77, R84, R86). Where that last byte asks for a block too, which
comes first is open: with the request first a block may be granted, and returned with the others, or the frame counted
CUT (the model's, log 9). -/
def Obligations.BytesAskForBlocksAndPassTheCeiling : Prop :=
  ∀ (l : Line) (f : PortFrame) (bs : List Byte) (b : Byte) (s : State), s.resetLow = false →
    (s.lines[l]).reception = .capturing f →
    (f.cut = false → f.stored + bs.length = 128 * f.blocks → f.stored + bs.length < s.settings.captureLen l →
      f.bytes.length + bs.length + 1 ≤ s.settings.ceiling l →
      ∃ t, exec (.furtherBlockRequest l (bs ++ [b])) s = .next t
        ∧ (∀ k : Line, k ≠ l → t.lines[k] = s.lines[k]) ∧ t.path.merge = s.path.merge
        ∧ (0 < s.path.store.free →
            t.lines[l] = { s.lines[l] with reception := (.capturing
              { f with bytes := f.bytes ++ bs ++ [b], stored := f.stored + bs.length + 1, blocks := f.blocks + 1 }) }
            ∧ t.path.store = ⟨s.path.store.free - 1, min s.path.store.lowWater (s.path.store.free - 1)⟩)
        ∧ (s.path.store.free = 0 →
            t.lines[l] = { s.lines[l] with
              reception := (.capturing
                { f with bytes := f.bytes ++ bs ++ [b], stored := f.stored + bs.length, cut := true }),
              counters := { (s.lines[l]).counters with cut := countUp (s.lines[l]).counters.cut } }
            ∧ t.path.store = s.path.store))
    ∧ (f.bytes.length + bs.length = s.settings.ceiling l →
      f.cut = true ∨ min (f.stored + bs.length) (s.settings.captureLen l) ≤ 128 * f.blocks →
      let asks := f.cut = false ∧ f.stored + bs.length = 128 * f.blocks
        ∧ f.stored + bs.length < s.settings.captureLen l
      let k := (s.lines[l]).counters
      let counted := { k with oversize := countUp k.oversize }
      ∃ t, exec (.oversize l (bs ++ [b])) s = .next t
        ∧ (∀ k : Line, k ≠ l → t.lines[k] = s.lines[k])
        ∧ t.lines[l] = { s.lines[l] with reception := .skipping, counters := (t.lines[l]).counters }
        ∧ (¬ asks ∨ 0 < s.path.store.free → (t.lines[l]).counters = counted)
        ∧ (asks → s.path.store.free = 0 →
            (t.lines[l]).counters = counted ∨ (t.lines[l]).counters = { counted with cut := countUp k.cut })
        ∧ t.path.merge.inFlight[l] = none
        ∧ (∀ k : Line, k ≠ l → t.path.merge.inFlight[k] = s.path.merge.inFlight[k])
        ∧ t.path.downstreamBlocks = s.path.downstreamBlocks + f.blocks
        ∧ (s.path.merge.pending = [] → t.path.store.free = s.path.store.free + f.blocks)
        ∧ (¬ asks ∨ s.path.store.free = 0 → t.path.store.lowWater = s.path.store.lowWater)
        ∧ (asks → t.path.store.lowWater = s.path.store.lowWater
            ∨ t.path.store.lowWater = min s.path.store.lowWater (s.path.store.free - 1)))

/-- The frame end, judged in the order of R79 on the frame as its last bytes leave it: runt, frame check, good; a good
frame unmatched (R97), refused by a full pending set (R105), or taken (R104). In every case reception is IDLE and
nothing of the line is in flight, and then the leading records of the pending set that are earlier than every frame
still in flight leave it (R106). -/
def Obligations.FrameEndJudgesInOrder : Prop :=
  ∀ (l : Line) (bytes : List Byte) (clean : Bool) (s : State), s.resetLow = false →
    let s1 := State.feed l bytes s
    let p := s1.lines[l]
    let k := p.counters
    let keys := (Path.leaveInFlight l s1.path).inFlightKeys
    let leaves := fun g : Classified => keys.all fun x => g.key.earlier x
    ∃ t, exec (.frameEnd l bytes clean) s = .next t ∧ (t.lines[l]).reception = .idle
      ∧ (t.lines[l]).state = (s.lines[l]).state ∧ (∀ j : Line, j ≠ l → t.lines[j] = s.lines[j])
      ∧ ((∀ f, p.reception ≠ .capturing f) → (t.lines[l]).counters = k ∧ t.path.merge = s1.path.merge)
      ∧ ∀ f, p.reception = .capturing f → t.path.merge.inFlight[l] = none
        ∧ (∀ j : Line, j ≠ l → t.path.merge.inFlight[j] = s1.path.merge.inFlight[j])
        ∧ (f.bytes.length < 64 ∨ clean = false ∨ fcsPasses f.bytes = false ∨ classify s.settings l p.legB f = none
            ∨ s1.path.merge.pending.length = 512 →
            t.path.merge.pending = s1.path.merge.pending.dropWhile leaves)
        ∧ (f.bytes.length < 64 → (t.lines[l]).counters = { k with runts := countUp k.runts })
        ∧ (64 ≤ f.bytes.length → clean = false ∨ fcsPasses f.bytes = false →
            (t.lines[l]).counters = { k with fcsErrors := countUp k.fcsErrors })
        ∧ (64 ≤ f.bytes.length → clean = true → fcsPasses f.bytes = true →
            classify s.settings l p.legB f = none →
            (t.lines[l]).counters = { k with captured := countUp k.captured, unmatched := countUp k.unmatched })
        ∧ (∀ r, 64 ≤ f.bytes.length → clean = true → fcsPasses f.bytes = true →
            classify s.settings l p.legB f = some r → s1.path.merge.pending.length = 512 →
            (t.lines[l]).counters =
              { k with captured := countUp k.captured, mergeFull := countUp k.mergeFull })
        ∧ (∀ r, 64 ≤ f.bytes.length → clean = true → fcsPasses f.bytes = true →
            classify s.settings l p.legB f = some r → s1.path.merge.pending.length < 512 →
            (t.lines[l]).counters = { k with captured := countUp k.captured }
              ∧ t.path.merge.peak = max s1.path.merge.peak (s1.path.merge.pending.length + 1)
              ∧ (let notLater := fun g : Classified => !r.key.earlier g.key
                 t.path.merge.pending = (s1.path.merge.pending.takeWhile notLater ++
                   r :: s1.path.merge.pending.dropWhile notLater).dropWhile leaves))

/-- The classification of a good frame (R91 to R100): the header parse within the parse region, the key, the match with
the highest masked base and then the lowest number, the sequence in its byte order, and the snap-length trim. -/
def Obligations.ClassifierFollowsTheTable : Prop :=
  ∀ (c : Settings) (l : Line) (legB : Bool) (f : PortFrame),
    let region := f.bytes.take (min f.stored (f.bytes.length - 4))
    let byte := fun i : Nat => (region.getD i 0).toNat
    let word := fun i : Nat => 256 * byte i + byte (i + 1)
    let udp := fun n : Nat => n + 4 * (byte n % 16)
    let parses := fun n : Nat =>
      ((n = 14 ∧ word 12 = 0x0800) ∨ (n = 18 ∧ word 12 = 0x8100 ∧ word 16 = 0x0800))
        ∧ byte n / 16 = 4 ∧ 5 ≤ byte n % 16 ∧ byte (n + 6) / 32 % 2 = 0 ∧ word (n + 6) % 8192 = 0
        ∧ byte (n + 9) = 17 ∧ udp n + 8 ≤ region.length
    let key := fun n : Nat => (65536 * word (n + 16) + word (n + 18)) * 65536 + word (udp n + 2)
    let fits := fun (e : Stream) (x : Nat) => c.valid e = true ∧ c.inLineSet e l = true
      ∧ ∀ i : Nat, i < 48 → (c.mask e).testBit i = false → x.testBit i = (c.base e).testBit i
    let masked := fun e : Stream => (BitVec.ofNat 48 (c.base e) &&& ~~~ BitVec.ofNat 48 (c.mask e)).toNat
    ((∀ n, ¬ parses n) → classify c l legB f = none)
    ∧ ∀ n, parses n →
      ((∀ e, ¬ fits e (key n)) → classify c l legB f = none)
      ∧ ∀ e, fits e (key n) →
        (∀ e', fits e' (key n) → masked e' < masked e ∨ (masked e' = masked e ∧ e ≤ e')) →
        let width := c.seqWidth e
        let start := udp n + 8 + c.seqOffset e
        ∃ r, classify c l legB f = some r
          ∧ r.stamp = f.stamp ∧ r.line = l ∧ r.legB = legB ∧ r.stream = e ∧ r.degraded = f.degraded ∧ r.cut = f.cut
          ∧ r.frameLength = f.bytes.length ∧ r.captured = f.bytes.take (min f.stored (c.snapLen e))
          ∧ r.blocks = (r.captured.length + 127) / 128
          ∧ (width = 0 → r.seq = none ∧ r.noSeq = false)
          ∧ (width ≠ 0 → region.length < start + width → r.seq = none ∧ r.noSeq = true)
          ∧ (width ≠ 0 → start + width ≤ region.length → r.noSeq = false
              ∧ r.seq = some ((List.range width).map fun i =>
                  byte (start + i) * 256 ^ (if c.littleEndian e then i else width - 1 - i)).sum)

/-- The naming of a numbered record under its window (R121 to R126), and the law of the window kept by it. At N the
slot becomes FIRST and N moves on past every FIRST slot to the first that is not, and a hole is open from this tick when
a FIRST lies further ahead (R122). That the slots stand at the number modulo 256, by which every other slot is named
after a seed, is the model's layout (log 29). -/
def Obligations.NamingFollowsTheWindow : Prop :=
  ∀ (bits n : Nat) (legB : Bool) (tick : Nat) (w : SeqWindow),
    bits = 16 ∨ bits = 32 ∨ bits = 64 → n < 2 ^ bits → (w.tracking = true → w.Law bits) →
    let out := nameRecord bits n legB tick w
    let d := modDist bits w.n n
    out.1.tracking = true ∧ out.1.Law bits ∧ out.1.timeout = w.timeout
    ∧ (w.tracking = false → out.2 = .first ∧ out.1.n = (n + 1) % 2 ^ bits ∧ out.1.slotAt n = .first legB tick
        ∧ (∀ i, i % 256 ≠ n % 256 → out.1.slotAt i = .unseen) ∧ out.1.holeSince = none ∧ out.1.deadline = none)
    ∧ (w.tracking = true →
        (d = 0 → out.2 = .first ∧ out.1.slotAt n = .first legB tick
          ∧ ∃ k, 1 ≤ k ∧ k ≤ 128 ∧ out.1.n = (n + k) % 2 ^ bits
            ∧ (∀ i, 1 ≤ i → i < k → SeqWindow.isFirst (w.slotAt (w.ahead bits i)) = true
                ∧ out.1.slotAt (w.ahead bits i) = w.slotAt (w.ahead bits i))
            ∧ (k ≤ 127 → SeqWindow.isFirst (w.slotAt (w.ahead bits k)) = false)
            ∧ out.1.slotAt out.1.n = .unseen
            ∧ ((∃ i, k < i ∧ i ≤ 127 ∧ SeqWindow.isFirst (w.slotAt (w.ahead bits i)) = true) →
                out.1.holeSince = some tick)
            ∧ ((∀ i, k < i → i ≤ 127 → SeqWindow.isFirst (w.slotAt (w.ahead bits i)) = false) →
                out.1.holeSince = none))
        ∧ (1 ≤ d → d ≤ 127 → w.slotAt n = .unseen → out.2 = .first ∧ out.1.n = w.n
            ∧ out.1.slotAt n = .first legB tick
            ∧ out.1.holeSince = some (match w.holeSince with
                | some h => h
                | none => tick))
        ∧ (∀ b t, -128 ≤ d → d ≤ 127 → w.slotAt n = .first b t →
            out = (w, .shadow (min (tick - t) 4294967295) b))
        ∧ (∀ b t, -128 ≤ d → d ≤ -1 → w.slotAt n = .late b t →
            out = (w, .shadow (min (tick - t) 4294967295) b))
        ∧ (∀ t, -128 ≤ d → d ≤ -1 → w.slotAt n = .lost t →
            out.2 = .late (min (tick - t) 4294967295) ∧ out.1.slotAt n = .late legB tick ∧ out.1.n = w.n
              ∧ out.1.holeSince = w.holeSince ∧ out.1.deadline = w.deadline)
        ∧ (-128 ≤ d → d ≤ -1 → w.slotAt n = .unseen →
            out.2 = .first ∧ out.1.slotAt n = .first legB tick ∧ out.1.n = w.n
              ∧ out.1.holeSince = w.holeSince ∧ out.1.deadline = w.deadline)
        ∧ (d < -128 ∨ 127 < d →
            out.2 = .reseed w.n ∧ out.1.n = (n + 1) % 2 ^ bits ∧ out.1.slotAt n = .first legB tick
              ∧ (∀ i, i % 256 ≠ n % 256 → out.1.slotAt i = .unseen) ∧ out.1.holeSince = none
              ∧ out.1.deadline = none))

/-- What becomes of a record that the merge releases (R106, R119), all at the instant of its release. Each leading
record of the pending set that is earlier than every frame in flight is taken before the next, and a good frame's end
does so with its own record in place before the horizon is offered (R107, R110). Taking a record first raises the
arbiter time to its stamp tick and declares every deadline that this passes (step 1; in which order is log 5), then
names it under its stream's window (step 2; NamingFollowsTheWindow), then hands it on (step 3) to the channel of its
stream's entry (R132). A record of a stream of width 0 and a NO_SEQ record are FIRST and touch no window (R120). A
SHADOW is offered with its lag and winner, or under SUPPRESS its blocks return and nothing is offered (R126); a LATE
record is offered with its lag; a RESEED record stands before the FIRST that caused it (R125, R131). Each adds to the
counters of R136. -/
def Obligations.ReleasedRecordIsNamedAndHandedOn : Prop :=
  (∀ (e : Env) (p : Path) (out rest : List Classified), p.merge.pending = out ++ rest →
    (∀ f ∈ out, ∀ k ∈ p.inFlightKeys, f.key.earlier k = true) →
    (∀ f, rest.head? = some f → ∃ k ∈ p.inFlightKeys, f.key.earlier k = false) →
    Path.release e p = out.foldl (fun p f => Path.takeRecord e f p)
      { p with merge := { p.merge with pending := rest, released := addSat p.merge.released out.length } })
  ∧ (∀ (l : Line) (bytes : List Byte) (s : State), s.resetLow = false →
      let s1 := State.feed l bytes s
      let p := s1.path
      ∀ f r, (s1.lines[l]).reception = .capturing f → 64 ≤ f.bytes.length → fcsPasses f.bytes = true →
        classify s.settings l (s1.lines[l]).legB f = some r → p.merge.pending.length < 512 →
        ∃ t, exec (.frameEnd l bytes true) s = .next t
          ∧ t.path = Path.serve s.env (Path.offerHorizon s.env (Path.release s.env { p with
              store := { p.store with free := p.store.free + (f.blocks - r.blocks) }
              merge := { p.merge with
                inFlight := p.merge.inFlight.set l none
                pending := insertPending r p.merge.pending
                peak := max p.merge.peak (p.merge.pending.length + 1) } })))
  ∧ ∀ (e : Env) (f : Classified) (p : Path),
    let st := f.stream
    let time := max p.arb.time f.stamp.tick
    let raised : Path := { p with arb := { p.arb with time := time } }
    let q := Path.declareAll e raised
    let w := q.arb.windows[st]
    let k := q.arb.counters[st]
    let out := Path.takeRecord e f p
    let under := fun (v : SeqWindow) (n : StreamCounters) =>
      { q with arb := { q.arb with windows := updAt q.arb.windows st (fun _ => v)
                                   counters := updAt q.arb.counters st (fun _ => n) } }
    let offered := fun (v : SeqWindow) (n : StreamCounters) (records : List Record) =>
      records.foldl (fun p r => Path.offer e (e.cfg.channelOf st) r p) (under v n)
    (q.arb.time = time ∧ q.arb.view = p.arb.view ∧ ∀ x : Stream,
        ((p.arb.windows[x]).passed time = false →
          q.arb.windows[x] = p.arb.windows[x] ∧ q.arb.counters[x] = p.arb.counters[x])
        ∧ q.arb.windows[x] = (Path.declareWindow e x raised).arb.windows[x]
        ∧ q.arb.counters[x] = (Path.declareWindow e x raised).arb.counters[x]
        ∧ (e.cfg.seqBits x = 16 ∨ e.cfg.seqBits x = 32 ∨ e.cfg.seqBits x = 64 →
            ((p.arb.windows[x]).tracking = true → (p.arb.windows[x]).Law (e.cfg.seqBits x)) →
            (q.arb.windows[x]).passed time = false))
    ∧ (f.seq = none → f.noSeq = false → out = offered w { k with first := countUp k.first } [.first f])
    ∧ (f.seq = none → f.noSeq = true → out = offered w { k with noSeq := countUp k.noSeq } [.first f])
    ∧ ∀ s, f.seq = some s →
      let named := nameRecord (e.cfg.seqBits st) s f.legB f.stamp.tick w
      (named.2 = .first → out = offered named.1 { k with first := countUp k.first } [.first f])
      ∧ (∀ lag winnerB, named.2 = .shadow lag winnerB → e.cfg.suppress st = false →
          out = offered named.1 { k with shadowDelivered := countUp k.shadowDelivered } [.shadow f lag winnerB])
      ∧ (∀ lag winnerB, named.2 = .shadow lag winnerB → e.cfg.suppress st = true →
          out = { offered named.1 { k with shadowSuppressed := countUp k.shadowSuppressed } [] with
                  store := { q.store with free := q.store.free + f.blocks } })
      ∧ (∀ lag, named.2 = .late lag → out = offered named.1 { k with late := countUp k.late } [.late f lag])
      ∧ (∀ oldN, named.2 = .reseed oldN →
          out = offered named.1 { k with reseeds := countUp k.reseeds, first := countUp k.first }
            [.reseed st oldN s f.stamp.tick f.line f.legB, .first f])

/-- A gap declaration (R128, R129), on a tracking window under its law whose deadline is passed by the horizon of this
instant (R110, R116): the run from N to below the lowest FIRST ahead is LOST at the deadline and told in a GAP record
offered to the stream's channel, N moves past that FIRST and every FIRST that follows it, and a hole is open from the
deadline when a FIRST lies further ahead. The same declaration is then made again, until the deadline is not passed.
That a GAP_DECLARATION sent when no deadline is passed offers the horizon, so that the arbiter time alone moves, and
declares nothing is the model's choice (log 2). -/
def Obligations.GapDeclarationLosesTheRun : Prop :=
  ∀ (st : Stream) (s : State), s.resetLow = false →
    let bits := s.settings.seqBits st
    let w := s.path.arb.windows[st]
    let isFirst := fun i : Nat => SeqWindow.isFirst (w.slotAt (w.ahead bits i)) = true
    let told := fun (v : SeqWindow) (gap : Record) (lost : Nat) =>
      Path.offer s.env (s.settings.channelOf st) gap
        { s.path with arb := { s.path.arb with
            time := s.offeredTime
            windows := updAt s.path.arb.windows st (fun _ => v)
            counters := updAt s.path.arb.counters st
              (fun x => { x with lost := addSat x.lost lost, gaps := countUp x.gaps }) } }
    bits = 16 ∨ bits = 32 ∨ bits = 64 → w.tracking = true → w.Law bits →
    (∀ d, w.deadline = some d → d < s.offeredTime →
      ∃ (h k j : Nat) (v : SeqWindow), w.holeSince = some h
        ∧ 1 ≤ k ∧ k ≤ 127 ∧ isFirst k ∧ (∀ i, 1 ≤ i → i < k → ¬ isFirst i)
        ∧ k < j ∧ j ≤ 128 ∧ (∀ i, k ≤ i → i < j → isFirst i) ∧ (j ≤ 127 → ¬ isFirst j)
        ∧ v.Law bits ∧ v.tracking = true ∧ v.timeout = w.timeout ∧ v.n = (w.n + j) % 2 ^ bits
        ∧ (∀ i, i ≤ 255 → v.slotAt (w.ahead bits i) =
            if i < k then .lost d else if 128 ≤ i ∧ i < 128 + j then .unseen else w.slotAt (w.ahead bits i))
        ∧ ((∃ i, j < i ∧ i ≤ 127 ∧ isFirst i) → v.holeSince = some d)
        ∧ ((∀ i, j < i → i ≤ 127 → ¬ isFirst i) → v.holeSince = none)
        ∧ exec (.gapDeclaration st) s = exec (.gapDeclaration st)
            { s with path := told v (.gap st w.n k h d (oneLegged s.settings s.path.arb.view st)) k })
    ∧ (w.deadline = none ∨ (∃ d, w.deadline = some d ∧ s.offeredTime ≤ d) →
      ∃ t, exec (.gapDeclaration st) s = .next t
        ∧ t.path.arb = { s.path.arb with time := s.offeredTime }
        ∧ t.path.merge = s.path.merge ∧ t.path.store = s.path.store ∧ t.path.writer = s.path.writer
        ∧ (∀ c : Chan, (t.path.chans[c]).queue = (s.path.chans[c]).queue
            ∧ (t.path.chans[c]).tally = (s.path.chans[c]).tally
            ∧ ((s.path.chans[c]).Ready → t.path.chans[c] = s.path.chans[c])))
end

