-- ==== Sys2Proof/Laws/State.lean ====
section
/-!
SUPPORT. What each plain update leaves: one lemma for each field of State and of Path that an update does not touch,
and what it makes of the one it does, so that no proof unfolds a record update.
-/
namespace Sys2Proof.Machine

/-! ## State -/

namespace State

@[simp] theorem modPath_tb (f : Env → Path → Path) (s : State) : (modPath f s).tb = s.tb := rfl
@[simp] theorem modPath_bus (f : Env → Path → Path) (s : State) : (modPath f s).bus = s.bus := rfl
@[simp] theorem modPath_sc (f : Env → Path → Path) (s : State) : (modPath f s).sc = s.sc := rfl
@[simp] theorem modPath_roster (f : Env → Path → Path) (s : State) : (modPath f s).roster = s.roster := rfl
@[simp] theorem modPath_cage (f : Env → Path → Path) (s : State) : (modPath f s).cage = s.cage := rfl
@[simp] theorem modPath_lines (f : Env → Path → Path) (s : State) : (modPath f s).lines = s.lines := rfl
@[simp] theorem modPath_losPhase (f : Env → Path → Path) (s : State) : (modPath f s).losPhase = s.losPhase := rfl
@[simp] theorem modPath_settings (f : Env → Path → Path) (s : State) : (modPath f s).settings = s.settings := rfl
@[simp] theorem modPath_ctl (f : Env → Path → Path) (s : State) : (modPath f s).ctl = s.ctl := rfl
@[simp] theorem modPath_resetLow (f : Env → Path → Path) (s : State) : (modPath f s).resetLow = s.resetLow := rfl
@[simp] theorem modPath_pending (f : Env → Path → Path) (s : State) : (modPath f s).pending = s.pending := rfl

@[simp] theorem modPath_path (f : Env → Path → Path) (s : State) : (modPath f s).path = f s.env s.path := rfl

@[simp] theorem mapLines_tb (f : Line → LinePort → LinePort) (s : State) : (mapLines f s).tb = s.tb := rfl
@[simp] theorem mapLines_bus (f : Line → LinePort → LinePort) (s : State) : (mapLines f s).bus = s.bus := rfl
@[simp] theorem mapLines_sc (f : Line → LinePort → LinePort) (s : State) : (mapLines f s).sc = s.sc := rfl
@[simp] theorem mapLines_roster (f : Line → LinePort → LinePort) (s : State) : (mapLines f s).roster = s.roster := rfl
@[simp] theorem mapLines_cage (f : Line → LinePort → LinePort) (s : State) : (mapLines f s).cage = s.cage := rfl
@[simp] theorem mapLines_losPhase (f : Line → LinePort → LinePort) (s : State) : (mapLines f s).losPhase = s.losPhase := rfl
@[simp] theorem mapLines_path (f : Line → LinePort → LinePort) (s : State) : (mapLines f s).path = s.path := rfl
@[simp] theorem mapLines_settings (f : Line → LinePort → LinePort) (s : State) : (mapLines f s).settings = s.settings := rfl
@[simp] theorem mapLines_ctl (f : Line → LinePort → LinePort) (s : State) : (mapLines f s).ctl = s.ctl := rfl
@[simp] theorem mapLines_resetLow (f : Line → LinePort → LinePort) (s : State) : (mapLines f s).resetLow = s.resetLow := rfl
@[simp] theorem mapLines_pending (f : Line → LinePort → LinePort) (s : State) : (mapLines f s).pending = s.pending := rfl

@[simp] theorem modLine_tb (l : Line) (f : LinePort → LinePort) (s : State) : (modLine l f s).tb = s.tb := rfl
@[simp] theorem modLine_bus (l : Line) (f : LinePort → LinePort) (s : State) : (modLine l f s).bus = s.bus := rfl
@[simp] theorem modLine_sc (l : Line) (f : LinePort → LinePort) (s : State) : (modLine l f s).sc = s.sc := rfl
@[simp] theorem modLine_roster (l : Line) (f : LinePort → LinePort) (s : State) : (modLine l f s).roster = s.roster := rfl
@[simp] theorem modLine_cage (l : Line) (f : LinePort → LinePort) (s : State) : (modLine l f s).cage = s.cage := rfl
@[simp] theorem modLine_losPhase (l : Line) (f : LinePort → LinePort) (s : State) : (modLine l f s).losPhase = s.losPhase := rfl
@[simp] theorem modLine_path (l : Line) (f : LinePort → LinePort) (s : State) : (modLine l f s).path = s.path := rfl
@[simp] theorem modLine_settings (l : Line) (f : LinePort → LinePort) (s : State) : (modLine l f s).settings = s.settings := rfl
@[simp] theorem modLine_ctl (l : Line) (f : LinePort → LinePort) (s : State) : (modLine l f s).ctl = s.ctl := rfl
@[simp] theorem modLine_resetLow (l : Line) (f : LinePort → LinePort) (s : State) : (modLine l f s).resetLow = s.resetLow := rfl
@[simp] theorem modLine_pending (l : Line) (f : LinePort → LinePort) (s : State) : (modLine l f s).pending = s.pending := rfl

theorem modLine_lines (l : Line) (f : LinePort → LinePort) (s : State) :
    (modLine l f s).lines = updAt s.lines l f := rfl

@[simp] theorem modLineCounters_tb (l : Line) (f : LineCounters → LineCounters) (s : State) : (modLineCounters l f s).tb = s.tb := rfl
@[simp] theorem modLineCounters_bus (l : Line) (f : LineCounters → LineCounters) (s : State) : (modLineCounters l f s).bus = s.bus := rfl
@[simp] theorem modLineCounters_sc (l : Line) (f : LineCounters → LineCounters) (s : State) : (modLineCounters l f s).sc = s.sc := rfl
@[simp] theorem modLineCounters_roster (l : Line) (f : LineCounters → LineCounters) (s : State) : (modLineCounters l f s).roster = s.roster := rfl
@[simp] theorem modLineCounters_cage (l : Line) (f : LineCounters → LineCounters) (s : State) : (modLineCounters l f s).cage = s.cage := rfl
@[simp] theorem modLineCounters_losPhase (l : Line) (f : LineCounters → LineCounters) (s : State) : (modLineCounters l f s).losPhase = s.losPhase := rfl
@[simp] theorem modLineCounters_path (l : Line) (f : LineCounters → LineCounters) (s : State) : (modLineCounters l f s).path = s.path := rfl
@[simp] theorem modLineCounters_settings (l : Line) (f : LineCounters → LineCounters) (s : State) : (modLineCounters l f s).settings = s.settings := rfl
@[simp] theorem modLineCounters_ctl (l : Line) (f : LineCounters → LineCounters) (s : State) : (modLineCounters l f s).ctl = s.ctl := rfl
@[simp] theorem modLineCounters_resetLow (l : Line) (f : LineCounters → LineCounters) (s : State) : (modLineCounters l f s).resetLow = s.resetLow := rfl
@[simp] theorem modLineCounters_pending (l : Line) (f : LineCounters → LineCounters) (s : State) : (modLineCounters l f s).pending = s.pending := rfl

theorem modLineCounters_eq (l : Line) (f : LineCounters → LineCounters) (s : State) :
    modLineCounters l f s = modLine l (fun p => { p with counters := f p.counters }) s := rfl

@[simp] theorem setFrame_tb (l : Line) (f : PortFrame) (s : State) : (setFrame l f s).tb = s.tb := rfl
@[simp] theorem setFrame_bus (l : Line) (f : PortFrame) (s : State) : (setFrame l f s).bus = s.bus := rfl
@[simp] theorem setFrame_sc (l : Line) (f : PortFrame) (s : State) : (setFrame l f s).sc = s.sc := rfl
@[simp] theorem setFrame_roster (l : Line) (f : PortFrame) (s : State) : (setFrame l f s).roster = s.roster := rfl
@[simp] theorem setFrame_cage (l : Line) (f : PortFrame) (s : State) : (setFrame l f s).cage = s.cage := rfl
@[simp] theorem setFrame_losPhase (l : Line) (f : PortFrame) (s : State) : (setFrame l f s).losPhase = s.losPhase := rfl
@[simp] theorem setFrame_path (l : Line) (f : PortFrame) (s : State) : (setFrame l f s).path = s.path := rfl
@[simp] theorem setFrame_settings (l : Line) (f : PortFrame) (s : State) : (setFrame l f s).settings = s.settings := rfl
@[simp] theorem setFrame_ctl (l : Line) (f : PortFrame) (s : State) : (setFrame l f s).ctl = s.ctl := rfl
@[simp] theorem setFrame_resetLow (l : Line) (f : PortFrame) (s : State) : (setFrame l f s).resetLow = s.resetLow := rfl
@[simp] theorem setFrame_pending (l : Line) (f : PortFrame) (s : State) : (setFrame l f s).pending = s.pending := rfl

@[simp] theorem setResult_tb (r : ResultCode) (i : Nat) (s : State) : (setResult r i s).tb = s.tb := rfl
@[simp] theorem setResult_bus (r : ResultCode) (i : Nat) (s : State) : (setResult r i s).bus = s.bus := rfl
@[simp] theorem setResult_sc (r : ResultCode) (i : Nat) (s : State) : (setResult r i s).sc = s.sc := rfl
@[simp] theorem setResult_roster (r : ResultCode) (i : Nat) (s : State) : (setResult r i s).roster = s.roster := rfl
@[simp] theorem setResult_cage (r : ResultCode) (i : Nat) (s : State) : (setResult r i s).cage = s.cage := rfl
@[simp] theorem setResult_lines (r : ResultCode) (i : Nat) (s : State) : (setResult r i s).lines = s.lines := rfl
@[simp] theorem setResult_losPhase (r : ResultCode) (i : Nat) (s : State) : (setResult r i s).losPhase = s.losPhase := rfl
@[simp] theorem setResult_path (r : ResultCode) (i : Nat) (s : State) : (setResult r i s).path = s.path := rfl
@[simp] theorem setResult_settings (r : ResultCode) (i : Nat) (s : State) : (setResult r i s).settings = s.settings := rfl
@[simp] theorem setResult_resetLow (r : ResultCode) (i : Nat) (s : State) : (setResult r i s).resetLow = s.resetLow := rfl
@[simp] theorem setResult_pending (r : ResultCode) (i : Nat) (s : State) : (setResult r i s).pending = s.pending := rfl

@[simp] theorem setResult_ctl (r : ResultCode) (i : Nat) (s : State) :
    (setResult r i s).ctl = { s.ctl with result := r, resultIndex := i } := rfl

@[simp] theorem modEntry_tb (j : Station) (f : RosterEntry → RosterEntry) (s : State) : (modEntry j f s).tb = s.tb := rfl
@[simp] theorem modEntry_bus (j : Station) (f : RosterEntry → RosterEntry) (s : State) : (modEntry j f s).bus = s.bus := rfl
@[simp] theorem modEntry_sc (j : Station) (f : RosterEntry → RosterEntry) (s : State) : (modEntry j f s).sc = s.sc := rfl
@[simp] theorem modEntry_cage (j : Station) (f : RosterEntry → RosterEntry) (s : State) : (modEntry j f s).cage = s.cage := rfl
@[simp] theorem modEntry_lines (j : Station) (f : RosterEntry → RosterEntry) (s : State) : (modEntry j f s).lines = s.lines := rfl
@[simp] theorem modEntry_losPhase (j : Station) (f : RosterEntry → RosterEntry) (s : State) : (modEntry j f s).losPhase = s.losPhase := rfl
@[simp] theorem modEntry_path (j : Station) (f : RosterEntry → RosterEntry) (s : State) : (modEntry j f s).path = s.path := rfl
@[simp] theorem modEntry_settings (j : Station) (f : RosterEntry → RosterEntry) (s : State) : (modEntry j f s).settings = s.settings := rfl
@[simp] theorem modEntry_ctl (j : Station) (f : RosterEntry → RosterEntry) (s : State) : (modEntry j f s).ctl = s.ctl := rfl
@[simp] theorem modEntry_resetLow (j : Station) (f : RosterEntry → RosterEntry) (s : State) : (modEntry j f s).resetLow = s.resetLow := rfl
@[simp] theorem modEntry_pending (j : Station) (f : RosterEntry → RosterEntry) (s : State) : (modEntry j f s).pending = s.pending := rfl

@[simp] theorem served_tb  (s : State) : (served s).tb = s.tb := rfl
@[simp] theorem served_bus  (s : State) : (served s).bus = s.bus := rfl
@[simp] theorem served_sc  (s : State) : (served s).sc = s.sc := rfl
@[simp] theorem served_roster  (s : State) : (served s).roster = s.roster := rfl
@[simp] theorem served_cage  (s : State) : (served s).cage = s.cage := rfl
@[simp] theorem served_lines  (s : State) : (served s).lines = s.lines := rfl
@[simp] theorem served_losPhase  (s : State) : (served s).losPhase = s.losPhase := rfl
@[simp] theorem served_settings  (s : State) : (served s).settings = s.settings := rfl
@[simp] theorem served_ctl  (s : State) : (served s).ctl = s.ctl := rfl
@[simp] theorem served_resetLow  (s : State) : (served s).resetLow = s.resetLow := rfl
@[simp] theorem served_pending  (s : State) : (served s).pending = s.pending := rfl

@[simp] theorem served_path (s : State) : (served s).path = Path.serve s.env s.path := rfl

@[simp] theorem peerCause_tb  (s : State) : (peerCause s).tb = s.tb := rfl
@[simp] theorem peerCause_bus  (s : State) : (peerCause s).bus = s.bus := rfl
@[simp] theorem peerCause_sc  (s : State) : (peerCause s).sc = s.sc := rfl
@[simp] theorem peerCause_roster  (s : State) : (peerCause s).roster = s.roster := rfl
@[simp] theorem peerCause_cage  (s : State) : (peerCause s).cage = s.cage := rfl
@[simp] theorem peerCause_lines  (s : State) : (peerCause s).lines = s.lines := rfl
@[simp] theorem peerCause_losPhase  (s : State) : (peerCause s).losPhase = s.losPhase := rfl
@[simp] theorem peerCause_settings  (s : State) : (peerCause s).settings = s.settings := rfl
@[simp] theorem peerCause_ctl  (s : State) : (peerCause s).ctl = s.ctl := rfl
@[simp] theorem peerCause_resetLow  (s : State) : (peerCause s).resetLow = s.resetLow := rfl
@[simp] theorem peerCause_pending  (s : State) : (peerCause s).pending = s.pending := rfl

@[simp] theorem emitTime_tb (old new : ScaleState) (r : TimeReason) (peer : Nat) (prev : BitVec 48) (s : State) : (emitTime old new r peer prev s).tb = s.tb := rfl
@[simp] theorem emitTime_bus (old new : ScaleState) (r : TimeReason) (peer : Nat) (prev : BitVec 48) (s : State) : (emitTime old new r peer prev s).bus = s.bus := rfl
@[simp] theorem emitTime_sc (old new : ScaleState) (r : TimeReason) (peer : Nat) (prev : BitVec 48) (s : State) : (emitTime old new r peer prev s).sc = s.sc := rfl
@[simp] theorem emitTime_roster (old new : ScaleState) (r : TimeReason) (peer : Nat) (prev : BitVec 48) (s : State) : (emitTime old new r peer prev s).roster = s.roster := rfl
@[simp] theorem emitTime_cage (old new : ScaleState) (r : TimeReason) (peer : Nat) (prev : BitVec 48) (s : State) : (emitTime old new r peer prev s).cage = s.cage := rfl
@[simp] theorem emitTime_lines (old new : ScaleState) (r : TimeReason) (peer : Nat) (prev : BitVec 48) (s : State) : (emitTime old new r peer prev s).lines = s.lines := rfl
@[simp] theorem emitTime_losPhase (old new : ScaleState) (r : TimeReason) (peer : Nat) (prev : BitVec 48) (s : State) : (emitTime old new r peer prev s).losPhase = s.losPhase := rfl
@[simp] theorem emitTime_settings (old new : ScaleState) (r : TimeReason) (peer : Nat) (prev : BitVec 48) (s : State) : (emitTime old new r peer prev s).settings = s.settings := rfl
@[simp] theorem emitTime_ctl (old new : ScaleState) (r : TimeReason) (peer : Nat) (prev : BitVec 48) (s : State) : (emitTime old new r peer prev s).ctl = s.ctl := rfl
@[simp] theorem emitTime_resetLow (old new : ScaleState) (r : TimeReason) (peer : Nat) (prev : BitVec 48) (s : State) : (emitTime old new r peer prev s).resetLow = s.resetLow := rfl
@[simp] theorem emitTime_pending (old new : ScaleState) (r : TimeReason) (peer : Nat) (prev : BitVec 48) (s : State) : (emitTime old new r peer prev s).pending = s.pending := rfl

@[simp] theorem changeLine_tb (l : Line) (new : LineState) (r : LineReason) (n : Nat) (s : State) : (changeLine l new r n s).tb = s.tb := rfl
@[simp] theorem changeLine_bus (l : Line) (new : LineState) (r : LineReason) (n : Nat) (s : State) : (changeLine l new r n s).bus = s.bus := rfl
@[simp] theorem changeLine_sc (l : Line) (new : LineState) (r : LineReason) (n : Nat) (s : State) : (changeLine l new r n s).sc = s.sc := rfl
@[simp] theorem changeLine_roster (l : Line) (new : LineState) (r : LineReason) (n : Nat) (s : State) : (changeLine l new r n s).roster = s.roster := rfl
@[simp] theorem changeLine_cage (l : Line) (new : LineState) (r : LineReason) (n : Nat) (s : State) : (changeLine l new r n s).cage = s.cage := rfl
@[simp] theorem changeLine_losPhase (l : Line) (new : LineState) (r : LineReason) (n : Nat) (s : State) : (changeLine l new r n s).losPhase = s.losPhase := rfl
@[simp] theorem changeLine_settings (l : Line) (new : LineState) (r : LineReason) (n : Nat) (s : State) : (changeLine l new r n s).settings = s.settings := rfl
@[simp] theorem changeLine_ctl (l : Line) (new : LineState) (r : LineReason) (n : Nat) (s : State) : (changeLine l new r n s).ctl = s.ctl := rfl
@[simp] theorem changeLine_resetLow (l : Line) (new : LineState) (r : LineReason) (n : Nat) (s : State) : (changeLine l new r n s).resetLow = s.resetLow := rfl
@[simp] theorem changeLine_pending (l : Line) (new : LineState) (r : LineReason) (n : Nat) (s : State) : (changeLine l new r n s).pending = s.pending := rfl

@[simp] theorem leaveListen_tb  (s : State) : (leaveListen s).tb = s.tb := rfl
@[simp] theorem leaveListen_sc  (s : State) : (leaveListen s).sc = s.sc := rfl
@[simp] theorem leaveListen_roster  (s : State) : (leaveListen s).roster = s.roster := rfl
@[simp] theorem leaveListen_cage  (s : State) : (leaveListen s).cage = s.cage := rfl
@[simp] theorem leaveListen_lines  (s : State) : (leaveListen s).lines = s.lines := rfl
@[simp] theorem leaveListen_losPhase  (s : State) : (leaveListen s).losPhase = s.losPhase := rfl
@[simp] theorem leaveListen_path  (s : State) : (leaveListen s).path = s.path := rfl
@[simp] theorem leaveListen_settings  (s : State) : (leaveListen s).settings = s.settings := rfl
@[simp] theorem leaveListen_ctl  (s : State) : (leaveListen s).ctl = s.ctl := rfl
@[simp] theorem leaveListen_resetLow  (s : State) : (leaveListen s).resetLow = s.resetLow := rfl
@[simp] theorem leaveListen_pending  (s : State) : (leaveListen s).pending = s.pending := rfl

@[simp] theorem recordExpiry_tb  (s : State) : (recordExpiry s).tb = s.tb := rfl
@[simp] theorem recordExpiry_sc  (s : State) : (recordExpiry s).sc = s.sc := rfl
@[simp] theorem recordExpiry_roster  (s : State) : (recordExpiry s).roster = s.roster := rfl
@[simp] theorem recordExpiry_cage  (s : State) : (recordExpiry s).cage = s.cage := rfl
@[simp] theorem recordExpiry_lines  (s : State) : (recordExpiry s).lines = s.lines := rfl
@[simp] theorem recordExpiry_losPhase  (s : State) : (recordExpiry s).losPhase = s.losPhase := rfl
@[simp] theorem recordExpiry_path  (s : State) : (recordExpiry s).path = s.path := rfl
@[simp] theorem recordExpiry_settings  (s : State) : (recordExpiry s).settings = s.settings := rfl
@[simp] theorem recordExpiry_ctl  (s : State) : (recordExpiry s).ctl = s.ctl := rfl
@[simp] theorem recordExpiry_resetLow  (s : State) : (recordExpiry s).resetLow = s.resetLow := rfl
@[simp] theorem recordExpiry_pending  (s : State) : (recordExpiry s).pending = s.pending := rfl

@[simp] theorem clashTest_tb  (s : State) : (clashTest s).tb = s.tb := rfl
@[simp] theorem clashTest_bus  (s : State) : (clashTest s).bus = s.bus := rfl
@[simp] theorem clashTest_roster  (s : State) : (clashTest s).roster = s.roster := rfl
@[simp] theorem clashTest_cage  (s : State) : (clashTest s).cage = s.cage := rfl
@[simp] theorem clashTest_lines  (s : State) : (clashTest s).lines = s.lines := rfl
@[simp] theorem clashTest_losPhase  (s : State) : (clashTest s).losPhase = s.losPhase := rfl
@[simp] theorem clashTest_path  (s : State) : (clashTest s).path = s.path := rfl
@[simp] theorem clashTest_settings  (s : State) : (clashTest s).settings = s.settings := rfl
@[simp] theorem clashTest_ctl  (s : State) : (clashTest s).ctl = s.ctl := rfl
@[simp] theorem clashTest_resetLow  (s : State) : (clashTest s).resetLow = s.resetLow := rfl
@[simp] theorem clashTest_pending  (s : State) : (clashTest s).pending = s.pending := rfl

/-- The tick and the settings of an updated state are those of the state when neither is touched. -/
theorem env_congr {s t : State} (h1 : t.tb.tick = s.tb.tick) (h2 : t.settings = s.settings) : t.env = s.env := by
  unfold env now; rw [h1, h2]

@[simp] theorem env_now (s : State) : s.env.now = s.now := rfl
@[simp] theorem env_cfg (s : State) : s.env.cfg = s.settings := rfl

end State

/-! ## Path -/

namespace Path

@[simp] theorem modChan_store (c : Chan) (f : Channel → Channel) (p : Path) : (modChan c f p).store = p.store := rfl
@[simp] theorem modChan_merge (c : Chan) (f : Channel → Channel) (p : Path) : (modChan c f p).merge = p.merge := rfl
@[simp] theorem modChan_arb (c : Chan) (f : Channel → Channel) (p : Path) : (modChan c f p).arb = p.arb := rfl
@[simp] theorem modChan_writer (c : Chan) (f : Channel → Channel) (p : Path) : (modChan c f p).writer = p.writer := rfl
@[simp] theorem modChan_att (c : Chan) (f : Channel → Channel) (p : Path) : (modChan c f p).att = p.att := rfl
@[simp] theorem modChan_mem (c : Chan) (f : Channel → Channel) (p : Path) : (modChan c f p).mem = p.mem := rfl
@[simp] theorem modChan_draws (c : Chan) (f : Channel → Channel) (p : Path) : (modChan c f p).draws = p.draws := rfl

theorem modChan_chans (c : Chan) (f : Channel → Channel) (p : Path) :
    (modChan c f p).chans = updAt p.chans c f := rfl

@[simp] theorem returnBlocks_merge (n : Nat) (p : Path) : (returnBlocks n p).merge = p.merge := rfl
@[simp] theorem returnBlocks_arb (n : Nat) (p : Path) : (returnBlocks n p).arb = p.arb := rfl
@[simp] theorem returnBlocks_chans (n : Nat) (p : Path) : (returnBlocks n p).chans = p.chans := rfl
@[simp] theorem returnBlocks_writer (n : Nat) (p : Path) : (returnBlocks n p).writer = p.writer := rfl
@[simp] theorem returnBlocks_att (n : Nat) (p : Path) : (returnBlocks n p).att = p.att := rfl
@[simp] theorem returnBlocks_mem (n : Nat) (p : Path) : (returnBlocks n p).mem = p.mem := rfl
@[simp] theorem returnBlocks_draws (n : Nat) (p : Path) : (returnBlocks n p).draws = p.draws := rfl

@[simp] theorem returnBlocks_store (n : Nat) (p : Path) :
    (returnBlocks n p).store = { p.store with free := p.store.free + n } := rfl

@[simp] theorem blur_store  (p : Path) : (blur p).store = p.store := rfl
@[simp] theorem blur_merge  (p : Path) : (blur p).merge = p.merge := rfl
@[simp] theorem blur_arb  (p : Path) : (blur p).arb = p.arb := rfl
@[simp] theorem blur_chans  (p : Path) : (blur p).chans = p.chans := rfl
@[simp] theorem blur_writer  (p : Path) : (blur p).writer = p.writer := rfl
@[simp] theorem blur_att  (p : Path) : (blur p).att = p.att := rfl
@[simp] theorem blur_draws  (p : Path) : (blur p).draws = p.draws := rfl

@[simp] theorem land_store (w : LinkWrite) (p : Path) : (land w p).store = p.store := rfl
@[simp] theorem land_merge (w : LinkWrite) (p : Path) : (land w p).merge = p.merge := rfl
@[simp] theorem land_arb (w : LinkWrite) (p : Path) : (land w p).arb = p.arb := rfl
@[simp] theorem land_chans (w : LinkWrite) (p : Path) : (land w p).chans = p.chans := rfl
@[simp] theorem land_writer (w : LinkWrite) (p : Path) : (land w p).writer = p.writer := rfl
@[simp] theorem land_att (w : LinkWrite) (p : Path) : (land w p).att = p.att := rfl
@[simp] theorem land_draws (w : LinkWrite) (p : Path) : (land w p).draws = p.draws := rfl

@[simp] theorem issueMessage_store (e : Env) (p : Path) : (issueMessage e p).store = p.store := rfl
@[simp] theorem issueMessage_merge (e : Env) (p : Path) : (issueMessage e p).merge = p.merge := rfl
@[simp] theorem issueMessage_arb (e : Env) (p : Path) : (issueMessage e p).arb = p.arb := rfl
@[simp] theorem issueMessage_chans (e : Env) (p : Path) : (issueMessage e p).chans = p.chans := rfl
@[simp] theorem issueMessage_writer (e : Env) (p : Path) : (issueMessage e p).writer = p.writer := rfl
@[simp] theorem issueMessage_draws (e : Env) (p : Path) : (issueMessage e p).draws = p.draws := rfl

@[simp] theorem modWindow_store (st : Stream) (f : SeqWindow → SeqWindow) (p : Path) : (modWindow st f p).store = p.store := rfl
@[simp] theorem modWindow_merge (st : Stream) (f : SeqWindow → SeqWindow) (p : Path) : (modWindow st f p).merge = p.merge := rfl
@[simp] theorem modWindow_chans (st : Stream) (f : SeqWindow → SeqWindow) (p : Path) : (modWindow st f p).chans = p.chans := rfl
@[simp] theorem modWindow_writer (st : Stream) (f : SeqWindow → SeqWindow) (p : Path) : (modWindow st f p).writer = p.writer := rfl
@[simp] theorem modWindow_att (st : Stream) (f : SeqWindow → SeqWindow) (p : Path) : (modWindow st f p).att = p.att := rfl
@[simp] theorem modWindow_mem (st : Stream) (f : SeqWindow → SeqWindow) (p : Path) : (modWindow st f p).mem = p.mem := rfl
@[simp] theorem modWindow_draws (st : Stream) (f : SeqWindow → SeqWindow) (p : Path) : (modWindow st f p).draws = p.draws := rfl

@[simp] theorem modStream_store (st : Stream) (f : StreamCounters → StreamCounters) (p : Path) : (modStream st f p).store = p.store := rfl
@[simp] theorem modStream_merge (st : Stream) (f : StreamCounters → StreamCounters) (p : Path) : (modStream st f p).merge = p.merge := rfl
@[simp] theorem modStream_chans (st : Stream) (f : StreamCounters → StreamCounters) (p : Path) : (modStream st f p).chans = p.chans := rfl
@[simp] theorem modStream_writer (st : Stream) (f : StreamCounters → StreamCounters) (p : Path) : (modStream st f p).writer = p.writer := rfl
@[simp] theorem modStream_att (st : Stream) (f : StreamCounters → StreamCounters) (p : Path) : (modStream st f p).att = p.att := rfl
@[simp] theorem modStream_mem (st : Stream) (f : StreamCounters → StreamCounters) (p : Path) : (modStream st f p).mem = p.mem := rfl
@[simp] theorem modStream_draws (st : Stream) (f : StreamCounters → StreamCounters) (p : Path) : (modStream st f p).draws = p.draws := rfl

@[simp] theorem raiseTime_store (t : Nat) (p : Path) : (raiseTime t p).store = p.store := rfl
@[simp] theorem raiseTime_merge (t : Nat) (p : Path) : (raiseTime t p).merge = p.merge := rfl
@[simp] theorem raiseTime_chans (t : Nat) (p : Path) : (raiseTime t p).chans = p.chans := rfl
@[simp] theorem raiseTime_writer (t : Nat) (p : Path) : (raiseTime t p).writer = p.writer := rfl
@[simp] theorem raiseTime_att (t : Nat) (p : Path) : (raiseTime t p).att = p.att := rfl
@[simp] theorem raiseTime_mem (t : Nat) (p : Path) : (raiseTime t p).mem = p.mem := rfl
@[simp] theorem raiseTime_draws (t : Nat) (p : Path) : (raiseTime t p).draws = p.draws := rfl

@[simp] theorem retime_store (c : Settings) (st : Stream) (p : Path) : (retime c st p).store = p.store := rfl
@[simp] theorem retime_merge (c : Settings) (st : Stream) (p : Path) : (retime c st p).merge = p.merge := rfl
@[simp] theorem retime_chans (c : Settings) (st : Stream) (p : Path) : (retime c st p).chans = p.chans := rfl
@[simp] theorem retime_writer (c : Settings) (st : Stream) (p : Path) : (retime c st p).writer = p.writer := rfl
@[simp] theorem retime_att (c : Settings) (st : Stream) (p : Path) : (retime c st p).att = p.att := rfl
@[simp] theorem retime_mem (c : Settings) (st : Stream) (p : Path) : (retime c st p).mem = p.mem := rfl
@[simp] theorem retime_draws (c : Settings) (st : Stream) (p : Path) : (retime c st p).draws = p.draws := rfl

@[simp] theorem grantBlock_merge  (p : Path) : (grantBlock p).merge = p.merge := rfl
@[simp] theorem grantBlock_arb  (p : Path) : (grantBlock p).arb = p.arb := rfl
@[simp] theorem grantBlock_chans  (p : Path) : (grantBlock p).chans = p.chans := rfl
@[simp] theorem grantBlock_writer  (p : Path) : (grantBlock p).writer = p.writer := rfl
@[simp] theorem grantBlock_att  (p : Path) : (grantBlock p).att = p.att := rfl
@[simp] theorem grantBlock_mem  (p : Path) : (grantBlock p).mem = p.mem := rfl
@[simp] theorem grantBlock_draws  (p : Path) : (grantBlock p).draws = p.draws := rfl

@[simp] theorem enterInFlight_store (l : Line) (t : Nat) (p : Path) : (enterInFlight l t p).store = p.store := rfl
@[simp] theorem enterInFlight_arb (l : Line) (t : Nat) (p : Path) : (enterInFlight l t p).arb = p.arb := rfl
@[simp] theorem enterInFlight_chans (l : Line) (t : Nat) (p : Path) : (enterInFlight l t p).chans = p.chans := rfl
@[simp] theorem enterInFlight_writer (l : Line) (t : Nat) (p : Path) : (enterInFlight l t p).writer = p.writer := rfl
@[simp] theorem enterInFlight_att (l : Line) (t : Nat) (p : Path) : (enterInFlight l t p).att = p.att := rfl
@[simp] theorem enterInFlight_mem (l : Line) (t : Nat) (p : Path) : (enterInFlight l t p).mem = p.mem := rfl
@[simp] theorem enterInFlight_draws (l : Line) (t : Nat) (p : Path) : (enterInFlight l t p).draws = p.draws := rfl

@[simp] theorem leaveInFlight_store (l : Line) (p : Path) : (leaveInFlight l p).store = p.store := rfl
@[simp] theorem leaveInFlight_arb (l : Line) (p : Path) : (leaveInFlight l p).arb = p.arb := rfl
@[simp] theorem leaveInFlight_chans (l : Line) (p : Path) : (leaveInFlight l p).chans = p.chans := rfl
@[simp] theorem leaveInFlight_writer (l : Line) (p : Path) : (leaveInFlight l p).writer = p.writer := rfl
@[simp] theorem leaveInFlight_att (l : Line) (p : Path) : (leaveInFlight l p).att = p.att := rfl
@[simp] theorem leaveInFlight_mem (l : Line) (p : Path) : (leaveInFlight l p).mem = p.mem := rfl
@[simp] theorem leaveInFlight_draws (l : Line) (p : Path) : (leaveInFlight l p).draws = p.draws := rfl

@[simp] theorem addPending_store (f : Classified) (p : Path) : (addPending f p).store = p.store := rfl
@[simp] theorem addPending_arb (f : Classified) (p : Path) : (addPending f p).arb = p.arb := rfl
@[simp] theorem addPending_chans (f : Classified) (p : Path) : (addPending f p).chans = p.chans := rfl
@[simp] theorem addPending_writer (f : Classified) (p : Path) : (addPending f p).writer = p.writer := rfl
@[simp] theorem addPending_att (f : Classified) (p : Path) : (addPending f p).att = p.att := rfl
@[simp] theorem addPending_mem (f : Classified) (p : Path) : (addPending f p).mem = p.mem := rfl
@[simp] theorem addPending_draws (f : Classified) (p : Path) : (addPending f p).draws = p.draws := rfl

@[simp] theorem startIdle_store (e : Env) (c : Chan) (p : Path) : (startIdle e c p).store = p.store := rfl
@[simp] theorem startIdle_merge (e : Env) (c : Chan) (p : Path) : (startIdle e c p).merge = p.merge := rfl
@[simp] theorem startIdle_arb (e : Env) (c : Chan) (p : Path) : (startIdle e c p).arb = p.arb := rfl
@[simp] theorem startIdle_writer (e : Env) (c : Chan) (p : Path) : (startIdle e c p).writer = p.writer := rfl
@[simp] theorem startIdle_att (e : Env) (c : Chan) (p : Path) : (startIdle e c p).att = p.att := rfl
@[simp] theorem startIdle_mem (e : Env) (c : Chan) (p : Path) : (startIdle e c p).mem = p.mem := rfl
@[simp] theorem startIdle_draws (e : Env) (c : Chan) (p : Path) : (startIdle e c p).draws = p.draws := rfl

@[simp] theorem resetStoreAndMerge_arb  (p : Path) : (resetStoreAndMerge p).arb = p.arb := rfl
@[simp] theorem resetStoreAndMerge_chans  (p : Path) : (resetStoreAndMerge p).chans = p.chans := rfl
@[simp] theorem resetStoreAndMerge_writer  (p : Path) : (resetStoreAndMerge p).writer = p.writer := rfl
@[simp] theorem resetStoreAndMerge_att  (p : Path) : (resetStoreAndMerge p).att = p.att := rfl
@[simp] theorem resetStoreAndMerge_mem  (p : Path) : (resetStoreAndMerge p).mem = p.mem := rfl
@[simp] theorem resetStoreAndMerge_draws  (p : Path) : (resetStoreAndMerge p).draws = p.draws := rfl

@[simp] theorem resetArbiter_store (now : Nat) (p : Path) : (resetArbiter now p).store = p.store := rfl
@[simp] theorem resetArbiter_merge (now : Nat) (p : Path) : (resetArbiter now p).merge = p.merge := rfl
@[simp] theorem resetArbiter_chans (now : Nat) (p : Path) : (resetArbiter now p).chans = p.chans := rfl
@[simp] theorem resetArbiter_writer (now : Nat) (p : Path) : (resetArbiter now p).writer = p.writer := rfl
@[simp] theorem resetArbiter_att (now : Nat) (p : Path) : (resetArbiter now p).att = p.att := rfl
@[simp] theorem resetArbiter_mem (now : Nat) (p : Path) : (resetArbiter now p).mem = p.mem := rfl
@[simp] theorem resetArbiter_draws (now : Nat) (p : Path) : (resetArbiter now p).draws = p.draws := rfl

@[simp] theorem resetDelivery_store  (p : Path) : (resetDelivery p).store = p.store := rfl
@[simp] theorem resetDelivery_merge  (p : Path) : (resetDelivery p).merge = p.merge := rfl
@[simp] theorem resetDelivery_arb  (p : Path) : (resetDelivery p).arb = p.arb := rfl
@[simp] theorem resetDelivery_att  (p : Path) : (resetDelivery p).att = p.att := rfl
@[simp] theorem resetDelivery_mem  (p : Path) : (resetDelivery p).mem = p.mem := rfl
@[simp] theorem resetDelivery_draws  (p : Path) : (resetDelivery p).draws = p.draws := rfl

end Path

end Sys2Proof.Machine
end

