-- ==== Sys2Proof/Laws/Data.lean ====
section
/-!
SUPPORT. The shared data operations: indexed updates, the free order, sparse lists, the part's traces in host memory,
saturating counts.
-/
namespace Sys2Proof.Machine

/-! ## Indexed updates -/

theorem updAt_self {α : Type} {n : Nat} (v : Vector α n) (i : Fin n) (f : α → α) : (updAt v i f)[i] = f v[i] := by
  simp [updAt]

theorem updAt_ne {α : Type} {n : Nat} (v : Vector α n) {i j : Fin n} (f : α → α) (h : j ≠ i) :
    (updAt v i f)[j] = v[j] := by
  have : i.val ≠ j.val := fun e => h (Fin.ext e.symm)
  simp [updAt, this]

theorem updAt_get {α : Type} {n : Nat} (v : Vector α n) (i j : Fin n) (f : α → α) :
    (updAt v i f)[j] = if j = i then f v[i] else v[j] := by
  by_cases h : j = i
  · subst h; rw [updAt_self, if_pos rfl]
  · rw [updAt_ne v f h, if_neg h]

theorem set_get {α : Type} {n : Nat} (v : Vector α n) (i j : Fin n) (x : α) :
    (v.set i x)[j] = if j = i then x else v[j] := by
  by_cases h : j = i
  · subst h; simp
  · have : i.val ≠ j.val := fun e => h (Fin.ext e.symm)
    simp [this, h]

theorem ofFn_get {α : Type} {n : Nat} (f : Fin n → α) (j : Fin n) : (Vector.ofFn f)[j] = f j := by simp

theorem replicate_get {α : Type} {n : Nat} (x : α) (j : Fin n) : (Vector.replicate n x)[j] = x := by simp

theorem mem_allLines (l : Line) : l ∈ allLines := by revert l; decide

theorem mem_allChans (c : Chan) : c ∈ allChans := by revert c; decide

theorem mem_allStations (j : Station) : j ∈ allStations := by revert j; decide

theorem mem_allStreams (st : Stream) : st ∈ allStreams := List.mem_finRange st

theorem allLines_nodup : allLines.Nodup := by decide

theorem allChans_nodup : allChans.Nodup := by decide

theorem allStations_nodup : allStations.Nodup := by decide

/-! ## Folds -/

/-- A fold keeps what each of its steps keeps. -/
theorem foldl_keeps {α β : Type} (P : β → Prop) (f : β → α → β) (l : List α) (b : β)
    (h : ∀ b a, a ∈ l → P b → P (f b a)) (hb : P b) : P (l.foldl f b) := by
  induction l generalizing b with
  | nil => exact hb
  | cons a l ih =>
    exact ih (f b a) (fun b x hx => h b x (List.mem_cons_of_mem a hx)) (h b a List.mem_cons_self hb)

/-- A value that no step of a fold changes is unchanged by the fold. -/
theorem foldl_same {α β γ : Type} (g : β → γ) (f : β → α → β) (l : List α) (b : β)
    (h : ∀ b a, a ∈ l → g (f b a) = g b) : g (l.foldl f b) = g b :=
  foldl_keeps (fun x => g x = g b) f l b (fun x a ha hx => (h x a ha).trans hx) rfl

/-- Reading at one index through a fold of updates, one for each member of a list without repetition. -/
theorem foldl_updAt_get {α : Type} {n : Nat} (f : Fin n → α → α) (l : List (Fin n)) (v : Vector α n) (j : Fin n)
    (hl : l.Nodup) :
    (l.foldl (fun v i => updAt v i (f i)) v)[j] = if j ∈ l then f j v[j] else v[j] := by
  induction l generalizing v with
  | nil => simp
  | cons i l ih =>
    obtain ⟨hi, hl⟩ := List.nodup_cons.mp hl
    rw [List.foldl_cons, ih _ hl, updAt_get]
    by_cases hji : j = i
    · subst hji; simp [hi]
    · simp [hji]

/-! ## The free order -/

theorem insertByKey_perm {α : Type} (key : α → Nat) (a : α) (l : List α) :
    (insertByKey key a l).Perm (a :: l) := by
  induction l with
  | nil => exact List.Perm.refl _
  | cons b l ih =>
    unfold insertByKey
    split
    · exact List.Perm.refl _
    · exact (ih.cons b).trans (List.Perm.swap a b l)

theorem sortByKey_perm {α : Type} (key : α → Nat) (l : List α) : (sortByKey key l).Perm l := by
  induction l with
  | nil => exact List.Perm.refl _
  | cons a l ih => exact (insertByKey_perm key a _).trans (ih.cons a)

/-- The free order is some order of the same things. -/
theorem freeOrder_perm {α : Type} (draw : Nat) (l : List α) : (freeOrder draw l).Perm l := by
  have h := (sortByKey_perm (fun p : α × Nat => Config.orderKey draw p.2) l.zipIdx).map (·.1)
  simpa [freeOrder, List.zipIdx_map_fst] using h

theorem mem_freeOrder {α : Type} {draw : Nat} {l : List α} {a : α} : a ∈ freeOrder draw l ↔ a ∈ l :=
  (freeOrder_perm draw l).mem_iff

theorem insertByKey_map {α β : Type} (f : α → β) (ka : α → Nat) (kb : β → Nat) (h : ∀ a, kb (f a) = ka a) (a : α)
    (l : List α) : insertByKey kb (f a) (l.map f) = (insertByKey ka a l).map f := by
  induction l with
  | nil => rfl
  | cons b l ih =>
    simp only [List.map_cons, insertByKey, h]
    split
    · rfl
    · simp [ih]

theorem sortByKey_map {α β : Type} (f : α → β) (ka : α → Nat) (kb : β → Nat) (h : ∀ a, kb (f a) = ka a)
    (l : List α) : sortByKey kb (l.map f) = (sortByKey ka l).map f := by
  induction l with
  | nil => rfl
  | cons a l ih => simp only [List.map_cons, sortByKey, ih, insertByKey_map f ka kb h]

/-- The free order looks at positions alone, so it orders images as it orders the things. -/
theorem freeOrder_map {α β : Type} (draw : Nat) (f : α → β) (l : List α) :
    freeOrder draw (l.map f) = (freeOrder draw l).map f := by
  have h := sortByKey_map (fun p : α × Nat => (f p.1, p.2)) (fun p => Config.orderKey draw p.2)
    (fun p => Config.orderKey draw p.2) (fun _ => rfl) l.zipIdx
  unfold freeOrder
  rw [List.zipIdx_map]
  have e : (Prod.map f id : α × Nat → β × Nat) = fun p => (f p.1, p.2) := by
    funext p; rfl
  rw [e, h]
  simp

/-! ## Sparse lists -/

namespace Sparse

theorem get?_put {α : Type} (k j : Nat) (v : α) (l : List (Nat × α)) :
    get? j (put k v l) = if j = k then some v else get? j l := by
  induction l with
  | nil => simp [put, get?, eq_comm]
  | cons p l ih =>
    obtain ⟨i, w⟩ := p
    unfold put
    by_cases h1 : k < i
    · by_cases hj : j = k
      · subst hj; simp [h1, get?]
      · simp [h1, get?, hj, Ne.symm hj]
    · by_cases h2 : k = i
      · subst h2
        by_cases hj : j = k
        · subst hj; simp [get?]
        · simp [get?, hj, Ne.symm hj]
      · by_cases hj : j = k
        · subst hj
          simp [h1, h2, get?, ih, Ne.symm h2]
        · simp [h1, h2, get?, ih, hj]

theorem mem_put {α : Type} {k : Nat} {v : α} {l : List (Nat × α)} {p : Nat × α} (h : p ∈ put k v l) :
    p = (k, v) ∨ p ∈ l := by
  induction l with
  | nil => simpa [put] using h
  | cons q l ih =>
    obtain ⟨j, w⟩ := q
    unfold put at h
    split at h
    · simpa using h
    · split at h
      · rcases List.mem_cons.mp h with h | h
        · exact .inl h
        · exact .inr (List.mem_cons_of_mem _ h)
      · rcases List.mem_cons.mp h with h | h
        · exact .inr (h ▸ List.mem_cons_self)
        · rcases ih h with h | h
          · exact .inl h
          · exact .inr (List.mem_cons_of_mem _ h)

theorem put_rising {α : Type} (k : Nat) (v : α) {l : List (Nat × α)} (h : Rising l) : Rising (put k v l) := by
  induction l with
  | nil => simp [put, Rising]
  | cons p l ih =>
    obtain ⟨j, w⟩ := p
    have h' := List.pairwise_cons.mp h
    unfold put
    split
    · rename_i hk
      refine List.pairwise_cons.mpr ⟨?_, h⟩
      intro q hq
      rcases List.mem_cons.mp hq with rfl | hq
      · exact hk
      · exact Nat.lt_trans hk (h'.1 q hq)
    · split
      · rename_i _ hk
        subst hk
        exact List.pairwise_cons.mpr ⟨h'.1, h'.2⟩
      · rename_i h1 h2
        refine List.pairwise_cons.mpr ⟨?_, ih h'.2⟩
        intro q hq
        rcases mem_put hq with rfl | hq
        · show j < k
          omega
        · exact h'.1 q hq

theorem erase_sublist {α : Type} (k : Nat) (l : List (Nat × α)) : (erase k l).Sublist l := by
  induction l with
  | nil => exact List.Sublist.refl _
  | cons p l ih =>
    obtain ⟨j, w⟩ := p
    unfold erase
    split
    · exact List.sublist_cons_self _ _
    · exact ih.cons_cons _

theorem erase_rising {α : Type} (k : Nat) {l : List (Nat × α)} (h : Rising l) : Rising (erase k l) :=
  h.sublist (erase_sublist k l)

theorem get?_none_of_lt {α : Type} {k : Nat} {l : List (Nat × α)} (h : ∀ p ∈ l, k < p.1) : get? k l = none := by
  induction l with
  | nil => rfl
  | cons p l ih =>
    obtain ⟨j, w⟩ := p
    have hj : k < j := h (j, w) List.mem_cons_self
    rw [get?, if_neg (by omega)]
    exact ih fun q hq => h q (List.mem_cons_of_mem _ hq)

theorem get?_erase {α : Type} (k j : Nat) {l : List (Nat × α)} (h : Rising l) :
    get? j (erase k l) = if j = k then none else get? j l := by
  induction l with
  | nil => simp [erase, get?]
  | cons p l ih =>
    obtain ⟨i, w⟩ := p
    have h' := List.pairwise_cons.mp h
    unfold erase
    by_cases hik : i = k
    · subst hik
      rw [if_pos rfl]
      by_cases hj : j = i
      · subst hj
        rw [if_pos rfl]
        exact get?_none_of_lt h'.1
      · rw [if_neg hj, get?, if_neg (Ne.symm hj)]
    · rw [if_neg hik, get?, get?, ih h'.2]
      by_cases hij : i = j
      · subst hij; simp [hik]
      · simp [hij]

theorem get?_erase_ne {α : Type} (k j : Nat) (l : List (Nat × α)) (h : j ≠ k) : get? j (erase k l) = get? j l := by
  induction l with
  | nil => rfl
  | cons p l ih =>
    obtain ⟨i, w⟩ := p
    unfold erase
    by_cases hik : i = k
    · subst hik
      rw [if_pos rfl, get?, if_neg (Ne.symm h)]
    · rw [if_neg hik, get?, get?, ih]

end Sparse

/-! ## The part's traces in host memory -/

namespace Memory

theorem write_wf (a : Nat) (bs : List Byte) {m : List Host.Cell} (h : wf m) : wf (write a bs m) := by
  induction bs generalizing a m with
  | nil => exact h
  | cons b bs ih => exact ih (a + 1) (Sparse.put_rising a b h)

theorem forget_wf (a n : Nat) {m : List Host.Cell} (h : wf m) : wf (forget a n m) := by
  induction n generalizing a m with
  | zero => exact h
  | succ n ih => exact ih (a + 1) (Sparse.erase_rising a h)

theorem read_put (a x : Nat) (b : Byte) (m : List Host.Cell) :
    read (Sparse.put a b m) x = if x = a then some b else read m x := by
  unfold read
  rw [Sparse.get?_put]
  by_cases h : x = a <;> simp [h]

/-- A written byte reads as written. -/
theorem read_write (a : Nat) (bs : List Byte) (m : List Host.Cell) (x : Nat) :
    read (write a bs m) x = if a ≤ x ∧ x < a + bs.length then bs[x - a]? else read m x := by
  induction bs generalizing a m with
  | nil =>
    have : ¬(a ≤ x ∧ x < a) := by omega
    simp [write, this]
  | cons b bs ih =>
    rw [write, ih, read_put]
    by_cases h1 : x = a
    · subst h1
      simp
    · by_cases h2 : a + 1 ≤ x ∧ x < a + 1 + bs.length
      · have h3 : a ≤ x ∧ x < a + (bs.length + 1) := by omega
        have h4 : x - a = (x - (a + 1)) + 1 := by omega
        simp [h2, h3, h4]
      · have h3 : ¬(a ≤ x ∧ x < a + (bs.length + 1)) := by omega
        rw [if_neg h2, if_neg h1, if_neg (by simpa using h3)]

theorem read_forget_outside (a n x : Nat) (m : List Host.Cell) (h : x < a ∨ a + n ≤ x) :
    read (forget a n m) x = read m x := by
  induction n generalizing a m with
  | zero => rfl
  | succ n ih =>
    rw [forget, ih (a + 1) _ (by omega)]
    unfold read
    rw [Sparse.get?_erase_ne a x m (by omega)]

end Memory

/-! ## Settings -/

namespace Settings

theorem write_wf (c : Settings) (i v : Nat) (h : c.wf) : (c.write i v).wf := by
  unfold write
  split
  · simp only
    split
    · exact ⟨Sparse.erase_rising i h.1, fun p hp => h.2 p ((Sparse.erase_sublist i c.kept).mem hp)⟩
    · rename_i hne
      refine ⟨Sparse.put_rising i _ h.1, fun p hp => ?_⟩
      rcases Sparse.mem_put hp with rfl | hp
      · exact hne
      · exact h.2 p hp
  · exact h

/-- What an item reads after a write (R165, R167). -/
theorem item_write (c : Settings) (i v j : Nat) (h : c.wf) :
    (c.write i v).item j = if j = i ∧ j < itemCount then v % 2 ^ itemWidth j else c.item j := by
  by_cases hi : i < itemCount
  · by_cases hd : v % 2 ^ itemWidth i = itemDefault i
    · have hw : c.write i v = ⟨Sparse.erase i c.kept⟩ := by simp [write, hi, hd]
      rw [hw]; unfold item
      simp only [Sparse.get?_erase i j h.1]
      by_cases hj : j = i
      · subst hj; simp [hi, hd]
      · simp [hj]
    · have hw : c.write i v = ⟨Sparse.put i (v % 2 ^ itemWidth i) c.kept⟩ := by simp [write, hi, hd]
      rw [hw]; unfold item
      simp only [Sparse.get?_put]
      by_cases hj : j = i
      · subst hj; simp [hi]
      · simp [hj]
  · have hw : c.write i v = c := by simp [write, hi]
    rw [hw]
    by_cases hj : j = i
    · subst hj; simp [hi]
    · simp [hj]

end Settings

end Sys2Proof.Machine
end

