-- ==== Sys2Proof/Laws/Delivery.lean ====
section
/-!
SUPPORT. What the operations of the Delivery Engine and of the attention message can do: the parts of the record path
each leaves alone, and what each makes of one channel.
-/
namespace Sys2Proof.Machine.Path

/-! ## Parts left alone -/

@[simp] theorem trySend_store (e : Env) (p : Path) : (trySend e p).store = p.store := by
  unfold trySend; split <;> [(dsimp only; split <;> rfl); rfl]

@[simp] theorem trySend_merge (e : Env) (p : Path) : (trySend e p).merge = p.merge := by
  unfold trySend; split <;> [(dsimp only; split <;> rfl); rfl]

@[simp] theorem trySend_arb (e : Env) (p : Path) : (trySend e p).arb = p.arb := by
  unfold trySend; split <;> [(dsimp only; split <;> rfl); rfl]

@[simp] theorem trySend_chans (e : Env) (p : Path) : (trySend e p).chans = p.chans := by
  unfold trySend; split <;> [(dsimp only; split <;> rfl); rfl]

@[simp] theorem trySend_writer (e : Env) (p : Path) : (trySend e p).writer = p.writer := by
  unfold trySend; split <;> [(dsimp only; split <;> rfl); rfl]

@[simp] theorem trySend_draws (e : Env) (p : Path) : (trySend e p).draws = p.draws := by
  unfold trySend; split <;> [(dsimp only; split <;> rfl); rfl]

@[simp] theorem trySend_att_causes (e : Env) (p : Path) : (trySend e p).att.causes = p.att.causes := by
  unfold trySend; split <;> [(dsimp only; split <;> rfl); rfl]

@[simp] theorem trySend_att_enables (e : Env) (p : Path) : (trySend e p).att.enables = p.att.enables := by
  unfold trySend; split <;> [(dsimp only; split <;> rfl); rfl]

@[simp] theorem setCause_store (e : Env) (k : Cause) (p : Path) : (setCause e k p).store = p.store := by
  unfold setCause; simp

@[simp] theorem setCause_merge (e : Env) (k : Cause) (p : Path) : (setCause e k p).merge = p.merge := by
  unfold setCause; simp

@[simp] theorem setCause_arb (e : Env) (k : Cause) (p : Path) : (setCause e k p).arb = p.arb := by
  unfold setCause; simp

@[simp] theorem setCause_chans (e : Env) (k : Cause) (p : Path) : (setCause e k p).chans = p.chans := by
  unfold setCause; simp

@[simp] theorem setCause_writer (e : Env) (k : Cause) (p : Path) : (setCause e k p).writer = p.writer := by
  unfold setCause; simp

@[simp] theorem setCause_draws (e : Env) (k : Cause) (p : Path) : (setCause e k p).draws = p.draws := by
  unfold setCause; simp

@[simp] theorem setCause_att_enables (e : Env) (k : Cause) (p : Path) : (setCause e k p).att.enables = p.att.enables := by
  unfold setCause; simp

theorem setCause_causes (e : Env) (k : Cause) (p : Path) :
    (setCause e k p).att.causes = p.att.causes ||| k.mask := by
  unfold setCause; simp

@[simp] theorem messageComplete_store (e : Env) (g : Bool) (p : Path) : (messageComplete e g p).store = p.store := by
  unfold messageComplete; split <;> [rfl; (dsimp only; split <;> split <;> rfl)]

@[simp] theorem messageComplete_merge (e : Env) (g : Bool) (p : Path) : (messageComplete e g p).merge = p.merge := by
  unfold messageComplete; split <;> [rfl; (dsimp only; split <;> split <;> rfl)]

@[simp] theorem messageComplete_arb (e : Env) (g : Bool) (p : Path) : (messageComplete e g p).arb = p.arb := by
  unfold messageComplete; split <;> [rfl; (dsimp only; split <;> split <;> rfl)]

@[simp] theorem messageComplete_chans (e : Env) (g : Bool) (p : Path) : (messageComplete e g p).chans = p.chans := by
  unfold messageComplete; split <;> [rfl; (dsimp only; split <;> split <;> rfl)]

@[simp] theorem messageComplete_writer (e : Env) (g : Bool) (p : Path) : (messageComplete e g p).writer = p.writer := by
  unfold messageComplete; split <;> [rfl; (dsimp only; split <;> split <;> rfl)]

@[simp] theorem messageComplete_draws (e : Env) (g : Bool) (p : Path) : (messageComplete e g p).draws = p.draws := by
  unfold messageComplete; split <;> [rfl; (dsimp only; split <;> split <;> rfl)]

@[simp] theorem messageComplete_att_causes (e : Env) (g : Bool) (p : Path) : (messageComplete e g p).att.causes = p.att.causes := by
  unfold messageComplete; split <;> [rfl; (dsimp only; split <;> split <;> rfl)]

@[simp] theorem messageComplete_att_enables (e : Env) (g : Bool) (p : Path) : (messageComplete e g p).att.enables = p.att.enables := by
  unfold messageComplete; split <;> [rfl; (dsimp only; split <;> split <;> rfl)]

@[simp] theorem close_store (e : Env) (c : Chan) (r : ClosureReason) (p : Path) : (close e c r p).store = p.store := by
  unfold close; split <;> simp

@[simp] theorem close_merge (e : Env) (c : Chan) (r : ClosureReason) (p : Path) : (close e c r p).merge = p.merge := by
  unfold close; split <;> simp

@[simp] theorem close_arb (e : Env) (c : Chan) (r : ClosureReason) (p : Path) : (close e c r p).arb = p.arb := by
  unfold close; split <;> simp

@[simp] theorem close_writer (e : Env) (c : Chan) (r : ClosureReason) (p : Path) : (close e c r p).writer = p.writer := by
  unfold close; split <;> simp

@[simp] theorem close_draws (e : Env) (c : Chan) (r : ClosureReason) (p : Path) : (close e c r p).draws = p.draws := by
  unfold close; split <;> simp

@[simp] theorem close_att_enables (e : Env) (c : Chan) (r : ClosureReason) (p : Path) : (close e c r p).att.enables = p.att.enables := by
  unfold close; split <;> simp

@[simp] theorem stall_store (e : Env) (c : Chan) (r : StallReason) (p : Path) : (stall e c r p).store = p.store := by
  unfold stall; simp

@[simp] theorem stall_merge (e : Env) (c : Chan) (r : StallReason) (p : Path) : (stall e c r p).merge = p.merge := by
  unfold stall; simp

@[simp] theorem stall_arb (e : Env) (c : Chan) (r : StallReason) (p : Path) : (stall e c r p).arb = p.arb := by
  unfold stall; simp

@[simp] theorem stall_writer (e : Env) (c : Chan) (r : StallReason) (p : Path) : (stall e c r p).writer = p.writer := by
  unfold stall; simp

@[simp] theorem stall_draws (e : Env) (c : Chan) (r : StallReason) (p : Path) : (stall e c r p).draws = p.draws := by
  unfold stall; simp

@[simp] theorem stall_att_enables (e : Env) (c : Chan) (r : StallReason) (p : Path) : (stall e c r p).att.enables = p.att.enables := by
  unfold stall; simp

@[simp] theorem stallIfNoBuffer_store (e : Env) (c : Chan) (p : Path) : (stallIfNoBuffer e c p).store = p.store := by
  unfold stallIfNoBuffer; split <;> simp

@[simp] theorem stallIfNoBuffer_merge (e : Env) (c : Chan) (p : Path) : (stallIfNoBuffer e c p).merge = p.merge := by
  unfold stallIfNoBuffer; split <;> simp

@[simp] theorem stallIfNoBuffer_arb (e : Env) (c : Chan) (p : Path) : (stallIfNoBuffer e c p).arb = p.arb := by
  unfold stallIfNoBuffer; split <;> simp

@[simp] theorem stallIfNoBuffer_writer (e : Env) (c : Chan) (p : Path) : (stallIfNoBuffer e c p).writer = p.writer := by
  unfold stallIfNoBuffer; split <;> simp

@[simp] theorem stallIfNoBuffer_draws (e : Env) (c : Chan) (p : Path) : (stallIfNoBuffer e c p).draws = p.draws := by
  unfold stallIfNoBuffer; split <;> simp

@[simp] theorem stallIfNoBuffer_att_enables (e : Env) (c : Chan) (p : Path) : (stallIfNoBuffer e c p).att.enables = p.att.enables := by
  unfold stallIfNoBuffer; split <;> simp

@[simp] theorem judge_store (e : Env) (c : Chan) (p : Path) : (judge e c p).store = p.store := by
  unfold judge; dsimp only; split <;> [(split <;> [rfl; simp; (split <;> [rfl; (split <;> simp)])]); rfl]

@[simp] theorem judge_merge (e : Env) (c : Chan) (p : Path) : (judge e c p).merge = p.merge := by
  unfold judge; dsimp only; split <;> [(split <;> [rfl; simp; (split <;> [rfl; (split <;> simp)])]); rfl]

@[simp] theorem judge_arb (e : Env) (c : Chan) (p : Path) : (judge e c p).arb = p.arb := by
  unfold judge; dsimp only; split <;> [(split <;> [rfl; simp; (split <;> [rfl; (split <;> simp)])]); rfl]

@[simp] theorem judge_writer (e : Env) (c : Chan) (p : Path) : (judge e c p).writer = p.writer := by
  unfold judge; dsimp only; split <;> [(split <;> [rfl; simp; (split <;> [rfl; (split <;> simp)])]); rfl]

@[simp] theorem judge_draws (e : Env) (c : Chan) (p : Path) : (judge e c p).draws = p.draws := by
  unfold judge; dsimp only; split <;> [(split <;> [rfl; simp; (split <;> [rfl; (split <;> simp)])]); rfl]

@[simp] theorem judge_att_enables (e : Env) (c : Chan) (p : Path) : (judge e c p).att.enables = p.att.enables := by
  unfold judge; dsimp only; split <;> [(split <;> [rfl; simp; (split <;> [rfl; (split <;> simp)])]); rfl]

@[simp] theorem serve_store (e : Env) (p : Path) : (serve e p).store = p.store := by
  exact foldl_same (fun q : Path => q.store) _ _ p fun q c _ => by simp

@[simp] theorem serve_merge (e : Env) (p : Path) : (serve e p).merge = p.merge := by
  exact foldl_same (fun q : Path => q.merge) _ _ p fun q c _ => by simp

@[simp] theorem serve_arb (e : Env) (p : Path) : (serve e p).arb = p.arb := by
  exact foldl_same (fun q : Path => q.arb) _ _ p fun q c _ => by simp

@[simp] theorem serve_writer (e : Env) (p : Path) : (serve e p).writer = p.writer := by
  exact foldl_same (fun q : Path => q.writer) _ _ p fun q c _ => by simp

@[simp] theorem serve_draws (e : Env) (p : Path) : (serve e p).draws = p.draws := by
  exact foldl_same (fun q : Path => q.draws) _ _ p fun q c _ => by simp

@[simp] theorem serve_att_enables (e : Env) (p : Path) : (serve e p).att.enables = p.att.enables := by
  exact foldl_same (fun q : Path => q.att.enables) _ _ p fun q c _ => by simp

@[simp] theorem issue_store (c : Chan) (n : Nat) (p : Path) : (issue c n p).store = p.store := by
  unfold issue; split <;> simp

@[simp] theorem issue_merge (c : Chan) (n : Nat) (p : Path) : (issue c n p).merge = p.merge := by
  unfold issue; split <;> simp

@[simp] theorem issue_arb (c : Chan) (n : Nat) (p : Path) : (issue c n p).arb = p.arb := by
  unfold issue; split <;> simp

@[simp] theorem issue_chans (c : Chan) (n : Nat) (p : Path) : (issue c n p).chans = p.chans := by
  unfold issue; split <;> simp

@[simp] theorem issue_draws (c : Chan) (n : Nat) (p : Path) : (issue c n p).draws = p.draws := by
  unfold issue; split <;> simp

@[simp] theorem issue_att (c : Chan) (n : Nat) (p : Path) : (issue c n p).att = p.att := by
  unfold issue; split <;> simp

@[simp] theorem give_store (c : Chan) (n : Nat) (p : Path) : (give c n p).store = p.store := by
  unfold give; split <;> simp

@[simp] theorem give_merge (c : Chan) (n : Nat) (p : Path) : (give c n p).merge = p.merge := by
  unfold give; split <;> simp

@[simp] theorem give_arb (c : Chan) (n : Nat) (p : Path) : (give c n p).arb = p.arb := by
  unfold give; split <;> simp

@[simp] theorem give_chans (c : Chan) (n : Nat) (p : Path) : (give c n p).chans = p.chans := by
  unfold give; split <;> simp

@[simp] theorem give_draws (c : Chan) (n : Nat) (p : Path) : (give c n p).draws = p.draws := by
  unfold give; split <;> simp

@[simp] theorem give_att (c : Chan) (n : Nat) (p : Path) : (give c n p).att = p.att := by
  unfold give; split <;> simp

@[simp] theorem grant_store (e : Env) (k : Option Chan) (p : Path) : (grant e k p).store = p.store := by
  unfold grant; split <;> simp

@[simp] theorem grant_merge (e : Env) (k : Option Chan) (p : Path) : (grant e k p).merge = p.merge := by
  unfold grant; split <;> simp

@[simp] theorem grant_arb (e : Env) (k : Option Chan) (p : Path) : (grant e k p).arb = p.arb := by
  unfold grant; split <;> simp

@[simp] theorem grant_chans (e : Env) (k : Option Chan) (p : Path) : (grant e k p).chans = p.chans := by
  unfold grant; split <;> simp

@[simp] theorem grant_draws (e : Env) (k : Option Chan) (p : Path) : (grant e k p).draws = p.draws := by
  unfold grant; split <;> simp

@[simp] theorem grant_att (e : Env) (k : Option Chan) (p : Path) : (grant e k p).att = p.att := by
  unfold grant; split <;> simp

@[simp] theorem choose_store (e : Env) (c : Chan) (n : Nat) (b : Bool) (p : Path) :
    (choose e c n b p).store = p.store := by
  unfold choose; split <;> simp

@[simp] theorem choose_merge (e : Env) (c : Chan) (n : Nat) (b : Bool) (p : Path) :
    (choose e c n b p).merge = p.merge := by
  unfold choose; split <;> simp

@[simp] theorem choose_arb (e : Env) (c : Chan) (n : Nat) (b : Bool) (p : Path) :
    (choose e c n b p).arb = p.arb := by
  unfold choose; split <;> simp

@[simp] theorem choose_chans (e : Env) (c : Chan) (n : Nat) (b : Bool) (p : Path) :
    (choose e c n b p).chans = p.chans := by
  unfold choose; split <;> simp

@[simp] theorem choose_draws (e : Env) (c : Chan) (n : Nat) (b : Bool) (p : Path) :
    (choose e c n b p).draws = p.draws := by
  unfold choose; split <;> simp

@[simp] theorem choose_att (e : Env) (c : Chan) (n : Nat) (b : Bool) (p : Path) :
    (choose e c n b p).att = p.att := by
  unfold choose; split <;> simp

@[simp] theorem revoke_store (e : Env) (c : Chan) (p : Path) : (revoke e c p).store = p.store := by
  unfold revoke; split <;> [(split <;> simp); rfl; rfl; rfl]

@[simp] theorem revoke_merge (e : Env) (c : Chan) (p : Path) : (revoke e c p).merge = p.merge := by
  unfold revoke; split <;> [(split <;> simp); rfl; rfl; rfl]

@[simp] theorem revoke_arb (e : Env) (c : Chan) (p : Path) : (revoke e c p).arb = p.arb := by
  unfold revoke; split <;> [(split <;> simp); rfl; rfl; rfl]

@[simp] theorem revoke_chans (e : Env) (c : Chan) (p : Path) : (revoke e c p).chans = p.chans := by
  unfold revoke; split <;> [(split <;> simp); rfl; rfl; rfl]

@[simp] theorem revoke_draws (e : Env) (c : Chan) (p : Path) : (revoke e c p).draws = p.draws := by
  unfold revoke; split <;> [(split <;> simp); rfl; rfl; rfl]

@[simp] theorem revoke_att (e : Env) (c : Chan) (p : Path) : (revoke e c p).att = p.att := by
  unfold revoke; split <;> [(split <;> simp); rfl; rfl; rfl]

@[simp] theorem judgeEnded_store (e : Env) (c : Chan) (p : Path) : (judgeEnded e c p).store = p.store := by
  unfold judgeEnded; split <;> simp

@[simp] theorem judgeEnded_merge (e : Env) (c : Chan) (p : Path) : (judgeEnded e c p).merge = p.merge := by
  unfold judgeEnded; split <;> simp

@[simp] theorem judgeEnded_arb (e : Env) (c : Chan) (p : Path) : (judgeEnded e c p).arb = p.arb := by
  unfold judgeEnded; split <;> simp

@[simp] theorem judgeEnded_writer (e : Env) (c : Chan) (p : Path) : (judgeEnded e c p).writer = p.writer := by
  unfold judgeEnded; split <;> simp

@[simp] theorem judgeEnded_draws (e : Env) (c : Chan) (p : Path) : (judgeEnded e c p).draws = p.draws := by
  unfold judgeEnded; split <;> simp

@[simp] theorem judgeEnded_att_enables (e : Env) (c : Chan) (p : Path) : (judgeEnded e c p).att.enables = p.att.enables := by
  unfold judgeEnded; split <;> simp

theorem issue_eq (c : Chan) (n : Nat) (q : Path) : ∃ w m, issue c n q = { q with writer := w, mem := m } := by
  unfold issue; split
  · exact ⟨_, _, rfl⟩
  · exact ⟨q.writer, q.mem, rfl⟩

theorem grant_eq (e : Env) (k : Option Chan) (q : Path) : ∃ w m, grant e k q = { q with writer := w, mem := m } := by
  unfold grant give; split
  · split
    · exact ⟨_, _, rfl⟩
    · exact issue_eq _ _ q
  · exact ⟨q.writer, q.mem, rfl⟩

/-- What the completions of an instant have left changes what judging changes, and the writer. -/
theorem finishAll_eq (e : Env) (p : Path) :
    ∃ w m, finishAll e p = { serve e p.endNone with writer := w, mem := m } := by
  unfold finishAll judgeAll; dsimp only
  generalize serve e p.endNone = q
  split
  · split
    · exact issue_eq _ _ { q with writer := .free }
    · exact ⟨.free, q.mem, rfl⟩
  all_goals exact ⟨q.writer, q.mem, rfl⟩

/-- The end of an instant changes what judging changes, and the writer. -/
theorem settle_eq (e : Env) (p : Path) : ∃ w m, settle e p = { serve e p.endNone with writer := w, mem := m } := by
  obtain ⟨w, m, h⟩ := finishAll_eq e p
  unfold settle; dsimp only; rw [h]
  split
  · obtain ⟨w', m', h'⟩ := grant_eq e none { serve e p.endNone with writer := w, mem := m }
    exact ⟨w', m', h'⟩
  all_goals exact ⟨w, m, rfl⟩

theorem finishAll_chans (e : Env) (p : Path) : (finishAll e p).chans = (serve e p.endNone).chans := by
  obtain ⟨w, m, h⟩ := finishAll_eq e p; rw [h]

theorem finishAll_att (e : Env) (p : Path) : (finishAll e p).att = (serve e p.endNone).att := by
  obtain ⟨w, m, h⟩ := finishAll_eq e p; rw [h]

@[simp] theorem finishAll_store (e : Env) (p : Path) : (finishAll e p).store = p.store := by
  obtain ⟨w, m, h⟩ := finishAll_eq e p; rw [h]; exact serve_store e _

@[simp] theorem finishAll_merge (e : Env) (p : Path) : (finishAll e p).merge = p.merge := by
  obtain ⟨w, m, h⟩ := finishAll_eq e p; rw [h]; exact serve_merge e _

@[simp] theorem finishAll_arb (e : Env) (p : Path) : (finishAll e p).arb = p.arb := by
  obtain ⟨w, m, h⟩ := finishAll_eq e p; rw [h]; exact serve_arb e _

@[simp] theorem finishAll_draws (e : Env) (p : Path) : (finishAll e p).draws = p.draws := by
  obtain ⟨w, m, h⟩ := finishAll_eq e p; rw [h]; exact serve_draws e _

@[simp] theorem finishAll_att_enables (e : Env) (p : Path) : (finishAll e p).att.enables = p.att.enables := by
  obtain ⟨w, m, h⟩ := finishAll_eq e p; rw [h]; exact serve_att_enables e _

theorem settle_chans (e : Env) (p : Path) : (settle e p).chans = (serve e p.endNone).chans := by
  obtain ⟨w, m, h⟩ := settle_eq e p; rw [h]

theorem settle_att (e : Env) (p : Path) : (settle e p).att = (serve e p.endNone).att := by
  obtain ⟨w, m, h⟩ := settle_eq e p; rw [h]

@[simp] theorem settle_store (e : Env) (p : Path) : (settle e p).store = p.store := by
  obtain ⟨w, m, h⟩ := settle_eq e p; rw [h]; exact serve_store e _

@[simp] theorem settle_merge (e : Env) (p : Path) : (settle e p).merge = p.merge := by
  obtain ⟨w, m, h⟩ := settle_eq e p; rw [h]; exact serve_merge e _

@[simp] theorem settle_arb (e : Env) (p : Path) : (settle e p).arb = p.arb := by
  obtain ⟨w, m, h⟩ := settle_eq e p; rw [h]; exact serve_arb e _

@[simp] theorem settle_draws (e : Env) (p : Path) : (settle e p).draws = p.draws := by
  obtain ⟨w, m, h⟩ := settle_eq e p; rw [h]; exact serve_draws e _

@[simp] theorem settle_att_enables (e : Env) (p : Path) : (settle e p).att.enables = p.att.enables := by
  obtain ⟨w, m, h⟩ := settle_eq e p; rw [h]; exact serve_att_enables e _

@[simp] theorem stopNow_store (e : Env) (c : Chan) (p : Path) : (stopNow e c p).store = p.store := by
  unfold stopNow; dsimp only; split <;> simp

@[simp] theorem stopNow_merge (e : Env) (c : Chan) (p : Path) : (stopNow e c p).merge = p.merge := by
  unfold stopNow; dsimp only; split <;> simp

@[simp] theorem stopNow_arb (e : Env) (c : Chan) (p : Path) : (stopNow e c p).arb = p.arb := by
  unfold stopNow; dsimp only; split <;> simp

@[simp] theorem stopNow_writer (e : Env) (c : Chan) (p : Path) : (stopNow e c p).writer = p.writer := by
  unfold stopNow; dsimp only; split <;> simp

@[simp] theorem stopNow_draws (e : Env) (c : Chan) (p : Path) : (stopNow e c p).draws = p.draws := by
  unfold stopNow; dsimp only; split <;> simp

@[simp] theorem stopNow_att_enables (e : Env) (c : Chan) (p : Path) : (stopNow e c p).att.enables = p.att.enables := by
  unfold stopNow; dsimp only; split <;> simp

/-! ## Channels, one at a time -/

theorem modChan_get (c k : Chan) (f : Channel → Channel) (p : Path) :
    (modChan c f p).chans[k] = if k = c then f p.chans[c] else p.chans[k] := updAt_get _ _ _ _

/-- A channel after a closure of its current buffer, if it has one (R143). -/
def shut (r : ClosureReason) (ch : Channel) : Channel :=
  match ch.current with
  | some b => closedWith r b ch
  | none => ch

theorem shut_some {r : ClosureReason} {ch : Channel} {b : CurrentBuffer} (h : ch.current = some b) :
    shut r ch = closedWith r b ch := by unfold shut; rw [h]

theorem shut_none {r : ClosureReason} {ch : Channel} (h : ch.current = none) : shut r ch = ch := by
  unfold shut; rw [h]

theorem close_get (e : Env) (c k : Chan) (r : ClosureReason) (p : Path) :
    (close e c r p).chans[k] = if k = c then shut r p.chans[c] else p.chans[k] := by
  by_cases h : k = c
  · subst h
    rw [if_pos rfl]
    unfold close
    cases hb : (p.chans[k]).current with
    | none => rw [shut_none hb]
    | some b =>
      show (setCause e .closed (modChan k (closedWith r b) p)).chans[k] = _
      rw [setCause_chans, modChan_get, if_pos rfl, shut_some hb]
  · rw [if_neg h]
    unfold close
    split
    · rfl
    · rw [setCause_chans, modChan_get, if_neg h]

theorem hasClosedRoom_iff {ch : Channel} : hasClosedRoom ch = true ↔ ch.closed.length < 4 := decide_eq_true_iff

/-- A channel after it stalls (R148). -/
def stalledWith (r : StallReason) (ch : Channel) : Channel := { ch with state := .stalled r, idleExpiry := none }

theorem stall_get (e : Env) (c k : Chan) (r : StallReason) (p : Path) :
    (stall e c r p).chans[k] = if k = c then stalledWith r p.chans[c] else p.chans[k] := by
  unfold stall; rw [setCause_chans, modChan_get]; rfl

/-- A channel left with no current buffer stalls when it has a record (R148). -/
def stalledIfNoBuffer (ch : Channel) : Channel :=
  if ch.current.isNone && !ch.queue.isEmpty then stalledWith .noBuffer ch else ch

theorem stallIfNoBuffer_get (e : Env) (c k : Chan) (p : Path) :
    (stallIfNoBuffer e c p).chans[k] = if k = c then stalledIfNoBuffer p.chans[c] else p.chans[k] := by
  unfold stallIfNoBuffer stalledIfNoBuffer
  split
  · rw [stall_get]
  · by_cases h : k = c
    · subst h; simp
    · simp [h]

/-- A channel after it has been judged (R148); `busy` says that it is not to be judged yet. -/
def judgedChan (busy : Bool) (ch : Channel) : Channel :=
  if ch.state = .run ∧ busy = false then
    match ch.queue, ch.current with
    | [], _ => ch
    | _ :: _, none => stalledWith .noBuffer ch
    | r :: _, some b =>
      if fits r b then ch
      else if hasClosedRoom ch then stalledIfNoBuffer (closedWith .full b ch)
      else stalledWith .closedFull ch
  else ch

theorem ite_same_chan (c k : Chan) (p : Path) :
    (if k = c then p.chans[c] else p.chans[k]) = p.chans[k] := by
  by_cases h : k = c
  · subst h; simp
  · simp [h]

/-- Judging leaves the mark of a completion at this instant. -/
theorem judgedChan_ended (w : Bool) (ch : Channel) : (judgedChan w ch).ended = ch.ended := by
  have stalls : ∀ ch : Channel, (stalledIfNoBuffer ch).ended = ch.ended := fun ch => by
    unfold stalledIfNoBuffer; split <;> rfl
  unfold judgedChan
  split
  · split
    · rfl
    · rfl
    · split
      · rfl
      · split
        · exact stalls _
        · rfl
  · rfl

theorem judge_get (e : Env) (c k : Chan) (p : Path) :
    (judge e c p).chans[k] = if k = c then judgedChan (p.busy c) p.chans[c] else p.chans[k] := by
  by_cases h : k = c
  · subst h
    rw [if_pos rfl]
    unfold judge judgedChan
    dsimp only
    by_cases hs : (p.chans[k]).state = .run ∧ p.busy k = false
    · rw [if_pos hs, if_pos hs]
      cases hq : (p.chans[k]).queue with
      | nil => rfl
      | cons r rest =>
        cases hb : (p.chans[k]).current with
        | none =>
          show (stall e k .noBuffer p).chans[k] = _
          rw [stall_get, if_pos rfl]
        | some b =>
          dsimp only
          split
          · rfl
          · split
            · rw [stallIfNoBuffer_get, if_pos rfl, close_get, if_pos rfl, shut_some hb]
            · rw [stall_get, if_pos rfl]
    · rw [if_neg hs, if_neg hs]
  · rw [if_neg h]
    unfold judge
    dsimp only
    split
    · split
      · rfl
      · rw [stall_get, if_neg h]
      · split
        · rfl
        · split
          · rw [stallIfNoBuffer_get, if_neg h, close_get, if_neg h]
          · rw [stall_get, if_neg h]
    · rfl

@[simp] theorem judge_busy (e : Env) (c k : Chan) (p : Path) : (judge e c p).busy k = p.busy k := by
  have h : ((judge e c p).chans[k]).ended = (p.chans[k]).ended := by
    rw [judge_get]
    split
    · rename_i h; rw [judgedChan_ended, h]
    · rfl
  unfold busy writing
  rw [judge_writer, h]

/-- A channel that a completion of this instant has left to be judged is judged by itself. -/
theorem judgeEnded_get (e : Env) (c k : Chan) (p : Path) :
    (judgeEnded e c p).chans[k] = if k = c ∧ p.chans[c].ended = true then
      judgedChan (p.writing c) { p.chans[c] with ended := false } else p.chans[k] := by
  unfold judgeEnded
  by_cases h : p.chans[c].ended = true
  · rw [if_pos h, judge_get, modChan_get, if_pos rfl, modChan_get]
    by_cases hk : k = c
    · rw [if_pos hk, if_pos ⟨hk, h⟩]
      congr 1
      unfold busy; rw [modChan_get, if_pos rfl, Bool.or_false]; rfl
    · rw [if_neg hk, if_neg hk, if_neg (fun x => hk x.1)]
  · rw [if_neg h, if_neg (fun x => h x.2)]

/-- Every channel is judged by itself. -/
theorem serve_get (e : Env) (k : Chan) (p : Path) :
    (serve e p).chans[k] = judgedChan (p.busy k) p.chans[k] := by
  have key : ∀ (l : List Chan) (p : Path), l.Nodup →
      (l.foldl (fun p c => judge e c p) p).chans[k]
        = if k ∈ l then judgedChan (p.busy k) p.chans[k] else p.chans[k] := by
    intro l
    induction l with
    | nil => intro p _; simp
    | cons c l ih =>
      intro p hl
      obtain ⟨hc, hl⟩ := List.nodup_cons.mp hl
      rw [List.foldl_cons, ih _ hl, judge_busy, judge_get]
      by_cases h : k = c
      · subst h; simp [hc]
      · simp [h]
  have h := key allChans p allChans_nodup
  rw [if_pos (mem_allChans k)] at h
  exact h

/-! ### What judging, closing and stalling leave of a channel -/

theorem closedWith_fixed (r : ClosureReason) (b : CurrentBuffer) (ch : Channel) :
    (closedWith r b ch).queue = ch.queue ∧ (closedWith r b ch).tally = ch.tally
      ∧ (closedWith r b ch).pendingCmd = ch.pendingCmd ∧ (closedWith r b ch).owed = ch.owed
      ∧ (closedWith r b ch).state = ch.state
      ∧ (closedWith r b ch).counters.written = ch.counters.written
      ∧ (closedWith r b ch).counters.bytes = ch.counters.bytes
      ∧ (closedWith r b ch).counters.lost = ch.counters.lost
      ∧ (closedWith r b ch).counters.writeErrors = ch.counters.writeErrors := by
  refine ⟨rfl, rfl, rfl, rfl, rfl, ?_, ?_, ?_, ?_⟩ <;> cases r <;> rfl

theorem shut_fixed (r : ClosureReason) (ch : Channel) :
    (shut r ch).queue = ch.queue ∧ (shut r ch).tally = ch.tally ∧ (shut r ch).pendingCmd = ch.pendingCmd
      ∧ (shut r ch).owed = ch.owed ∧ (shut r ch).state = ch.state
      ∧ (shut r ch).closed.length ≤ ch.closed.length + 1 := by
  unfold shut
  split
  · exact ⟨rfl, rfl, rfl, rfl, rfl, by simp [closedWith]⟩
  · exact ⟨rfl, rfl, rfl, rfl, rfl, by omega⟩

theorem stalledIfNoBuffer_fixed (ch : Channel) :
    (stalledIfNoBuffer ch).queue = ch.queue ∧ (stalledIfNoBuffer ch).tally = ch.tally
      ∧ (stalledIfNoBuffer ch).pendingCmd = ch.pendingCmd ∧ (stalledIfNoBuffer ch).owed = ch.owed
      ∧ (stalledIfNoBuffer ch).closed = ch.closed ∧ (stalledIfNoBuffer ch).current = ch.current
      ∧ (stalledIfNoBuffer ch).next = ch.next ∧ (stalledIfNoBuffer ch).counters = ch.counters := by
  unfold stalledIfNoBuffer; split <;> exact ⟨rfl, rfl, rfl, rfl, rfl, rfl, rfl, rfl⟩

/-- Judging a channel leaves its queue, its tally, its pending command and every count but that of FULL closures. -/
theorem judgedChan_fixed (w : Bool) (ch : Channel) :
    (judgedChan w ch).queue = ch.queue ∧ (judgedChan w ch).tally = ch.tally
      ∧ (judgedChan w ch).pendingCmd = ch.pendingCmd ∧ (judgedChan w ch).owed = ch.owed
      ∧ (judgedChan w ch).counters = { ch.counters with full := (judgedChan w ch).counters.full } := by
  unfold judgedChan
  split
  · split
    · exact ⟨rfl, rfl, rfl, rfl, rfl⟩
    · exact ⟨rfl, rfl, rfl, rfl, rfl⟩
    · split
      · exact ⟨rfl, rfl, rfl, rfl, rfl⟩
      · split
        · rename_i b _ _ _ _
          have h := stalledIfNoBuffer_fixed (closedWith .full b ch)
          refine ⟨h.1, h.2.1, h.2.2.1, h.2.2.2.1, ?_⟩
          rw [h.2.2.2.2.2.2.2]; rfl
        · exact ⟨rfl, rfl, rfl, rfl, rfl⟩
  · exact ⟨rfl, rfl, rfl, rfl, rfl⟩

theorem judgedChan_queue (w : Bool) (ch : Channel) : (judgedChan w ch).queue = ch.queue := (judgedChan_fixed w ch).1

/-- Judging lengthens a closed list by one entry at most, and only where there is room. -/
theorem judgedChan_closed (w : Bool) (ch : Channel) :
    (judgedChan w ch).closed = ch.closed
      ∨ (ch.closed.length < 4 ∧ ∃ x, (judgedChan w ch).closed = ch.closed ++ [x]) := by
  unfold judgedChan
  split
  · split
    · exact .inl rfl
    · exact .inl rfl
    · split
      · exact .inl rfl
      · split
        · rename_i b _ _ _ hr
          rw [(stalledIfNoBuffer_fixed _).2.2.2.2.1]
          exact .inr ⟨hasClosedRoom_iff.mp hr, _, rfl⟩
        · exact .inl rfl
  · exact .inl rfl

/-- A channel out of RUN is not judged. -/
theorem judgedChan_of_ne_run {w : Bool} {ch : Channel} (h : ch.state ≠ .run) : judgedChan w ch = ch := by
  unfold judgedChan; rw [if_neg (fun x => h x.1)]

/-- A busy channel is not judged. -/
theorem judgedChan_busy (ch : Channel) : judgedChan true ch = ch := by
  unfold judgedChan; rw [if_neg (fun x => by simp at x)]

/-- A channel with nothing to write is left by judging. -/
theorem judgedChan_of_empty {w : Bool} {ch : Channel} (h : ch.queue = []) : judgedChan w ch = ch := by
  unfold judgedChan; split
  · rw [h]
  · rfl

/-- A channel whose head fits is left by judging. -/
theorem judgedChan_of_fits {w : Bool} {ch : Channel} {r : Record} {rest : List Record} {b : CurrentBuffer}
    (hq : ch.queue = r :: rest) (hb : ch.current = some b) (h : b.fill + r.size ≤ b.len) : judgedChan w ch = ch := by
  unfold judgedChan; split
  · rw [hq, hb]; simp [fits, h]
  · rfl

/-- A channel on which R148 asks nothing is left by judging. -/
theorem judgedChan_of_ready {ch : Channel} (h : ch.Ready) (w : Bool) : judgedChan w ch = ch := by
  by_cases hs : ch.state = .run
  · cases hq : ch.queue with
    | nil => exact judgedChan_of_empty hq
    | cons r rest =>
      obtain ⟨b, hb, hf⟩ := h hs r rest hq
      exact judgedChan_of_fits hq hb hf
  · exact judgedChan_of_ne_run hs

end Sys2Proof.Machine.Path
end

