-- ==== Sys2Proof/Laws/Moves.lean ====
section
/-!
SUPPORT. Everything an operation on the record path can do to the laws of the part, said once for each: how the blocks
downstream change, that the capacities and the canonical memory are kept, that the arbiter time does not fall, that the
enables stay and no cause is lost.
-/
namespace Sys2Proof.Machine.Path

/-- What going from `p` to `q` does, `d` being the change of the blocks that are free, pending or queued. -/
structure Moves (d : Int) (p q : Path) : Prop where
  blocks : (q.downstreamBlocks : Int) = p.downstreamBlocks + d
  caps : p.WithinCapacity → q.WithinCapacity
  canon : Memory.wf p.mem → Memory.wf q.mem
  time : p.arb.time ≤ q.arb.time
  enables : q.att.enables = p.att.enables
  causes : ∀ i, p.att.causes.getLsbD i = true → q.att.causes.getLsbD i = true

theorem Moves.refl (p : Path) : Moves 0 p p := ⟨by simp, id, id, Nat.le_refl _, rfl, fun _ h => h⟩

theorem Moves.trans {d e : Int} {p q r : Path} (h : Moves d p q) (k : Moves e q r) : Moves (d + e) p r :=
  ⟨by rw [k.blocks, h.blocks]; ring, fun x => k.caps (h.caps x), fun x => k.canon (h.canon x),
    Nat.le_trans h.time k.time, k.enables.trans h.enables, fun i x => k.causes i (h.causes i x)⟩

theorem Moves.cast {d e : Int} {p q : Path} (h : Moves d p q) (he : d = e) : Moves e p q := he ▸ h

/-- The composition of two moves whose changes cancel nothing on the second's side. -/
theorem Moves.trans0 {d : Int} {p q r : Path} (h : Moves d p q) (k : Moves 0 q r) : Moves d p r :=
  (h.trans k).cast (by ring)

theorem Moves.zeroTrans {d : Int} {p q r : Path} (h : Moves 0 p q) (k : Moves d q r) : Moves d p r :=
  (h.trans k).cast (by ring)

/-! ## Sums of blocks -/

theorem sum_chans_upd (g h : Chan → Nat) (c : Chan) (hne : ∀ k, k ≠ c → h k = g k) :
    (allChans.map h).sum + g c = (allChans.map g).sum + h c := by
  have h0 := hne 0; have h1 := hne 1; have h2 := hne 2; have h3 := hne 3
  fin_cases c <;> simp [allChans] at * <;> omega

theorem queuedBlocks_modChan (c : Chan) (f : Channel → Channel) (p : Path) :
    (modChan c f p).queuedBlocks + ((p.chans[c]).queue.map Record.blocks).sum
      = p.queuedBlocks + ((f p.chans[c]).queue.map Record.blocks).sum := by
  have h := sum_chans_upd (fun k => ((p.chans[k]).queue.map Record.blocks).sum)
    (fun k => (((modChan c f p).chans[k]).queue.map Record.blocks).sum) c
    (fun k hk => by simp only [modChan_get, if_neg hk])
  simpa only [queuedBlocks, modChan_get, if_true] using h

theorem queuedBlocks_congr {p q : Path} (h : ∀ c : Chan, (q.chans[c]).queue = (p.chans[c]).queue) :
    q.queuedBlocks = p.queuedBlocks := by
  unfold queuedBlocks
  congr 1
  exact List.map_congr_left fun c _ => by rw [h c]

/-- An operation that leaves store, merge, arbiter and queues. -/
theorem Moves.ofDelivery {p q : Path} (hs : q.store = p.store) (hm : q.merge = p.merge) (ha : q.arb = p.arb)
    (hq : ∀ c : Chan, (q.chans[c]).queue = (p.chans[c]).queue)
    (hc : ∀ c : Chan, (p.chans[c]).closed.length ≤ 4 → (q.chans[c]).closed.length ≤ 4)
    (hw : Memory.wf p.mem → Memory.wf q.mem) (he : q.att.enables = p.att.enables)
    (hk : ∀ i, p.att.causes.getLsbD i = true → q.att.causes.getLsbD i = true) : Moves 0 p q := by
  refine ⟨?_, ?_, hw, by rw [ha], he, hk⟩
  · unfold downstreamBlocks pendingBlocks
    rw [hs, hm, queuedBlocks_congr hq]; simp
  · intro h
    refine ⟨fun c => ⟨by rw [hq c]; exact (h.1 c).1, hc c (h.1 c).2⟩, by rw [hm]; exact h.2⟩

/-! ## Host memory -/

theorem forgetWrite_wf (w : LinkWrite) {m : List Host.Cell} (h : Memory.wf m) : Memory.wf (forgetWrite w m) :=
  Memory.forget_wf _ _ h

theorem blur_wf {p : Path} (h : Memory.wf p.mem) : Memory.wf (blur p).mem :=
  foldl_keeps (fun m => Memory.wf m) _ _ _ (fun _ w _ hm => forgetWrite_wf w hm) h

theorem land_wf (w : LinkWrite) {p : Path} (h : Memory.wf p.mem) : Memory.wf (land w p).mem :=
  blur_wf (p := { p with mem := Memory.write w.addr w.bytes p.mem }) (Memory.write_wf _ _ h)

theorem issueMessage_wf (e : Env) {p : Path} (h : Memory.wf p.mem) : Memory.wf (issueMessage e p).mem :=
  blur_wf (p := { p with att := _ }) h

theorem trySend_wf (e : Env) {p : Path} (h : Memory.wf p.mem) : Memory.wf (trySend e p).mem := by
  unfold trySend
  split
  · dsimp only
    split
    · exact issueMessage_wf e (p := { p with att := _ }) h
    · exact h
  · exact h

theorem setCause_wf (e : Env) (k : Cause) {p : Path} (h : Memory.wf p.mem) : Memory.wf (setCause e k p).mem :=
  trySend_wf e (p := { p with att := _ }) h

theorem messageComplete_wf (e : Env) (g : Bool) {p : Path} (h : Memory.wf p.mem) :
    Memory.wf (messageComplete e g p).mem := by
  unfold messageComplete
  split
  · exact h
  · rename_i w _
    have h1 : Memory.wf
        (if g then land w { p with att := { p.att with message := none } }
          else { p with att := { p.att with message := none }, mem := forgetWrite w p.mem }).mem := by
      split
      · exact land_wf w (p := { p with att := _ }) h
      · exact forgetWrite_wf w h
    dsimp only
    split
    · exact issueMessage_wf e (p := { (if g then _ else _ : Path) with att := _ }) h1
    · exact h1

theorem issue_wf (c : Chan) (n : Nat) {p : Path} (h : Memory.wf p.mem) : Memory.wf (issue c n p).mem := by
  unfold issue
  split
  · exact blur_wf (p := { p with writer := _ }) h
  · exact h

theorem give_wf (c : Chan) (n : Nat) {p : Path} (h : Memory.wf p.mem) : Memory.wf (give c n p).mem := by
  unfold give; split
  · exact h
  · exact issue_wf _ _ h

theorem grant_wf (e : Env) (k : Option Chan) {p : Path} (h : Memory.wf p.mem) : Memory.wf (grant e k p).mem := by
  unfold grant; split
  · exact give_wf _ _ h
  · exact h

theorem choose_wf (e : Env) (c : Chan) (n : Nat) (b : Bool) {p : Path} (h : Memory.wf p.mem) :
    Memory.wf (choose e c n b p).mem := by
  unfold choose; split
  · exact give_wf _ _ h
  · exact grant_wf e _ h

theorem revoke_wf (e : Env) (c : Chan) {p : Path} (h : Memory.wf p.mem) : Memory.wf (revoke e c p).mem := by
  unfold revoke; split
  · split
    · exact grant_wf e _ (p := { p with writer := _ }) h
    · exact h
  · exact h
  · exact h
  · exact h

theorem close_wf (e : Env) (c : Chan) (r : ClosureReason) {p : Path} (h : Memory.wf p.mem) :
    Memory.wf (close e c r p).mem := by
  unfold close; split
  · exact h
  · exact setCause_wf e _ (p := modChan c _ p) h

theorem stall_wf (e : Env) (c : Chan) (r : StallReason) {p : Path} (h : Memory.wf p.mem) :
    Memory.wf (stall e c r p).mem := setCause_wf e _ (p := modChan c _ p) h

theorem stallIfNoBuffer_wf (e : Env) (c : Chan) {p : Path} (h : Memory.wf p.mem) :
    Memory.wf (stallIfNoBuffer e c p).mem := by
  unfold stallIfNoBuffer; split
  · exact stall_wf e c _ h
  · exact h

theorem judge_wf (e : Env) (c : Chan) {p : Path} (h : Memory.wf p.mem) : Memory.wf (judge e c p).mem := by
  unfold judge; dsimp only; split
  · split
    · exact h
    · exact stall_wf e c _ h
    · split
      · exact h
      · split
        · exact stallIfNoBuffer_wf e c (close_wf e c _ h)
        · exact stall_wf e c _ h
  · exact h

theorem serve_wf (e : Env) {p : Path} (h : Memory.wf p.mem) : Memory.wf (serve e p).mem :=
  foldl_keeps (fun p : Path => Memory.wf p.mem) _ _ _ (fun _ c _ hp => judge_wf e c hp) h

theorem judgeEnded_wf (e : Env) (c : Chan) {p : Path} (h : Memory.wf p.mem) : Memory.wf (judgeEnded e c p).mem := by
  unfold judgeEnded; split
  · exact judge_wf e c (p := modChan c _ p) h
  · exact h

theorem finishAll_wf (e : Env) {p : Path} (h : Memory.wf p.mem) : Memory.wf (finishAll e p).mem := by
  have h1 : Memory.wf (judgeAll e p).mem := serve_wf e (p := p.endNone) h
  unfold finishAll; dsimp only
  generalize judgeAll e p = q at h1
  split
  · split
    · exact issue_wf _ _ (p := { q with writer := _ }) h1
    · exact h1
  all_goals exact h1

theorem settle_wf (e : Env) {p : Path} (h : Memory.wf p.mem) : Memory.wf (settle e p).mem := by
  have h1 := finishAll_wf e h
  unfold settle; dsimp only
  generalize finishAll e p = q at h1
  split
  · exact grant_wf e _ h1
  all_goals exact h1

/-! ## Causes -/

theorem trySend_keepsCauses (e : Env) (p : Path) (i : Nat) (h : p.att.causes.getLsbD i = true) :
    (trySend e p).att.causes.getLsbD i = true := by rw [trySend_att_causes]; exact h

theorem setCause_keepsCauses (e : Env) (k : Cause) (p : Path) (i : Nat) (h : p.att.causes.getLsbD i = true) :
    (setCause e k p).att.causes.getLsbD i = true := by
  rw [setCause_causes, BitVec.getLsbD_or, h, Bool.true_or]

/-- A cause that is set stands in the set (R173). -/
theorem setCause_sets (e : Env) (k : Cause) (p : Path) : (setCause e k p).att.causes.getLsbD k.bit = true := by
  rw [setCause_causes, BitVec.getLsbD_or]
  cases k <;> simp [Cause.mask, Cause.bit]

theorem close_keepsCauses (e : Env) (c : Chan) (r : ClosureReason) (p : Path) (i : Nat)
    (h : p.att.causes.getLsbD i = true) : (close e c r p).att.causes.getLsbD i = true := by
  unfold close; split
  · exact h
  · exact setCause_keepsCauses e _ _ i (by simpa using h)

theorem stall_keepsCauses (e : Env) (c : Chan) (r : StallReason) (p : Path) (i : Nat)
    (h : p.att.causes.getLsbD i = true) : (stall e c r p).att.causes.getLsbD i = true :=
  setCause_keepsCauses e _ _ i (by simpa using h)

theorem stallIfNoBuffer_keepsCauses (e : Env) (c : Chan) (p : Path) (i : Nat)
    (h : p.att.causes.getLsbD i = true) : (stallIfNoBuffer e c p).att.causes.getLsbD i = true := by
  unfold stallIfNoBuffer; split
  · exact stall_keepsCauses e c _ p i h
  · exact h

theorem judge_keepsCauses (e : Env) (c : Chan) (p : Path) (i : Nat) (h : p.att.causes.getLsbD i = true) :
    (judge e c p).att.causes.getLsbD i = true := by
  unfold judge; dsimp only; split
  · split
    · exact h
    · exact stall_keepsCauses e c _ p i h
    · split
      · exact h
      · split
        · exact stallIfNoBuffer_keepsCauses e c _ i (close_keepsCauses e c _ p i h)
        · exact stall_keepsCauses e c _ p i h
  · exact h

theorem serve_keepsCauses (e : Env) (p : Path) (i : Nat) (h : p.att.causes.getLsbD i = true) :
    (serve e p).att.causes.getLsbD i = true :=
  foldl_keeps (fun p : Path => p.att.causes.getLsbD i = true) _ _ _ (fun p c _ hp => judge_keepsCauses e c p i hp) h

/-! ## Delivery operations -/

theorem setCause_moves (e : Env) (k : Cause) (p : Path) : Moves 0 p (setCause e k p) :=
  .ofDelivery (by simp) (by simp) (by simp) (fun _ => by simp) (fun _ h => by simpa using h) (setCause_wf e k)
    (by simp) (setCause_keepsCauses e k p)

theorem trySend_moves (e : Env) (p : Path) : Moves 0 p (trySend e p) :=
  .ofDelivery (by simp) (by simp) (by simp) (fun _ => by simp) (fun _ h => by simpa using h) (trySend_wf e)
    (by simp) (trySend_keepsCauses e p)

theorem messageComplete_moves (e : Env) (g : Bool) (p : Path) : Moves 0 p (messageComplete e g p) :=
  .ofDelivery (by simp) (by simp) (by simp) (fun _ => by simp) (fun _ h => by simpa using h)
    (messageComplete_wf e g) (by simp) (fun i h => by rw [messageComplete_att_causes]; exact h)

/-- A change of one channel that keeps its queue and does not overfill its closed list. -/
theorem modChan_moves (c : Chan) (f : Channel → Channel) (p : Path)
    (hq : (f p.chans[c]).queue = (p.chans[c]).queue)
    (hc : (p.chans[c]).closed.length ≤ 4 → (f p.chans[c]).closed.length ≤ 4) : Moves 0 p (modChan c f p) := by
  refine .ofDelivery rfl rfl rfl (fun k => ?_) (fun k h => ?_) id rfl (fun _ h => h)
  · rw [modChan_get]; split
    · rename_i e; subst e; exact hq
    · rfl
  · rw [modChan_get]; split
    · rename_i e; subst e; exact hc h
    · exact h

theorem stall_moves (e : Env) (c : Chan) (r : StallReason) (p : Path) : Moves 0 p (stall e c r p) :=
  (modChan_moves c _ p rfl id).trans0 (setCause_moves e _ _)

theorem close_moves (e : Env) (c : Chan) (r : ClosureReason) (p : Path) (h : (p.chans[c]).closed.length < 4) :
    Moves 0 p (close e c r p) := by
  unfold close; split
  · exact .refl p
  · refine (modChan_moves c _ p (closedWith_fixed _ _ _).1 fun _ => ?_).trans0 (setCause_moves e _ _)
    simp only [closedWith, List.length_append, List.length_cons, List.length_nil]; omega

theorem serve_moves (e : Env) (p : Path) : Moves 0 p (serve e p) := by
  refine .ofDelivery (by simp) (by simp) (by simp) (fun c => ?_) (fun c h => ?_) (serve_wf e) (by simp)
    (serve_keepsCauses e p)
  · rw [serve_get, judgedChan_queue]
  · rw [serve_get]
    rcases judgedChan_closed (p.busy c) p.chans[c] with h' | ⟨h1, x, h'⟩
    · rw [h']; exact h
    · rw [h', List.length_append]; simp only [List.length_cons, List.length_nil]; omega

theorem choose_moves (e : Env) (c : Chan) (n : Nat) (b : Bool) (p : Path) : Moves 0 p (choose e c n b p) :=
  .ofDelivery (by simp) (by simp) (by simp) (fun _ => by simp) (fun _ h => by simpa using h) (choose_wf e c n b)
    (by simp) (fun i h => by rw [choose_att]; exact h)

theorem revoke_moves (e : Env) (c : Chan) (p : Path) : Moves 0 p (revoke e c p) :=
  .ofDelivery (by simp) (by simp) (by simp) (fun _ => by simp) (fun _ h => by simpa using h) (revoke_wf e c)
    (by simp) (fun i h => by rw [revoke_att]; exact h)

theorem returnBlocks_moves (n : Nat) (p : Path) : Moves n p (returnBlocks n p) := by
  refine ⟨?_, fun h => h, id, Nat.le_refl _, rfl, fun _ h => h⟩
  unfold downstreamBlocks pendingBlocks queuedBlocks returnBlocks
  push_cast; ring

theorem modWriter_moves (w : Writer) (p : Path) : Moves 0 p { p with writer := w } :=
  .ofDelivery rfl rfl rfl (fun _ => rfl) (fun _ h => h) id rfl (fun _ h => h)

theorem endNone_get (k : Chan) (p : Path) : p.endNone.chans[k] = { p.chans[k] with ended := false } := ofFn_get _ _

theorem endNone_moves (p : Path) : Moves 0 p p.endNone :=
  .ofDelivery rfl rfl rfl (fun c => by rw [endNone_get]) (fun c h => by rw [endNone_get]; exact h) id rfl
    (fun _ h => h)

theorem judgeEnded_keepsCauses (e : Env) (c : Chan) (p : Path) (i : Nat) (h : p.att.causes.getLsbD i = true) :
    (judgeEnded e c p).att.causes.getLsbD i = true := by
  unfold judgeEnded; split
  · exact judge_keepsCauses e c _ i h
  · exact h

theorem judgeEnded_moves (e : Env) (c : Chan) (p : Path) : Moves 0 p (judgeEnded e c p) := by
  refine .ofDelivery (by simp) (by simp) (by simp) (fun k => ?_) (fun k h => ?_) (judgeEnded_wf e c) (by simp)
    (judgeEnded_keepsCauses e c p)
  · rw [judgeEnded_get]; split
    · rename_i x; rw [judgedChan_queue, x.1]
    · rfl
  · rw [judgeEnded_get]; split
    · rename_i x
      rw [x.1] at h
      rcases judgedChan_closed (p.writing c) { p.chans[c] with ended := false } with h' | ⟨h1, x, h'⟩
      · rw [h']; exact h
      · rw [h', List.length_append]; simp only [List.length_cons, List.length_nil]; exact h1
    · exact h

theorem judgeAll_moves (e : Env) (p : Path) : Moves 0 p (judgeAll e p) := (endNone_moves p).trans0 (serve_moves e _)

/-- What the completions of an instant have left issues one write or none. -/
theorem finishAll_moves (e : Env) (p : Path) : Moves 0 p (finishAll e p) := by
  have h1 : Moves 0 p (serve e p.endNone) := judgeAll_moves e p
  have canon : Memory.wf p.mem → Memory.wf (finishAll e p).mem := finishAll_wf e
  obtain ⟨w, m, h⟩ := finishAll_eq e p
  rw [h] at canon ⊢
  generalize serve e p.endNone = q at h1 canon
  exact ⟨h1.blocks, h1.caps, canon, h1.time, h1.enables, h1.causes⟩

/-- The writer at the end of an instant issues one write or none. -/
theorem settle_moves (e : Env) (p : Path) : Moves 0 p (settle e p) := by
  have h1 : Moves 0 p (serve e p.endNone) := (endNone_moves p).trans0 (serve_moves e _)
  have canon : Memory.wf p.mem → Memory.wf (settle e p).mem := settle_wf e
  obtain ⟨w, m, h⟩ := settle_eq e p
  rw [h] at canon ⊢
  generalize serve e p.endNone = q at h1 canon
  exact ⟨h1.blocks, h1.caps, canon, h1.time, h1.enables, h1.causes⟩

/-! ## Offers -/

theorem accepts_iff (ch : Channel) :
    accepts ch = true ↔ (ch.tally = none ∧ ch.queue.length < 1024)
      ∨ ((∃ t, ch.tally = some t) ∧ ch.queue.length + 2 ≤ 1024) := by
  unfold accepts
  cases ch.tally with
  | none => exact decide_eq_true_iff.trans (by simp [Config.queueCapacity])
  | some t => exact decide_eq_true_iff.trans (by simp [Config.queueCapacity])

theorem accepted_blocks (ch : Channel) (r : Record) :
    ((accepted ch r).queue.map Record.blocks).sum = (ch.queue.map Record.blocks).sum + r.blocks := by
  unfold accepted
  cases ch.tally with
  | none => simp
  | some t => simp [Record.blocks]

theorem accepted_length (ch : Channel) (r : Record) (h : accepts ch = true) :
    (accepted ch r).queue.length ≤ 1024 := by
  rcases (accepts_iff ch).mp h with ⟨h1, h2⟩ | ⟨⟨t, h1⟩, h2⟩
  · simp [accepted, h1]; omega
  · simp [accepted, h1]; omega

theorem accepted_closed (ch : Channel) (r : Record) : (accepted ch r).closed = ch.closed := by
  unfold accepted; cases ch.tally <;> rfl

/-- A record offered to a queue joins it or gives its blocks back (R140, R87). -/
theorem offer_moves (e : Env) (c : Chan) (r : Record) (p : Path) : Moves r.blocks p (offer e c r p) := by
  unfold offer; dsimp only
  split
  · rename_i ha
    refine ⟨?_, ?_, id, Nat.le_refl _, rfl, fun _ h => h⟩
    · have h := queuedBlocks_modChan c (fun ch => accepted ch r) p
      rw [accepted_blocks] at h
      unfold downstreamBlocks pendingBlocks
      simp only [modChan_store, modChan_merge]
      omega
    · intro h
      refine ⟨fun k => ?_, h.2⟩
      rw [modChan_get]; split
      · exact ⟨accepted_length _ r ha, by rw [accepted_closed]; exact (h.1 c).2⟩
      · exact h.1 k
  · have h1 : Moves 0 p (modChan c (fun ch => refused ch r) p) := modChan_moves c _ p rfl id
    have h2 := h1.zeroTrans (returnBlocks_moves r.blocks _)
    split
    · exact h2.trans0 (setCause_moves e _ _)
    · exact h2

@[simp] theorem offer_merge (e : Env) (c : Chan) (r : Record) (p : Path) : (offer e c r p).merge = p.merge := by
  unfold offer; dsimp only; split
  · rfl
  · split <;> simp

@[simp] theorem offer_arb (e : Env) (c : Chan) (r : Record) (p : Path) : (offer e c r p).arb = p.arb := by
  unfold offer; dsimp only; split
  · rfl
  · split <;> simp

@[simp] theorem offer_writer (e : Env) (c : Chan) (r : Record) (p : Path) : (offer e c r p).writer = p.writer := by
  unfold offer; dsimp only; split
  · rfl
  · split <;> simp

@[simp] theorem offer_draws (e : Env) (c : Chan) (r : Record) (p : Path) : (offer e c r p).draws = p.draws := by
  unfold offer; dsimp only; split
  · rfl
  · split <;> simp

@[simp] theorem offer_lowWater (e : Env) (c : Chan) (r : Record) (p : Path) :
    (offer e c r p).store.lowWater = p.store.lowWater := by
  unfold offer; dsimp only; split
  · rfl
  · split <;> simp

theorem offer_chans (e : Env) (c : Chan) (r : Record) (p : Path) :
    (offer e c r p).chans = updAt p.chans c fun ch => if accepts ch then accepted ch r else refused ch r := by
  unfold offer updAt; dsimp only
  by_cases h : accepts p.chans[c] = true
  · rw [if_pos h, if_pos h]; rfl
  · rw [if_neg h, if_neg h]
    split
    · rw [setCause_chans]; rfl
    · rfl

/-- What an offer makes of each channel. -/
theorem offer_get (e : Env) (c k : Chan) (r : Record) (p : Path) :
    (offer e c r p).chans[k] =
      if k = c then (if accepts p.chans[c] then accepted p.chans[c] r else refused p.chans[c] r) else p.chans[k] := by
  rw [offer_chans, updAt_get]

/-- A record that holds no blocks moves none. -/
theorem offer_moves0 (e : Env) (c : Chan) {r : Record} (p : Path) (h : r.blocks = 0) :
    Moves 0 p (offer e c r p) := (offer_moves e c r p).cast (by rw [h]; rfl)

theorem offer_movesF (e : Env) (c : Chan) {r : Record} {n : Nat} (p : Path) (h : r.blocks = n) :
    Moves n p (offer e c r p) := (offer_moves e c r p).cast (by rw [h])

/-! ## The arbiter -/

theorem modArb_moves {p q : Path} (hs : q.store = p.store) (hm : q.merge = p.merge) (hc : q.chans = p.chans)
    (hw : q.mem = p.mem) (ht : p.arb.time ≤ q.arb.time) (ha : q.att = p.att) : Moves 0 p q := by
  refine ⟨?_, ?_, by rw [hw]; exact id, ht, by rw [ha], fun i h => by rw [ha]; exact h⟩
  · unfold downstreamBlocks pendingBlocks queuedBlocks
    rw [hs, hm, hc]; simp
  · intro h; unfold WithinCapacity; rw [hc, hm]; exact h

theorem modWindow_moves (st : Stream) (f : SeqWindow → SeqWindow) (p : Path) : Moves 0 p (modWindow st f p) :=
  modArb_moves rfl rfl rfl rfl (Nat.le_refl _) rfl

theorem modStream_moves (st : Stream) (f : StreamCounters → StreamCounters) (p : Path) :
    Moves 0 p (modStream st f p) := modArb_moves rfl rfl rfl rfl (Nat.le_refl _) rfl

theorem raiseTime_moves (t : Nat) (p : Path) : Moves 0 p (raiseTime t p) :=
  modArb_moves rfl rfl rfl rfl (Nat.le_max_left _ _) rfl

theorem modDraws_moves (n : Nat) (p : Path) : Moves 0 p { p with draws := n } :=
  modArb_moves rfl rfl rfl rfl (Nat.le_refl _) rfl

theorem declareOnce_moves (e : Env) (st : Stream) (p : Path) : Moves 0 p (declareOnce e st p) := by
  unfold declareOnce; dsimp only
  split
  · exact ((modWindow_moves _ _ _).trans0 (modStream_moves _ _ _)).trans0 (offer_moves0 e _ _ rfl)
  · exact modWindow_moves _ _ _

theorem declareWhile_moves (e : Env) (st : Stream) (n : Nat) (p : Path) : Moves 0 p (declareWhile e st n p) := by
  induction n generalizing p with
  | zero => exact .refl p
  | succ n ih =>
    unfold declareWhile; split
    · exact (declareOnce_moves e st p).trans0 (ih _)
    · exact .refl p

theorem declareWindow_moves (e : Env) (st : Stream) (p : Path) : Moves 0 p (declareWindow e st p) :=
  declareWhile_moves e st 128 p

theorem declareAll_moves (e : Env) (p : Path) : Moves 0 p (declareAll e p) := by
  unfold declareAll
  exact foldl_keeps (fun q => Moves 0 p q) _ _ _ (fun q st _ h => h.trans0 (declareWindow_moves e st q))
    (modDraws_moves _ _)

theorem handOn_moves (e : Env) (f : Classified) (n : Naming) (p : Path) : Moves f.blocks p (handOn e f n p) := by
  unfold handOn; dsimp only
  cases n with
  | first => exact (modStream_moves _ _ _).zeroTrans (offer_movesF e _ _ rfl)
  | shadow lag b =>
    dsimp only; split
    · exact (modStream_moves _ _ _).zeroTrans (returnBlocks_moves _ _)
    · exact (modStream_moves _ _ _).zeroTrans (offer_movesF e _ _ rfl)
  | late lag => exact (modStream_moves _ _ _).zeroTrans (offer_movesF e _ _ rfl)
  | reseed n =>
    have h1 : Moves 0 p (offer e (e.cfg.channelOf f.stream)
        (.reseed f.stream n (f.seq.getD 0) f.stamp.tick f.line f.legB)
        (modStream f.stream (fun k => { k with reseeds := countUp k.reseeds }) p)) :=
      (modStream_moves _ _ _).trans0 (offer_moves0 e _ _ rfl)
    exact (h1.trans0 (modStream_moves _ _ _)).zeroTrans (offer_movesF e _ _ rfl)

theorem nameAndHandOn_moves (e : Env) (f : Classified) (p : Path) : Moves f.blocks p (nameAndHandOn e f p) := by
  unfold nameAndHandOn; dsimp only
  split
  · exact (modWindow_moves _ _ _).zeroTrans (handOn_moves e _ _ _)
  · split
    · exact (modStream_moves _ _ _).zeroTrans (offer_movesF e _ _ rfl)
    · exact handOn_moves e _ _ _

/-- A record that is taken is suppressed, refused or queued (R87, R119). -/
theorem takeRecord_moves (e : Env) (f : Classified) (p : Path) : Moves f.blocks p (takeRecord e f p) :=
  ((raiseTime_moves _ _).trans0 (declareAll_moves e _)).zeroTrans (nameAndHandOn_moves e f _)

theorem viewReport_moves (c : Settings) (l : Line) (st : LineState) (p : Path) : Moves 0 p (viewReport c l st p) := by
  unfold viewReport
  refine foldl_keeps (fun q => Moves 0 p q) _ _ _ (fun q x _ h => h.trans0 (modWindow_moves _ _ _)) ?_
  exact modArb_moves rfl rfl rfl rfl (Nat.le_refl _) rfl

theorem lineReport_moves (e : Env) (l : Line) (st : LineState) (p : Path) : Moves 0 p (lineReport e l st p) :=
  (viewReport_moves _ _ _ _).trans0 (declareAll_moves e _)

theorem lockView_moves (c : Settings) (p : Path) : Moves 0 p (lockView c p) := by
  unfold lockView
  refine foldl_keeps (fun q => Moves 0 p q) _ _ _ (fun q x _ h => h.trans0 (modWindow_moves _ _ _)) ?_
  exact modArb_moves rfl rfl rfl rfl (Nat.le_refl _) rfl

/-! ### The arbiter leaves the merge -/

@[simp] theorem declareOnce_merge (e : Env) (st : Stream) (p : Path) : (declareOnce e st p).merge = p.merge := by
  unfold declareOnce; dsimp only; split <;> simp

@[simp] theorem declareWhile_merge (e : Env) (st : Stream) (n : Nat) (p : Path) :
    (declareWhile e st n p).merge = p.merge := by
  induction n generalizing p with
  | zero => rfl
  | succ n ih => unfold declareWhile; split <;> simp [ih]

@[simp] theorem declareWindow_merge (e : Env) (st : Stream) (p : Path) : (declareWindow e st p).merge = p.merge :=
  declareWhile_merge e st 128 p

@[simp] theorem declareAll_merge (e : Env) (p : Path) : (declareAll e p).merge = p.merge :=
  foldl_same (fun q : Path => q.merge) _ _ _ fun q st _ => by simp

@[simp] theorem handOn_merge (e : Env) (f : Classified) (n : Naming) (p : Path) :
    (handOn e f n p).merge = p.merge := by
  unfold handOn; dsimp only
  cases n with
  | shadow lag b => dsimp only; split <;> simp
  | _ => simp

@[simp] theorem nameAndHandOn_merge (e : Env) (f : Classified) (p : Path) :
    (nameAndHandOn e f p).merge = p.merge := by
  unfold nameAndHandOn; dsimp only; split
  · simp
  · split <;> simp

@[simp] theorem takeRecord_merge (e : Env) (f : Classified) (p : Path) : (takeRecord e f p).merge = p.merge := by
  unfold takeRecord; simp

@[simp] theorem viewReport_merge (c : Settings) (l : Line) (st : LineState) (p : Path) :
    (viewReport c l st p).merge = p.merge :=
  foldl_same (fun q : Path => q.merge) _ _ _ fun q st _ => by simp

@[simp] theorem lineReport_merge (e : Env) (l : Line) (st : LineState) (p : Path) :
    (lineReport e l st p).merge = p.merge := by unfold lineReport; simp

@[simp] theorem lockView_merge (c : Settings) (p : Path) : (lockView c p).merge = p.merge :=
  foldl_same (fun q : Path => q.merge) _ _ _ fun q st _ => by simp

end Sys2Proof.Machine.Path
end

