-- ==== Sys2Proof/Laws/MergeLaws.lean ====
section
/-!
SUPPORT. What the Frame Store's grants, the merge and the channel commands can do: blocks, capacities, the order of the
pending set, and the record that is held back.
-/
namespace Sys2Proof.Machine

/-! ## Order keys -/

theorem OrderKey.earlier_iff (a b : OrderKey) :
    a.earlier b = true ↔ a.tick < b.tick ∨ (a.tick = b.tick ∧ a.line.val < b.line.val) := by
  unfold OrderKey.earlier
  rw [Bool.or_eq_true, Bool.and_eq_true, decide_eq_true_iff, decide_eq_true_iff, beq_iff_eq]
  exact Iff.rfl

theorem OrderKey.not_earlier_iff (a b : OrderKey) :
    a.earlier b = false ↔ ¬(a.tick < b.tick ∨ (a.tick = b.tick ∧ a.line.val < b.line.val)) := by
  rw [← OrderKey.earlier_iff, Bool.not_eq_true]

theorem OrderKey.not_earlier_trans {a b c : OrderKey} (h1 : b.earlier a = false) (h2 : c.earlier b = false) :
    c.earlier a = false := by
  rw [OrderKey.not_earlier_iff] at *; omega

theorem OrderKey.earlier_asymm {a b : OrderKey} (h : a.earlier b = true) : b.earlier a = false := by
  rw [OrderKey.earlier_iff] at h; rw [OrderKey.not_earlier_iff]; omega

theorem insertPending_perm (f : Classified) (l : List Classified) : (insertPending f l).Perm (f :: l) := by
  induction l with
  | nil => exact List.Perm.refl _
  | cons g l ih =>
    unfold insertPending; split
    · exact List.Perm.refl _
    · exact (ih.cons g).trans (List.Perm.swap f g l)

theorem insertPending_length (f : Classified) (l : List Classified) : (insertPending f l).length = l.length + 1 :=
  (insertPending_perm f l).length_eq

theorem insertPending_sorted (f : Classified) {l : List Classified}
    (h : l.Pairwise fun a b => b.key.earlier a.key = false) :
    (insertPending f l).Pairwise fun a b => b.key.earlier a.key = false := by
  induction l with
  | nil => simp [insertPending]
  | cons g l ih =>
    have h' := List.pairwise_cons.mp h
    unfold insertPending; split
    · rename_i hf
      refine List.pairwise_cons.mpr ⟨?_, h⟩
      intro x hx
      have hg := OrderKey.earlier_asymm hf
      rcases List.mem_cons.mp hx with rfl | hx
      · exact hg
      · exact OrderKey.not_earlier_trans hg (h'.1 x hx)
    · rename_i hf
      refine List.pairwise_cons.mpr ⟨?_, ih h'.2⟩
      intro x hx
      rcases List.mem_cons.mp ((insertPending_perm f l).mem_iff.mp hx) with rfl | hx
      · exact Bool.eq_false_iff.mpr hf
      · exact h'.1 x hx

namespace Path

/-! ## Grants and the in-flight table -/

theorem hasBlock_iff (p : Path) : p.hasBlock = true ↔ 0 < p.store.free := decide_eq_true_iff

theorem grantBlock_moves (p : Path) (h : p.hasBlock = true) : Moves (-1) p (grantBlock p) := by
  have := (hasBlock_iff p).mp h
  refine ⟨?_, fun h => h, id, Nat.le_refl _, rfl, fun _ h => h⟩
  unfold downstreamBlocks pendingBlocks queuedBlocks grantBlock
  dsimp only; omega

theorem modMerge_moves {p q : Path} (hs : q.store = p.store) (hc : q.chans = p.chans) (ha : q.arb = p.arb)
    (hw : q.mem = p.mem) (ht : q.att = p.att) (hp : q.merge.pending = p.merge.pending) : Moves 0 p q := by
  refine ⟨?_, ?_, by rw [hw]; exact id, by rw [ha], by rw [ht], fun i h => by rw [ht]; exact h⟩
  · unfold downstreamBlocks pendingBlocks queuedBlocks
    rw [hs, hp, hc]; simp
  · intro h; unfold WithinCapacity; rw [hc, hp]; exact h

theorem enterInFlight_moves (l : Line) (t : Nat) (p : Path) : Moves 0 p (enterInFlight l t p) :=
  modMerge_moves rfl rfl rfl rfl rfl rfl

theorem leaveInFlight_moves (l : Line) (p : Path) : Moves 0 p (leaveInFlight l p) :=
  modMerge_moves rfl rfl rfl rfl rfl rfl

theorem leaveInFlight_get (l k : Line) (p : Path) :
    (leaveInFlight l p).merge.inFlight[k] = if k = l then none else p.merge.inFlight[k] := set_get _ _ _ _

theorem enterInFlight_get (l k : Line) (t : Nat) (p : Path) :
    (enterInFlight l t p).merge.inFlight[k] = if k = l then some t else p.merge.inFlight[k] := set_get _ _ _ _

/-! ## Release -/

theorem takeAll_merge (e : Env) (l : List Classified) (p : Path) :
    (l.foldl (fun p f => takeRecord e f p) p).merge = p.merge :=
  foldl_same (fun q : Path => q.merge) _ _ _ fun q f _ => by simp

theorem takeAll_moves (e : Env) (l : List Classified) (p : Path) :
    Moves ((l.map Classified.blocks).sum : Nat) p (l.foldl (fun p f => takeRecord e f p) p) := by
  induction l generalizing p with
  | nil => exact (Moves.refl p).cast (by simp)
  | cons f l ih =>
    exact ((takeRecord_moves e f p).trans (ih _)).cast (by simp)

/-- What the release test makes of the merge (R106): the leading records that are earlier than every frame in flight
leave it. -/
theorem release_merge (e : Env) (p : Path) :
    (release e p).merge = { p.merge with
      pending := p.merge.pending.dropWhile (releasable p.inFlightKeys),
      released := addSat p.merge.released (p.merge.pending.takeWhile (releasable p.inFlightKeys)).length } := by
  unfold release; dsimp only
  rw [takeAll_merge]

theorem release_moves (e : Env) (p : Path) : Moves 0 p (release e p) := by
  unfold release; dsimp only
  generalize hq : ({ p with merge := { p.merge with
    pending := p.merge.pending.dropWhile (releasable p.inFlightKeys),
    released := addSat p.merge.released (p.merge.pending.takeWhile (releasable p.inFlightKeys)).length } } : Path) = q
  have h1 : Moves (-((p.merge.pending.takeWhile (releasable p.inFlightKeys)).map Classified.blocks).sum) p q := by
    subst hq
    refine ⟨?_, ?_, id, Nat.le_refl _, rfl, fun _ h => h⟩
    · have h := congrArg (fun l => (List.map Classified.blocks l).sum)
        (List.takeWhile_append_dropWhile (p := releasable p.inFlightKeys) (l := p.merge.pending))
      simp only [List.map_append, List.sum_append] at h
      unfold downstreamBlocks pendingBlocks queuedBlocks
      dsimp only; omega
    · intro h
      refine ⟨h.1, Nat.le_trans ?_ h.2⟩
      exact (List.dropWhile_sublist (releasable p.inFlightKeys)).length_le
  exact (h1.trans (takeAll_moves e _ q)).cast (by simp)

theorem offerHorizon_moves (e : Env) (p : Path) : Moves 0 p (offerHorizon e p) :=
  (raiseTime_moves _ _).trans0 (declareAll_moves e _)

@[simp] theorem offerHorizon_merge (e : Env) (p : Path) : (offerHorizon e p).merge = p.merge := by
  unfold offerHorizon; simp

theorem releaseAndOffer_moves (e : Env) (p : Path) : Moves 0 p (releaseAndOffer e p) :=
  (release_moves e p).trans0 (offerHorizon_moves e _)

theorem releaseAndOffer_merge (e : Env) (p : Path) :
    (releaseAndOffer e p).merge = { p.merge with
      pending := p.merge.pending.dropWhile (releasable p.inFlightKeys),
      released := addSat p.merge.released (p.merge.pending.takeWhile (releasable p.inFlightKeys)).length } := by
  unfold releaseAndOffer; rw [offerHorizon_merge, release_merge]

theorem mem_inFlightKeys {p : Path} {k : OrderKey} : k ∈ p.inFlightKeys ↔ p.merge.inFlight[k.line] = some k.tick := by
  unfold inFlightKeys
  rw [List.mem_filterMap]
  refine ⟨fun ⟨l, _, h⟩ => ?_, fun h => ⟨k.line, List.mem_finRange _, by rw [h]; rfl⟩⟩
  cases e : p.merge.inFlight[l] with
  | none => rw [e] at h; cases h
  | some x => rw [e] at h; cases h; exact e

theorem foldl_min_spec (l : List Nat) (a : Nat) :
    l.foldl min a ≤ a ∧ (∀ x ∈ l, l.foldl min a ≤ x) ∧ (l.foldl min a = a ∨ l.foldl min a ∈ l) := by
  induction l generalizing a with
  | nil => exact ⟨Nat.le_refl _, fun _ h => by simp at h, .inl rfl⟩
  | cons b l ih =>
    obtain ⟨h1, h2, h3⟩ := ih (min a b)
    rw [List.foldl_cons]
    refine ⟨by omega, fun x hx => ?_, ?_⟩
    · rcases List.mem_cons.1 hx with h | h
      · subst h; omega
      · exact h2 x h
    · rcases h3 with h | h
      · rcases Nat.le_total a b with c | c
        · left; rw [h, Nat.min_eq_left c]
        · right; rw [h, Nat.min_eq_right c]; simp
      · right; simp [h]

/-- The horizon is the earliest tick of the frames in flight and the pending records, and the present tick when there is
none (R109). -/
theorem horizon_spec (now : Nat) (p : Path) :
    horizon now p ≤ now
      ∧ (∀ (l : Line) (x : Nat), p.merge.inFlight[l] = some x → horizon now p ≤ x)
      ∧ (∀ f ∈ p.merge.pending, horizon now p ≤ f.stamp.tick)
      ∧ (horizon now p = now ∨ (∃ l : Line, p.merge.inFlight[l] = some (horizon now p))
          ∨ ∃ f ∈ p.merge.pending, f.stamp.tick = horizon now p) := by
  obtain ⟨h1, h2, h3⟩ := foldl_min_spec
    ((p.inFlightKeys.map OrderKey.tick) ++ (p.merge.pending.map fun f => f.stamp.tick)) now
  refine ⟨h1, fun l x h => h2 x ?_, fun f h => h2 _ ?_, ?_⟩
  · exact List.mem_append_left _ (List.mem_map.2 ⟨⟨x, l⟩, mem_inFlightKeys.2 h, rfl⟩)
  · exact List.mem_append_right _ (List.mem_map.2 ⟨f, h, rfl⟩)
  · refine h3.imp id fun h => ?_
    rcases List.mem_append.1 h with h | h
    · obtain ⟨k, hk, e⟩ := List.mem_map.1 h
      exact .inl ⟨k.line, (mem_inFlightKeys.1 hk).trans (congrArg some e)⟩
    · obtain ⟨f, hf, e⟩ := List.mem_map.1 h
      exact .inr ⟨f, hf, e⟩

theorem inFlightKeys_congr {p q : Path} (h : q.merge.inFlight = p.merge.inFlight) :
    q.inFlightKeys = p.inFlightKeys := by unfold inFlightKeys; rw [h]

theorem releaseAndOffer_sorted (e : Env) {p : Path} (h : p.Sorted) : (releaseAndOffer e p).Sorted := by
  unfold Sorted; rw [releaseAndOffer_merge]
  exact h.sublist (List.dropWhile_sublist _)

/-- After a release test the earliest pending record waits for a frame in flight (R107). -/
theorem releaseAndOffer_heldBack (e : Env) (p : Path) : (releaseAndOffer e p).HeldBack := by
  intro f hf
  rw [inFlightKeys_congr (p := p) (by rw [releaseAndOffer_merge])]
  rw [releaseAndOffer_merge] at hf
  have h := List.head?_dropWhile_not (releasable p.inFlightKeys) p.merge.pending
  dsimp only at hf
  rw [hf] at h
  simpa using h

/-! ## Arrival and discard -/

theorem addPending_moves (f : Classified) (p : Path) (h : p.pendingFull = false) : Moves f.blocks p (addPending f p) := by
  have hl : p.merge.pending.length < 512 := by
    have := of_decide_eq_false h; simpa [Config.pendingCapacity] using this
  refine ⟨?_, ?_, id, Nat.le_refl _, rfl, fun _ h => h⟩
  · have h := ((insertPending_perm f p.merge.pending).map Classified.blocks).sum_eq
    simp only [List.map_cons, List.sum_cons] at h
    unfold downstreamBlocks pendingBlocks queuedBlocks addPending
    dsimp only; omega
  · intro hc
    refine ⟨hc.1, ?_⟩
    show (insertPending f p.merge.pending).length ≤ 512
    rw [insertPending_length]; omega

theorem addPending_sorted (f : Classified) {p : Path} (h : p.Sorted) : (addPending f p).Sorted :=
  insertPending_sorted f h

theorem arrive_moves (e : Env) (f : Classified) (p : Path) : Moves f.blocks p (arrive e f p) := by
  unfold arrive; dsimp only
  split
  · exact ((returnBlocks_moves _ _).trans0 (leaveInFlight_moves _ _)).trans0 (releaseAndOffer_moves e _)
  · rename_i h
    exact ((addPending_moves f p (Bool.eq_false_iff.mpr h)).trans0 (leaveInFlight_moves _ _)).trans0
      (releaseAndOffer_moves e _)

theorem dropFrame_moves (e : Env) (l : Line) (n : Nat) (p : Path) : Moves n p (dropFrame e l n p) :=
  ((returnBlocks_moves _ _).trans0 (leaveInFlight_moves _ _)).trans0 (releaseAndOffer_moves e _)

theorem arrive_sorted (e : Env) (f : Classified) {p : Path} (h : p.Sorted) : (arrive e f p).Sorted := by
  unfold arrive; dsimp only
  refine releaseAndOffer_sorted e (p := leaveInFlight f.line _) ?_
  show Path.Sorted (if p.pendingFull then returnBlocks f.blocks p else addPending f p)
  split
  · exact h
  · exact addPending_sorted f h

theorem arrive_heldBack (e : Env) (f : Classified) (p : Path) : (arrive e f p).HeldBack :=
  releaseAndOffer_heldBack e _

theorem dropFrame_sorted (e : Env) (l : Line) (n : Nat) {p : Path} (h : p.Sorted) : (dropFrame e l n p).Sorted :=
  releaseAndOffer_sorted e (p := leaveInFlight l (returnBlocks n p)) h

theorem dropFrame_heldBack (e : Env) (l : Line) (n : Nat) (p : Path) : (dropFrame e l n p).HeldBack :=
  releaseAndOffer_heldBack e _

theorem arrive_inFlight (e : Env) (f : Classified) (k : Line) (p : Path) :
    (arrive e f p).merge.inFlight[k] = if k = f.line then none else p.merge.inFlight[k] := by
  unfold arrive; dsimp only
  rw [releaseAndOffer_merge]
  show (leaveInFlight f.line (if p.pendingFull then returnBlocks f.blocks p else addPending f p)).merge.inFlight[k] = _
  rw [leaveInFlight_get]
  split
  · rfl
  · split <;> rfl

theorem dropFrame_inFlight (e : Env) (l k : Line) (n : Nat) (p : Path) :
    (dropFrame e l n p).merge.inFlight[k] = if k = l then none else p.merge.inFlight[k] := by
  unfold dropFrame
  rw [releaseAndOffer_merge]
  show (leaveInFlight l (returnBlocks n p)).merge.inFlight[k] = _
  rw [leaveInFlight_get]; rfl

/-! ## Merges that are the same -/

theorem sorted_congr {p q : Path} (h : q.merge = p.merge) : q.Sorted ↔ p.Sorted := by unfold Sorted; rw [h]

theorem heldBack_congr {p q : Path} (h : q.merge = p.merge) : q.HeldBack ↔ p.HeldBack := by
  have hk : q.inFlightKeys = p.inFlightKeys := inFlightKeys_congr (by rw [h])
  unfold HeldBack; rw [h, hk]

/-- A frame that enters flight holds no record back less (R107). -/
theorem enterInFlight_heldBack (l : Line) (t : Nat) {p : Path} (hl : p.merge.inFlight[l] = none) (h : p.HeldBack) :
    (enterInFlight l t p).HeldBack := by
  intro f hf
  have h1 := h f hf
  unfold releasable at h1 ⊢
  rw [List.all_eq_false] at h1 ⊢
  obtain ⟨k, hk, hke⟩ := h1
  refine ⟨k, ?_, hke⟩
  unfold inFlightKeys at hk ⊢
  rw [List.mem_filterMap] at hk ⊢
  obtain ⟨j, hj, hjk⟩ := hk
  refine ⟨j, hj, ?_⟩
  rw [enterInFlight_get]
  by_cases e : j = l
  · subst e; rw [hl] at hjk; simp at hjk
  · rw [if_neg e]; exact hjk

/-! ## Channel commands and completions -/

theorem idleExpire_moves (e : Env) (c : Chan) (p : Path) : Moves 0 p (idleExpire e c p) := by
  unfold idleExpire; dsimp only
  split
  · exact .refl p
  · split
    · exact modChan_moves c _ p rfl id
    · split
      · rename_i h
        exact (close_moves e c _ p (hasClosedRoom_iff.mp h)).trans0 (serve_moves e _)
      · exact modChan_moves c _ p rfl id

theorem stopNow_moves (e : Env) (c : Chan) (p : Path) : Moves 0 p (stopNow e c p) := by
  unfold stopNow; dsimp only
  split
  · rename_i h
    rw [Bool.and_eq_true] at h
    exact (close_moves e c _ p (hasClosedRoom_iff.mp h.2)).trans0 (modChan_moves c _ _ rfl id)
  · exact modChan_moves c _ p rfl id

theorem flushNow_moves (e : Env) (c : Chan) (p : Path) : Moves 0 p (flushNow e c p).1 := by
  unfold flushNow; dsimp only
  have h0 : Moves 0 p (modChan c (fun ch => { ch with pendingCmd := none, ended := false }) p) :=
    modChan_moves c _ p rfl id
  split
  · exact h0
  · split
    · rename_i h
      refine h0.trans0 (close_moves e c _ _ ?_)
      rw [modChan_get, if_pos rfl]
      exact hasClosedRoom_iff.mp h
    · exact h0

theorem pendingNow_moves (e : Env) (c : Chan) (p : Path) : Moves 0 p (pendingNow e c p).1 := by
  unfold pendingNow
  split
  · exact .refl p
  · exact stopNow_moves e c p
  · exact flushNow_moves e c p

/-- The head record leaves its queue and its blocks come back (R147, R153). -/
theorem popHead_moves (c : Chan) (f : Channel → Channel) (p : Path) {n : Nat}
    (hq : (f p.chans[c]).queue = (p.chans[c]).queue.tail)
    (hn : (((p.chans[c]).queue.head?.map Record.blocks).getD 0) = n)
    (hc : (f p.chans[c]).closed = (p.chans[c]).closed) : Moves 0 p (returnBlocks n (modChan c f p)) := by
  refine ⟨?_, ?_, id, Nat.le_refl _, rfl, fun _ h => h⟩
  · have h := queuedBlocks_modChan c f p
    rw [hq] at h
    have hs : ((p.chans[c]).queue.map Record.blocks).sum
        = n + ((p.chans[c]).queue.tail.map Record.blocks).sum := by
      rw [← hn]; cases (p.chans[c]).queue <;> simp
    have h2 : (returnBlocks n (modChan c f p)).queuedBlocks = (modChan c f p).queuedBlocks := rfl
    unfold downstreamBlocks pendingBlocks
    rw [h2]
    simp only [returnBlocks_store, returnBlocks_merge, modChan_store, modChan_merge]
    omega
  · intro h
    refine ⟨fun k => ?_, h.2⟩
    rw [returnBlocks_chans, modChan_get]
    split
    · rw [hq, hc]
      exact ⟨by rw [List.length_tail]; have := (h.1 c).1; omega, (h.1 c).2⟩
    · exact h.1 k

theorem modMem_moves {p : Path} {w : Writer} {m : List Host.Cell} (h : Memory.wf p.mem → Memory.wf m) :
    Moves 0 p { p with writer := w, mem := m } :=
  .ofDelivery rfl rfl rfl (fun _ => rfl) (fun _ h => h) h rfl (fun _ h => h)

theorem completeGood_moves (e : Env) (p : Path) : Moves 0 p (completeGood e p).1 := by
  unfold completeGood
  split
  · exact .refl p
  · exact .refl p
  · exact .refl p
  · rename_i c run w _
    split
    · exact (modWriter_moves _ p).trans0 (serve_moves e _)
    · rename_i r rest hq
      dsimp only
      have h0 : Moves 0 p (land w { p with writer := .free }) :=
        .ofDelivery rfl rfl rfl (fun _ => rfl) (fun _ h => h) (fun h => land_wf w (p := { p with writer := _ }) h)
          rfl (fun _ h => h)
      have h1 := popHead_moves c (wrote r (idleFrom e.cfg c e.now)) (land w { p with writer := .free })
        (n := r.blocks) rfl (by rw [land_chans]; dsimp only; rw [hq]; rfl) rfl
      exact (((h0.trans0 h1).trans0 (pendingNow_moves e c _)).trans0 (serve_moves e _)).trans0 (choose_moves e c _ _ _)

theorem completeFailed_moves (e : Env) (p : Path) : Moves 0 p (completeFailed e p).1 := by
  unfold completeFailed
  split
  · exact .refl p
  · exact .refl p
  · exact .refl p
  · rename_i c run w _
    dsimp only
    have h0 : Moves 0 p { p with writer := .free, mem := forgetWrite w p.mem } :=
      modMem_moves fun h => forgetWrite_wf w h
    have h1 := popHead_moves c failed { p with writer := .free, mem := forgetWrite w p.mem }
      (n := ((p.chans[c]).queue.head?.map Record.blocks).getD 0) rfl rfl rfl
    have h2 := h0.trans0 h1
    refine Moves.trans0 (Moves.trans0 (Moves.trans0 ?_ (setCause_moves e _ _)) (serve_moves e _))
      (choose_moves e c _ _ _)
    split
    · rename_i hr
      refine h2.trans0 (close_moves e c _ _ ?_)
      rw [returnBlocks_chans, modChan_get, if_pos rfl]
      exact hasClosedRoom_iff.mp hr
    · exact h2.trans0 (modChan_moves c _ _ rfl id)

theorem completeAbandoned_moves (e : Env) (p : Path) : Moves 0 p (completeAbandoned e p) := by
  unfold completeAbandoned
  split
  · exact .refl p
  · exact .refl p
  · exact .refl p
  · rename_i w _
    exact (modMem_moves (p := p) fun h => forgetWrite_wf w h).trans0 (serve_moves e _)

theorem postInto_moves (e : Env) (c : Chan) (a n : Nat) (p : Path) : Moves 0 p (postInto e c a n p).1 := by
  unfold postInto; dsimp only
  split
  · exact (modChan_moves c _ p rfl id).trans0 (serve_moves e _)
  · split
    · exact modChan_moves c _ p rfl id
    · exact .refl p

theorem post_moves (e : Env) (c : Chan) (a n : Nat) (p : Path) : Moves 0 p (post e c a n p).1 := by
  unfold post
  split
  · exact .refl p
  · exact (judgeEnded_moves e c p).trans0 (postInto_moves e c a n _)

/-- The closure that waited, at one channel (R144, R149, R153). -/
def waitedChan (ch : Channel) : Channel :=
  if ch.owed then { shut .error ch with owed := false }
  else if ch.state = .stalled .closedFull then
    if (shut .full ch).current.isNone then stalledWith .noBuffer (shut .full ch)
    else { shut .full ch with state := .run }
  else ch

theorem waitingClosure_get (e : Env) (c k : Chan) (p : Path) :
    (waitingClosure e c p).chans[k] = if k = c then waitedChan p.chans[c] else p.chans[k] := by
  by_cases h : k = c
  · subst h
    rw [if_pos rfl]
    have hc : ∀ r, (close e k r p).chans[k] = shut r p.chans[k] := fun r => by rw [close_get, if_pos rfl]
    unfold waitingClosure waitedChan; dsimp only
    by_cases h1 : (p.chans[k]).owed = true
    · rw [if_pos h1, if_pos h1, modChan_get, if_pos rfl, hc]
    · rw [if_neg h1, if_neg h1]
      by_cases h2 : (p.chans[k]).state = .stalled .closedFull
      · rw [if_pos h2, if_pos h2, hc]
        split
        · rw [stall_get, if_pos rfl, hc]
        · rw [modChan_get, if_pos rfl, hc]
      · rw [if_neg h2, if_neg h2]
  · rw [if_neg h]
    unfold waitingClosure; dsimp only
    split
    · rw [modChan_get, if_neg h, close_get, if_neg h]
    · split
      · split
        · rw [stall_get, if_neg h, close_get, if_neg h]
        · rw [modChan_get, if_neg h, close_get, if_neg h]
      · rfl

theorem waitedChan_fixed (ch : Channel) : (waitedChan ch).queue = ch.queue ∧ (waitedChan ch).tally = ch.tally
    ∧ (waitedChan ch).closed.length ≤ ch.closed.length + 1 := by
  unfold waitedChan
  split
  · exact ⟨(shut_fixed _ _).1, (shut_fixed _ _).2.1, (shut_fixed _ _).2.2.2.2.2⟩
  · split
    · split
      · exact ⟨(shut_fixed _ _).1, (shut_fixed _ _).2.1, (shut_fixed _ _).2.2.2.2.2⟩
      · exact ⟨(shut_fixed _ _).1, (shut_fixed _ _).2.1, (shut_fixed _ _).2.2.2.2.2⟩
    · exact ⟨rfl, rfl, by omega⟩

@[simp] theorem waitingClosure_store (e : Env) (c : Chan) (p : Path) : (waitingClosure e c p).store = p.store := by
  unfold waitingClosure; dsimp only; split
  · simp
  · split
    · split <;> simp
    · rfl

@[simp] theorem waitingClosure_merge (e : Env) (c : Chan) (p : Path) : (waitingClosure e c p).merge = p.merge := by
  unfold waitingClosure; dsimp only; split
  · simp
  · split
    · split <;> simp
    · rfl

@[simp] theorem waitingClosure_arb (e : Env) (c : Chan) (p : Path) : (waitingClosure e c p).arb = p.arb := by
  unfold waitingClosure; dsimp only; split
  · simp
  · split
    · split <;> simp
    · rfl

@[simp] theorem waitingClosure_draws (e : Env) (c : Chan) (p : Path) : (waitingClosure e c p).draws = p.draws := by
  unfold waitingClosure; dsimp only; split
  · simp
  · split
    · split <;> simp
    · rfl

@[simp] theorem waitingClosure_writer (e : Env) (c : Chan) (p : Path) :
    (waitingClosure e c p).writer = p.writer := by
  unfold waitingClosure; dsimp only; split
  · simp
  · split
    · split <;> simp
    · rfl

@[simp] theorem waitingClosure_att_enables (e : Env) (c : Chan) (p : Path) :
    (waitingClosure e c p).att.enables = p.att.enables := by
  unfold waitingClosure; dsimp only; split
  · simp
  · split
    · split <;> simp
    · rfl

theorem waitingClosure_wf (e : Env) (c : Chan) {p : Path} (h : Memory.wf p.mem) :
    Memory.wf (waitingClosure e c p).mem := by
  unfold waitingClosure; dsimp only; split
  · exact close_wf e c _ h
  · split
    · split
      · exact stall_wf e c _ (close_wf e c _ h)
      · exact close_wf e c _ h
    · exact h

theorem waitingClosure_keepsCauses (e : Env) (c : Chan) (p : Path) (i : Nat)
    (h : p.att.causes.getLsbD i = true) : (waitingClosure e c p).att.causes.getLsbD i = true := by
  unfold waitingClosure; dsimp only; split
  · exact close_keepsCauses e c _ p i h
  · split
    · split
      · exact stall_keepsCauses e c _ _ i (close_keepsCauses e c _ p i h)
      · exact close_keepsCauses e c _ p i h
    · exact h

/-- The taken entry leaves room for the closure that waited (R144). -/
theorem takeFrom_moves (e : Env) (c : Chan) (p : Path) : Moves 0 p (takeFrom e c p).1 := by
  unfold takeFrom
  split
  · exact .refl p
  · rename_i x rest hx
    dsimp only
    refine Moves.trans0 (.ofDelivery (by simp) (by simp) (by simp) (fun k => ?_) (fun k h => ?_)
      (fun h => waitingClosure_wf e c (p := modChan c _ p) h) (by simp)
      (fun i h => waitingClosure_keepsCauses e c _ i h)) (serve_moves e _)
    · rw [waitingClosure_get]; split
      · rename_i e1; subst e1; rw [(waitedChan_fixed _).1, modChan_get, if_pos rfl]
      · rename_i e1; rw [modChan_get, if_neg e1]
    · rw [waitingClosure_get]; split
      · rename_i e1; subst e1
        refine Nat.le_trans (waitedChan_fixed _).2.2 ?_
        rw [modChan_get, if_pos rfl]
        rw [hx] at h ⊢
        simp only [List.tail_cons, List.length_cons] at *
        omega
      · rename_i e1; rw [modChan_get, if_neg e1]; exact h

theorem take_moves (e : Env) (c : Chan) (p : Path) : Moves 0 p (take e c p).1 :=
  (judgeEnded_moves e c p).trans0 (takeFrom_moves e c _)

theorem enterRun_moves (e : Env) (c : Chan) (p : Path) : Moves 0 p (enterRun e c p) :=
  ((modChan_moves c _ p rfl id).trans0 (modChan_moves c _ _ rfl id)).trans0 (serve_moves e _)

theorem promote_fixed (ch : Channel) : (promote ch).queue = ch.queue ∧ (promote ch).closed = ch.closed
    ∧ (promote ch).tally = ch.tally := by
  unfold promote; split <;> exact ⟨rfl, rfl, rfl⟩

theorem startChan_moves (e : Env) (c : Chan) (p : Path) : Moves 0 p (startChan e c p).1 := by
  unfold startChan
  split
  · exact enterRun_moves e c p
  · exact enterRun_moves e c p
  · split
    · exact .refl p
    · exact (modChan_moves c promote p (promote_fixed _).1 (fun h => by rw [(promote_fixed _).2.1]; exact h)).trans0
        (enterRun_moves e c _)
  · exact .refl p
  · exact .refl p

theorem stopChan_moves (e : Env) (c : Chan) (p : Path) : Moves 0 p (stopChan e c p).1 := by
  unfold stopChan; dsimp only
  have h : Moves 0 p (if p.writing c then
      (modChan c (fun ch => { ch with pendingCmd := some .stop }) p, ResultCode.pending)
    else (revoke e c (stopNow e c p), .done)).1 := by
    split
    · exact modChan_moves c _ p rfl id
    · exact (stopNow_moves e c p).trans0 (revoke_moves e c _)
  split
  · exact h
  · exact h
  · exact .refl p
  · exact .refl p
  · exact .refl p

theorem flushChan_moves (e : Env) (c : Chan) (p : Path) : Moves 0 p (flushChan e c p).1 := by
  unfold flushChan; dsimp only
  have h : Moves 0 p (if p.writing c then
      (modChan c (fun ch => { ch with pendingCmd := some .flush }) p, ResultCode.pending)
    else (revoke e c (serve e (flushNow e c p).1), (flushNow e c p).2)).1 := by
    split
    · exact modChan_moves c _ p rfl id
    · exact ((flushNow_moves e c p).trans0 (serve_moves e _)).trans0 (revoke_moves e c _)
  split
  · exact h
  · exact h
  · exact h
  · exact .refl p
  · exact .refl p

end Path

end Sys2Proof.Machine
end

