-- ==== Sys2Proof/Laws/Leaves.lean ====
section
/-!
SUPPORT. What the operations of the Delivery Engine leave alone on the record path: the merge, the arbiter, the
low-water mark, the free-value count and the attention enables.
-/
namespace Sys2Proof.Machine.Path

/-- Going from `p` to `q` leaves everything but the channels, the writer, the free blocks, the attention message and
causes, and the bytes known of host memory. -/
structure Leaves (p q : Path) : Prop where
  merge : q.merge = p.merge
  arb : q.arb = p.arb
  lowWater : q.store.lowWater = p.store.lowWater
  draws : q.draws = p.draws
  enables : q.att.enables = p.att.enables

theorem Leaves.refl (p : Path) : Leaves p p := ⟨rfl, rfl, rfl, rfl, rfl⟩

theorem Leaves.trans {p q r : Path} (h : Leaves p q) (k : Leaves q r) : Leaves p r :=
  ⟨k.merge.trans h.merge, k.arb.trans h.arb, k.lowWater.trans h.lowWater, k.draws.trans h.draws,
    k.enables.trans h.enables⟩

theorem modChan_leaves (c : Chan) (f : Channel → Channel) (p : Path) : Leaves p (modChan c f p) :=
  ⟨rfl, rfl, rfl, rfl, rfl⟩

theorem returnBlocks_leaves (n : Nat) (p : Path) : Leaves p (returnBlocks n p) := ⟨rfl, rfl, rfl, rfl, rfl⟩

theorem setCause_leaves (e : Env) (k : Cause) (p : Path) : Leaves p (setCause e k p) := by
  constructor <;> simp

theorem close_leaves (e : Env) (c : Chan) (r : ClosureReason) (p : Path) : Leaves p (close e c r p) := by
  constructor <;> simp

theorem serve_leaves (e : Env) (p : Path) : Leaves p (serve e p) := by constructor <;> simp

theorem judgeEnded_leaves (e : Env) (c : Chan) (p : Path) : Leaves p (judgeEnded e c p) := by constructor <;> simp

theorem judgeAll_leaves (e : Env) (p : Path) : Leaves p (judgeAll e p) :=
  Leaves.trans (q := p.endNone) ⟨rfl, rfl, rfl, rfl, rfl⟩ (serve_leaves e p.endNone)

theorem finishAll_leaves (e : Env) (p : Path) : Leaves p (finishAll e p) := by constructor <;> simp

theorem settle_leaves (e : Env) (p : Path) : Leaves p (settle e p) := by constructor <;> simp

theorem choose_leaves (e : Env) (c : Chan) (n : Nat) (b : Bool) (p : Path) : Leaves p (choose e c n b p) := by
  constructor <;> simp

theorem revoke_leaves (e : Env) (c : Chan) (p : Path) : Leaves p (revoke e c p) := by constructor <;> simp

theorem waitingClosure_leaves (e : Env) (c : Chan) (p : Path) : Leaves p (waitingClosure e c p) := by
  constructor <;> simp

theorem trySend_leaves (e : Env) (p : Path) : Leaves p (trySend e p) := by constructor <;> simp

theorem messageComplete_leaves (e : Env) (good : Bool) (p : Path) : Leaves p (messageComplete e good p) := by
  constructor <;> simp

theorem land_leaves (w : LinkWrite) (p : Path) : Leaves p (land w p) := ⟨rfl, rfl, rfl, rfl, rfl⟩

theorem startIdle_leaves (e : Env) (c : Chan) (p : Path) : Leaves p (startIdle e c p) := ⟨rfl, rfl, rfl, rfl, rfl⟩

theorem stopNow_leaves (e : Env) (c : Chan) (p : Path) : Leaves p (stopNow e c p) := by
  unfold stopNow; dsimp only
  refine Leaves.trans ?_ (modChan_leaves c _ _)
  split
  · exact close_leaves e c _ p
  · exact .refl p

theorem flushNow_leaves (e : Env) (c : Chan) (p : Path) : Leaves p (flushNow e c p).1 := by
  unfold flushNow; dsimp only
  split
  · exact modChan_leaves c _ p
  · split
    · exact (modChan_leaves c _ p).trans (close_leaves e c _ _)
    · exact modChan_leaves c _ p

theorem pendingNow_leaves (e : Env) (c : Chan) (p : Path) : Leaves p (pendingNow e c p).1 := by
  unfold pendingNow
  split
  · exact .refl p
  · exact stopNow_leaves e c p
  · exact flushNow_leaves e c p

theorem idleExpire_leaves (e : Env) (c : Chan) (p : Path) : Leaves p (idleExpire e c p) := by
  unfold idleExpire; dsimp only
  split
  · exact .refl p
  · split
    · exact modChan_leaves c _ p
    · split
      · exact (close_leaves e c _ p).trans (serve_leaves e _)
      · exact modChan_leaves c _ p

/-- A change of the writer and of what is known of host memory. -/
theorem modWriter_leaves (w : Writer) (m : List Host.Cell) (p : Path) :
    Leaves p { p with writer := w, mem := m } := ⟨rfl, rfl, rfl, rfl, rfl⟩

theorem completeGood_leaves (e : Env) (p : Path) : Leaves p (completeGood e p).1 := by
  unfold completeGood
  split
  · exact .refl p
  · exact .refl p
  · exact .refl p
  · rename_i c run w _
    have h0 : Leaves p { p with writer := .free } := modWriter_leaves _ p.mem p
    split
    · exact h0.trans (serve_leaves e _)
    · rename_i r rest _
      dsimp only
      have h1 : Leaves p (returnBlocks r.blocks (modChan c (wrote r (idleFrom e.cfg c e.now))
          (land w { p with writer := .free }))) :=
        ((h0.trans (land_leaves w _)).trans (modChan_leaves c _ _)).trans (returnBlocks_leaves _ _)
      exact ((h1.trans (pendingNow_leaves e c _)).trans (serve_leaves e _)).trans (choose_leaves e c _ _ _)

theorem completeFailed_leaves (e : Env) (p : Path) : Leaves p (completeFailed e p).1 := by
  unfold completeFailed
  split
  · exact .refl p
  · exact .refl p
  · exact .refl p
  · rename_i c run w _
    dsimp only
    have h0 : Leaves p { p with writer := .free, mem := forgetWrite w p.mem } := modWriter_leaves _ _ p
    have h1 := (h0.trans (modChan_leaves c failed _)).trans
      (returnBlocks_leaves (((p.chans[c]).queue.head?.map Record.blocks).getD 0) _)
    refine Leaves.trans (Leaves.trans (Leaves.trans ?_ (setCause_leaves e _ _)) (serve_leaves e _))
      (choose_leaves e c _ _ _)
    split
    · exact h1.trans (close_leaves e c _ _)
    · exact h1.trans (modChan_leaves c _ _)

theorem completeAbandoned_leaves (e : Env) (p : Path) : Leaves p (completeAbandoned e p) := by
  unfold completeAbandoned
  split
  · exact .refl p
  · exact .refl p
  · exact .refl p
  · exact (modWriter_leaves _ _ p).trans (serve_leaves e _)

theorem postInto_leaves (e : Env) (c : Chan) (a n : Nat) (p : Path) : Leaves p (postInto e c a n p).1 := by
  unfold postInto; dsimp only
  split
  · exact (modChan_leaves c _ _).trans (serve_leaves e _)
  · split
    · exact modChan_leaves c _ _
    · exact .refl _

theorem post_leaves (e : Env) (c : Chan) (a n : Nat) (p : Path) : Leaves p (post e c a n p).1 := by
  unfold post
  split
  · exact .refl p
  · exact (judgeEnded_leaves e c p).trans (postInto_leaves e c a n _)

theorem takeFrom_leaves (e : Env) (c : Chan) (p : Path) : Leaves p (takeFrom e c p).1 := by
  unfold takeFrom
  split
  · exact .refl _
  · exact ((modChan_leaves c _ _).trans (waitingClosure_leaves e c _)).trans (serve_leaves e _)

theorem take_leaves (e : Env) (c : Chan) (p : Path) : Leaves p (take e c p).1 :=
  (judgeEnded_leaves e c p).trans (takeFrom_leaves e c _)

theorem enterRun_leaves (e : Env) (c : Chan) (p : Path) : Leaves p (enterRun e c p) :=
  ((modChan_leaves c _ p).trans (startIdle_leaves e c _)).trans (serve_leaves e _)

theorem startChan_leaves (e : Env) (c : Chan) (p : Path) : Leaves p (startChan e c p).1 := by
  unfold startChan
  split
  · exact enterRun_leaves e c p
  · exact enterRun_leaves e c p
  · split
    · exact .refl p
    · exact (modChan_leaves c _ p).trans (enterRun_leaves e c _)
  · exact .refl p
  · exact .refl p

theorem stopChan_leaves (e : Env) (c : Chan) (p : Path) : Leaves p (stopChan e c p).1 := by
  have h : Leaves p (if p.writing c then
      (modChan c (fun ch => { ch with pendingCmd := some .stop }) p, ResultCode.pending)
    else (revoke e c (stopNow e c p), .done)).1 := by
    split
    · exact modChan_leaves c _ p
    · exact (stopNow_leaves e c p).trans (revoke_leaves e c _)
  unfold stopChan; dsimp only
  split
  · exact h
  · exact h
  · exact .refl p
  · exact .refl p
  · exact .refl p

theorem flushChan_leaves (e : Env) (c : Chan) (p : Path) : Leaves p (flushChan e c p).1 := by
  have h : Leaves p (if p.writing c then
      (modChan c (fun ch => { ch with pendingCmd := some .flush }) p, ResultCode.pending)
    else (revoke e c (serve e (flushNow e c p).1), (flushNow e c p).2)).1 := by
    split
    · exact modChan_leaves c _ p
    · exact ((flushNow_leaves e c p).trans (serve_leaves e _)).trans (revoke_leaves e c _)
  unfold flushChan; dsimp only
  split
  · exact h
  · exact h
  · exact h
  · exact .refl p
  · exact .refl p

end Sys2Proof.Machine.Path
end

