-- ==== Sys2Proof/Laws/Attended.lean ====
section
/-!
SUPPORT. Every operation of the Delivery Engine sets the attention causes of what it does to the channels (R173).
-/
namespace Sys2Proof.Machine.Path

theorem Attended.refl (p : Path) : Attended p p :=
  ⟨fun _ h => h, fun _ => ⟨fun h => absurd h (Nat.lt_irrefl _), fun _ h k => absurd h k, fun h k => absurd h k⟩⟩

theorem Attended.trans {p q r : Path} (h : Attended p q) (k : Attended q r) : Attended p r := by
  refine ⟨fun i x => k.1 i (h.1 i x), fun c => ⟨fun x => ?_, fun a x y => ?_, fun x y => ?_⟩⟩
  · by_cases m : (p.chans[c]).closed.length < (q.chans[c]).closed.length
    · exact k.1 0 ((h.2 c).1 m)
    · exact (k.2 c).1 (Nat.lt_of_le_of_lt (Nat.le_of_not_lt m) x)
  · by_cases m : (q.chans[c]).state = .stalled a
    · exact k.1 1 ((h.2 c).2.1 a m y)
    · exact (k.2 c).2.1 a x m
  · by_cases m : (q.chans[c]).state = .error
    · exact k.1 1 ((h.2 c).2.2 m y)
    · exact (k.2 c).2.2 x m

/-- A change of a channel that closes nothing, and enters neither STALLED nor ERROR, asks for no cause. -/
theorem Attended.of_calm {p q : Path} (ha : q.att.causes = p.att.causes)
    (hc : ∀ k : Chan, (q.chans[k]).closed.length ≤ (p.chans[k]).closed.length
      ∧ ((q.chans[k]).state = (p.chans[k]).state ∨ (q.chans[k]).state = .run ∨ (q.chans[k]).state = .stopped)) :
    Attended p q := by
  refine ⟨fun i h => by rw [ha]; exact h, fun k => ⟨fun h => absurd h (Nat.not_lt.2 (hc k).1), fun r h n => ?_,
    fun h n => ?_⟩⟩ <;>
  · rcases (hc k).2 with e | e | e
    · exact absurd (e.symm.trans h) n
    · rw [e] at h; exact nomatch h
    · rw [e] at h; exact nomatch h

theorem Attended.of_same {p q : Path} (ha : q.att.causes = p.att.causes) (hc : q.chans = p.chans) : Attended p q :=
  .of_calm ha fun k => ⟨Nat.le_of_eq (by rw [hc]), .inl (by rw [hc])⟩

theorem modChan_attended (c : Chan) (f : Channel → Channel) (p : Path)
    (hl : (f p.chans[c]).closed.length ≤ (p.chans[c]).closed.length)
    (hs : (f p.chans[c]).state = (p.chans[c]).state ∨ (f p.chans[c]).state = .run
      ∨ (f p.chans[c]).state = .stopped) : Attended p (modChan c f p) := by
  refine .of_calm rfl fun k => ?_
  rw [modChan_get]
  by_cases h : k = c
  · rw [if_pos h, h]; exact ⟨hl, hs⟩
  · rw [if_neg h]; exact ⟨Nat.le_refl _, .inl rfl⟩

/-- The CHANNEL cause answers for every entry into STALLED and ERROR; the closures are to have set CLOSED. -/
theorem channelCause_attended (e : Env) {p q : Path}
    (hm : ∀ i : Nat, p.att.causes.getLsbD i = true → q.att.causes.getLsbD i = true)
    (hc : ∀ k : Chan, (p.chans[k]).closed.length < (q.chans[k]).closed.length → q.att.causes.getLsbD 0 = true) :
    Attended p (setCause e .channel q) := by
  have h1 : (setCause e .channel q).att.causes.getLsbD 1 = true := setCause_sets e .channel q
  exact ⟨fun i h => setCause_keepsCauses e _ _ i (hm i h), fun k =>
    ⟨fun h => setCause_keepsCauses e _ _ 0 (hc k (by rw [setCause_chans] at h; exact h)), fun _ _ _ => h1,
      fun _ _ => h1⟩⟩

theorem setCause_attended (e : Env) (c : Cause) (p : Path) : Attended p (setCause e c p) :=
  ⟨fun i h => setCause_keepsCauses e c p i h, fun k => by
    rw [setCause_chans]
    exact ⟨fun h => absurd h (Nat.lt_irrefl _), fun _ h n => absurd h n, fun h n => absurd h n⟩⟩

theorem stall_attended (e : Env) (c : Chan) (r : StallReason) (p : Path) : Attended p (stall e c r p) :=
  channelCause_attended e (fun _ h => h) fun k h => absurd h (by
    rw [modChan_get]; split
    · rename_i x; rw [x]; exact Nat.lt_irrefl _
    · exact Nat.lt_irrefl _)

/-- A closure sets CLOSED (R143, R173). -/
theorem close_sets {e : Env} {c : Chan} {r : ClosureReason} {p : Path} {b : CurrentBuffer}
    (h : (p.chans[c]).current = some b) : (close e c r p).att.causes.getLsbD 0 = true := by
  unfold close; rw [h]; exact setCause_sets e .closed _

theorem close_attended (e : Env) (c : Chan) (r : ClosureReason) (p : Path) : Attended p (close e c r p) := by
  unfold close
  cases hb : (p.chans[c]).current with
  | none => exact .refl p
  | some b =>
    have h0 : (setCause e .closed (modChan c (closedWith r b) p)).att.causes.getLsbD 0 = true :=
      setCause_sets e .closed _
    refine ⟨fun i h => setCause_keepsCauses e _ _ i h, fun k => ⟨fun _ => h0, fun a h n => absurd ?_ n,
      fun h n => absurd ?_ n⟩⟩ <;>
    · rw [setCause_chans, modChan_get] at h
      split at h
      · rename_i x; rw [x]; exact h
      · exact h

theorem judge_attended (e : Env) (c : Chan) (p : Path) : Attended p (judge e c p) := by
  unfold judge; dsimp only
  split
  · split
    · exact .refl p
    · exact stall_attended e c _ p
    · split
      · exact .refl p
      · split
        · refine (close_attended e c .full p).trans ?_
          unfold stallIfNoBuffer; split
          · exact stall_attended e c _ _
          · exact .refl _
        · exact stall_attended e c _ p
  · exact .refl p

theorem serve_attended (e : Env) (p : Path) : Attended p (serve e p) :=
  foldl_keeps (fun q => Attended p q) _ _ _ (fun q c _ h => h.trans (judge_attended e c q)) (.refl p)

theorem judgeEnded_attended (e : Env) (c : Chan) (p : Path) : Attended p (judgeEnded e c p) := by
  unfold judgeEnded; split
  · exact (modChan_attended c _ p (Nat.le_refl _) (.inl rfl)).trans (judge_attended e c _)
  · exact .refl p

theorem judgeAll_attended (e : Env) (p : Path) : Attended p (judgeAll e p) :=
  Attended.trans (q := p.endNone)
    (.of_calm rfl fun k => by rw [endNone_get]; exact ⟨Nat.le_refl _, .inl rfl⟩) (serve_attended e _)

theorem finishAll_attended (e : Env) (p : Path) : Attended p (finishAll e p) :=
  (judgeAll_attended e p).trans (.of_same (by rw [finishAll_att]; rfl) (by rw [finishAll_chans]; rfl))

theorem settle_attended (e : Env) (p : Path) : Attended p (settle e p) :=
  (judgeAll_attended e p).trans (.of_same (by rw [settle_att]; rfl) (by rw [settle_chans]; rfl))

theorem choose_attended (e : Env) (c : Chan) (n : Nat) (b : Bool) (p : Path) : Attended p (choose e c n b p) :=
  .of_same (by rw [choose_att]) (choose_chans e c n b p)

theorem revoke_attended (e : Env) (c : Chan) (p : Path) : Attended p (revoke e c p) :=
  .of_same (by rw [revoke_att]) (revoke_chans e c p)

theorem stopNow_attended (e : Env) (c : Chan) (p : Path) : Attended p (stopNow e c p) := by
  unfold stopNow; dsimp only
  refine Attended.trans ?_ (modChan_attended c _ _ (Nat.le_refl _) (.inr (.inr rfl)))
  split
  · exact close_attended e c _ p
  · exact .refl p

theorem flushNow_attended (e : Env) (c : Chan) (p : Path) : Attended p (flushNow e c p).1 := by
  have h0 : Attended p (modChan c (fun ch => { ch with pendingCmd := none, ended := false }) p) :=
    modChan_attended c _ p (Nat.le_refl _) (.inl rfl)
  unfold flushNow; dsimp only
  split
  · exact h0
  · split
    · exact h0.trans (close_attended e c _ _)
    · exact h0

theorem pendingNow_attended (e : Env) (c : Chan) (p : Path) : Attended p (pendingNow e c p).1 := by
  unfold pendingNow
  split
  · exact .refl p
  · exact stopNow_attended e c p
  · exact flushNow_attended e c p

theorem idleExpire_attended (e : Env) (c : Chan) (p : Path) : Attended p (idleExpire e c p) := by
  unfold idleExpire; dsimp only
  split
  · exact .refl p
  · split
    · exact modChan_attended c _ p (Nat.le_refl _) (.inl rfl)
    · split
      · exact (close_attended e c _ p).trans (serve_attended e _)
      · exact modChan_attended c _ p (Nat.le_refl _) (.inl rfl)

theorem completeGood_attended (e : Env) (p : Path) : Attended p (completeGood e p).1 := by
  unfold completeGood
  split
  · exact .refl p
  · exact .refl p
  · exact .refl p
  · rename_i c run w _
    split
    · exact Attended.trans (q := { p with writer := .free }) (.of_same rfl rfl) (serve_attended e _)
    · rename_i r rest _
      dsimp only
      have h1 : Attended p (returnBlocks r.blocks (modChan c (wrote r (idleFrom e.cfg c e.now))
          (land w { p with writer := .free }))) :=
        Attended.trans (q := land w { p with writer := .free }) (.of_same rfl rfl)
          (Attended.trans (modChan_attended c _ _ (Nat.le_refl _) (.inl rfl)) (.of_same rfl rfl))
      exact ((h1.trans (pendingNow_attended e c _)).trans (serve_attended e _)).trans (choose_attended e c _ _ _)

theorem completeFailed_attended (e : Env) (p : Path) : Attended p (completeFailed e p).1 := by
  unfold completeFailed
  split
  · exact .refl p
  · exact .refl p
  · exact .refl p
  · rename_i c run w _
    dsimp only
    have h1 : ∀ k : Chan, ((returnBlocks (((p.chans[c]).queue.head?.map Record.blocks).getD 0)
        (modChan c failed { p with writer := .free, mem := forgetWrite w p.mem })).chans[k]).closed.length
        = (p.chans[k]).closed.length := by
      intro k
      show ((modChan c failed { p with writer := .free, mem := forgetWrite w p.mem }).chans[k]).closed.length = _
      rw [modChan_get]; split
      · rename_i x; rw [x]; rfl
      · rfl
    refine Attended.trans (Attended.trans ?_ (serve_attended e _)) (choose_attended e c _ _ _)
    have h0 : ∀ i : Nat, p.att.causes.getLsbD i = true → (returnBlocks
        (((p.chans[c]).queue.head?.map Record.blocks).getD 0)
        (modChan c failed { p with writer := .free, mem := forgetWrite w p.mem })).att.causes.getLsbD i = true :=
      fun _ h => h
    generalize returnBlocks _ (modChan c failed _) = q at h0 h1 ⊢
    split
    · have h2 := close_attended e c .error q
      exact channelCause_attended e (fun i h => h2.1 i (h0 i h)) fun k h => (h2.2 k).1 (by rw [h1 k]; exact h)
    · refine channelCause_attended e h0 fun k h => absurd h ?_
      rw [modChan_get]; split
      · rename_i x; rw [x, ← h1]; exact Nat.lt_irrefl _
      · rw [h1]; exact Nat.lt_irrefl _

theorem completeAbandoned_attended (e : Env) (p : Path) : Attended p (completeAbandoned e p) := by
  unfold completeAbandoned
  split
  · exact .refl p
  · exact .refl p
  · exact .refl p
  · rename_i w _
    exact Attended.trans (q := { p with writer := .free, mem := forgetWrite w p.mem }) (.of_same rfl rfl)
      (serve_attended e _)

theorem post_attended (e : Env) (c : Chan) (a n : Nat) (p : Path) : Attended p (post e c a n p).1 := by
  have h : ∀ q : Path, Attended q (postInto e c a n q).1 := by
    intro q; unfold postInto; dsimp only
    split
    · refine Attended.trans (modChan_attended c _ q (Nat.le_refl _) ?_) (serve_attended e _)
      dsimp only; split
      · exact .inr (.inl rfl)
      · exact .inl rfl
    · split
      · exact modChan_attended c _ q (Nat.le_refl _) (.inl rfl)
      · exact .refl q
  unfold post
  split
  · exact .refl p
  · exact (judgeEnded_attended e c p).trans (h _)

theorem waitingClosure_attended (e : Env) (c : Chan) (p : Path) : Attended p (waitingClosure e c p) := by
  unfold waitingClosure; dsimp only
  split
  · exact (close_attended e c _ p).trans (modChan_attended c _ _ (Nat.le_refl _) (.inl rfl))
  · split
    · refine (close_attended e c .full p).trans ?_
      split
      · exact stall_attended e c _ _
      · exact modChan_attended c _ _ (Nat.le_refl _) (.inr (.inl rfl))
    · exact .refl p

theorem takeFrom_attended (e : Env) (c : Chan) (p : Path) : Attended p (takeFrom e c p).1 := by
  unfold takeFrom
  split
  · exact .refl _
  · dsimp only
    refine Attended.trans (Attended.trans ?_ (waitingClosure_attended e c _)) (serve_attended e _)
    refine modChan_attended c _ p ?_ (.inl rfl)
    dsimp only; rw [List.length_tail]; exact Nat.sub_le _ _

theorem take_attended (e : Env) (c : Chan) (p : Path) : Attended p (take e c p).1 :=
  (judgeEnded_attended e c p).trans (takeFrom_attended e c _)

theorem startIdle_attended (e : Env) (c : Chan) (p : Path) : Attended p (startIdle e c p) := by
  unfold startIdle
  refine modChan_attended c _ p ?_ (.inl ?_)
  · exact Nat.le_refl _
  · rfl

theorem enterRun_attended (e : Env) (c : Chan) (p : Path) : Attended p (enterRun e c p) := by
  unfold enterRun
  refine Attended.trans (Attended.trans ?_ (startIdle_attended e c _)) (serve_attended e _)
  exact modChan_attended c _ p (Nat.le_refl _) (.inr (.inl rfl))

theorem startChan_attended (e : Env) (c : Chan) (p : Path) : Attended p (startChan e c p).1 := by
  unfold startChan
  split
  · exact enterRun_attended e c p
  · exact enterRun_attended e c p
  · split
    · exact .refl p
    · refine Attended.trans (modChan_attended c _ p ?_ ?_) (enterRun_attended e c _)
      · unfold promote; split <;> exact Nat.le_refl _
      · unfold promote; split <;> exact .inl rfl
  · exact .refl p
  · exact .refl p

theorem stopChan_attended (e : Env) (c : Chan) (p : Path) : Attended p (stopChan e c p).1 := by
  have h : Attended p (if p.writing c then
      (modChan c (fun ch => { ch with pendingCmd := some .stop }) p, ResultCode.pending)
    else (revoke e c (stopNow e c p), .done)).1 := by
    split
    · exact modChan_attended c _ p (Nat.le_refl _) (.inl rfl)
    · exact (stopNow_attended e c p).trans (revoke_attended e c _)
  unfold stopChan; dsimp only
  split
  · exact h
  · exact h
  · exact .refl p
  · exact .refl p
  · exact .refl p

theorem flushChan_attended (e : Env) (c : Chan) (p : Path) : Attended p (flushChan e c p).1 := by
  have h : Attended p (if p.writing c then
      (modChan c (fun ch => { ch with pendingCmd := some .flush }) p, ResultCode.pending)
    else (revoke e c (serve e (flushNow e c p).1), (flushNow e c p).2)).1 := by
    split
    · exact modChan_attended c _ p (Nat.le_refl _) (.inl rfl)
    · exact ((flushNow_attended e c p).trans (serve_attended e _)).trans (revoke_attended e c _)
  unfold flushChan; dsimp only
  split
  · exact h
  · exact h
  · exact h
  · exact .refl p
  · exact .refl p

end Sys2Proof.Machine.Path
end

