-- ==== Sys2Proof/Laws/Keeps.lean ====
section
/-!
SUPPORT. The operations on the whole state keep the laws of Safety.lean: one lemma for each, over one relation that
composes.
-/
namespace Sys2Proof.Machine.State

/-- Going from `s` to `t` keeps every law, the queue, the tick, and the settings once they are locked. -/
structure Keeps (s t : State) : Prop where
  blocks : s.BlocksConserved → t.BlocksConserved
  caps : s.path.WithinCapacity → t.path.WithinCapacity
  drive : s.DriveLawful → t.DriveLawful
  date : s.DateBounded → t.DateBounded
  quiet : s.QuietBeforeLock → t.QuietBeforeLock
  merge : s.MergeLawful → t.MergeLawful
  canon : s.Canonical → t.Canonical
  queue : t.pending = s.pending
  tick : t.tb.tick = s.tb.tick
  lock : s.ctl.locked = true → t.ctl.locked = true ∧ t.settings = s.settings

/-- `Keeps`, the arbiter time does not fall, and a part in ALIGN, LOCKED or HELD stays in one of them. -/
structure Goes (s t : State) : Prop extends Keeps s t where
  time : s.path.arb.time ≤ t.path.arb.time
  inCage : s.sc.inCage = true → t.sc.inCage = true

theorem Keeps.refl (s : State) : Keeps s s := ⟨id, id, id, id, id, id, id, rfl, rfl, fun h => ⟨h, rfl⟩⟩

theorem Keeps.trans {s t u : State} (h : Keeps s t) (k : Keeps t u) : Keeps s u :=
  ⟨fun x => k.blocks (h.blocks x), fun x => k.caps (h.caps x), fun x => k.drive (h.drive x),
    fun x => k.date (h.date x), fun x => k.quiet (h.quiet x), fun x => k.merge (h.merge x),
    fun x => k.canon (h.canon x), k.queue.trans h.queue, k.tick.trans h.tick,
    fun x => ⟨(k.lock (h.lock x).1).1, (k.lock (h.lock x).1).2.trans (h.lock x).2⟩⟩

theorem Goes.refl (s : State) : Goes s s := ⟨.refl s, Nat.le_refl _, id⟩

theorem Goes.trans {s t u : State} (h : Goes s t) (k : Goes t u) : Goes s u :=
  ⟨h.toKeeps.trans k.toKeeps, Nat.le_trans h.time k.time, fun x => k.inCage (h.inCage x)⟩

/-! ## The record path alone -/

theorem goes_path (s : State) {q : Path} (h : Path.Moves 0 s.path q) (hm : q.merge = s.path.merge) :
    Goes s { s with path := q } := by
  refine ⟨⟨fun x => ⟨?_, x.2⟩, h.caps, id, id, id, fun x => ⟨fun l => ?_, ?_, ?_⟩,
    fun x => ⟨h.canon x.1, x.2⟩, rfl, rfl, fun x => ⟨x, rfl⟩⟩, h.time, id⟩
  · have := x.1; have := h.blocks
    show s.receptionBlocks + q.downstreamBlocks = 4096
    omega
  · show q.merge.inFlight[l] = _
    rw [hm]; exact x.1 l
  · exact (Path.sorted_congr hm).mpr x.2.1
  · exact (Path.heldBack_congr hm).mpr x.2.2

theorem goes_modPath (f : Env → Path → Path) (s : State) (h : Path.Moves 0 s.path (f s.env s.path))
    (hm : (f s.env s.path).merge = s.path.merge) : Goes s (modPath f s) := goes_path s h hm

theorem served_goes (s : State) : Goes s (served s) :=
  goes_modPath _ s (Path.serve_moves _ _) (by simp)

theorem peerCause_goes (s : State) : Goes s (peerCause s) :=
  goes_modPath _ s (Path.setCause_moves _ _ _) (by simp)

theorem emitTime_goes (old new : ScaleState) (r : TimeReason) (peer : Nat) (prev : BitVec 48) (s : State) :
    Goes s (emitTime old new r peer prev s) :=
  goes_modPath _ s ((Path.offer_moves0 _ _ _ rfl).trans0 (Path.setCause_moves _ _ _)) (by simp)

/-! ## The cage side and the control window -/

theorem inCage_congr {a b : ScaleController} (h : a.state = b.state) : a.inCage = b.inCage := by
  unfold ScaleController.inCage ScaleController.inScale; rw [h]

/-- A change that leaves the record path, the lines and the settings. -/
theorem goes_cage {s t : State} (hp : t.path = s.path) (hl : t.lines = s.lines) (hs : t.settings = s.settings)
    (hq : t.pending = s.pending) (hk : t.ctl.locked = s.ctl.locked) (ht : t.tb.tick = s.tb.tick)
    (hd : s.DriveLawful → t.DriveLawful) (hb : s.DateBounded → t.DateBounded)
    (hu : s.QuietBeforeLock → t.QuietBeforeLock) (ha : s.sc.inCage = true → t.sc.inCage = true) : Goes s t := by
  refine ⟨⟨fun x => ⟨?_, ?_⟩, fun x => by rw [hp]; exact x, hd, hb, hu, fun x => ⟨fun l => ?_, ?_, ?_⟩,
    fun x => ⟨by rw [hp]; exact x.1, by rw [hs]; exact x.2⟩, hq, ht, fun x => ⟨hk.trans x, hs⟩⟩, by rw [hp], ha⟩
  · have := x.1; unfold receptionBlocks at *; rw [hp, hl]; exact this
  · rw [hl]; exact x.2
  · rw [hp, hl]; exact x.1 l
  · rw [hp]; exact x.2.1
  · rw [hp]; exact x.2.2

/-- A change of Scale Controller counts, Cage Bus Port, roster, counters and control window that touches neither the
state, the muting, the lock nor the date's bounds. -/
theorem goes_plain {s t : State} (hp : t.path = s.path) (hl : t.lines = s.lines) (hs : t.settings = s.settings)
    (hq : t.pending = s.pending) (hk : t.ctl.locked = s.ctl.locked) (ht : t.tb = s.tb)
    (hd : t.bus.drive.isSome = true → s.bus.drive.isSome = true) (h1 : t.sc.state = s.sc.state)
    (h2 : t.sc.mutedProfile = s.sc.mutedProfile) (h3 : t.sc.mutedClash = s.sc.mutedClash)
    (hw : t.bus.watch ≠ .off → s.bus.watch ≠ .off) : Goes s t := by
  refine goes_cage hp hl hs hq hk (by rw [ht]) (fun x => ⟨fun h => ?_, fun h => ?_⟩) (fun x => ⟨fun h => ?_, ?_⟩)
    (fun x h => ?_) (by rw [inCage_congr h1]; exact id)
  · rw [h1, h2, h3]; exact x.1 (hd h)
  · rw [h1]; exact x.2 (hw h)
  · rw [ht] at h ⊢; rw [hk, hs]; exact x.1 h
  · rw [ht]; exact x.2
  · rw [hk] at h; rw [h1, ht, hl]; exact x h

theorem setResult_goes (r : ResultCode) (i : Nat) (s : State) : Goes s (setResult r i s) :=
  goes_plain rfl rfl rfl rfl rfl rfl id rfl rfl rfl id

theorem modEntry_goes (j : Station) (f : RosterEntry → RosterEntry) (s : State) : Goes s (modEntry j f s) :=
  goes_plain rfl rfl rfl rfl rfl rfl id rfl rfl rfl id

theorem chanCommand_goes (f : Env → Path → Path × ResultCode) (s : State)
    (h : Path.Moves 0 s.path (f s.env s.path).1) (hm : (f s.env s.path).1.merge = s.path.merge) :
    Goes s (chanCommand f s) := (goes_path s h hm).trans (setResult_goes _ _ _)

theorem complete_goes (f : Env → Path → Path × Option ResultCode) (s : State)
    (h : Path.Moves 0 s.path (f s.env s.path).1) (hm : (f s.env s.path).1.merge = s.path.merge) :
    Goes s (complete f s) := by
  unfold complete; dsimp only
  split
  · exact (goes_path s h hm).trans (setResult_goes _ _ _)
  · exact goes_path s h hm

/-! ## Lines -/

theorem sum_lines_upd (g h : Line → Nat) (l : Line) (hne : ∀ k, k ≠ l → h k = g k) :
    (allLines.map h).sum + g l = (allLines.map g).sum + h l := by
  have h0 := hne 0; have h1 := hne 1; have h2 := hne 2; have h3 := hne 3
  have h4 := hne 4; have h5 := hne 5; have h6 := hne 6; have h7 := hne 7
  fin_cases l <;> simp [allLines] at * <;> omega

/-- The lines `L` in place of the state's. -/
abbrev withLines (L : Vector LinePort 8) (s : State) : State := { s with lines := L }

theorem receptionBlocks_withLines (L : Vector LinePort 8) (l : Line) (s : State)
    (hne : ∀ k, k ≠ l → L[k] = s.lines[k]) :
    (withLines L s).receptionBlocks + (s.lines[l]).heldBlocks = s.receptionBlocks + (L[l]).heldBlocks :=
  sum_lines_upd (fun k => (s.lines[k]).heldBlocks) (fun k => (L[k]).heldBlocks) l
    (fun k hk => by show (L[k]).heldBlocks = _; rw [hne k hk])

theorem quiet_withLines {L : Vector LinePort 8} {l : Line} {s t : State}
    (hne : ∀ k, k ≠ l → L[k] = s.lines[k]) (hoff : (s.lines[l]).state = .off → (L[l]).state = .off)
    (h1 : t.sc = s.sc) (h2 : t.tb = s.tb) (h3 : t.ctl = s.ctl) (h4 : t.lines = L) :
    s.QuietBeforeLock → t.QuietBeforeLock := by
  intro x h
  rw [h3] at h
  obtain ⟨a, b, c⟩ := x h
  refine ⟨by rw [h1]; exact a, by rw [h2]; exact b, fun k => ?_⟩
  rw [h4]
  by_cases e : k = l
  · subst e; exact hoff (c k)
  · rw [hne k e]; exact c k

/-- A change of one line that leaves its reception and does not take it out of OFF. -/
theorem goes_withLines (L : Vector LinePort 8) (l : Line) (s : State) (hne : ∀ k, k ≠ l → L[k] = s.lines[k])
    (hr : (L[l]).reception = (s.lines[l]).reception) (hoff : (s.lines[l]).state = .off → (L[l]).state = .off) :
    Goes s (withLines L s) := by
  have hrec : ∀ k : Line, (L[k]).reception = (s.lines[k]).reception := fun k => by
    by_cases e : k = l
    · subst e; exact hr
    · rw [hne k e]
  refine ⟨⟨fun x => ⟨?_, fun k f hf => x.2 k f ?_⟩, id, id, id, quiet_withLines hne hoff rfl rfl rfl rfl,
    fun x => ⟨fun k => ?_, x.2.1, x.2.2⟩, id, rfl, rfl, fun h => ⟨h, rfl⟩⟩, Nat.le_refl _, id⟩
  · have h := receptionBlocks_withLines L l s hne
    have e : (L[l]).heldBlocks = (s.lines[l]).heldBlocks := by unfold LinePort.heldBlocks; rw [hr]
    have := x.1
    show (withLines L s).receptionBlocks + s.path.downstreamBlocks = 4096
    omega
  · rw [← hrec k]; exact hf
  · show s.path.merge.inFlight[k] = match (L[k]).reception with
      | .capturing f => some f.stamp.tick
      | .idle => none
      | .skipping => none
    rw [hrec k]; exact x.1 k

theorem modLine_get (l k : Line) (f : LinePort → LinePort) (s : State) :
    (modLine l f s).lines[k] = if k = l then f s.lines[l] else s.lines[k] := updAt_get _ _ _ _

theorem modLineCounters_get (l k : Line) (f : LineCounters → LineCounters) (s : State) :
    (modLineCounters l f s).lines[k]
      = if k = l then { s.lines[l] with counters := f (s.lines[l]).counters } else s.lines[k] := modLine_get _ _ _ _

theorem modPath_get (k : Line) (f : Env → Path → Path) (s : State) : (modPath f s).lines[k] = s.lines[k] := rfl

theorem mapLines_get (f : Line → LinePort → LinePort) (k : Line) (s : State) :
    (mapLines f s).lines[k] = f k s.lines[k] := ofFn_get _ _

/-- A change of every line that leaves the receptions and takes none out of OFF. -/
theorem goes_mapLines (f : Line → LinePort → LinePort) (s : State)
    (hr : ∀ l p, (f l p).reception = p.reception) (hoff : ∀ l p, p.state = .off → (f l p).state = .off) :
    Goes s (mapLines f s) := by
  have hrec : ∀ k : Line, ((mapLines f s).lines[k]).reception = (s.lines[k]).reception := fun k => by
    rw [mapLines_get, hr]
  refine ⟨⟨fun x => ⟨?_, fun k g hg => x.2 k g (by rw [← hrec k]; exact hg)⟩, id, id, id,
    fun x h => ⟨(x h).1, (x h).2.1, fun k => by rw [mapLines_get]; exact hoff k _ ((x h).2.2 k)⟩,
    fun x => ⟨fun k => ?_, x.2.1, x.2.2⟩, id, rfl, rfl, fun h => ⟨h, rfl⟩⟩, Nat.le_refl _, id⟩
  · have e : (mapLines f s).receptionBlocks = s.receptionBlocks := by
      unfold receptionBlocks; congr 1
      exact List.map_congr_left fun k _ => by unfold LinePort.heldBlocks; rw [hrec k]
    rw [e]; exact x.1
  · rw [hrec k]; exact x.1 k

theorem goes_modLine (l : Line) (f : LinePort → LinePort) (s : State)
    (hr : (f s.lines[l]).reception = (s.lines[l]).reception)
    (hoff : (s.lines[l]).state = .off → (f s.lines[l]).state = .off) : Goes s (modLine l f s) :=
  goes_withLines _ l s (fun k hk => by rw [updAt_ne _ _ hk]) (by rw [updAt_self]; exact hr)
    (by rw [updAt_self]; exact hoff)

theorem goes_modLineCounters (l : Line) (f : LineCounters → LineCounters) (s : State) :
    Goes s (modLineCounters l f s) := goes_modLine l _ s rfl id

/-! ### Line state changes -/

theorem lineRecord_moves (l : Line) (old new : LineState) (r : LineReason) (n : Nat) (st : Stamp) (e : Env)
    (p : Path) : Path.Moves 0 p (lineRecord l old new r n st e p) :=
  (Path.offer_moves0 _ _ _ rfl).trans0 (Path.setCause_moves _ _ _)

theorem lineRecord_merge (l : Line) (old new : LineState) (r : LineReason) (n : Nat) (st : Stamp) (e : Env)
    (p : Path) : (lineRecord l old new r n st e p).merge = p.merge := by unfold lineRecord; simp

/-- The two effects of a change come in one order or the other. -/
theorem lineEffects_cases (l : Line) (old new : LineState) (r : LineReason) (n : Nat) (st : Stamp) (e : Env)
    (p : Path) : ∃ p', (p' = p ∨ p' = { p with draws := p.draws + 1 }) ∧
      (lineEffects l old new r n st e p = Path.lineReport e l new (lineRecord l old new r n st e p')
        ∨ lineEffects l old new r n st e p = lineRecord l old new r n st e (Path.lineReport e l new p')) := by
  unfold lineEffects; dsimp only
  split
  · exact ⟨p, .inl rfl, .inl rfl⟩
  · refine ⟨_, .inr rfl, ?_⟩
    have h := freeOrder_perm p.draws [lineRecord l old new r n st e, Path.lineReport e l new]
    generalize freeOrder p.draws [lineRecord l old new r n st e, Path.lineReport e l new] = w at h
    match w, h.length_eq with
    | [a, b], _ =>
      have ha : a ∈ [lineRecord l old new r n st e, Path.lineReport e l new] := h.mem_iff.mp (by simp)
      rw [List.mem_pair] at ha
      rcases ha with rfl | rfl
      · have hb := h.cons_inv
        rw [List.singleton_perm_singleton] at hb
        subst hb; exact .inl rfl
      · have hb := (h.trans (List.Perm.swap _ _ _)).cons_inv
        rw [List.singleton_perm_singleton] at hb
        subst hb; exact .inr rfl

theorem lineEffects_moves (l : Line) (old new : LineState) (r : LineReason) (n : Nat) (st : Stamp) (e : Env)
    (p : Path) : Path.Moves 0 p (lineEffects l old new r n st e p) := by
  obtain ⟨p', hp, h⟩ := lineEffects_cases l old new r n st e p
  have h0 : Path.Moves 0 p p' := by
    rcases hp with rfl | rfl
    · exact .refl _
    · exact Path.modDraws_moves _ _
  rcases h with h | h <;> rw [h]
  · exact (h0.trans0 (lineRecord_moves ..)).trans0 (Path.lineReport_moves ..)
  · exact (h0.trans0 (Path.lineReport_moves ..)).trans0 (lineRecord_moves ..)

theorem lineEffects_merge (l : Line) (old new : LineState) (r : LineReason) (n : Nat) (st : Stamp) (e : Env)
    (p : Path) : (lineEffects l old new r n st e p).merge = p.merge := by
  obtain ⟨p', hp, h⟩ := lineEffects_cases l old new r n st e p
  have h0 : p'.merge = p.merge := by rcases hp with rfl | rfl <;> rfl
  rcases h with h | h <;> rw [h]
  · rw [Path.lineReport_merge, lineRecord_merge, h0]
  · rw [lineRecord_merge, Path.lineReport_merge, h0]

theorem changeLine_goes (l : Line) (new : LineState) (r : LineReason) (n : Nat) (s : State)
    (h : (s.lines[l]).state ≠ .off) : Goes s (changeLine l new r n s) := by
  unfold changeLine; dsimp only
  exact (goes_modLine l (fun p => { p with state := new, settle := none }) s rfl (fun x => absurd x h)).trans
    (goes_modPath _ _ (lineEffects_moves ..) (lineEffects_merge ..))

theorem changeLine_get (l k : Line) (new : LineState) (r : LineReason) (n : Nat) (s : State) :
    (changeLine l new r n s).lines[k]
      = if k = l then { s.lines[l] with state := new, settle := none } else s.lines[k] := by
  show (modLine l _ s).lines[k] = _
  rw [modLine_get]

/-! ### Frames that end -/

/-- A frame in reception ends with its blocks going back. -/
theorem goes_drop (L : Vector LinePort 8) (l : Line) (f : PortFrame) (s : State)
    (hcap : (s.lines[l]).reception = .capturing f) (hne : ∀ k, k ≠ l → L[k] = s.lines[k])
    (hend : (L[l]).reception = .idle ∨ (L[l]).reception = .skipping)
    (hoff : (s.lines[l]).state = .off → (L[l]).state = .off) :
    Goes s (modPath (fun e => Path.dropFrame e l f.blocks) (withLines L s)) := by
  have hm := Path.dropFrame_moves s.env l f.blocks s.path
  have hend0 : (L[l]).heldBlocks = 0 := by
    unfold LinePort.heldBlocks; rcases hend with h | h <;> rw [h]
  have hcap0 : (s.lines[l]).heldBlocks = f.blocks := by unfold LinePort.heldBlocks; rw [hcap]
  refine ⟨⟨fun x => ⟨?_, fun k g hg => ?_⟩, hm.caps, id, id, quiet_withLines hne hoff rfl rfl rfl rfl,
    fun x => ⟨fun k => ?_, Path.dropFrame_sorted _ _ _ x.2.1, Path.dropFrame_heldBack _ _ _ _⟩,
    fun x => ⟨hm.canon x.1, x.2⟩, rfl, rfl, fun h => ⟨h, rfl⟩⟩, hm.time, id⟩
  · have h := receptionBlocks_withLines L l s hne
    have := x.1; have := hm.blocks
    show (withLines L s).receptionBlocks + (Path.dropFrame s.env l f.blocks s.path).downstreamBlocks = 4096
    omega
  · have hg' : (L[k]).reception = .capturing g := hg
    by_cases e : k = l
    · subst e; rw [hg'] at hend; simp at hend
    · rw [hne k e] at hg'; exact x.2 k g hg'
  · show (Path.dropFrame s.env l f.blocks s.path).merge.inFlight[k] = match (L[k]).reception with
      | .capturing f => some f.stamp.tick
      | .idle => none
      | .skipping => none
    rw [Path.dropFrame_inFlight]
    by_cases e : k = l
    · subst e; rw [if_pos rfl]; rcases hend with h | h <;> rw [h]
    · rw [if_neg e, hne k e]; exact x.1 k

/-- `goes_drop` for a state `t` that is the dropped one over its own lines. -/
theorem goes_drop_to {s t : State} (l : Line) (f : PortFrame) (hcap : (s.lines[l]).reception = .capturing f)
    (ht : t = modPath (fun e => Path.dropFrame e l f.blocks) (withLines t.lines s))
    (hne : ∀ k, k ≠ l → t.lines[k] = s.lines[k])
    (hend : (t.lines[l]).reception = .idle ∨ (t.lines[l]).reception = .skipping)
    (hoff : (s.lines[l]).state = .off → (t.lines[l]).state = .off) : Goes s t := by
  have h := goes_drop t.lines l f s hcap hne hend hoff
  rwa [← ht] at h

/-- A change of reception between IDLE and SKIPPING. -/
theorem goes_reception (L : Vector LinePort 8) (l : Line) (s : State)
    (hcap : (s.lines[l]).reception = .idle ∨ (s.lines[l]).reception = .skipping)
    (hne : ∀ k, k ≠ l → L[k] = s.lines[k])
    (hend : (L[l]).reception = .idle ∨ (L[l]).reception = .skipping)
    (hoff : (s.lines[l]).state = .off → (L[l]).state = .off) : Goes s (withLines L s) := by
  have hend0 : (L[l]).heldBlocks = 0 := by
    unfold LinePort.heldBlocks; rcases hend with h | h <;> rw [h]
  have hcap0 : (s.lines[l]).heldBlocks = 0 := by
    unfold LinePort.heldBlocks; rcases hcap with h | h <;> rw [h]
  refine ⟨⟨fun x => ⟨?_, fun k g hg => ?_⟩, id, id, id, quiet_withLines hne hoff rfl rfl rfl rfl,
    fun x => ⟨fun k => ?_, x.2⟩, id, rfl, rfl, fun h => ⟨h, rfl⟩⟩, Nat.le_refl _, id⟩
  · have h := receptionBlocks_withLines L l s hne
    have := x.1
    show (withLines L s).receptionBlocks + s.path.downstreamBlocks = 4096
    omega
  · have hg' : (L[k]).reception = .capturing g := hg
    by_cases e : k = l
    · subst e; rw [hg'] at hend; simp at hend
    · rw [hne k e] at hg'; exact x.2 k g hg'
  · show s.path.merge.inFlight[k] = match (L[k]).reception with
      | .capturing f => some f.stamp.tick
      | .idle => none
      | .skipping => none
    have h := x.1 k
    by_cases e : k = l
    · subst e; rw [h]; rcases hend with h1 | h1 <;> rcases hcap with h2 | h2 <;> rw [h1, h2]
    · rw [hne k e]; exact h

/-- `goes_reception` for a state `t` that is `s` with other lines. -/
theorem goes_reception_to {s t : State} (l : Line)
    (hcap : (s.lines[l]).reception = .idle ∨ (s.lines[l]).reception = .skipping) (ht : t = withLines t.lines s)
    (hne : ∀ k, k ≠ l → t.lines[k] = s.lines[k])
    (hend : (t.lines[l]).reception = .idle ∨ (t.lines[l]).reception = .skipping)
    (hoff : (s.lines[l]).state = .off → (t.lines[l]).state = .off) : Goes s t := by
  have h := goes_reception t.lines l s hcap hne hend hoff
  rwa [← ht] at h

theorem abortFrame_goes (l : Line) (s : State) : Goes s (abortFrame l s) := by
  unfold abortFrame
  split
  · exact .refl s
  · rename_i h
    exact goes_reception _ l s (.inr h) (fun k hk => updAt_ne _ _ hk) (.inl (by rw [updAt_self]))
      (by rw [updAt_self]; exact id)
  · rename_i f h
    refine goes_drop_to l f h rfl (fun k hk => ?_) (.inl ?_) ?_
    · rw [modPath_get, modLineCounters_get, if_neg hk, modLine_get, if_neg hk]
    · rw [modPath_get, modLineCounters_get, if_pos rfl, modLine_get, if_pos rfl]
    · rw [modPath_get, modLineCounters_get, if_pos rfl, modLine_get, if_pos rfl]; exact id

@[simp] theorem abortFrame_state (l k : Line) (s : State) :
    ((abortFrame l s).lines[k]).state = (s.lines[k]).state := by
  unfold abortFrame
  split
  · rfl
  · rw [modLine_get]; split
    · rename_i e; subst e; rfl
    · rfl
  · rw [modPath_get, modLineCounters_get, modLine_get, modLine_get, if_pos rfl]
    split
    · rename_i e; subst e; rfl
    · rfl

theorem goDown_goes (l : Line) (r : LineReason) (s : State) : Goes s (goDown l r s) := by
  have h : ∀ st, (s.lines[l]).state = st → st ≠ .off →
      Goes s (changeLine l .down r 0 (modLine l (fun p => { p with epochErrors := 0 }) (abortFrame l s))) := by
    intro st hst hne
    refine ((abortFrame_goes l s).trans (goes_modLine l _ _ rfl id)).trans (changeLine_goes l _ _ _ _ ?_)
    rw [modLine_get, if_pos rfl]
    show ((abortFrame l s).lines[l]).state ≠ .off
    rw [abortFrame_state, hst]; exact hne
  unfold goDown
  split
  · exact .refl s
  · exact .refl s
  · exact h _ ‹_› (by simp)
  · exact h _ ‹_› (by simp)
  · exact h _ ‹_› (by simp)

theorem trySettle_goes (l : Line) (s : State) : Goes s (trySettle l s) := by
  unfold trySettle; dsimp only
  split
  · rename_i h
    have hne : (s.lines[l]).state ≠ .off := by rw [h.1]; simp
    split
    · exact changeLine_goes l _ _ _ s hne
    · exact (changeLine_goes l _ _ _ s hne).trans (goes_modLine l _ _ rfl id)
  · exact .refl s

theorem losChanged_goes (l : Line) (s : State) : Goes s (losChanged l s) := by
  unfold losChanged; split
  · exact goDown_goes l _ s
  · exact trySettle_goes l s

theorem sampleLos_fixed (raw : Bool) (p : LinePort) :
    (sampleLos raw p).reception = p.reception ∧ (sampleLos raw p).state = p.state := by
  unfold sampleLos; split <;> exact ⟨rfl, rfl⟩

theorem foldl_goes {α : Type} (f : State → α → State) (l : List α) (s : State) (h : ∀ s a, a ∈ l → Goes s (f s a)) :
    Goes s (l.foldl f s) :=
  foldl_keeps (fun t => Goes s t) f l s (fun t a ha ht => ht.trans (h t a ha)) (.refl s)

theorem modDraws_goes (n : Nat) (s : State) : Goes s { s with path := { s.path with draws := n } } :=
  goes_path s (Path.modDraws_moves n s.path) rfl

theorem losSample_goes (levels : BitVec 8) (s : State) : Goes s (losSample levels s) := by
  unfold losSample; dsimp only
  refine Goes.trans (Goes.trans (Goes.trans ?_ (goes_mapLines _ _ (fun l p => (sampleLos_fixed _ p).1)
    (fun l p h => by rw [(sampleLos_fixed _ p).2]; exact h))) (modDraws_goes _ _))
    (foldl_goes _ _ _ fun t l _ => losChanged_goes l t)
  exact goes_plain (t := { s with losPhase := some 0 }) rfl rfl rfl rfl rfl rfl id rfl rfl rfl id

theorem codeErrorAt_goes (l : Line) (s : State) : Goes s (codeErrorAt l s) := by
  unfold codeErrorAt; split
  · exact .refl s
  · exact goes_modLine l _ s rfl id

theorem errorTest_goes (l : Line) (s : State) : Goes s (errorTest l s) := by
  unfold errorTest
  split
  · rename_i new reason h
    refine changeLine_goes l _ _ _ s fun hs => ?_
    unfold errorVerdict at h; rw [hs] at h; simp at h
  · exact .refl s

theorem clearEpochErrors_goes (s : State) : Goes s (clearEpochErrors s) :=
  goes_mapLines _ s (fun l p => by split <;> rfl) (fun l p h => by rw [if_pos h]; exact h)

/-! ### Frames in reception -/

/-- A line whose frame goes on, or starts, with the blocks that `q` granted to it. -/
theorem goes_frame (L : Vector LinePort 8) (l : Line) (f : PortFrame) (s : State) {q : Path} {d : Int}
    (hq : Path.Moves d s.path q) (hf : (L[l]).reception = .capturing f)
    (hne : ∀ k, k ≠ l → L[k] = s.lines[k])
    (hd : (f.blocks : Int) + d = (s.lines[l]).heldBlocks)
    (hfit : s.BlocksConserved → f.stored ≤ 128 * f.blocks)
    (hoff : (s.lines[l]).state = .off → (L[l]).state = .off)
    (hm : s.MergeLawful →
      (∀ k : Line, q.merge.inFlight[k] = if k = l then some f.stamp.tick else s.path.merge.inFlight[k])
        ∧ q.Sorted ∧ q.HeldBack) : Goes s { s with lines := L, path := q } := by
  have hfb : (L[l]).heldBlocks = f.blocks := by unfold LinePort.heldBlocks; rw [hf]
  refine ⟨⟨fun x => ⟨?_, fun k g hg => ?_⟩, hq.caps, id, id, quiet_withLines hne hoff rfl rfl rfl rfl,
    fun x => ⟨fun k => ?_, (hm x).2⟩, fun x => ⟨hq.canon x.1, x.2⟩, rfl, rfl, fun h => ⟨h, rfl⟩⟩, hq.time, id⟩
  · have h := receptionBlocks_withLines L l s hne
    have := x.1; have := hq.blocks
    show (withLines L s).receptionBlocks + q.downstreamBlocks = 4096
    omega
  · have hg' : (L[k]).reception = .capturing g := hg
    by_cases e : k = l
    · subst e; rw [hf] at hg'; cases hg'; exact hfit x
    · rw [hne k e] at hg'; exact x.2 k g hg'
  · show q.merge.inFlight[k] = match (L[k]).reception with
      | .capturing f => some f.stamp.tick
      | .idle => none
      | .skipping => none
    rw [(hm x).1 k]
    by_cases e : k = l
    · subst e; rw [if_pos rfl, hf]
    · rw [if_neg e, hne k e]; exact x.1 k

/-- `goes_frame` for a state `t` that is `s` with other lines and another path. -/
theorem goes_frame_to {s t : State} (l : Line) (f : PortFrame) {d : Int} (hq : Path.Moves d s.path t.path)
    (ht : t = { s with lines := t.lines, path := t.path }) (hf : (t.lines[l]).reception = .capturing f)
    (hne : ∀ k, k ≠ l → t.lines[k] = s.lines[k]) (hd : (f.blocks : Int) + d = (s.lines[l]).heldBlocks)
    (hfit : s.BlocksConserved → f.stored ≤ 128 * f.blocks)
    (hoff : (s.lines[l]).state = .off → (t.lines[l]).state = .off)
    (hm : s.MergeLawful →
      (∀ k : Line, t.path.merge.inFlight[k] = if k = l then some f.stamp.tick else s.path.merge.inFlight[k])
        ∧ t.path.Sorted ∧ t.path.HeldBack) : Goes s t := by
  have h := goes_frame t.lines l f s hq hf hne hd hfit hoff hm
  rwa [← ht] at h

/-- The frame in reception is replaced by a later state of itself with the same blocks. -/
theorem setFrame_goes (l : Line) (f g : PortFrame) (s : State) (h : (s.lines[l]).reception = .capturing f)
    (hb : g.blocks = f.blocks) (ht : g.stamp = f.stamp)
    (hfit : f.stored ≤ 128 * f.blocks → g.stored ≤ 128 * g.blocks) : Goes s (setFrame l g s) := by
  have hh : (s.lines[l]).heldBlocks = f.blocks := by unfold LinePort.heldBlocks; rw [h]
  refine goes_frame (updAt s.lines l _) l g s (d := 0) (Path.Moves.refl s.path) (by rw [updAt_self])
    (fun k hk => updAt_ne _ _ hk) (by rw [hh, hb]; simp) (fun x => hfit (x.2 l f h))
    (by rw [updAt_self]; exact id) (fun x => ⟨fun k => ?_, x.2.1, x.2.2⟩)
  by_cases e : k = l
  · subst e; have := x.1 k; rw [h] at this; rw [if_pos rfl, this, ht]
  · rw [if_neg e]

theorem frameStartAt_goes (l : Line) (s : State) : Goes s (frameStartAt l s) := by
  have hskip : ∀ c, (s.lines[l]).reception = .idle →
      Goes s (modLine l (fun p => { p with reception := .skipping }) (modLineCounters l c s)) := by
    intro c h
    refine goes_reception_to l (.inl h) rfl (fun k hk => ?_) (.inr ?_) ?_
    · rw [modLine_get, if_neg hk, modLineCounters_get, if_neg hk]
    · rw [modLine_get, if_pos rfl]
    · rw [modLine_get, if_pos rfl, modLineCounters_get, if_pos rfl]; exact id
  unfold frameStartAt; dsimp only
  split
  · exact .refl s
  · exact .refl s
  · rename_i hidle
    have hheld : (s.lines[l]).heldBlocks = 0 := by unfold LinePort.heldBlocks; rw [hidle]
    have hgo : s.path.hasBlock = true →
        Goes s (modPath (fun e p => Path.enterInFlight l e.now (Path.grantBlock p))
          (modLine l (fun q => { q with reception := .capturing (newFrame s.stamp (q.state == .degraded)) }) s)) := by
      intro hb
      refine goes_frame_to l (newFrame s.stamp ((s.lines[l]).state == .degraded))
        ((Path.grantBlock_moves s.path hb).trans (Path.enterInFlight_moves l s.now _)) rfl
        (by rw [modPath_get, modLine_get, if_pos rfl])
        (fun k hk => by rw [modPath_get, modLine_get, if_neg hk]) (by rw [hheld]; simp [newFrame])
        (fun _ => by simp [newFrame]) (by rw [modPath_get, modLine_get, if_pos rfl]; exact id)
        (fun x => ⟨fun k => ?_, x.2.1, ?_⟩)
      · exact Path.enterInFlight_get _ _ _ _
      · have hn : s.path.merge.inFlight[l] = none := by have := x.1 l; rw [hidle] at this; exact this
        exact Path.enterInFlight_heldBack l _ (p := Path.grantBlock s.path) hn x.2.2
    split
    · exact .refl s
    · exact hskip _ hidle
    · exact hskip _ hidle
    · split
      · exact hgo ‹_›
      · exact hskip _ hidle
    · split
      · exact hgo ‹_›
      · exact hskip _ hidle

theorem setFrame_get (l k : Line) (f : PortFrame) (s : State) :
    (setFrame l f s).lines[k] = if k = l then { s.lines[l] with reception := .capturing f } else s.lines[k] :=
  modLine_get _ _ _ _

theorem storeByte_goes (l : Line) (f : PortFrame) (b : Byte) (s : State)
    (h : (s.lines[l]).reception = .capturing f) : Goes s (storeByte l f b s) := by
  have hh : (s.lines[l]).heldBlocks = f.blocks := by unfold LinePort.heldBlocks; rw [h]
  unfold storeByte; dsimp only
  split
  · exact setFrame_goes l f _ s h rfl rfl id
  · rename_i hcut
    rw [Bool.or_eq_true, not_or] at hcut
    split
    · split
      · rename_i hb
        refine goes_frame_to l
          { f with bytes := f.bytes ++ [b], blocks := f.blocks + 1, stored := f.stored + 1 }
          (Path.grantBlock_moves s.path hb) rfl (by rw [setFrame_get, if_pos rfl])
          (fun k hk => by rw [setFrame_get, if_neg hk]; rfl)
          (by rw [hh]; push_cast; ring) (fun x => ?_) (by rw [setFrame_get, if_pos rfl]; exact id)
          (fun x => ⟨fun k => ?_, x.2.1, x.2.2⟩)
        · have := x.2 l f h; dsimp only; omega
        · by_cases e : k = l
          · subst e; have := x.1 k; rw [h] at this; rw [if_pos rfl]; exact this
          · rw [if_neg e]; rfl
      · exact (setFrame_goes l f { f with bytes := f.bytes ++ [b], cut := true } s h rfl rfl id).trans
          (goes_modLineCounters l _ _)
    · rename_i hn
      refine setFrame_goes l f _ s h rfl rfl fun hfit => ?_
      dsimp only
      have h1 : decide (s.settings.captureLen l ≤ f.stored) = false := Bool.eq_false_iff.mpr hcut.2
      have h2 : f.cut = false := Bool.eq_false_iff.mpr hcut.1
      have h3 : f.stored < s.settings.captureLen l := by have := of_decide_eq_false h1; omega
      unfold needsBlock at hn
      rw [h2] at hn
      rw [decide_eq_true h3, Bool.not_false, Bool.true_and, Bool.true_and] at hn
      have h4 : ¬ Config.blockBytes * f.blocks ≤ f.stored := fun h => hn (decide_eq_true h)
      unfold Config.blockBytes at h4
      omega

/-- The capturing frame that a byte leaves behind, when the byte does not end it. -/
theorem storeByte_reception (l : Line) (f : PortFrame) (b : Byte) (s : State) :
    ∃ g, ((storeByte l f b s).lines[l]).reception = .capturing g := by
  unfold storeByte; dsimp only
  split
  · exact ⟨_, by rw [setFrame_get, if_pos rfl]⟩
  · split
    · split
      · exact ⟨_, by rw [setFrame_get, if_pos rfl]⟩
      · refine ⟨{ f with bytes := f.bytes ++ [b], cut := true }, ?_⟩
        rw [modLineCounters_eq, modLine_get, if_pos rfl, setFrame_get, if_pos rfl]
    · exact ⟨_, by rw [setFrame_get, if_pos rfl]⟩

theorem endOversize_goes (l : Line) (f : PortFrame) (s : State) (h : (s.lines[l]).reception = .capturing f) :
    Goes s (endOversize l f s) := by
  unfold endOversize
  refine goes_drop_to l f h rfl (fun k hk => ?_) (.inr ?_) ?_
  · rw [modPath_get, modLineCounters_get, if_neg hk, modLine_get, if_neg hk]
  · rw [modPath_get, modLineCounters_get, if_pos rfl, modLine_get, if_pos rfl]
  · rw [modPath_get, modLineCounters_get, if_pos rfl, modLine_get, if_pos rfl]; exact id

theorem takeByte_goes (l : Line) (f : PortFrame) (b : Byte) (s : State)
    (h : (s.lines[l]).reception = .capturing f) : Goes s (takeByte l f b s) := by
  unfold takeByte
  split
  · split
    · dsimp only
      have h1 := (modDraws_goes (s.path.draws + 1) s).trans
        (storeByte_goes l f b { s with path := { s.path with draws := s.path.draws + 1 } } h)
      split
      · exact h1.trans (endOversize_goes l _ _ ‹_›)
      · exact h1
      · exact h1
    · exact endOversize_goes l f s h
  · exact storeByte_goes l f b s h

theorem feed_goes (l : Line) (bs : List Byte) (s : State) : Goes s (feed l bs s) := by
  induction bs generalizing s with
  | nil => exact .refl s
  | cons b bs ih =>
    unfold feed
    split
    · exact (takeByte_goes l _ b s ‹_›).trans (ih _)
    · exact .refl s
    · exact .refl s

theorem blocksFor_le {n k : Nat} (h : n ≤ 128 * k) : blocksFor n ≤ k := by
  unfold blocksFor Config.blockBytes; omega

theorem classify_line (c : Settings) (l : Line) (legB : Bool) (f : PortFrame) {r : Classified}
    (h : classify c l legB f = some r) : r.line = l ∧ (f.stored ≤ 128 * f.blocks → r.blocks ≤ f.blocks) := by
  unfold classify at h
  dsimp only at h
  split at h
  · exact absurd h (by simp)
  · split at h
    · exact absurd h (by simp)
    · cases h
      refine ⟨rfl, fun hs => blocksFor_le ?_⟩
      have : (capturedBytes c ‹Stream› f).length ≤ f.stored := by
        unfold capturedBytes; rw [List.length_take]; omega
      omega

/-- The judgement of a good frame, from the state in which the frame was still in reception. -/
theorem goodFrame_goes (l : Line) (f : PortFrame) (s : State) (h : (s.lines[l]).reception = .capturing f) :
    Goes s (goodFrame l f (modLine l (fun p => { p with reception := .idle }) s)) := by
  unfold goodFrame; dsimp only
  have hh : (s.lines[l]).heldBlocks = f.blocks := by unfold LinePort.heldBlocks; rw [h]
  split
  · rename_i r hr
    obtain ⟨hline, hblk⟩ := classify_line _ _ _ _ hr
    subst hline
    -- the state is the lines with the frame gone, and the path after the trim and the arrival
    have key : ∀ t : State, t = { s with lines := t.lines, path := t.path } →
        t.path = Path.arrive s.env r (Path.returnBlocks (f.blocks - r.blocks) s.path) →
        (∀ k, k ≠ r.line → t.lines[k] = s.lines[k]) → (t.lines[r.line]).reception = .idle →
        (t.lines[r.line]).state = (s.lines[r.line]).state → Goes s t := by
      intro t ht hp hne hi hst
      have hm : Path.Moves (((f.blocks - r.blocks : Nat) : Int) + r.blocks) s.path t.path := by
        rw [hp]; exact (Path.returnBlocks_moves _ _).trans (Path.arrive_moves _ _ _)
      rw [ht]
      refine ⟨⟨fun x => ⟨?_, fun k g hg => ?_⟩, hm.caps, id, id,
        quiet_withLines hne (fun e => hst.trans e) rfl rfl rfl rfl,
        fun x => ⟨fun k => ?_, ?_, ?_⟩, fun x => ⟨hm.canon x.1, x.2⟩, rfl, rfl, fun h => ⟨h, rfl⟩⟩, hm.time, id⟩
      · have h1 := receptionBlocks_withLines t.lines r.line s hne
        have h2 : (t.lines[r.line]).heldBlocks = 0 := by unfold LinePort.heldBlocks; rw [hi]
        have h3 := hblk (x.2 r.line f h)
        have h4 := x.1; have h5 := hm.blocks
        show (withLines t.lines s).receptionBlocks + t.path.downstreamBlocks = 4096
        omega
      · have hg' : (t.lines[k]).reception = .capturing g := hg
        by_cases e : k = r.line
        · rw [e, hi] at hg'; simp at hg'
        · rw [hne k e] at hg'; exact x.2 k g hg'
      · show t.path.merge.inFlight[k] = match (t.lines[k]).reception with
            | .capturing f => some f.stamp.tick
            | .idle => none
            | .skipping => none
        rw [hp, Path.arrive_inFlight]
        by_cases e : k = r.line
        · rw [if_pos e, e, hi]
        · rw [if_neg e, hne k e]; exact x.1 k
      · show t.path.Sorted
        rw [hp]; exact Path.arrive_sorted _ _ (p := Path.returnBlocks _ _) x.2.1
      · show t.path.HeldBack
        rw [hp]; exact Path.arrive_heldBack _ _ _
    split
    · refine key _ rfl rfl (fun k hk => ?_) ?_ ?_
      · rw [modPath_get, modLineCounters_get, if_neg hk, modPath_get, modLineCounters_get, if_neg hk, modLine_get,
          if_neg hk]
      · rw [modPath_get, modLineCounters_get, if_pos rfl, modPath_get, modLineCounters_get, if_pos rfl, modLine_get,
          if_pos rfl]
      · rw [modPath_get, modLineCounters_get, if_pos rfl, modPath_get, modLineCounters_get, if_pos rfl, modLine_get,
          if_pos rfl]
    · refine key _ rfl rfl (fun k hk => ?_) ?_ ?_
      · rw [modPath_get, modPath_get, modLineCounters_get, if_neg hk, modLine_get, if_neg hk]
      · rw [modPath_get, modPath_get, modLineCounters_get, if_pos rfl, modLine_get, if_pos rfl]
      · rw [modPath_get, modPath_get, modLineCounters_get, if_pos rfl, modLine_get, if_pos rfl]
  · refine goes_drop_to l f h rfl (fun k hk => ?_) (.inl ?_) ?_
    · rw [modPath_get, modLineCounters_get, if_neg hk, modLineCounters_get, if_neg hk, modLine_get, if_neg hk]
    · rw [modPath_get, modLineCounters_get, if_pos rfl, modLineCounters_get, if_pos rfl, modLine_get, if_pos rfl]
    · rw [modPath_get, modLineCounters_get, if_pos rfl, modLineCounters_get, if_pos rfl, modLine_get, if_pos rfl]
      exact id

theorem frameEndAt_goes (l : Line) (clean : Bool) (s : State) : Goes s (frameEndAt l clean s) := by
  unfold frameEndAt; dsimp only
  split
  · exact .refl s
  · rename_i h
    exact goes_reception _ l s (.inr h) (fun k hk => updAt_ne _ _ hk) (.inl (by rw [updAt_self]))
      (by rw [updAt_self]; exact id)
  · rename_i f h
    have hd : ∀ c, Goes s (modPath (fun e => Path.dropFrame e l f.blocks)
        (modLineCounters l c (modLine l (fun p => { p with reception := .idle }) s))) := by
      intro c
      refine goes_drop_to l f h rfl (fun k hk => ?_) (.inl ?_) ?_
      · rw [modPath_get, modLineCounters_get, if_neg hk, modLine_get, if_neg hk]
      · rw [modPath_get, modLineCounters_get, if_pos rfl, modLine_get, if_pos rfl]
      · rw [modPath_get, modLineCounters_get, if_pos rfl, modLine_get, if_pos rfl]; exact id
    split
    · exact hd _
    · split
      · exact hd _
      · exact goodFrame_goes l f s h

end Sys2Proof.Machine.State
end

