-- ==== Sys2Proof/Laws/CageKeeps.lean ====
section
/-!
SUPPORT. The operations of the cage side and of the control window keep the laws of Safety.lean.
-/
namespace Sys2Proof.Machine.State

/-! ## The drive and the moves of the Scale Controller -/

theorem mayDrive_iff (sc : ScaleController) :
    sc.mayDrive = true ↔ (sc.state = .align ∨ sc.state = .locked) ∧ sc.mutedProfile = false ∧ sc.mutedClash = false := by
  unfold ScaleController.mayDrive ScaleController.muted
  cases sc.state <;> cases sc.mutedProfile <;> cases sc.mutedClash <;> decide

theorem fallInWindow_eq (now : Nat) (b : CageBus) : b.fallInWindow now
    = { b with window := (b.fallInWindow now).window, fallRef := (b.fallInWindow now).fallRef } := by
  unfold CageBus.fallInWindow; split <;> [(split <;> rfl); rfl]

theorem lineFell_eq (now : Nat) (b : CageBus) : b.lineFell now = { b with
    releasedSinceClose := true, window := (b.lineFell now).window, fallRef := (b.lineFell now).fallRef } := by
  unfold CageBus.lineFell; rw [fallInWindow_eq]

/-- What a release of the drive can change in the port (R18, R20). -/
theorem releaseDrive_eq (now : Nat) (b : CageBus) : b.releaseDrive now = { b with
    drive := none, asserting := (b.releaseDrive now).asserting, pullFails := (b.releaseDrive now).pullFails,
    releasedSinceClose := (b.releaseDrive now).releasedSinceClose,
    window := (b.releaseDrive now).window, fallRef := (b.releaseDrive now).fallRef } := by
  unfold CageBus.releaseDrive
  split
  · dsimp only; split
    · rw [lineFell_eq]
    · rfl
  · rename_i h; rw [← h]

@[simp] theorem releaseDrive_drive (now : Nat) (b : CageBus) : (b.releaseDrive now).drive = none := by
  rw [releaseDrive_eq]

@[simp] theorem releaseDrive_watch (now : Nat) (b : CageBus) : (b.releaseDrive now).watch = b.watch := by
  rw [releaseDrive_eq]

theorem dropDrive_eq (s : State) :
    dropDrive s = { s with bus := if s.sc.mayDrive then s.bus else s.bus.releaseDrive s.now } := by
  unfold dropDrive; split <;> rfl

/-- After the release of R20 the drive is lawful, whatever it was. -/
theorem dropDrive_drive (s : State) (h : (dropDrive s).bus.drive.isSome = true) :
    (s.sc.state = .align ∨ s.sc.state = .locked) ∧ s.sc.mutedProfile = false ∧ s.sc.mutedClash = false := by
  unfold dropDrive at h
  split at h
  · exact (mayDrive_iff s.sc).mp ‹_›
  · exact absurd h (by simp [releaseDrive])

@[simp] theorem dropDrive_watch (s : State) : (dropDrive s).bus.watch = s.bus.watch := by
  unfold dropDrive; split <;> simp [releaseDrive]

@[simp] theorem dropDrive_path (s : State) : (dropDrive s).path = s.path := by rw [dropDrive_eq]
@[simp] theorem dropDrive_lines (s : State) : (dropDrive s).lines = s.lines := by rw [dropDrive_eq]
@[simp] theorem dropDrive_settings (s : State) : (dropDrive s).settings = s.settings := by rw [dropDrive_eq]
@[simp] theorem dropDrive_pending (s : State) : (dropDrive s).pending = s.pending := by rw [dropDrive_eq]
@[simp] theorem dropDrive_ctl (s : State) : (dropDrive s).ctl = s.ctl := by rw [dropDrive_eq]
@[simp] theorem dropDrive_tb (s : State) : (dropDrive s).tb = s.tb := by rw [dropDrive_eq]
@[simp] theorem dropDrive_sc (s : State) : (dropDrive s).sc = s.sc := by rw [dropDrive_eq]
@[simp] theorem dropDrive_roster (s : State) : (dropDrive s).roster = s.roster := by rw [dropDrive_eq]
@[simp] theorem dropDrive_cage (s : State) : (dropDrive s).cage = s.cage := by rw [dropDrive_eq]
@[simp] theorem dropDrive_resetLow (s : State) : (dropDrive s).resetLow = s.resetLow := by rw [dropDrive_eq]
@[simp] theorem dropDrive_losPhase (s : State) : (dropDrive s).losPhase = s.losPhase := by rw [dropDrive_eq]

/-- A change of the Scale Controller alone, followed by the release of a drive that is no longer lawful. -/
theorem dropDrive_goes (sc : ScaleController) (s : State)
    (hq : sc.state = .quiet ∨ s.ctl.locked = true ∨ s.sc.state ≠ .quiet)
    (ha : s.sc.inCage = true → sc.inCage = true)
    (hw : s.bus.watch = .off ∨ s.sc.state ≠ .listen ∨ sc.state = .listen) : Goes s (dropDrive { s with sc := sc }) := by
  refine goes_cage (by simp) (by simp) (by simp) (by simp) (by simp) (by simp)
    (fun x => ⟨fun h => by simpa using dropDrive_drive _ h, fun h => ?_⟩)
    (fun x => ?_) (fun x h => ?_) (by simpa using ha)
  · simp only [dropDrive_watch, dropDrive_sc] at h ⊢
    rcases hw with e | e | e
    · exact absurd e h
    · exact absurd (x.2 h) e
    · exact e
  · unfold DateBounded; rw [dropDrive_tb, dropDrive_ctl, dropDrive_settings]; exact x
  · simp only [dropDrive_ctl] at h
    obtain ⟨a, b, c⟩ := x h
    refine ⟨?_, by simpa using b, by simpa using c⟩
    simp only [dropDrive_sc]
    rcases hq with e | e | e
    · exact e
    · rw [h] at e; exact absurd e (by simp)
    · exact absurd a e

/-- A move to ALIGN, LOCKED or HELD, from a state outside QUIET, with no pulse watch. -/
theorem moveTo_goes (new : ScaleState) (r : TimeReason) (peer : Nat) (prev : BitVec 48) (s : State)
    (hn : ({ s.sc with state := new } : ScaleController).inCage = true) (hq : s.sc.state ≠ .quiet)
    (hw : s.bus.watch = .off ∨ s.sc.state ≠ .listen) : Goes s (moveTo new r peer prev s) :=
  (dropDrive_goes _ s (.inr (.inr hq)) (fun _ => hn) (by rcases hw with h | h <;> simp [h])).trans
    (emitTime_goes _ _ _ _ _ _)

/-- A change of the Scale Controller's counts, of the counters and of the port outside its drive. -/
theorem counts_goes {s t : State} (hp : t.path = s.path) (hl : t.lines = s.lines) (hs : t.settings = s.settings)
    (hq : t.pending = s.pending) (hk : t.ctl = s.ctl) (ht : t.tb = s.tb) (hd : t.bus.drive = s.bus.drive)
    (h1 : t.sc.state = s.sc.state) (h2 : t.sc.mutedProfile = s.sc.mutedProfile)
    (h3 : t.sc.mutedClash = s.sc.mutedClash) (hw : t.bus.watch ≠ .off → s.bus.watch ≠ .off) : Goes s t :=
  goes_plain hp hl hs hq (by rw [hk]) ht (by rw [hd]; exact id) h1 h2 h3 hw

theorem leaveListen_goes (s : State) : Goes s (leaveListen s) :=
  counts_goes rfl rfl rfl rfl rfl rfl rfl rfl rfl rfl fun h => absurd rfl h

theorem found_goes (s : State) (h : s.sc.state ≠ .quiet) : Goes s (found s) :=
  Goes.trans (counts_goes (t := leaveListen { s with sc := s.sc.clearRuns }) rfl rfl rfl rfl rfl rfl rfl rfl rfl rfl
      fun h => absurd rfl h)
    (moveTo_goes _ _ _ _ _ rfl h (.inl rfl))

/-- A change of the epoch number alone. -/
theorem epoch_goes (n : BitVec 48) (s : State) : Goes s { s with tb := { s.tb with epoch := n } } :=
  goes_cage rfl rfl rfl rfl rfl rfl id id id id

theorem adopt_goes (j : Station) (n : BitVec 48) (s : State) (h : s.sc.state ≠ .quiet) : Goes s (adopt j n s) :=
  ((epoch_goes n s).trans
    (counts_goes (t := leaveListen { s with sc := s.sc.clearRuns, tb := { s.tb with epoch := n } })
      rfl rfl rfl rfl rfl rfl rfl rfl rfl rfl fun h => absurd rfl h)).trans
    (moveTo_goes _ _ _ _ _ rfl h (.inl rfl))

theorem inScale_awake {sc : ScaleController} (h : sc.inScale = true) : sc.state ≠ .quiet := by
  intro e; unfold ScaleController.inScale at h; rw [e] at h; exact absurd h (by decide)

theorem inScale_not_listen {sc : ScaleController} (h : sc.inScale = true) : sc.state ≠ .listen := by
  intro e; unfold ScaleController.inScale at h; rw [e] at h; exact absurd h (by decide)

theorem inCage_awake {sc : ScaleController} (h : sc.inCage = true) : sc.state ≠ .quiet ∧ sc.state ≠ .listen := by
  unfold ScaleController.inCage ScaleController.inScale at h
  constructor <;> (intro e; rw [e] at h; exact absurd h (by decide))

theorem enterHeld_goes (r : TimeReason) (s : State) (h : s.sc.inScale = true) : Goes s (enterHeld r s) := by
  unfold enterHeld
  refine Goes.trans ?_ (moveTo_goes _ _ _ _ _ rfl (inScale_awake h) (.inr (inScale_not_listen h)))
  exact counts_goes rfl rfl rfl rfl rfl rfl rfl rfl rfl rfl id

theorem takeDriveFault_goes (s : State) : Goes s (takeDriveFault s) := by
  unfold takeDriveFault; split
  · exact enterHeld_goes _ s ‹_›
  · exact .refl s

theorem renumber_goes (n : BitVec 48) (s : State) : Goes s { s with tb := s.tb.renumber n } := by
  unfold TimeBase.renumber; split
  · exact epoch_goes n s
  · exact .refl s

theorem renumberTo_goes (j : Station) (n : BitVec 48) (s : State) : Goes s (renumberTo j n s) := by
  unfold renumberTo
  refine Goes.trans ((renumber_goes n s).trans ?_) (emitTime_goes _ _ _ _ _ _)
  exact counts_goes rfl rfl rfl rfl rfl rfl rfl rfl rfl rfl id

/-- A change of the muted reasons. -/
theorem afterMuting_goes (added : Bool) (sc : ScaleController) (s : State) (h : sc.state = s.sc.state) :
    Goes s (afterMuting added { s with sc := sc }) := by
  unfold afterMuting
  refine Goes.trans (dropDrive_goes sc s ?_ (by rw [inCage_congr h]; exact id) ?_) (emitTime_goes _ _ _ _ _ _)
  · rw [h]
    by_cases e : s.sc.state = .quiet
    · exact .inl e
    · exact .inr (.inr e)
  · rw [h]
    by_cases e : s.sc.state = .listen
    · exact .inr (.inr e)
    · exact .inr (.inl e)

theorem profileTest_goes (s : State) : Goes s (profileTest s) := by
  unfold profileTest; dsimp only; split
  · exact .refl s
  · exact afterMuting_goes _ _ s rfl

theorem clashTest_goes (s : State) : Goes s (clashTest s) := counts_goes rfl rfl rfl rfl rfl rfl rfl rfl rfl rfl id

theorem takeClash_goes (s : State) : Goes s (takeClash s) := by
  unfold takeClash; dsimp only; split
  · exact afterMuting_goes _ _ s rfl
  · exact counts_goes rfl rfl rfl rfl rfl rfl rfl rfl rfl rfl id

/-! ## The roster -/

theorem ageStation_goes (j : Station) (s : State) : Goes s (ageStation j s) := by
  unfold ageStation; dsimp only; split
  · exact (modEntry_goes j _ s).trans (peerCause_goes _)
  · exact modEntry_goes j _ s

theorem silenceAccounting_goes (s : State) : Goes s (silenceAccounting s) :=
  foldl_goes _ _ _ fun t j _ => ageStation_goes j t

theorem rosterTake_goes (n : NoticeContent) (s : State) : Goes s (rosterTake n s) := by
  unfold rosterTake; dsimp only; split
  · exact modEntry_goes _ _ s
  · exact (modEntry_goes _ _ s).trans (peerCause_goes _)

theorem scaleTake_goes (n : NoticeContent) (s : State) : Goes s (scaleTake n s) := by
  unfold scaleTake
  split
  · split
    · rename_i h
      split
      · exact adopt_goes _ _ s (by rw [h]; simp)
      · exact .refl s
    · split
      · exact renumberTo_goes _ _ s
      · exact .refl s
  · exact .refl s

/-! ## The own boundary -/

theorem noteSplit_goes (s : State) : Goes s (noteSplit s) := by
  unfold noteSplit; split
  · split
    · exact .refl s
    · exact counts_goes rfl rfl rfl rfl rfl rfl rfl rfl rfl rfl id
  · exact .refl s

theorem riseInWindow_goes (s : State) : Goes s (riseInWindow s) := by
  unfold riseInWindow; split
  · split
    · exact counts_goes rfl rfl rfl rfl rfl rfl rfl rfl rfl rfl id
    · split
      · split
        · exact .refl s
        · exact noteSplit_goes s
      · exact .refl s
  · exact .refl s

theorem driveAtExpiry_goes (s : State) : Goes s (driveAtExpiry s) := by
  unfold driveAtExpiry
  split
  · rename_i h
    have h1 : Goes s { s with bus := { s.bus with drive := some s.now, asserting := some s.afterFall } } :=
      goes_cage rfl rfl rfl rfl rfl rfl (fun x => ⟨fun _ => (mayDrive_iff s.sc).mp h, x.2⟩) id id id
    dsimp only
    split
    · exact h1.trans (riseInWindow_goes _)
    · exact h1
  · exact .refl s

theorem driveStands_goes (s : State) : Goes s (driveStands s) := by
  unfold driveStands
  split
  · exact .refl s
  · have h1 : Goes s { s with bus := { s.bus with asserting := none, faultReported := false } } :=
      counts_goes rfl rfl rfl rfl rfl rfl rfl rfl rfl rfl id
    dsimp only
    split
    · exact h1.trans (noteSplit_goes _)
    · exact h1

theorem listenWork_goes (s : State) (h : s.sc.state ≠ .quiet) : Goes s (listenWork s) := by
  unfold listenWork; dsimp only
  have h1 : Goes s { s with sc := { s.sc with listen := s.sc.listen + 1 } } :=
    counts_goes rfl rfl rfl rfl rfl rfl rfl rfl rfl rfl id
  split
  · exact h1.trans (found_goes _ h)
  · exact h1

theorem heldWork_goes (s : State) (h : s.sc.state = .held) : Goes s (heldWork s) := by
  have h1 : Goes s { s with sc := s.sc.clearRuns } := counts_goes rfl rfl rfl rfl rfl rfl rfl rfl rfl rfl id
  have hq : s.sc.state ≠ .quiet := by rw [h]; simp
  have hl : s.sc.state ≠ .listen := by rw [h]; simp
  unfold heldWork
  split
  · split
    · exact h1.trans (moveTo_goes _ _ _ _ _ rfl hq (.inr hl))
    · exact .refl s
  · split
    · exact .refl s
    · exact h1.trans (moveTo_goes _ _ _ _ _ rfl hq (.inr hl))

theorem clearPhaseSet_goes (s : State) : Goes s (clearPhaseSet s) := counts_goes rfl rfl rfl rfl rfl rfl rfl rfl rfl rfl id

theorem stateWork_goes (s : State) : Goes s (stateWork s) := by
  unfold stateWork
  split
  · rename_i e; exact listenWork_goes s (by rw [e]; simp)
  · rename_i e; exact heldWork_goes s e
  · exact .refl s
  · exact .refl s
  · exact .refl s

theorem scaleWork_goes (s : State) : Goes s (scaleWork s) := by
  unfold scaleWork
  split
  · exact .refl s
  · exact (((((clashTest_goes s).trans (silenceAccounting_goes _)).trans (profileTest_goes _)).trans
      (stateWork_goes _)).trans (clearPhaseSet_goes _)).trans (driveAtExpiry_goes _)

theorem boundaryWork_goes {s t : State} {w : State → State} (h : w ∈ boundaryWork s) : Goes t (w t) := by
  unfold boundaryWork at h
  rw [List.mem_append, List.mem_map] at h
  rcases h with h | ⟨l, _, rfl⟩
  · split at h
    · exact absurd h (by simp)
    · rw [List.mem_singleton] at h; subst h; exact scaleWork_goes t
  · exact errorTest_goes l t

theorem boundary_goes (s : State) : Goes s { s with tb := s.tb.boundary s.settings } := by
  refine goes_cage rfl rfl rfl rfl rfl rfl id
    (fun x => ⟨fun h => ⟨(x.1 h).1, ?_, ?_⟩, x.2.1, x.2.2.1, (by decide : 0 < 2 ^ 32), x.2.2.2.2⟩) id id
  · show (s.settings.epochLen : Int) - s.settings.slew ≤ (s.settings.epochLen : Int); omega
  · exact Nat.le_add_right s.settings.epochLen s.settings.slew

theorem recordExpiry_goes (s : State) : Goes s (recordExpiry s) := counts_goes rfl rfl rfl rfl rfl rfl rfl rfl rfl rfl id

theorem ownBoundary_goes (s : State) : Goes s (ownBoundary s) := by
  unfold ownBoundary; dsimp only
  refine Goes.trans (Goes.trans (Goes.trans ((boundary_goes s).trans (recordExpiry_goes _)) (modDraws_goes _ _))
    (foldl_goes _ _ _ fun t w hw => ?_)) (clearEpochErrors_goes _)
  exact boundaryWork_goes (mem_freeOrder.mp hw)

/-! ## Steering -/

/-- A change of the Time Base that leaves tick, trim, running flag, length and phase, and lets the fraction stay or
restarts it. -/
theorem goes_date {s t : State} (h : t = { s with tb := t.tb }) (h1 : t.tb.tick = s.tb.tick)
    (h2 : t.tb.running = s.tb.running) (h3 : t.tb.eCur = s.tb.eCur) (h4 : t.tb.trim = s.tb.trim)
    (hp : t.tb.phase = s.tb.phase) (hf : t.tb.frac ≤ s.tb.frac) : Goes s t := by
  have h5 : t.ctl = s.ctl := by rw [h]
  have h6 : t.settings = s.settings := by rw [h]
  have h7 : t.sc = s.sc := by rw [h]
  have h8 : t.lines = s.lines := by rw [h]
  have h9 : t.bus = s.bus := by rw [h]
  refine goes_cage (by rw [h]) h8 h6 (by rw [h]) (by rw [h5]) h1 (fun x => ?_) (fun x => ?_) (fun x => ?_)
    (by rw [h7]; exact id)
  · unfold DriveLawful; rw [h9, h7]; exact x
  · unfold DateBounded; rw [h2, h3, h4, h5, h6, hp]
    exact ⟨x.1, x.2.1, x.2.2.1, Nat.lt_of_le_of_lt hf x.2.2.2.1, x.2.2.2.2⟩
  · unfold QuietBeforeLock; rw [h2, h5, h7, h8]; exact x

theorem limitedLength_bounds (c : Settings) (len : Int) :
    (c.epochLen : Int) - c.slew ≤ TimeBase.limitedLength c len
      ∧ TimeBase.limitedLength c len ≤ c.epochLen + c.slew := by
  unfold TimeBase.limitedLength clampInt
  omega

theorem length_goes (len : Int) (s : State) :
    Goes s { s with tb := { s.tb with eCur := TimeBase.limitedLength s.settings len } } := by
  refine goes_cage rfl rfl rfl rfl rfl rfl id (fun x => ⟨fun h => ⟨(x.1 h).1, ?_⟩, x.2⟩) id id
  exact limitedLength_bounds s.settings len

theorem programLength_goes (len : Int) (s : State) : Goes s (programLength len s) := by
  unfold programLength; dsimp only
  split
  · exact (length_goes len s).trans (ownBoundary_goes _)
  · exact (length_goes len s).trans (goes_date rfl rfl rfl rfl rfl rfl (Nat.le_refl _))

theorem setCount_goes (v : Nat) (s : State) : Goes s (setCount v s) := by
  unfold setCount
  split
  · split
    · exact ownBoundary_goes s
    · exact goes_date rfl rfl rfl rfl rfl rfl (Nat.zero_le _)
  · exact .refl s

theorem phaseSetFrom_goes (pulse : Nat) (s : State) : Goes s (phaseSetFrom pulse s) :=
  (setCount_goes _ s).trans (counts_goes rfl rfl rfl rfl rfl rfl rfl rfl rfl rfl id)

theorem setTrim_goes (v : Int) (s : State) : Goes s { s with tb := s.tb.setTrim v } := by
  refine goes_cage rfl rfl rfl rfl rfl rfl id (fun x => ⟨x.1, ?_⟩) id id
  have low : -858993 ≤ clampInt (-Config.trimLimit) Config.trimLimit v := by
    unfold clampInt Config.trimLimit; omega
  have high : clampInt (-Config.trimLimit) Config.trimLimit v ≤ 858993 := by
    unfold clampInt Config.trimLimit; omega
  refine ⟨low, high, x.2.2.2.1, ?_⟩
  show s.tb.phase * rateOf (clampInt (-Config.trimLimit) Config.trimLimit v) / rateOf s.tb.trim
    < rateOf (clampInt (-Config.trimLimit) Config.trimLimit v)
  have positive : 0 < rateOf (clampInt (-Config.trimLimit) Config.trimLimit v) := by unfold rateOf; omega
  exact Nat.div_lt_of_lt_mul (Nat.mul_lt_mul_of_pos_right x.2.2.2.2 positive)

theorem steer_goes (d : Int) (s : State) : Goes s (steer d s) :=
  (programLength_goes _ s).trans (setTrim_goes _ _)

theorem countGood_goes (d : Int) (s : State) (h : s.sc.inCage = true) : Goes s (countGood d s) := by
  have hq := inCage_awake h
  unfold countGood
  split
  · dsimp only
    have h1 : Goes s { s with sc := { s.sc with good := min (s.sc.good + 1) 255 } } :=
      counts_goes rfl rfl rfl rfl rfl rfl rfl rfl rfl rfl id
    split
    · exact h1.trans (moveTo_goes _ _ _ _ _ rfl hq.1 (.inr hq.2))
    · exact h1
  · exact counts_goes rfl rfl rfl rfl rfl rfl rfl rfl rfl rfl id

theorem testOffset_goes (d : Int) (s : State) (h : s.sc.inCage = true) : Goes s (testOffset d s) := by
  have hq := inCage_awake h
  have h1 : Goes s { s with sc := { s.sc with good := 0 } } := counts_goes rfl rfl rfl rfl rfl rfl rfl rfl rfl rfl id
  unfold testOffset
  split
  · exact h1.trans (moveTo_goes _ _ _ _ _ rfl hq.1 (.inr hq.2))
  · exact .refl s

theorem takeComplete_goes (d : Int) (s : State) : Goes s (takeComplete d s) := by
  have h1 : Goes s (steer d { s with sc := { s.sc with voids := 0, noMarkRun := 0 } }) :=
    Goes.trans (counts_goes (t := { s with sc := { s.sc with voids := 0, noMarkRun := 0 } })
      rfl rfl rfl rfl rfl rfl rfl rfl rfl rfl id) (steer_goes d _)
  unfold takeComplete; dsimp only
  split
  · rename_i e; exact h1.trans (countGood_goes d _ (h1.inCage (by simp [ScaleController.inCage, ScaleController.inScale, e])))
  · rename_i e; exact h1.trans (testOffset_goes d _ (h1.inCage (by simp [ScaleController.inCage, ScaleController.inScale, e])))
  · exact counts_goes rfl rfl rfl rfl rfl rfl rfl rfl rfl rfl id
  · exact .refl s
  · exact .refl s

theorem takeVoid_goes (noMark : Bool) (s : State) : Goes s (takeVoid noMark s) := by
  unfold takeVoid; dsimp only
  split
  · rename_i h
    have h0 := inScale_awake h
    have h1 : ∀ n, Goes s
        { s with sc := { s.sc with good := 0, voids := min (s.sc.voids + 1) 255, noMarkRun := n } } :=
      fun n => counts_goes rfl rfl rfl rfl rfl rfl rfl rfl rfl rfl id
    generalize (if (noMark && s.sc.muted) = true then s.sc.noMarkRun + 1 else 0) = n
    split
    · exact (h1 n).trans (enterHeld_goes _ _ h)
    · split
      · exact (h1 n).trans (moveTo_goes _ _ _ _ _ rfl h0 (.inr (inScale_not_listen h)))
      · exact h1 n
  · exact .refl s

theorem takeStuck_goes (s : State) : Goes s (takeStuck s) := by
  unfold takeStuck; split
  · exact enterHeld_goes _ s ‹_›
  · exact .refl s

/-! ## The Cage Bus Port -/

theorem windowOpening_goes (s : State) : Goes s (windowOpening s) := by
  have h1 : Goes s { s with tb := { s.tb with openAnnounced := true } } :=
    goes_date rfl rfl rfl rfl rfl rfl (Nat.le_refl _)
  unfold windowOpening; dsimp only
  split
  · split
    · exact h1.trans (counts_goes rfl rfl rfl rfl rfl rfl rfl rfl rfl rfl id)
    · exact h1
  · exact .refl s

theorem takeOutcome_goes (o : Outcome) (s : State) : Goes s (takeOutcome o s) := by
  unfold takeOutcome; split
  · exact takeStuck_goes s
  · exact takeVoid_goes _ s
  · exact takeVoid_goes _ s
  · exact takeVoid_goes _ s
  · exact takeComplete_goes _ s

theorem endWindow_goes (o : Outcome) (s : State) : Goes s (endWindow o s) :=
  counts_goes rfl rfl rfl rfl rfl rfl rfl rfl rfl rfl id

theorem windowClose_goes (s : State) : Goes s (windowClose s) := by
  have h1 : Goes s { s with tb := { s.tb with closeAnnounced := true } } :=
    goes_date rfl rfl rfl rfl rfl rfl (Nat.le_refl _)
  unfold windowClose; dsimp only
  split
  · split
    · exact ((h1.trans (endWindow_goes _ _)).trans (takeOutcome_goes _ _)).trans (served_goes _)
    · exact h1
  · exact .refl s

theorem releaseDrive_goes (s : State) : Goes s (releaseDrive s) :=
  goes_plain rfl rfl rfl rfl rfl rfl (by simp [releaseDrive]) rfl rfl rfl (by simp [releaseDrive])

theorem markHoldEnd_goes (s : State) : Goes s (markHoldEnd s) := by
  unfold markHoldEnd; split
  · exact releaseDrive_goes s
  · exact .refl s

theorem driveFault_goes (s : State) : Goes s (driveFault s) := by
  unfold driveFault; split
  · exact .refl s
  · exact Goes.trans (t := { s with bus := { s.bus with faultReported := true } })
      (counts_goes rfl rfl rfl rfl rfl rfl rfl rfl rfl rfl id) (takeDriveFault_goes _)

theorem markDriveFault_goes (s : State) : Goes s (markDriveFault s) := by
  unfold markDriveFault; split
  · exact (driveFault_goes s).trans (served_goes _)
  · exact .refl s

theorem riseInWatch_goes (s : State) : Goes s (riseInWatch s) := by
  unfold riseInWatch; split
  · rename_i h; exact counts_goes rfl rfl rfl rfl rfl rfl rfl rfl rfl rfl fun _ => by rw [h]; simp
  · exact .refl s
  · exact .refl s
  · exact .refl s

theorem markLineRise_goes (s : State) : Goes s (markLineRise s) := by
  have h1 : Goes s { s with bus := { s.bus with cagePull := true } } := counts_goes rfl rfl rfl rfl rfl rfl rfl rfl rfl rfl id
  unfold markLineRise; dsimp only; split
  · exact h1
  · exact (h1.trans (riseInWindow_goes _)).trans (riseInWatch_goes _)

theorem fallInWatch_goes (s : State) : Goes s (fallInWatch s) := by
  unfold fallInWatch; split
  · rename_i h
    exact Goes.trans
      (t := { s with bus := { s.bus with
        watch := .ignoring s.now, fallRef := some ⟨s.now, .watch⟩, noticeSent := false, lane := BitVec.allOnes 112 } })
      (counts_goes rfl rfl rfl rfl rfl rfl rfl rfl rfl rfl fun _ => by rw [h]; simp) (phaseSetFrom_goes _ _)
  · exact .refl s
  · exact .refl s
  · exact .refl s

@[simp] theorem ceasePull_drive (b : CageBus) : (ceasePull b).drive = b.drive := by unfold ceasePull; split <;> rfl

@[simp] theorem ceasePull_watch (b : CageBus) : (ceasePull b).watch = b.watch := by unfold ceasePull; split <;> rfl

theorem lineFell_goes (s : State) : Goes s { s with bus := s.bus.lineFell s.now } := by
  have h := lineFell_eq s.now s.bus
  exact counts_goes rfl rfl rfl rfl rfl rfl (by rw [h]) rfl rfl rfl (by rw [h]; exact id)

theorem markLineFall_goes (s : State) : Goes s (markLineFall s) := by
  have h1 : Goes s { s with bus := ceasePull s.bus } :=
    counts_goes rfl rfl rfl rfl rfl rfl (by simp) rfl rfl rfl (by simp)
  unfold markLineFall; dsimp only
  split
  · have h2 := h1.trans (lineFell_goes _)
    refine Goes.trans (Goes.trans ?_ (fallInWatch_goes _)) (served_goes _)
    split
    · exact h2.trans (driveFault_goes _)
    · exact h2
  · exact h1

theorem pulseWatchRearm_goes (s : State) : Goes s (pulseWatchRearm s) := by
  unfold pulseWatchRearm; split
  · rename_i h
    refine counts_goes rfl rfl rfl rfl rfl rfl rfl rfl rfl rfl fun _ e => ?_
    unfold rearmDue at h; rw [e] at h; exact absurd h (by simp)
  · exact .refl s

theorem noticeBegin_goes (s : State) : Goes s (noticeBegin s) := by
  unfold noticeBegin; split
  · exact counts_goes rfl rfl rfl rfl rfl rfl rfl rfl rfl rfl id
  · exact .refl s

theorem noticeFinish_goes (s : State) : Goes s (noticeFinish s) := by
  unfold noticeFinish; split
  · exact counts_goes rfl rfl rfl rfl rfl rfl rfl rfl rfl rfl id
  · exact .refl s

theorem abandonNotice_goes (notice : BitVec 112) (k : Nat) (s : State) : Goes s (abandonNotice notice k s) :=
  counts_goes rfl rfl rfl rfl rfl rfl rfl rfl rfl rfl id

theorem noticeSample_goes (released : Bool) (s : State) : Goes s (noticeSample released s) := by
  unfold noticeSample
  split
  · exact .refl s
  · dsimp only
    split
    · split
      · refine Goes.trans (Goes.trans ?_ (takeClash_goes _)) (served_goes _)
        exact counts_goes rfl rfl rfl rfl rfl rfl rfl rfl rfl rfl id
      · split
        · exact ((abandonNotice_goes _ _ s).trans (takeDriveFault_goes _)).trans (served_goes _)
        · exact counts_goes rfl rfl rfl rfl rfl rfl rfl rfl rfl rfl id
    · exact .refl s

theorem noticeSend_goes (act : NoticeAct) (s : State) : Goes s (noticeSend act s) := by
  unfold noticeSend; split
  · exact noticeBegin_goes s
  · exact noticeSample_goes _ s
  · exact noticeFinish_goes s

theorem classifySlot_goes (k : Station) (samples : BitVec 112) (s : State) : Goes s (classifySlot k samples s) := by
  have he : Goes s { s with cage := { s.cage with noticeError := countUp s.cage.noticeError } } :=
    counts_goes rfl rfl rfl rfl rfl rfl rfl rfl rfl rfl id
  unfold classifySlot; dsimp only
  split
  · exact .refl s
  · split
    · exact he
    · split
      · exact he
      · split
        · exact ((rosterTake_goes _ s).trans (scaleTake_goes _ _)).trans (served_goes _)
        · split
          · exact .refl s
          · exact counts_goes rfl rfl rfl rfl rfl rfl rfl rfl rfl rfl id

theorem noticeReceive_goes (others : BitVec 112) (s : State) : Goes s (noticeReceive others s) := by
  unfold noticeReceive; split
  · split
    · exact Goes.trans (t := { s with bus := { s.bus with receiver := none } })
        (counts_goes rfl rfl rfl rfl rfl rfl rfl rfl rfl rfl id) (classifySlot_goes _ _ _)
    · exact .refl s
  · exact .refl s

/-! ## Host commands -/

theorem joinNow_goes (s : State) (h : s.ctl.locked = true) (hq : s.sc.state = .quiet) : Goes s (joinNow s) := by
  have e : joinNow s = emitTime s.sc.state .listen .joined 0 0
      (dropDrive { joinBus { s with sc := joinCounts s.sc, roster := Vector.replicate 16 {} } with
        sc := { joinCounts s.sc with state := .listen } }) := rfl
  rw [e]
  refine Goes.trans ?_ (emitTime_goes _ _ _ _ _ _)
  refine goes_cage (by simp [joinBus]) (by simp [joinBus]) (by simp [joinBus]) (by simp [joinBus]) (by simp [joinBus])
    (by simp [joinBus]) (fun _ => ⟨fun x => by simpa using dropDrive_drive _ x, fun _ => by simp⟩) (fun x => ?_)
    (fun _ x => ?_) (fun x => absurd hq (inCage_awake x).1)
  · unfold DateBounded; rw [dropDrive_tb, dropDrive_ctl, dropDrive_settings]; exact x
  · rw [dropDrive_ctl] at x; exact absurd (h.symm.trans x) (by simp)

theorem joinCage_goes (s : State) : Goes s (joinCage s) := by
  unfold joinCage
  split
  · exact setResult_goes _ _ s
  · rename_i h
    split
    · exact setResult_goes _ _ s
    · rename_i hq
      exact ((joinNow_goes s (by simpa using h) (by simpa using hq)).trans (served_goes _)).trans (setResult_goes _ _ _)

/-- The steps of LEAVE: the muted reasons and the port's drive go with the state. -/
theorem leaveNow_keeps (s : State) : Keeps s (leaveNow s) ∧ s.path.arb.time ≤ (leaveNow s).path.arb.time := by
  have h1 : Keeps s (dropDrive { quietBus { s with sc := { s.sc with mutedProfile := false, mutedClash := false } }
        with sc := { s.sc with state := .quiet, mutedProfile := false, mutedClash := false } })
      ∧ s.path.arb.time ≤ (dropDrive { quietBus { s with sc := { s.sc with mutedProfile := false, mutedClash := false } }
        with sc := { s.sc with state := .quiet, mutedProfile := false, mutedClash := false } }).path.arb.time := by
    refine ⟨⟨fun x => ⟨?_, ?_⟩, ?_, fun _ => ⟨dropDrive_drive _, fun h => absurd (by simp [quietBus]) h⟩, ?_, fun x h => ?_, fun x => ⟨fun l => ?_, ?_, ?_⟩,
      fun x => ⟨?_, ?_⟩, ?_, ?_, fun h => ⟨?_, ?_⟩⟩, ?_⟩
    · have := x.1; unfold receptionBlocks at *; simpa [quietBus] using this
    · have := x.2; simpa [quietBus] using this
    · simp [quietBus]
    · intro x; unfold DateBounded; rw [dropDrive_tb, dropDrive_ctl, dropDrive_settings]; exact x
    · have := x (by simpa [quietBus] using h)
      refine ⟨by simp, by simpa [quietBus] using this.2.1, by simpa [quietBus] using this.2.2⟩
    · rw [dropDrive_path, dropDrive_lines]; exact x.1 l
    · rw [dropDrive_path]; exact x.2.1
    · rw [dropDrive_path]; exact x.2.2
    · rw [dropDrive_path]; exact x.1
    · rw [dropDrive_settings]; exact x.2
    · rw [dropDrive_pending]; rfl
    · rw [dropDrive_tb]; rfl
    · rw [dropDrive_ctl]; exact h
    · rw [dropDrive_settings]; rfl
    · rw [dropDrive_path]; exact Nat.le_refl _
  have h2 := emitTime_goes s.sc.state .quiet .left 0 0
    (dropDrive { quietBus { s with sc := { s.sc with mutedProfile := false, mutedClash := false } }
        with sc := { s.sc with state := .quiet, mutedProfile := false, mutedClash := false } })
  exact ⟨h1.1.trans h2.toKeeps, Nat.le_trans h1.2 h2.time⟩

theorem leaveCage_keeps (s : State) : Keeps s (leaveCage s) ∧ s.path.arb.time ≤ (leaveCage s).path.arb.time := by
  unfold leaveCage
  split
  · exact ⟨(setResult_goes _ _ s).toKeeps, (setResult_goes _ _ s).time⟩
  · have h1 := leaveNow_keeps s
    have h2 := (served_goes (leaveNow s)).trans (setResult_goes .done 0 _)
    exact ⟨h1.1.trans h2.toKeeps, Nat.le_trans h1.2 h2.time⟩

end Sys2Proof.Machine.State
end

