-- ==== Sys2Proof/Laws/CageForms.lean ====
section
/-!
SUPPORT. What the cage operations change, each said once as an equation or a form: everything not named in it stays.
-/
namespace Sys2Proof.Machine.State

/-! ## Moves of the Scale Controller -/

theorem served_eq (s : State) : served s = { s with path := (served s).path } := rfl

theorem emitTime_eq (old new : ScaleState) (r : TimeReason) (peer : Nat) (prev : BitVec 48) (s : State) :
    emitTime old new r peer prev s = { s with path := (emitTime old new r peer prev s).path } := rfl

/-- The port stays as it is, or its drive is released (R20). -/
def Freed (s : State) (b : CageBus) : Prop := b = s.bus ∨ b = s.bus.releaseDrive s.now

theorem Freed.same (s : State) : Freed s s.bus := .inl rfl

/-- A port that is not driving is left as it is. -/
theorem releaseDrive_of_none {b : CageBus} (now : Nat) (h : b.drive = none) : b.releaseDrive now = b := by
  unfold CageBus.releaseDrive; rw [h]

/-- A line that reads released does not fall with the drive. -/
theorem releaseDrive_of_released {b : CageBus} {t : Nat} (now : Nat) (hd : b.drive = some t) (h : b.markLine = false) :
    b.releaseDrive now
      = { b with drive := none, asserting := none, pullFails := b.pullFails && b.asserting.isSome } := by
  unfold CageBus.releaseDrive; rw [hd]; dsimp only; rw [h, Bool.false_and, if_neg Bool.false_ne_true]

/-- Once the drive is released the line reads what the other stations pull (R18, R29). -/
theorem releaseDrive_markLine (now : Nat) (b : CageBus) : (b.releaseDrive now).markLine = b.cagePull := by
  rw [releaseDrive_eq]; simp [CageBus.markLine]

theorem Freed.of_none {s : State} {b : CageBus} (h : Freed s b) (hd : s.bus.drive = none) : b = s.bus := by
  rcases h with h | h
  · exact h
  · rw [h, releaseDrive_of_none _ hd]

theorem moveTo_eq (new : ScaleState) (r : TimeReason) (peer : Nat) (prev : BitVec 48) (s : State) :
    moveTo new r peer prev s = { s with
      sc := { s.sc with state := new },
      bus := if ({ s.sc with state := new } : ScaleController).mayDrive then s.bus else s.bus.releaseDrive s.now,
      path := (moveTo new r peer prev s).path } := by
  unfold moveTo; rw [emitTime_eq, dropDrive_eq]; rfl

theorem enterHeld_eq (r : TimeReason) (s : State) :
    enterHeld r s = { s with
      sc := { s.sc with state := .held, good := 0, voids := 0, noMarkRun := 0, measuredHeld := false },
      bus := s.bus.releaseDrive s.now,
      cage := { s.cage with heldEntries := countUp s.cage.heldEntries },
      path := (enterHeld r s).path } := by
  unfold enterHeld; rw [moveTo_eq]; rfl

/-! ## Reports of the port -/

theorem afterMuting_form (added : Bool) (s : State) : ∃ b p, afterMuting added s = { s with bus := b, path := p }
    ∧ Freed s b := by
  unfold afterMuting; rw [emitTime_eq, dropDrive_eq]
  refine ⟨_, _, rfl, ?_⟩
  split
  · exact .same s
  · exact .inr rfl

theorem takeClash_form (s : State) : ∃ b p, takeClash s = { s with
    sc := { s.sc with clashThisEpoch := true, clashCount := min (s.sc.clashCount + 1) 3,
                      mutedClash := s.sc.mutedClash || decide (2 ≤ s.sc.clashCount) },
    bus := b, path := p } ∧ Freed s b := by
  unfold takeClash; dsimp only; split
  · rename_i h
    have : (s.sc.mutedClash || decide (2 ≤ s.sc.clashCount)) = true := by have := h.1; simp; right; omega
    rw [this]
    obtain ⟨b, p, e, hb⟩ := afterMuting_form true { s with sc := { s.sc with
      clashThisEpoch := true, clashCount := min (s.sc.clashCount + 1) 3, mutedClash := true } }
    exact ⟨b, p, e, hb⟩
  · rename_i h
    refine ⟨s.bus, s.path, ?_, .same s⟩
    have : (s.sc.mutedClash || decide (2 ≤ s.sc.clashCount)) = s.sc.mutedClash := by
      cases hm : s.sc.mutedClash
      · simp; rw [hm] at h; simp at h; omega
      · rfl
    rw [this]

theorem takeDriveFault_form (s : State) : ∃ sc b he p, takeDriveFault s = { s with
    sc := sc, bus := b, cage := { s.cage with heldEntries := he }, path := p } ∧ Freed s b := by
  unfold takeDriveFault; split
  · rw [enterHeld_eq]; exact ⟨_, _, _, _, rfl, .inr rfl⟩
  · exact ⟨_, _, _, _, rfl, .same s⟩

theorem driveFault_form (s : State) : ∃ sc b he p, driveFault s = { s with
    sc := sc, bus := b, cage := { s.cage with heldEntries := he }, path := p }
    ∧ Freed { s with bus := { s.bus with faultReported := true } } b := by
  unfold driveFault; split
  · rename_i h; exact ⟨s.sc, s.bus, s.cage.heldEntries, s.path, rfl, .inl (by rw [← h])⟩
  · obtain ⟨sc, b, he, p, e, hb⟩ := takeDriveFault_form { s with bus := { s.bus with faultReported := true } }
    exact ⟨sc, b, he, p, e, hb⟩

theorem takeStuck_form (s : State) : ∃ sc b he p, takeStuck s = { s with
    sc := sc, bus := b, cage := { s.cage with heldEntries := he }, path := p } ∧ Freed s b := by
  unfold takeStuck; split
  · rw [enterHeld_eq]; exact ⟨_, _, _, _, rfl, .inr rfl⟩
  · exact ⟨_, _, _, _, rfl, .same s⟩

theorem takeVoid_form (b : Bool) (s : State) : ∃ sc b' he p, takeVoid b s = { s with
    sc := sc, bus := b', cage := { s.cage with heldEntries := he }, path := p } ∧ Freed s b' := by
  unfold takeVoid; split
  · dsimp only
    generalize (if (b && s.sc.muted) = true then s.sc.noMarkRun + 1 else 0) = r
    split
    · rw [enterHeld_eq]; exact ⟨_, _, _, _, rfl, .inr rfl⟩
    · split
      · rw [moveTo_eq]
        refine ⟨_, _, _, _, rfl, ?_⟩
        split
        · exact .same s
        · exact .inr rfl
      · exact ⟨_, _, _, _, rfl, .same s⟩
  · exact ⟨_, _, _, _, rfl, .same s⟩

/-! ## The work of an own boundary -/

theorem ageStation_form (j : Station) (s : State) : ∃ p, ageStation j s = { s with
    roster := updAt s.roster j (ageEntry s.settings.silenceLimit), path := p } := by
  unfold ageStation; dsimp only; split <;> exact ⟨_, rfl⟩

theorem ageAll_form (l : List Station) (hl : l.Nodup) (s : State) :
    ∃ r p, l.foldl (fun s j => ageStation j s) s = { s with roster := r, path := p }
      ∧ ∀ j : Station, r[j] = if j ∈ l then ageEntry s.settings.silenceLimit s.roster[j] else s.roster[j] := by
  induction l generalizing s with
  | nil => exact ⟨s.roster, s.path, rfl, fun _ => rfl⟩
  | cons a l ih =>
    obtain ⟨p1, h1⟩ := ageStation_form a s
    obtain ⟨r, p, h, hr⟩ := ih (List.nodup_cons.1 hl).2 (ageStation a s)
    rw [List.foldl_cons, h]
    refine ⟨r, p, by rw [h1], fun j => ?_⟩
    rw [hr, h1]
    by_cases e : j = a
    · subst e
      rw [if_neg (List.nodup_cons.1 hl).1, if_pos (by simp)]
      show (updAt s.roster j _)[j] = _
      rw [updAt_get, if_pos rfl]
    · have : (updAt s.roster a (ageEntry s.settings.silenceLimit))[j] = s.roster[j] := by rw [updAt_get, if_neg e]
      simp only [this, List.mem_cons, e, false_or]

/-- Silence accounting ages every entry once (R61). -/
theorem silenceAccounting_form (s : State) :
    ∃ r p, silenceAccounting s = { s with roster := r, path := p }
      ∧ ∀ j : Station, r[j] = ageEntry s.settings.silenceLimit s.roster[j] := by
  obtain ⟨r, p, h, hr⟩ := ageAll_form allStations (by decide) s
  refine ⟨r, p, h, fun j => ?_⟩
  have hj : ∀ j : Station, j ∈ allStations := by decide
  rw [hr, if_pos (hj j)]

/-- The PROFILE test leaves the flag at its outcome (R54). -/
theorem profileTest_form (s : State) : ∃ b p, profileTest s = { s with
    sc := { s.sc with mutedProfile := decide (s.presentWith true + 1 < s.presentWith false) },
    bus := b, path := p } ∧ Freed s b := by
  unfold profileTest; dsimp only; split
  · rename_i h
    exact ⟨s.bus, s.path, by rw [eq_of_beq h], .same s⟩
  · obtain ⟨b, p, e, hb⟩ := afterMuting_form _ { s with sc := { s.sc with mutedProfile := _ } }
    exact ⟨b, p, e, hb⟩

theorem presentWith_congr {s t : State} (h : t.roster = s.roster) (b : Bool) : t.presentWith b = s.presentWith b := by
  unfold presentWith; rw [h]

theorem noteSplit_form (s : State) : ∃ w k, noteSplit s = { s with
    bus := { s.bus with window := w }, cage := { s.cage with split := k } } := by
  unfold noteSplit; split
  · split
    · exact ⟨s.bus.window, s.cage.split, rfl⟩
    · exact ⟨_, _, rfl⟩
  · exact ⟨s.bus.window, s.cage.split, rfl⟩

theorem riseInWindow_form (s : State) : ∃ w k, riseInWindow s = { s with
    bus := { s.bus with window := w }, cage := { s.cage with split := k } } := by
  unfold riseInWindow; split
  · split
    · exact ⟨_, s.cage.split, rfl⟩
    · split
      · split
        · exact ⟨s.bus.window, s.cage.split, rfl⟩
        · exact noteSplit_form s
      · exact ⟨s.bus.window, s.cage.split, rfl⟩
  · exact ⟨s.bus.window, s.cage.split, rfl⟩

/-- The drive decision (R19): a drive asserted now waits for the end of the instant. -/
theorem driveAtExpiry_form (s : State) : ∃ w k, driveAtExpiry s = { s with
      bus := { s.bus with drive := if s.sc.mayDrive then some s.now else s.bus.drive,
                          asserting := if s.sc.mayDrive then some s.afterFall else s.bus.asserting, window := w },
      cage := { s.cage with split := k } } := by
  unfold driveAtExpiry; split
  · dsimp only
    split
    · exact riseInWindow_form { s with bus := { s.bus with drive := some s.now, asserting := some s.afterFall } }
    · exact ⟨s.bus.window, s.cage.split, rfl⟩
  · exact ⟨s.bus.window, s.cage.split, rfl⟩

/-- The end of the instant of an expiry notes at most a SPLIT (R21, R27). -/
theorem driveStands_form (s : State) : ∃ w k, driveStands s = { s with
      bus := { s.bus with asserting := none,
                          faultReported := if s.bus.asserting.isSome then false else s.bus.faultReported, window := w },
      cage := { s.cage with split := k } } := by
  unfold driveStands; split
  · rename_i h; exact ⟨s.bus.window, s.cage.split, by rw [if_neg (by rw [h]; simp), ← h]⟩
  · rename_i h
    rw [h, Option.isSome_some, if_pos rfl]
    dsimp only; split
    · exact noteSplit_form { s with bus := { s.bus with asserting := none, faultReported := false } }
    · exact ⟨s.bus.window, s.cage.split, rfl⟩

/-- With no drive of this very instant nothing is left for its end. -/
theorem driveStands_of_none {s : State} (h : s.bus.asserting = none) : driveStands s = s := by
  unfold driveStands; rw [h]

/-- The Scale Controller's work by its state changes the controller, the port and the record path, never a muting
flag or a clash count (R41, R44, R52). A port that is not driving keeps its window and its fall reference. -/
theorem stateWork_form (s : State) : ∃ sc b p, stateWork s = { s with sc := sc, bus := b, path := p }
    ∧ sc.mutedProfile = s.sc.mutedProfile ∧ sc.mutedClash = s.sc.mutedClash
    ∧ sc.clashThisEpoch = s.sc.clashThisEpoch ∧ sc.clashCount = s.sc.clashCount
    ∧ b.cagePull = s.bus.cagePull ∧ b.lastOffset = s.bus.lastOffset
    ∧ (s.bus.drive = none → b.drive = none ∧ b.window = s.bus.window ∧ b.fallRef = s.bus.fallRef) := by
  have kept : ∀ (m : Bool) (b : CageBus), (if m then b else b.releaseDrive s.now).cagePull = b.cagePull
      ∧ (if m then b else b.releaseDrive s.now).lastOffset = b.lastOffset
      ∧ (b.drive = none → (if m then b else b.releaseDrive s.now).drive = none
        ∧ (if m then b else b.releaseDrive s.now).window = b.window
        ∧ (if m then b else b.releaseDrive s.now).fallRef = b.fallRef) := by
    intro m b
    cases m
    · refine ⟨by simp only [Bool.false_eq_true, if_false]; rw [releaseDrive_eq],
        by simp only [Bool.false_eq_true, if_false]; rw [releaseDrive_eq], fun h => ?_⟩
      simp only [Bool.false_eq_true, if_false]
      rw [releaseDrive_of_none _ h]; exact ⟨h, rfl, rfl⟩
    · exact ⟨rfl, rfl, fun h => ⟨h, rfl, rfl⟩⟩
  unfold stateWork; split
  · unfold listenWork; dsimp only; split
    · unfold found; rw [moveTo_eq]
      have k := fun m => kept m (leaveListen s).bus
      exact ⟨_, _, _, rfl, rfl, rfl, rfl, rfl, (k _).1, (k _).2.1, fun h => (k _).2.2 h⟩
    · exact ⟨_, s.bus, s.path, rfl, rfl, rfl, rfl, rfl, rfl, rfl, fun h => ⟨h, rfl, rfl⟩⟩
  · unfold heldWork
    split <;> split <;> first
      | exact ⟨s.sc, s.bus, s.path, rfl, rfl, rfl, rfl, rfl, rfl, rfl, fun h => ⟨h, rfl, rfl⟩⟩
      | (rw [moveTo_eq]
         exact ⟨_, _, _, rfl, rfl, rfl, rfl, rfl, (kept _ s.bus).1, (kept _ s.bus).2.1, fun h => (kept _ s.bus).2.2 h⟩)
  all_goals exact ⟨s.sc, s.bus, s.path, rfl, rfl, rfl, rfl, rfl, rfl, rfl, fun h => ⟨h, rfl, rfl⟩⟩

/-- The whole work of roster and Scale Controller leaves the Time Base, the lines and the settings. -/
theorem scaleWork_rest (s : State) :
    (scaleWork s).tb = s.tb ∧ (scaleWork s).lines = s.lines ∧ (scaleWork s).settings = s.settings
      ∧ (scaleWork s).ctl = s.ctl := by
  unfold scaleWork; split
  · exact ⟨rfl, rfl, rfl, rfl⟩
  · obtain ⟨r, p1, h1, _⟩ := silenceAccounting_form (clashTest s)
    obtain ⟨b2, p2, h2, _⟩ := profileTest_form (silenceAccounting (clashTest s))
    obtain ⟨sc, b, p3, h3, _⟩ := stateWork_form (profileTest (silenceAccounting (clashTest s)))
    obtain ⟨w, k, h4⟩ :=
      driveAtExpiry_form (clearPhaseSet (stateWork (profileTest (silenceAccounting (clashTest s)))))
    rw [h4]; unfold clearPhaseSet
    rw [h3, h2, h1]; exact ⟨rfl, rfl, rfl, rfl⟩

theorem errorTest_form (l : Line) (s : State) : ∃ v p, errorTest l s = { s with lines := v, path := p } := by
  unfold errorTest; split
  · exact ⟨_, _, rfl⟩
  · exact ⟨s.lines, s.path, rfl⟩

/-- The work at a boundary leaves the Time Base as the boundary made it (R5). -/
theorem boundaryWork_tb (l : List (State → State)) (s0 s : State) (h : ∀ w ∈ l, w ∈ boundaryWork s0) :
    (l.foldl (fun s work => work s) s).tb = s.tb := by
  induction l generalizing s with
  | nil => rfl
  | cons a l ih =>
    rw [List.foldl_cons, ih _ fun w hw => h w (by simp [hw])]
    have h := h a (by simp)
    unfold boundaryWork at h
    rw [List.mem_append, List.mem_map] at h
    rcases h with h | ⟨l, _, rfl⟩
    · split at h
      · exact absurd h (by simp)
      · rw [List.mem_singleton] at h; subst h; exact (scaleWork_rest s).1
    · obtain ⟨v, p, e⟩ := errorTest_form l s; rw [e]

theorem ownBoundary_tb (s : State) : (ownBoundary s).tb = s.tb.boundary s.settings := by
  unfold ownBoundary; dsimp only
  show (List.foldl _ _ _ : State).tb = _
  rw [boundaryWork_tb _ _ _ fun w hw => mem_freeOrder.mp hw]; rfl

/-! ## Positions and notices -/

theorem placeCount_fields (c : Settings) (v : Nat) (tb : TimeBase) :
    (tb.placeCount c v).count = v ∧ (tb.placeCount c v).frac = 0 ∧ (tb.placeCount c v).epoch = tb.epoch :=
  ⟨rfl, rfl, rfl⟩

theorem inSlotBits_iff (k : Nat) : inSlotBits k = true ↔ 400 ≤ k ∧ k < 42000 ∧ (k - 400) % 2600 < 2240 := by
  unfold inSlotBits Config.slotLead Config.noticeArea Config.slotPitch Config.noticeTicks
  rw [Bool.and_eq_true, decide_eq_true_iff, decide_eq_true_iff, and_assoc]

/-- The slot whose bits lie `n` ticks after the fall reference, its end included (R30, R34). -/
theorem slotOf_iff (n : Nat) (k : Station) :
    slotOf n = some k ↔ 400 + 2600 * k.val ≤ n ∧ n ≤ 400 + 2600 * k.val + 2240 := by
  have hk := k.isLt
  unfold slotOf Config.slotLead Config.noticeArea Config.slotPitch Config.noticeTicks
  split
  · rename_i h
    rw [Option.some.injEq, Fin.ext_iff]
    show (n - 400) / 2600 % 16 = k.val ↔ _
    omega
  · rename_i h
    exact ⟨fun x => (nomatch x), fun x => absurd ⟨by omega, by omega, by omega⟩ h⟩

/-- A rise after f (R27). -/
theorem riseInWindow_after {s : State} {w : MarkWindow} {r f : Nat} (hw : s.bus.window = some w) (hr : w.r = some r)
    (hf : w.f = some f) :
    riseInWindow s = if inSlotBits (ticksSince s.now f) then s else noteSplit s := by
  unfold riseInWindow; rw [hw]; simp only [hr, hf, Option.isNone_some, Bool.false_eq_true, if_false]

end Sys2Proof.Machine.State
end

