-- ==== Sys2Proof/Laws/Told.lean ====
section
/-!
SUPPORT. What the event channel's queue is told (R58, R73, R140): the records offered to it from one state to the next,
said once for each operation that tells one and composed.
-/
namespace Sys2Proof.Machine

namespace Path

/-- From `p` to `q` the records have been offered to channel `c` one after another: with its tally empty and room for
them they stand behind what it held. -/
def Told (c : Chan) (p q : Path) (records : List Record) : Prop :=
  (p.chans[c]).tally = none → (p.chans[c]).queue.length + records.length ≤ 1024 →
    (q.chans[c]).queue = (p.chans[c]).queue ++ records ∧ (q.chans[c]).tally = none

theorem Told.trans {c : Chan} {p q r : Path} {a b : List Record} (h : Told c p q a) (k : Told c q r b) :
    Told c p r (a ++ b) := by
  intro ht hl
  rw [List.length_append] at hl
  obtain ⟨h1, h2⟩ := h ht (by omega)
  obtain ⟨k1, k2⟩ := k h2 (by rw [h1, List.length_append]; omega)
  exact ⟨by rw [k1, h1, List.append_assoc], k2⟩

/-- Nothing is told where the queue and its tally stay. -/
theorem Told.none {c : Chan} {p q : Path} (hq : (q.chans[c]).queue = (p.chans[c]).queue)
    (ht : (q.chans[c]).tally = (p.chans[c]).tally) : Told c p q [] :=
  fun h _ => ⟨by rw [hq, List.append_nil], ht.trans h⟩

theorem offer_told (e : Env) (c : Chan) (r : Record) (p : Path) : Told c p (offer e c r p) [r] := by
  intro ht hl
  have ha : accepts p.chans[c] = true := (accepts_iff _).2 (.inl ⟨ht, by simpa using hl⟩)
  rw [offer_get, if_pos rfl, if_pos ha]
  unfold accepted
  generalize p.chans[c] = ch at ht ⊢
  rw [ht]; exact ⟨rfl, rfl⟩

theorem setCause_told (e : Env) (k : Cause) (c : Chan) (p : Path) : Told c p (setCause e k p) [] :=
  .none (by rw [setCause_chans]) (by rw [setCause_chans])

theorem serve_told (e : Env) (c : Chan) (p : Path) : Told c p (serve e p) [] :=
  .none (by rw [serve_get, judgedChan_queue]) (by rw [serve_get]; exact (judgedChan_fixed _ _).2.1)

end Path

namespace State

/-- The records told to the event channel from `s` to `t`, the settings staying. -/
def Told (s t : State) (records : List Record) : Prop :=
  t.settings = s.settings ∧ Path.Told s.settings.eventChannel s.path t.path records

theorem Told.takes {s t : State} {records : List Record} (h : Told s t records) : s.EventQueueTakes t records :=
  fun ht hl => (h.2 ht hl).1

theorem Told.trans {s t u : State} {a b : List Record} (h : Told s t a) (k : Told t u b) : Told s u (a ++ b) :=
  ⟨k.1.trans h.1, h.2.trans (h.1 ▸ k.2)⟩

/-- Nothing is told where the record path and the settings stay. -/
theorem Told.none {s t : State} (hs : t.settings = s.settings) (hp : t.path = s.path) : Told s t [] :=
  ⟨hs, .none (by rw [hp]) (by rw [hp])⟩

/-- What is told to a state of the same record path and settings. -/
theorem Told.from {s u t : State} {records : List Record} (hs : u.settings = s.settings) (hp : u.path = s.path)
    (h : Told u t records) : Told s t records := Told.trans (a := []) (.none hs hp) h

theorem served_told (s : State) : Told s (served s) [] := ⟨rfl, Path.serve_told _ _ _⟩

/-- An operation and the judging that ends its command tell what the operation tells. -/
theorem Told.served {s t : State} {records : List Record} (h : Told s t records) : Told s t.served records := by
  have := h.trans (served_told t)
  rwa [List.append_nil] at this

/-- The TIME record of one transition (R58). -/
theorem emitTime_told (old new : ScaleState) (r : TimeReason) (peer : Nat) (prev : BitVec 48) (s : State) :
    Told s (emitTime old new r peer prev s)
      [.time old new r s.sc.mutedProfile s.sc.mutedClash s.bus.lastOffset peer prev s.stamp] :=
  ⟨rfl, (Path.offer_told s.env _ _ s.path).trans (Path.setCause_told s.env .time _ _)⟩

theorem releaseDrive_lastOffset (now : Nat) (b : CageBus) : (b.releaseDrive now).lastOffset = b.lastOffset := by
  rw [releaseDrive_eq]

/-- A move of the Scale Controller tells its old and new state, with the date of the move and the new state's
quality. -/
theorem moveTo_told (new : ScaleState) (r : TimeReason) (peer : Nat) (prev : BitVec 48) (s : State) :
    Told s (moveTo new r peer prev s)
      [.time s.sc.state new r s.sc.mutedProfile s.sc.mutedClash s.bus.lastOffset peer prev
        ⟨s.now, s.tb.epoch, s.tb.readCount, new.quality⟩] := by
  have h := emitTime_told s.sc.state new r peer prev (dropDrive { s with sc := { s.sc with state := new } })
  have d := dropDrive_eq { s with sc := { s.sc with state := new } }
  have offset : (dropDrive { s with sc := { s.sc with state := new } }).bus.lastOffset = s.bus.lastOffset := by
    rw [d]; dsimp only; split
    · rfl
    · exact releaseDrive_lastOffset _ _
  have muting : (dropDrive { s with sc := { s.sc with state := new } }).sc = { s.sc with state := new } := by rw [d]
  have stamp : (dropDrive { s with sc := { s.sc with state := new } }).stamp
      = ⟨s.now, s.tb.epoch, s.tb.readCount, new.quality⟩ := by rw [d]; rfl
  rw [offset, muting, stamp] at h
  exact h.from (by rw [d]) (by rw [d])

/-- An entry to HELD tells its reason (R50). -/
theorem enterHeld_told (r : TimeReason) (s : State) :
    Told s (enterHeld r s)
      [.time s.sc.state .held r s.sc.mutedProfile s.sc.mutedClash s.bus.lastOffset 0 0
        ⟨s.now, s.tb.epoch, s.tb.readCount, .holdover⟩] :=
  (moveTo_told .held r 0 0 _).from rfl rfl

/-! ## Muting, adoption and renumbering (R43, R53, R54, R55) -/

theorem dropDrive_lastOffset (s : State) : (dropDrive s).bus.lastOffset = s.bus.lastOffset := by
  rw [dropDrive_eq]; dsimp only; split
  · rfl
  · exact releaseDrive_lastOffset _ _

/-- A change of the muted reasons tells MUTED or UNMUTED. -/
theorem afterMuting_told (added : Bool) (s : State) :
    Told s (afterMuting added s)
      [.time s.sc.state s.sc.state (if added then .muted else .unmuted) s.sc.mutedProfile s.sc.mutedClash
        s.bus.lastOffset 0 0 s.stamp] := by
  have h := emitTime_told s.sc.state s.sc.state (if added then .muted else .unmuted) 0 0 (dropDrive s)
  have controller : (dropDrive s).sc = s.sc := by rw [dropDrive_eq]
  have stamp : (dropDrive s).stamp = s.stamp := by rw [dropDrive_eq]; rfl
  rw [controller, dropDrive_lastOffset, stamp] at h
  exact h.from (by rw [dropDrive_eq]) (by rw [dropDrive_eq])

/-- A SLOT CLASH report tells MUTED when it adds the reason CLASH (R55). -/
theorem takeClash_told (s : State) :
    Told s (takeClash s) (if (takeClash s).sc.mutedClash = s.sc.mutedClash then [] else
      [.time s.sc.state s.sc.state .muted s.sc.mutedProfile true s.bus.lastOffset 0 0 s.stamp]) := by
  unfold takeClash; dsimp only; split
  · rename_i h
    have e : (afterMuting true { s with sc := { s.sc with
        clashThisEpoch := true, clashCount := min (s.sc.clashCount + 1) 3, mutedClash := true } }).sc.mutedClash
        = true := by
      obtain ⟨_, _, e, _⟩ := afterMuting_form true { s with sc := { s.sc with
        clashThisEpoch := true, clashCount := min (s.sc.clashCount + 1) 3, mutedClash := true } }
      rw [e]
    rw [e, if_neg (by rw [h.2]; simp)]
    exact (afterMuting_told true { s with sc := { s.sc with
      clashThisEpoch := true, clashCount := min (s.sc.clashCount + 1) 3, mutedClash := true } }).from rfl rfl
  · rw [if_pos rfl]; exact .none rfl rfl

/-- The PROFILE test tells MUTED or UNMUTED when it changes the muting (R54). -/
theorem profileTest_told (s : State) :
    Told s (profileTest s) (if (profileTest s).sc.mutedProfile = s.sc.mutedProfile then [] else
      [.time s.sc.state s.sc.state (if (profileTest s).sc.mutedProfile then .muted else .unmuted)
        (profileTest s).sc.mutedProfile s.sc.mutedClash s.bus.lastOffset 0 0 s.stamp]) := by
  obtain ⟨b, p, e, _⟩ := profileTest_form s
  have flag : (profileTest s).sc.mutedProfile = decide (s.presentWith true + 1 < s.presentWith false) := by rw [e]
  rw [flag]; unfold profileTest; dsimp only
  generalize decide (s.presentWith true + 1 < s.presentWith false) = outvoted
  by_cases h : outvoted = s.sc.mutedProfile
  · rw [if_pos (beq_iff_eq.2 h), if_pos h]; exact .none rfl rfl
  · rw [if_neg (fun x => h (beq_iff_eq.1 x)), if_neg h]
    exact (afterMuting_told outvoted { s with sc := { s.sc with mutedProfile := outvoted } }).from rfl rfl

/-- The roster tells nothing (R60, R62). -/
theorem rosterTake_told (n : NoticeContent) (s : State) : Told s (rosterTake n s) [] := by
  unfold rosterTake; dsimp only; split
  · exact .none rfl rfl
  · exact ⟨rfl, Path.setCause_told _ _ _ _⟩

theorem silenceAccounting_told (s : State) : Told s (silenceAccounting s) [] := by
  unfold silenceAccounting
  generalize allStations = l
  induction l generalizing s with
  | nil => exact .none rfl rfl
  | cons j l ih =>
    refine (show Told s (ageStation j s) [] from ?_).trans (ih _)
    unfold ageStation; dsimp only; split
    · exact ⟨rfl, Path.setCause_told _ _ _ _⟩
    · exact .none rfl rfl

/-- An adoption tells the sender and the epoch number held before (R43, R58). -/
theorem adopt_told (peer : Station) (n : BitVec 48) (s : State) :
    Told s (adopt peer n s)
      [.time s.sc.state .align .adopted s.sc.mutedProfile s.sc.mutedClash s.bus.lastOffset peer.val s.tb.epoch
        ⟨s.now, n, s.tb.readCount, .aligning⟩] :=
  (moveTo_told .align .adopted peer.val s.tb.epoch
    (leaveListen { s with sc := s.sc.clearRuns, tb := { s.tb with epoch := n } })).from (s := s) rfl rfl

/-- A renumbering forward tells the sender and the epoch number held before (R53, R58). -/
theorem renumberTo_told (peer : Station) (n : BitVec 48) (s : State)
    (ahead : 0 < modDist 48 s.tb.epoch.toNat n.toNat) :
    Told s (renumberTo peer n s)
      [.time s.sc.state s.sc.state .renumbered s.sc.mutedProfile s.sc.mutedClash s.bus.lastOffset peer.val s.tb.epoch
        ⟨s.now, n, s.tb.readCount, s.sc.state.quality⟩] := by
  have e : s.tb.renumber n = { s.tb with epoch := n } := by unfold TimeBase.renumber; rw [if_pos ahead]
  unfold renumberTo; rw [e]
  exact (emitTime_told s.sc.state s.sc.state .renumbered peer.val s.tb.epoch
    { s with tb := { s.tb with epoch := n },
             cage := { s.cage with epochClash := countUp s.cage.epochClash } }).from (s := s) rfl rfl

/-! ## An own boundary (R5, R54) -/

/-- A founding tells FOUNDED (R44). -/
theorem found_told (s : State) :
    Told s (found s) [.time s.sc.state .align .founded s.sc.mutedProfile s.sc.mutedClash s.bus.lastOffset 0 0
      ⟨s.now, s.tb.epoch, s.tb.readCount, .aligning⟩] := by
  have h := moveTo_told .align .founded 0 0 (leaveListen { s with sc := s.sc.clearRuns })
  unfold leaveListen State.now at h
  unfold found State.now
  exact ⟨h.1, h.2⟩

theorem found_state (s : State) : (found s).sc.state = .align := by unfold found; rw [moveTo_eq]

/-- A move out of HELD tells its reason (R52). -/
theorem clearRuns_move_told (r : TimeReason) (s : State) :
    Told s (moveTo .align r 0 0 { s with sc := s.sc.clearRuns })
      [.time s.sc.state .align r s.sc.mutedProfile s.sc.mutedClash s.bus.lastOffset 0 0
        ⟨s.now, s.tb.epoch, s.tb.readCount, .aligning⟩] := by
  have h := moveTo_told .align r 0 0 { s with sc := s.sc.clearRuns }
  unfold State.now at h ⊢
  exact ⟨h.1, h.2⟩

/-- In LISTEN the state's work tells FOUNDED where it founds (R41, R44). -/
theorem listenWork_told (s : State) (listens : s.sc.state = .listen) :
    Told s (listenWork s) (if (listenWork s).sc.state = s.sc.state then []
      else [.time s.sc.state .align .founded s.sc.mutedProfile s.sc.mutedClash s.bus.lastOffset 0 0
        ⟨s.now, s.tb.epoch, s.tb.readCount, .aligning⟩]) := by
  have h := found_told { s with sc := { s.sc with listen := s.sc.listen + 1 } }
  have moved := found_state { s with sc := { s.sc with listen := s.sc.listen + 1 } }
  unfold listenWork; dsimp only; split
  · rw [moved, if_neg (by rw [listens]; simp)]
    unfold State.now at h ⊢
    exact ⟨h.1, h.2⟩
  · rw [if_pos rfl]; exact .none rfl rfl

/-- In HELD the state's work tells the reason for which HELD is left (R52). -/
theorem heldWork_told (s : State) (held : s.sc.state = .held) :
    Told s (heldWork s) (if (heldWork s).sc.state = s.sc.state then []
      else [.time s.sc.state .align (if s.sc.muted then .remeasured else .resumed) s.sc.mutedProfile s.sc.mutedClash
        s.bus.lastOffset 0 0 ⟨s.now, s.tb.epoch, s.tb.readCount, .aligning⟩]) := by
  have left : ∀ reason : TimeReason,
      (moveTo .align reason 0 0 { s with sc := s.sc.clearRuns }).sc.state ≠ s.sc.state := by
    intro reason; rw [moveTo_eq, held]; simp
  have kept : ∀ records : List Record, Told s s (if s.sc.state = s.sc.state then [] else records) := by
    intro records; rw [if_pos rfl]; exact .none rfl rfl
  unfold heldWork
  split <;> split
  · rw [if_neg (left _)]; exact clearRuns_move_told .remeasured s
  · exact kept _
  · exact kept _
  · rw [if_neg (left _)]; exact clearRuns_move_told .resumed s

/-- The work by the Scale Controller's state tells FOUNDED, or the reason for which HELD is left (R41, R44, R52). -/
theorem stateWork_told (s : State) :
    Told s (stateWork s) (if (stateWork s).sc.state = s.sc.state then []
      else [.time s.sc.state .align
        (if s.sc.state = .listen then .founded else if s.sc.muted then .remeasured else .resumed)
        s.sc.mutedProfile s.sc.mutedClash s.bus.lastOffset 0 0 ⟨s.now, s.tb.epoch, s.tb.readCount, .aligning⟩]) := by
  unfold stateWork
  split
  · rename_i h
    rw [if_pos h]
    exact listenWork_told s h
  · rename_i h
    rw [if_neg (show ¬ s.sc.state = .listen by rw [h]; simp)]
    exact heldWork_told s h
  all_goals rw [if_pos rfl]; exact .none rfl rfl

/-- The drive decision tells nothing (R19). -/
theorem driveAtExpiry_told (s : State) : Told s (driveAtExpiry s) [] := by
  obtain ⟨_, _, e⟩ := driveAtExpiry_form s
  rw [e]; exact .none rfl rfl

/-- The whole work of the roster and the Scale Controller at a boundary: first the change of the muting, then that of
the state. -/
theorem scaleWork_told (s : State) (h : s.sc.state ≠ .quiet) :
    Told s (scaleWork s)
      ((if (scaleWork s).sc.mutedProfile = s.sc.mutedProfile then [] else
        [.time s.sc.state s.sc.state (if (scaleWork s).sc.mutedProfile then .muted else .unmuted)
          (scaleWork s).sc.mutedProfile s.sc.mutedClash s.bus.lastOffset 0 0 s.stamp])
      ++ (if (scaleWork s).sc.state = s.sc.state then []
        else [.time s.sc.state .align
          (if s.sc.state = .listen then .founded
            else if (scaleWork s).sc.mutedProfile || (scaleWork s).sc.mutedClash then .remeasured else .resumed)
          (scaleWork s).sc.mutedProfile s.sc.mutedClash s.bus.lastOffset 0 0
          ⟨s.now, s.tb.epoch, s.tb.readCount, .aligning⟩])) := by
  obtain ⟨r, p1, e1, _⟩ := silenceAccounting_form (clashTest s)
  have t1 : Told s (silenceAccounting (clashTest s)) [] :=
    (silenceAccounting_told (clashTest s)).from (s := s) rfl rfl
  have sc1 : (silenceAccounting (clashTest s)).sc = (clashTest s).sc := by rw [e1]
  have bus1 : (silenceAccounting (clashTest s)).bus = s.bus := by rw [e1]; rfl
  have tb1 : (silenceAccounting (clashTest s)).tb = s.tb := by rw [e1]; rfl
  have stamp1 : (silenceAccounting (clashTest s)).stamp = s.stamp := by
    unfold State.stamp State.now; rw [tb1, sc1]; rfl
  have e : scaleWork s
      = driveAtExpiry (clearPhaseSet (stateWork (profileTest (silenceAccounting (clashTest s))))) := by
    unfold scaleWork; rw [if_neg h]
  rw [e]
  generalize silenceAccounting (clashTest s) = s1 at t1 sc1 bus1 tb1 stamp1 ⊢
  have t2 := profileTest_told s1
  obtain ⟨b2, p2, e2, f2⟩ := profileTest_form s1
  have tb2 : (profileTest s1).tb = s.tb := by rw [e2]; exact tb1
  have off2 : (profileTest s1).bus.lastOffset = s.bus.lastOffset := by
    rw [e2, ← bus1]; rcases f2 with f | f <;> rw [f]
    exact releaseDrive_lastOffset _ _
  have state2 : (profileTest s1).sc.state = s.sc.state := by rw [e2]; exact congrArg (·.state) sc1
  have clash2 : (profileTest s1).sc.mutedClash = s.sc.mutedClash := by rw [e2]; exact congrArg (·.mutedClash) sc1
  rw [sc1, bus1, stamp1] at t2
  generalize profileTest s1 = s2 at t2 tb2 off2 state2 clash2 ⊢
  have t3 := stateWork_told s2
  obtain ⟨sc3, b3, p3, e3, profile3, clash3, _⟩ := stateWork_form s2
  have end3 : (driveAtExpiry (clearPhaseSet (stateWork s2))).sc.state = (stateWork s2).sc.state
      ∧ (driveAtExpiry (clearPhaseSet (stateWork s2))).sc.mutedProfile = s2.sc.mutedProfile
      ∧ (driveAtExpiry (clearPhaseSet (stateWork s2))).sc.mutedClash = s2.sc.mutedClash := by
    obtain ⟨_, _, e4⟩ := driveAtExpiry_form (clearPhaseSet (stateWork s2))
    rw [e4, e3]; exact ⟨rfl, profile3, clash3⟩
  rw [end3.1, end3.2.1, end3.2.2]
  have t4 : Told (stateWork s2) (driveAtExpiry (clearPhaseSet (stateWork s2))) [] :=
    (driveAtExpiry_told (clearPhaseSet (stateWork s2))).from (s := stateWork s2) rfl rfl
  unfold State.now at t3
  rw [state2, clash2, off2, tb2] at t3
  rw [clash2]
  have := ((t1.trans t2).trans t3).trans t4
  rw [List.append_nil, List.nil_append] at this
  unfold ScaleController.muted at this; rw [clash2] at this
  exact this

/-- Where no line changes at an own boundary, the boundary is the Time Base's part and the Scale Controller's work. -/
theorem ownBoundary_calm (s : State) (calm : ∀ l : Line, errorVerdict (s.settings.errorLimit l) s.lines[l] = none) :
    ∃ s1 : State, s1.tb = s.tb.boundary s.settings ∧ s1.sc = s.sc ∧ s1.bus.lastOffset = s.bus.lastOffset
      ∧ Told s s1 [] ∧ ownBoundary s = clearEpochErrors (if s.sc.state = .quiet then s1 else scaleWork s1) := by
  have work : boundaryWork (recordExpiry { s with tb := s.tb.boundary s.settings })
      = if s.sc.state = .quiet then [] else [scaleWork] := by
    unfold boundaryWork
    have : (allLines.filter fun l => (errorVerdict
        ((recordExpiry { s with tb := s.tb.boundary s.settings }).settings.errorLimit l)
        (recordExpiry { s with tb := s.tb.boundary s.settings }).lines[l]).isSome) = [] :=
      List.filter_eq_nil_iff.2 fun l _ => by
        have : errorVerdict (s.settings.errorLimit l) s.lines[l] = none := calm l
        show ¬ (errorVerdict (s.settings.errorLimit l) s.lines[l]).isSome = true
        rw [this]; simp
    rw [this, List.map_nil, List.append_nil]; rfl
  unfold ownBoundary
  dsimp only; rw [work]
  by_cases q : s.sc.state = .quiet
  · simp only [if_pos q]
    rw [List.Perm.eq_nil (freeOrder_perm _ [])]
    refine ⟨_, ?_, ?_, ?_, ?_, rfl⟩
    · rfl
    · rfl
    · rfl
    · exact ⟨rfl, .none rfl rfl⟩
  · simp only [if_neg q]
    rw [List.perm_singleton.1 (freeOrder_perm _ [scaleWork])]
    refine ⟨_, ?_, ?_, ?_, ?_, rfl⟩
    · rfl
    · rfl
    · rfl
    · exact ⟨rfl, .none rfl rfl⟩

end State

end Sys2Proof.Machine
end

