-- ==== Sys2Proof/Laws/Causes.lean ====
section
/-!
SUPPORT. An own boundary keeps the attention causes that are set and sets PEER for a station that falls silent (R61,
R62, R173).
-/
namespace Sys2Proof.Machine.State

/-- No attention cause leaves the set from `s` to `t`. -/
def CausesStay (s t : State) : Prop :=
  ∀ i : Nat, s.path.att.causes.getLsbD i = true → t.path.att.causes.getLsbD i = true

theorem CausesStay.refl (s : State) : CausesStay s s := fun _ h => h

theorem CausesStay.trans {s t u : State} (h : CausesStay s t) (k : CausesStay t u) : CausesStay s u :=
  fun i x => k i (h i x)

theorem CausesStay.of_path {s t : State} (h : t.path = s.path) : CausesStay s t := fun _ x => by rw [h]; exact x

theorem served_causes (s : State) : CausesStay s (served s) := fun i h => Path.serve_keepsCauses s.env s.path i h

theorem emitTime_causes (old new : ScaleState) (r : TimeReason) (peer : Nat) (prev : BitVec 48) (s : State) :
    CausesStay s (emitTime old new r peer prev s) := fun i h =>
  Path.setCause_keepsCauses s.env .time _ i ((Path.offer_moves _ _ _ _).causes i h)

theorem moveTo_causes (new : ScaleState) (r : TimeReason) (peer : Nat) (prev : BitVec 48) (s : State) :
    CausesStay s (moveTo new r peer prev s) := by
  refine CausesStay.trans (t := dropDrive { s with sc := { s.sc with state := new } }) (.of_path ?_)
    (emitTime_causes _ _ _ _ _ _)
  rw [dropDrive_eq]

theorem profileTest_causes (s : State) : CausesStay s (profileTest s) := by
  unfold profileTest; dsimp only; split
  · exact .refl s
  · refine CausesStay.trans (t := dropDrive { s with sc := { s.sc with mutedProfile := _ } }) (.of_path ?_)
      (emitTime_causes _ _ _ _ _ _)
    rw [dropDrive_eq]

theorem found_causes (s : State) : CausesStay s (found s) := by
  unfold found
  have h := moveTo_causes .align .founded 0 0 (leaveListen { s with sc := s.sc.clearRuns })
  generalize moveTo .align .founded 0 0 (leaveListen { s with sc := s.sc.clearRuns }) = t at h ⊢
  exact h

/-- A move from a state that differs in the Scale Controller alone. -/
theorem moveFrom_causes (r : TimeReason) (sc : ScaleController) (s : State) :
    CausesStay s (moveTo .align r 0 0 { s with sc := sc }) := by
  have h := moveTo_causes .align r 0 0 { s with sc := sc }
  generalize moveTo .align r 0 0 { s with sc := sc } = t at h ⊢
  exact h

theorem listenWork_causes (s : State) : CausesStay s (listenWork s) := by
  have h := found_causes { s with sc := { s.sc with listen := s.sc.listen + 1 } }
  unfold listenWork; dsimp only
  generalize found { s with sc := { s.sc with listen := s.sc.listen + 1 } } = t at h ⊢
  split
  · exact h
  · exact .of_path rfl

theorem heldWork_causes (s : State) : CausesStay s (heldWork s) := by
  unfold heldWork; split <;> split
  · exact moveFrom_causes _ _ s
  · exact .refl s
  · exact .refl s
  · exact moveFrom_causes _ _ s

theorem stateWork_causes (s : State) : CausesStay s (stateWork s) := by
  unfold stateWork; split
  · exact listenWork_causes s
  · exact heldWork_causes s
  all_goals exact .refl s

theorem driveAtExpiry_causes (s : State) : CausesStay s (driveAtExpiry s) := by
  obtain ⟨_, _, e⟩ := driveAtExpiry_form s
  exact .of_path (by rw [e])

theorem ageStation_causes (j : Station) (s : State) : CausesStay s (ageStation j s) := by
  unfold ageStation; dsimp only; split
  · exact fun i h => Path.setCause_keepsCauses s.env .peer _ i h
  · exact .of_path rfl

theorem ageAll_causes (l : List Station) (s : State) : CausesStay s (l.foldl (fun s j => ageStation j s) s) :=
  foldl_keeps (fun t => CausesStay s t) _ _ _ (fun t j _ h => h.trans (ageStation_causes j t)) (.refl s)

theorem silenceAccounting_causes (s : State) : CausesStay s (silenceAccounting s) := by
  unfold silenceAccounting; exact ageAll_causes allStations s

/-- A station that silence accounting takes from the present ones sets PEER, wherever it stands in the order. -/
theorem ageAll_peer (j : Station) (l : List Station) (s : State) (hj : j ∈ l) (present : (s.roster[j]).present = true)
    (gone : (ageEntry s.settings.silenceLimit s.roster[j]).present = false) :
    (l.foldl (fun s j => ageStation j s) s).path.att.causes.getLsbD 4 = true := by
  induction l generalizing s with
  | nil => exact nomatch hj
  | cons a l ih =>
    rw [List.foldl_cons]
    by_cases h : j = a
    · subst h
      have absent : (s.roster[j].present && !(ageEntry s.settings.silenceLimit s.roster[j]).present) = true := by
        rw [present, gone]; rfl
      refine ageAll_causes l _ 4 ?_
      unfold ageStation; dsimp only; rw [if_pos absent]
      exact Path.setCause_sets s.env .peer _
    · obtain ⟨roster, settings⟩ : (ageStation a s).roster = updAt s.roster a (ageEntry s.settings.silenceLimit)
          ∧ (ageStation a s).settings = s.settings := by
        unfold ageStation; dsimp only; split <;> exact ⟨rfl, rfl⟩
      have entry : (ageStation a s).roster[j] = s.roster[j] := by rw [roster, updAt_get, if_neg h]
      exact ih _ ((List.mem_cons.1 hj).resolve_left h) (by rw [entry]; exact present)
        (by rw [entry, settings]; exact gone)

/-- A station that falls silent at a boundary sets PEER (R61, R62). -/
theorem silenceAccounting_peer (s : State) (j : Station) (present : (s.roster[j]).present = true)
    (gone : ((silenceAccounting s).roster[j]).present = false) :
    (silenceAccounting s).path.att.causes.getLsbD 4 = true := by
  have all : ∀ j : Station, j ∈ allStations := by decide
  have aged : (silenceAccounting s).roster[j] = ageEntry s.settings.silenceLimit s.roster[j] := by
    obtain ⟨r, p, e, h⟩ := silenceAccounting_form s
    rw [e]; exact h j
  rw [aged] at gone
  have := ageAll_peer j allStations s (all j) present gone
  unfold silenceAccounting; exact this

/-- What follows silence accounting in the work of a boundary leaves the roster and keeps the causes. -/
theorem scaleRest_causes (s : State) :
    CausesStay s (driveAtExpiry (clearPhaseSet (stateWork (profileTest s))))
      ∧ (driveAtExpiry (clearPhaseSet (stateWork (profileTest s)))).roster = s.roster := by
  have h1 := profileTest_causes s
  obtain ⟨_, _, e1, _⟩ := profileTest_form s
  have r1 : (profileTest s).roster = s.roster := by rw [e1]
  clear e1
  generalize profileTest s = a at h1 r1 ⊢
  have h2 := stateWork_causes a
  obtain ⟨_, _, _, e2, _⟩ := stateWork_form a
  have r2 : (stateWork a).roster = a.roster := by rw [e2]
  clear e2
  generalize stateWork a = b at h2 r2 ⊢
  have h3 := driveAtExpiry_causes (clearPhaseSet b)
  obtain ⟨_, _, e3⟩ := driveAtExpiry_form (clearPhaseSet b)
  have r3 : (driveAtExpiry (clearPhaseSet b)).roster = b.roster := by rw [e3]; rfl
  exact ⟨(h1.trans h2).trans h3, (r3.trans r2).trans r1⟩

/-- The work of the roster and the Scale Controller at a boundary keeps the causes, and sets PEER for a station that
falls silent. -/
theorem scaleWork_causes (s : State) : CausesStay s (scaleWork s)
    ∧ (s.sc.state ≠ .quiet → ∀ j : Station, (s.roster[j]).present = true →
        ((scaleWork s).roster[j]).present = false → (scaleWork s).path.att.causes.getLsbD 4 = true) := by
  unfold scaleWork; split
  · rename_i q; exact ⟨.refl s, fun h => absurd q h⟩
  · have first : CausesStay s (silenceAccounting (clashTest s)) :=
      CausesStay.trans (t := clashTest s) (.of_path rfl) (silenceAccounting_causes (clashTest s))
    have peer := silenceAccounting_peer (clashTest s)
    generalize silenceAccounting (clashTest s) = a at first peer ⊢
    obtain ⟨rest, roster⟩ := scaleRest_causes a
    refine ⟨first.trans rest, fun _ j hj hg => rest 4 (peer j hj ?_)⟩
    have : (driveAtExpiry (clearPhaseSet (stateWork (profileTest a)))).roster[j] = a.roster[j] := by rw [roster]
    rw [← this]; exact hg

theorem errorTest_causes (l : Line) (s : State) : CausesStay s (errorTest l s) := by
  unfold errorTest; split
  · exact fun i h => (lineEffects_moves l _ _ _ _ _ _ _).causes i h
  · exact .refl s

end Sys2Proof.Machine.State
end

