-- ==== Sys2Proof/Laws/Choices.lean ====
section
/-!
SUPPORT. The writer's choice, its grants and the judging of a channel, each against the rule that the statements tell
(R146, R148, R155, R156).
-/
namespace Sys2Proof.Machine.Path

theorem fits_iff (r : Record) (b : CurrentBuffer) : fits r b = true ↔ b.fill + r.size ≤ b.len := decide_eq_true_iff

/-- Judging is R148. -/
theorem judgedTo_judgedChan (ch : Channel) : ch.JudgedTo (judgedChan false ch) := by
  refine ⟨fun h => judgedChan_of_ready h false, fun hs r rest hq => ⟨fun hc => ?_, fun b hb hf => ?_⟩⟩
  · have e : judgedChan false ch = stalledWith .noBuffer ch := by
      unfold judgedChan; rw [if_pos ⟨hs, rfl⟩]; split
      · rename_i h; rw [hq] at h; cases h
      · rfl
      · rename_i h; rw [hc] at h; cases h
    rw [e]; rfl
  · have nf : fits r b = false := by rw [Bool.eq_false_iff]; exact fun h => by have := (fits_iff r b).1 h; omega
    have e : judgedChan false ch
        = if hasClosedRoom ch then stalledIfNoBuffer (closedWith .full b ch) else stalledWith .closedFull ch := by
      unfold judgedChan; rw [if_pos ⟨hs, rfl⟩, hq, hb]; simp [nf]
    refine ⟨fun hr => ?_, fun hr => ?_⟩
    · rw [e, if_pos (hasClosedRoom_iff.2 hr)]
      unfold stalledIfNoBuffer
      cases hn : ch.next with
      | none => simp [closedWith, hn, hq, stalledWith, countClosure, CurrentBuffer.entry]
      | some n => simp [closedWith, hn, countClosure, CurrentBuffer.entry, freshBuffer, hs]
    · rw [e, if_neg (fun h => by have := hasClosedRoom_iff.1 h; omega)]; rfl

theorem requests_iff (ch : Channel) : requests ch = true ↔ ch.Requests := by
  unfold requests Channel.Requests
  split
  · rename_i r rest b h1 h2 h3 h4
    rw [fits_iff]
    exact ⟨fun h => ⟨h1, h4, r, rest, b, h2, h3, h⟩, fun ⟨_, _, r', _, b', h2', h3', h⟩ => by
      rw [h2] at h2'; rw [h3] at h3'; cases h2'; cases h3'; exact h⟩
  · rename_i hno
    refine ⟨fun h => (Bool.false_ne_true h).elim, fun ⟨h1, h4, r, rest, b, h2, h3, _⟩ => (hno r rest b h1 h2 h3 h4).elim⟩

theorem wants_iff (ch : Channel) : wants ch = true ↔ ch.Wants := by
  unfold wants Channel.Wants
  cases he : ch.ended with
  | false => simp [requests_iff]
  | true =>
    simp only [if_true, requests_iff]
    unfold rolled
    cases hq : ch.queue with
    | nil => simp [Channel.Requests, hq]
    | cons r rest =>
      cases hb : ch.current with
      | none => simp [Channel.Requests, hq, hb]
      | some b =>
        dsimp only
        by_cases hf : b.fill + r.size ≤ b.len
        · rw [if_pos (by simp [(fits_iff r b).2 hf])]
          refine ⟨.inl, fun h => h.elim id fun ⟨_, h1, h2, _, r', _, b', n, h3, h4, h5, _⟩ => ?_⟩
          cases h3; cases h4; omega
        · have nf : fits r b = false := by rw [Bool.eq_false_iff]; exact fun h => hf ((fits_iff r b).1 h)
          by_cases hr : ch.closed.length < 4
          · rw [if_neg (by simp [nf, hasClosedRoom_iff, hr])]
            cases hn : ch.next with
            | none =>
              simp [Channel.Requests, closedWith, hq, hb, hn, hf]
            | some n =>
              simp only [Channel.Requests, closedWith, hq, hb, hn]
              constructor
              · rintro ⟨h1, h2, r', rest', b', h3, h4, h5⟩
                cases h3; cases h4
                exact .inr ⟨trivial, h1, h2, hr, r, rest, b, n, rfl, rfl, by omega, rfl, by simpa [freshBuffer] using h5⟩
              · rintro (⟨_, _, r', _, b', h3, h4, h5⟩ | ⟨_, h1, h2, _, r', rest', b', n', h3, h4, h5, h6, h7⟩)
                · cases h3; cases h4; exact (hf h5).elim
                · cases h3; cases h4; cases h6
                  exact ⟨h1, h2, r, rest, freshBuffer n, rfl, rfl, by simpa [freshBuffer] using h7⟩
          · rw [if_pos (by simp [hasClosedRoom]; exact .inr (by simp [Config.closedCapacity]; omega))]
            exact ⟨.inl, fun h => h.elim id fun ⟨_, _, _, h, _⟩ => (hr h).elim⟩

/-- A channel that wants the writer has a head record and a current buffer; not ended, it requests. -/
theorem wants_requests {ch : Channel} (h : ch.Wants) (he : ch.ended = false) : ch.Requests :=
  h.elim id fun x => by rw [he] at x; cases x.1

theorem issue_fallsTo {k : Chan} {run : Nat} {p : Path} (h : p.chans[k].Requests) (he : p.chans[k].ended = false) :
    (issue k run p).FallsTo k run := by
  obtain ⟨_, _, r, rest, b, hq, hb, _⟩ := h
  have hw : issue k run p = blur { p with writer := .holding k run ⟨b.addr + b.fill, r.encode⟩ } := by
    unfold issue writeOf; rw [hq, hb]
  unfold FallsTo
  rw [issue_chans, if_neg (by rw [he]; simp)]
  exact ⟨r, rest, b, hq, hb, by rw [hw]; rfl⟩

theorem give_fallsTo {k : Chan} {run : Nat} {p : Path} (h : p.chans[k].Wants) : (give k run p).FallsTo k run := by
  unfold give
  cases he : (p.chans[k]).ended with
  | true => unfold FallsTo; rw [if_pos rfl, if_pos (by exact he)]
  | false => exact issue_fallsTo (wants_requests h he) he

theorem requester_some {e : Env} {passed : Option Chan} {u : Bool} {p : Path} {c : Chan}
    (h : requester e passed u p = some c) :
    p.chans[c].Wants ∧ passed ≠ some c ∧ e.cfg.urgent c = u
      ∧ ∀ j : Chan, p.chans[j].Wants → passed ≠ some j → e.cfg.urgent j = u → c ≤ j := by
  unfold requester at h
  rw [List.find?_eq_some_iff_append] at h
  obtain ⟨hc, pre, post, hl, hpre⟩ := h
  simp only [Bool.and_eq_true, wants_iff, beq_iff_eq, bne_iff_ne, ne_eq] at hc
  refine ⟨hc.1.1, hc.2, hc.1.2, fun j h1 h2 h3 => ?_⟩
  have sorted : allChans.Pairwise (· ≤ ·) := by decide
  rw [hl, List.pairwise_append] at sorted
  have hj : j ∈ pre ++ c :: post := hl ▸ mem_allChans j
  rcases List.mem_append.1 hj with hj | hj
  · have := hpre j hj
    simp [h3, h2] at this
    exact (Bool.false_ne_true (this.symm.trans ((wants_iff _).2 h1))).elim
  · rcases List.mem_cons.1 hj with rfl | hj
    · exact Nat.le_refl _
    · exact (List.pairwise_cons.1 sorted.2.1).1 j hj

theorem requester_none {e : Env} {passed : Option Chan} {u : Bool} {p : Path} (h : requester e passed u p = none)
    {j : Chan} (h1 : p.chans[j].Wants) (h2 : passed ≠ some j) : e.cfg.urgent j ≠ u := by
  intro h3
  unfold requester at h
  have := List.find?_eq_none.1 h j (mem_allChans j)
  simp [h3, h2] at this
  exact Bool.false_ne_true (this.symm.trans ((wants_iff _).2 h1))

/-- A grant is step 2 of R155; with no request it leaves the writer. -/
theorem grant_grants (e : Env) (passed : Option Chan) (p : Path) (hw : p.writer = .free) :
    (grant e passed p).Grants e.cfg.urgent passed := by
  unfold Grants
  dsimp only
  rw [grant_chans]
  unfold grant
  cases hu : requester e passed true p with
  | some c =>
    obtain ⟨h1, h2, h3, h4⟩ := requester_some hu
    refine ⟨fun h => (h c ⟨h1, h2⟩).elim, fun k hk hbest => ?_⟩
    have hck : c = k := by
      have a := (hbest c ⟨h1, h2⟩).1 h3
      exact Fin.le_antisymm (h4 k hk.1 hk.2 a) ((hbest c ⟨h1, h2⟩).2 (by rw [h3, a]))
    subst hck
    exact give_fallsTo h1
  | none =>
    cases hb : requester e passed false p with
    | some c =>
      obtain ⟨h1, h2, h3, h4⟩ := requester_some hb
      refine ⟨fun h => (h c ⟨h1, h2⟩).elim, fun k hk hbest => ?_⟩
      have hku : e.cfg.urgent k = false := by
        have := requester_none hu hk.1 hk.2; cases hx : e.cfg.urgent k <;> simp_all
      have hck : c = k := Fin.le_antisymm (h4 k hk.1 hk.2 hku) ((hbest c ⟨h1, h2⟩).2 (by rw [h3, hku]))
      subst hck
      exact give_fallsTo h1
    | none =>
      refine ⟨fun _ => hw, fun k hk _ => ?_⟩
      have a := requester_none hu hk.1 hk.2
      have b := requester_none hb hk.1 hk.2
      cases hx : e.cfg.urgent k <;> simp_all

/-- What R155 asks for the holder `c` to keep the writer; a stopped holder does not (R156). -/
def Keeps (e : Env) (c : Chan) (run : Nat) (stopped : Bool) (p : Path) : Prop :=
  stopped = false ∧ run < e.cfg.runLength c ∧ p.chans[c].Wants
    ∧ (e.cfg.urgent c = true ∨ ∀ k : Chan, p.chans[k].Wants → e.cfg.urgent k = false)

/-- The writer's choice at a completion (R155, R156). -/
theorem choose_rule (e : Env) (c : Chan) (run : Nat) (stopped : Bool) (p : Path) (hw : p.writer = .free) :
    (Keeps e c run stopped p → (choose e c run stopped p).FallsTo c (run + 1))
      ∧ (¬ Keeps e c run stopped p →
          (choose e c run stopped p).Grants e.cfg.urgent (if stopped then some c else none)) := by
  have key : (!stopped && wants p.chans[c] && decide (run < e.cfg.runLength c)
      && (e.cfg.urgent c || (requester e none true p).isNone)) = true ↔ Keeps e c run stopped p := by
    unfold Keeps
    simp only [Bool.and_eq_true, Bool.not_eq_true', wants_iff, decide_eq_true_eq, Bool.or_eq_true,
      Option.isNone_iff_eq_none]
    constructor
    · rintro ⟨⟨⟨h1, h2⟩, h3⟩, h4⟩
      refine ⟨h1, h3, h2, h4.imp id fun h k hk => ?_⟩
      have := requester_none h hk (by simp); cases hx : e.cfg.urgent k <;> simp_all
    · rintro ⟨h1, h3, h2, h4⟩
      refine ⟨⟨⟨h1, h2⟩, h3⟩, h4.imp id fun h => ?_⟩
      cases hr : requester e none true p with
      | none => rfl
      | some k => obtain ⟨a, _, b, _⟩ := requester_some hr; rw [h k a] at b; cases b
  unfold choose
  constructor
  · intro h; rw [if_pos (key.2 h)]; exact give_fallsTo h.2.2.1
  · intro h; rw [if_neg (fun x => h (key.1 x))]; exact grant_grants e _ p hw

/-- The instant has something left exactly when a channel is to be judged, a write is to be issued, or the writer is
free and a channel requests. -/
theorem unsettled_iff (p : Path) : p.unsettled = true ↔
    (∃ k : Chan, p.chans[k].ended = true) ∨ (∃ (c : Chan) (run : Nat), p.writer = .granted c run)
      ∨ (p.writer = .free ∧ ∃ c : Chan, p.chans[c].Requests) := by
  have any : ∀ f : Chan → Bool, allChans.any f = true ↔ ∃ k : Chan, f k = true := fun f =>
    ⟨fun h => by obtain ⟨k, _, h⟩ := List.any_eq_true.1 h; exact ⟨k, h⟩,
      fun ⟨k, h⟩ => List.any_eq_true.2 ⟨k, mem_allChans k, h⟩⟩
  unfold unsettled
  rw [Bool.or_eq_true, any]
  refine or_congr Iff.rfl ?_
  cases hw : p.writer with
  | free => simp [any, requests_iff]
  | holding c r w => simp
  | granted c r => simp
  | abandoned w => simp

/-- Every channel but the one that writes is judged, whatever its completion has left (R148). -/
theorem judgeAll_get (e : Env) (k : Chan) (p : Path) :
    (judgeAll e p).chans[k] = judgedChan (p.writing k) { p.chans[k] with ended := false } := by
  unfold judgeAll
  rw [serve_get, endNone_get]
  have : p.endNone.busy k = p.writing k := by
    unfold busy; rw [endNone_get]; show (p.writing k || false) = _; simp
  rw [this]

theorem judgeAll_writer (e : Env) (p : Path) : (judgeAll e p).writer = p.writer := serve_writer e p.endNone

theorem judgeAll_judges (e : Env) (k : Chan) (p : Path) :
    (p.writing k = true → (judgeAll e p).chans[k] = { p.chans[k] with ended := false })
      ∧ (p.writing k = false → Channel.JudgedTo { p.chans[k] with ended := false } (judgeAll e p).chans[k]) := by
  rw [judgeAll_get]
  exact ⟨fun h => by rw [h, judgedChan_busy], fun h => by rw [h]; exact judgedTo_judgedChan _⟩

/-- What POST BUFFER and TAKE CLOSED find (R148; log 18). -/
theorem judgeEnded_finds (e : Env) (c : Chan) (p : Path) : p.FindsChannel c (judgeEnded e c p).chans[c] := by
  unfold FindsChannel
  rw [judgeEnded_get]
  refine ⟨fun h => if_neg fun x => ?_, fun h => ?_⟩
  · rw [h] at x; exact nomatch x.2
  · rw [if_pos ⟨rfl, h⟩]
    exact ⟨fun w => by rw [w, judgedChan_busy], fun w => by rw [w]; exact judgedTo_judgedChan _⟩

/-- The writer once what the completions of an instant have left is taken: it still holds its write, or the write that it
has fallen to is issued (R155). -/
theorem finishAll_rule (e : Env) (p : Path) :
    (p.writer = .free → (finishAll e p).writer = .free)
      ∧ (∀ c run w, p.writer = .holding c run w → (finishAll e p).writer = .holding c run w)
      ∧ (∀ w, p.writer = .abandoned w → (finishAll e p).writer = .abandoned w)
      ∧ ∀ c run, p.writer = .granted c run →
          ((finishAll e p).chans[c].Requests → (finishAll e p).FallsTo c run ∧ (finishAll e p).chans[c].ended = false)
          ∧ (¬ (finishAll e p).chans[c].Requests → (finishAll e p).writer = .free) := by
  have hwr := judgeAll_writer e p
  have he : ∀ k : Chan, ((judgeAll e p).chans[k]).ended = false := fun k => by rw [judgeAll_get, judgedChan_ended]
  unfold finishAll; dsimp only
  generalize judgeAll e p = q at hwr he ⊢
  refine ⟨fun h => ?_, fun c run w h => ?_, fun w h => ?_, fun c run h => ?_⟩
  · rw [hwr, h]; exact hwr.trans h
  · rw [hwr, h]; exact hwr.trans h
  · rw [hwr, h]; exact hwr.trans h
  · rw [hwr, h]; dsimp only
    by_cases hr : q.chans[c].Requests
    · rw [if_pos ((requests_iff _).2 hr), issue_chans]
      exact ⟨fun _ => ⟨issue_fallsTo (p := { q with writer := .free }) hr (he c), he c⟩, fun x => (x hr).elim⟩
    · rw [if_neg (fun x => hr ((requests_iff _).1 x))]
      exact ⟨fun x => (hr x).elim, fun _ => rfl⟩

/-- The end of an instant: the channels judged, and the writer's part of it (R155, R156). -/
theorem settle_rule (e : Env) (p : Path) :
    (∀ k : Chan, (settle e p).chans[k] = judgedChan (p.writing k) { p.chans[k] with ended := false })
      ∧ (∀ c run w, p.writer = .holding c run w → (settle e p).writer = .holding c run w)
      ∧ (∀ w, p.writer = .abandoned w → (settle e p).writer = .abandoned w)
      ∧ (∀ c run, p.writer = .granted c run →
          ((settle e p).chans[c].Requests → (settle e p).FallsTo c run)
          ∧ (¬ (settle e p).chans[c].Requests → (settle e p).Grants e.cfg.urgent none))
      ∧ (p.writer = .free → (settle e p).Grants e.cfg.urgent none) := by
  have hwr := judgeAll_writer e p
  have hch : ∀ k : Chan, (judgeAll e p).chans[k] = judgedChan (p.writing k) { p.chans[k] with ended := false } :=
    fun k => judgeAll_get e k p
  have he : ∀ k : Chan, ((judgeAll e p).chans[k]).ended = false := fun k => by rw [hch, judgedChan_ended]
  have ends : settle e p = (match (finishAll e p).writer with
      | .free => grant e none (finishAll e p)
      | .granted .. => finishAll e p
      | .holding .. => finishAll e p
      | .abandoned _ => finishAll e p) := rfl
  refine ⟨fun k => by rw [settle_chans]; exact hch k, ?_⟩
  rw [ends]
  unfold finishAll; dsimp only
  generalize judgeAll e p = q at hwr he ⊢
  refine ⟨fun c run w h => ?_, fun w h => ?_, fun c run h => ?_, fun h => ?_⟩
  · rw [hwr, h]; dsimp only; rw [hwr, h]; exact hwr.trans h
  · rw [hwr, h]; dsimp only; rw [hwr, h]; exact hwr.trans h
  · rw [hwr, h]; dsimp only
    by_cases hr : q.chans[c].Requests
    · have hf : (issue c run { q with writer := .free }).FallsTo c run :=
        issue_fallsTo (p := { q with writer := .free }) hr (he c)
      rw [if_pos ((requests_iff _).2 hr)]
      have hw := hf
      unfold FallsTo at hw
      rw [issue_chans, if_neg (by show ¬(q.chans[c]).ended = true; rw [he]; simp)] at hw
      obtain ⟨_, _, _, _, _, hx⟩ := hw
      rw [hx]; dsimp only; rw [issue_chans]
      exact ⟨fun _ => hf, fun x => (x hr).elim⟩
    · rw [if_neg (fun x => hr ((requests_iff _).1 x))]; dsimp only; rw [grant_chans]
      exact ⟨fun x => (hr x).elim, fun _ => grant_grants e none _ rfl⟩
  · rw [hwr, h]; dsimp only; rw [hwr, h]
    exact grant_grants e none q (hwr.trans h)

end Sys2Proof.Machine.Path
end

