-- ==== Sys2Proof/Laws/Windows.lean ====
section
/-!
SUPPORT. Sequence windows: what each operation does to the slots, read by their distance ahead of N, and the law of a
tracking window.
-/
namespace Sys2Proof.Machine.SeqWindow

/-! ## Slots -/

theorem setSlot_slotAt (s i : Nat) (x : Slot) (w : SeqWindow) :
    (setSlot s x w).slotAt i = if i % 256 = s % 256 then x else w.slotAt i := by
  unfold setSlot slotAt
  show (updAt w.slots (slotIndex s) (fun _ => x))[slotIndex i] = _
  rw [updAt_get]
  have : slotIndex i = slotIndex s ↔ i % 256 = s % 256 := by
    unfold slotIndex; rw [Fin.ext_iff]; simp [Fin.ofNat]
  by_cases h : i % 256 = s % 256
  · rw [if_pos (this.2 h), if_pos h]
  · rw [if_neg (fun e => h (this.1 e)), if_neg h]

theorem slotAt_congr (w : SeqWindow) {i j : Nat} (h : i % 256 = j % 256) : w.slotAt i = w.slotAt j := by
  have : slotIndex i = slotIndex j := by unfold slotIndex; rw [Fin.ext_iff]; simp [Fin.ofNat, h]
  show w.slots[slotIndex i] = w.slots[slotIndex j]
  simp only [this]

/-- The widths of R115 that a window can have: a slot is found from a number of that width. -/
structure Width (bits : Nat) : Prop where
  dvd : 2 ^ bits % 256 = 0
  big : 65536 ≤ 2 ^ bits

theorem width_of {bits : Nat} (h : bits = 16 ∨ bits = 32 ∨ bits = 64) : Width bits := by
  rcases h with h | h | h <;> subst h <;> exact ⟨by decide, by decide⟩

theorem Width.mod {bits : Nat} (hb : Width bits) (i : Nat) : i % 2 ^ bits % 256 = i % 256 :=
  Nat.mod_mod_of_dvd i (Nat.dvd_of_mod_eq_zero hb.dvd)

theorem Width.mod_add {bits : Nat} (hb : Width bits) (i d : Nat) : (i % 2 ^ bits + d) % 256 = (i + d) % 256 := by
  rw [Nat.add_mod, hb.mod, ← Nat.add_mod]

theorem Width.pos {bits : Nat} (hb : Width bits) : 0 < 2 ^ bits := by have := hb.big; omega

/-- The slot of N + d. -/
def off (w : SeqWindow) (d : Nat) : Slot := w.slotAt (w.n + d)

theorem ahead_off {bits : Nat} (hb : Width bits) (w : SeqWindow) (d : Nat) : w.slotAt (w.ahead bits d) = w.off d :=
  slotAt_congr w (hb.mod _)

theorem setSlot_off (x : Slot) (w : SeqWindow) {d : Nat} (h1 : 1 ≤ d) (h2 : d ≤ 255) :
    (setSlot w.n x w).off d = w.off d := by
  show (setSlot w.n x w).slotAt (w.n + d) = _
  rw [setSlot_slotAt, if_neg (by omega)]; rfl

/-- N moves on by one (R114). -/
theorem stepN_off {bits : Nat} (hb : Width bits) (w : SeqWindow) {d : Nat} (hd : d ≤ 255) :
    (stepN bits w).off d = if d = 127 then .unseen else w.off (d + 1) := by
  show (setSlot (w.ahead bits 128) .unseen { w with n := w.ahead bits 1 }).slotAt (w.ahead bits 1 + d) = _
  rw [setSlot_slotAt]
  have e1 : (w.ahead bits 1 + d) % 256 = (w.n + 1 + d) % 256 := hb.mod_add _ _
  have e2 : w.ahead bits 128 % 256 = (w.n + 128) % 256 := hb.mod _
  rw [e1, e2]
  by_cases h : d = 127
  · rw [if_pos (by omega), if_pos h]
  · rw [if_neg (by omega), if_neg h]
    exact slotAt_congr w (by rw [e1]; omega)

/-! ## The law -/

/-- UNSEEN or FIRST: what a slot ahead of N can be (R114). -/
def Open (x : Slot) : Prop := x = .unseen ∨ isFirst x = true

theorem law_iff {bits : Nat} (hb : Width bits) (w : SeqWindow) :
    w.Law bits ↔ w.n < 2 ^ bits ∧ w.off 0 = .unseen ∧ (∀ d, 1 ≤ d → d ≤ 127 → Open (w.off d))
      ∧ (w.holeSince.isSome = true ↔ ∃ d, 1 ≤ d ∧ d ≤ 127 ∧ isFirst (w.off d) = true)
      ∧ w.deadline = w.holeSince.map (· + w.timeout) := by
  unfold Law Open; simp only [ahead_off hb]; rfl

theorem stepN_open {bits : Nat} (hb : Width bits) (w : SeqWindow) (h : ∀ d, 1 ≤ d → d ≤ 127 → Open (w.off d))
    (d : Nat) (hd : d ≤ 127) : Open ((stepN bits w).off d) := by
  rw [stepN_off hb w (by omega)]; split
  · exact .inl rfl
  · exact h (d + 1) (by omega) (by omega)

/-- N runs on to a slot that is UNSEEN (R122, R128). -/
theorem runOn_open {bits : Nat} (hb : Width bits) : ∀ (fuel j : Nat) (w : SeqWindow),
    (∀ d, d ≤ 127 → Open (w.off d)) → (∀ d, 128 - j ≤ d → d ≤ 127 → w.off d = .unseen) → 128 ≤ fuel + j →
    w.n < 2 ^ bits →
    (∀ d, d ≤ 127 → Open ((runOn bits fuel w).off d)) ∧ (runOn bits fuel w).off 0 = .unseen
      ∧ (runOn bits fuel w).n < 2 ^ bits ∧ (runOn bits fuel w).timeout = w.timeout
      ∧ (runOn bits fuel w).tracking = w.tracking := by
  intro fuel
  induction fuel with
  | zero => intro j w ha hu hf hn; exact ⟨ha, hu 0 (by omega) (by omega), hn, rfl, rfl⟩
  | succ fuel ih =>
    intro j w ha hu hf hn
    unfold runOn; split
    · refine ih (j + 1) (stepN bits w) (stepN_open hb w fun d _ hd => ha d hd) (fun d h1 h2 => ?_) (by omega)
        (Nat.mod_lt _ hb.pos)
      rw [stepN_off hb w (by omega)]; split
      · rfl
      · exact hu (d + 1) (by omega) (by omega)
    · rename_i h
      exact ⟨ha, (ha 0 (by omega)).resolve_right h, hn, rfl, rfl⟩

theorem firstAhead_isSome {bits : Nat} (hb : Width bits) (w : SeqWindow) :
    (firstAhead bits w).isSome = true ↔ ∃ d, 1 ≤ d ∧ d ≤ 127 ∧ isFirst (w.off d) = true := by
  unfold firstAhead
  rw [List.find?_isSome]
  constructor
  · rintro ⟨x, hx, hp⟩
    obtain ⟨a, ha, rfl⟩ := List.mem_map.1 hx
    rw [List.mem_range] at ha
    exact ⟨a + 1, by omega, by omega, by rw [← ahead_off hb]; exact hp⟩
  · rintro ⟨d, h1, h2, h3⟩
    refine ⟨d, List.mem_map.2 ⟨d - 1, by rw [List.mem_range]; omega, by omega⟩, ?_⟩
    rw [← ahead_off hb] at h3; exact h3

theorem firstAhead_some {bits : Nat} (hb : Width bits) (w : SeqWindow) {k : Nat} (h : firstAhead bits w = some k) :
    1 ≤ k ∧ k ≤ 127 ∧ isFirst (w.off k) = true ∧ ∀ d, 1 ≤ d → d < k → isFirst (w.off d) = false := by
  unfold firstAhead at h
  rw [List.find?_map] at h
  cases hx : List.find? ((fun d => isFirst (w.slotAt (w.ahead bits d))) ∘ (· + 1)) (List.range 127) with
  | none => rw [hx] at h; cases h
  | some i =>
    rw [hx] at h; cases h
    rw [List.find?_range_eq_some] at hx
    obtain ⟨h1, h2, h3⟩ := hx
    rw [List.mem_range] at h2
    dsimp only
    refine ⟨by omega, by omega, by rw [← ahead_off hb]; exact h1, fun d hd1 hd2 => ?_⟩
    have := h3 (d - 1) (by omega)
    rw [← ahead_off hb]
    simp only [Function.comp] at this
    rw [show d - 1 + 1 = d by omega] at this
    simpa using this

/-- The law holds after N has stopped at an UNSEEN slot (R122, R128). -/
theorem holeFrom_law {bits : Nat} (hb : Width bits) (t : Nat) (w : SeqWindow) (ha : ∀ d, d ≤ 127 → Open (w.off d))
    (h0 : w.off 0 = .unseen) (hn : w.n < 2 ^ bits) : (holeFrom bits t w).Law bits := by
  rw [law_iff hb]
  refine ⟨hn, h0, fun d _ h => ha d h, ?_, rfl⟩
  show (if (firstAhead bits w).isSome then some t else none).isSome = true ↔
    ∃ d, 1 ≤ d ∧ d ≤ 127 ∧ isFirst (w.off d) = true
  rw [← firstAhead_isSome hb]
  cases (firstAhead bits w).isSome <;> simp

theorem holeFrom_since (bits t : Nat) (w : SeqWindow) :
    (holeFrom bits t w).holeSince = none ∨ (holeFrom bits t w).holeSince = some t := by
  show (if (firstAhead bits w).isSome then some t else none) = none ∨ _ = some t
  by_cases hx : (firstAhead bits w).isSome = true
  · exact .inr (if_pos hx)
  · exact .inl (if_neg hx)

/-! ## The operations of naming -/

/-- A record with s = N keeps the law (R122). -/
theorem advance_law {bits : Nat} (hb : Width bits) (b : Bool) (t : Nat) (w : SeqWindow) (hl : w.Law bits) :
    (w.advance bits b t).Law bits ∧ (w.advance bits b t).timeout = w.timeout
      ∧ (w.advance bits b t).tracking = w.tracking := by
  obtain ⟨hn, h0, hp, hh, hd⟩ := (law_iff hb w).1 hl
  have ha := stepN_open hb (setSlot w.n (.first b t) w) fun d h1 h2 => by
    rw [setSlot_off _ _ h1 (by omega)]; exact hp d h1 h2
  obtain ⟨a1, a2, a3, a4, a5⟩ := runOn_open hb 256 0 (stepN bits (setSlot w.n (.first b t) w)) ha
    (fun d h1 h2 => by omega) (by omega) (Nat.mod_lt _ hb.pos)
  exact ⟨holeFrom_law hb t _ a1 a2 a3, a4, a5⟩

theorem seed_slotAt (bits s : Nat) (b : Bool) (t : Nat) (w : SeqWindow) (i : Nat) :
    (w.seed bits s b t).slotAt i = if i % 256 = s % 256 then .first b t else .unseen := by
  have h := setSlot_slotAt s i (.first b t) { w with slots := Vector.replicate 256 .unseen }
  have h2 : slotAt { w with slots := Vector.replicate 256 Slot.unseen } i = .unseen := replicate_get _ _
  rw [h2] at h; exact h

/-- A seeded window has the law (R121, R125). -/
theorem seed_law {bits : Nat} (hb : Width bits) (s : Nat) (b : Bool) (t : Nat) (w : SeqWindow) :
    (w.seed bits s b t).Law bits := by
  have hat : ∀ d, d ≤ 127 → (w.seed bits s b t).off d = .unseen := by
    intro d hd
    show (w.seed bits s b t).slotAt ((s + 1) % 2 ^ bits + d) = _
    rw [seed_slotAt, if_neg]
    rw [hb.mod_add]; omega
  rw [law_iff hb]
  refine ⟨Nat.mod_lt _ hb.pos, hat 0 (by omega), fun d _ h => .inl (hat d h), ?_, rfl⟩
  constructor
  · intro h; cases h
  · rintro ⟨d, h1, h2, h3⟩; rw [hat d h2] at h3; cases h3

/-- A number at a distance ahead (R115). -/
theorem ahead_of_modDist {bits : Nat} (hb : Width bits) {a n d : Nat} (ha : a < 2 ^ bits) (hn : n < 2 ^ bits)
    (hd : modDist bits a n = d) : n = (a + d) % 2 ^ bits := by
  unfold modDist at hd; dsimp only at hd
  have hM := hb.big
  rw [Nat.mod_eq_of_lt ha] at hd
  have hi : (2 : Int) ^ bits = ((2 ^ bits : Nat) : Int) := by push_cast; rfl
  rw [hi] at hd
  generalize 2 ^ bits = M at *
  have hlt := Nat.mod_lt (n + M - a) (show 0 < M by omega)
  generalize hR : (n + M - a) % M = R at *
  have h : R = d := by split at hd <;> omega
  subst h
  rcases Nat.lt_or_ge n a with hh | hh
  · rw [Nat.mod_eq_of_lt (by omega)] at hR
    have : a + R = n + M := by omega
    rw [this, Nat.add_mod_right, Nat.mod_eq_of_lt hn]
  · have e : n + M - a = (n - a) + M := by omega
    rw [e, Nat.add_mod_right, Nat.mod_eq_of_lt (by omega)] at hR
    have : a + R = n := by omega
    rw [this, Nat.mod_eq_of_lt hn]

/-- A number at a distance behind: the slot it stands in (R115, log 29). -/
theorem behind_of_modDist {bits : Nat} (hb : Width bits) {a n d : Nat} (ha : a < 2 ^ bits) (hn : n < 2 ^ bits)
    (hd : modDist bits a n = -(d : Int)) (h1 : 1 ≤ d) : (n + d) % 256 = a % 256 := by
  unfold modDist at hd; dsimp only at hd
  have hM := hb.big; have hv := hb.dvd
  rw [Nat.mod_eq_of_lt ha] at hd
  have hi : (2 : Int) ^ bits = ((2 ^ bits : Nat) : Int) := by push_cast; rfl
  rw [hi] at hd
  generalize 2 ^ bits = M at *
  have hlt := Nat.mod_lt (n + M - a) (show 0 < M by omega)
  generalize hR : (n + M - a) % M = R at *
  have h : R + d = M := by split at hd <;> omega
  rcases Nat.lt_or_ge n a with hh | hh
  · rw [Nat.mod_eq_of_lt (by omega)] at hR
    have : a = n + d := by omega
    rw [this]
  · have e : n + M - a = (n - a) + M := by omega
    rw [e, Nat.add_mod_right, Nat.mod_eq_of_lt (by omega)] at hR
    have : n + d = a + M := by omega
    rw [this]; omega

/-! ## Gap declaration -/

/-- `k` numbers from N become LOST, N moving past each (R128). -/
theorem loseRun_slots {bits : Nat} (hb : Width bits) (dl : Nat) : ∀ (k : Nat) (w : SeqWindow), k ≤ 127 →
    (∀ d, d ≤ 127 → (loseRun bits dl k w).off d = if d + k ≤ 127 then w.off (d + k) else .unseen)
      ∧ (∀ d, d < k → (loseRun bits dl k w).slotAt (w.n + d) = .lost dl)
      ∧ (loseRun bits dl k w).n = (if k = 0 then w.n else (w.n + k) % 2 ^ bits)
      ∧ (loseRun bits dl k w).timeout = w.timeout ∧ (loseRun bits dl k w).tracking = w.tracking
      ∧ (∀ i, (∀ d, d < k → i % 256 ≠ (w.n + d) % 256) → (∀ d, d < k → i % 256 ≠ (w.n + 128 + d) % 256) →
          (loseRun bits dl k w).slotAt i = w.slotAt i) := by
  intro k
  induction k with
  | zero =>
    intro w _
    refine ⟨fun d hd => ?_, fun d hd => by omega, rfl, rfl, rfl, fun _ _ _ => rfl⟩
    rw [if_pos (by omega)]; rfl
  | succ k ih =>
    intro w hk
    obtain ⟨a, b, c, d, e, f⟩ := ih (stepN bits (setSlot w.n (.lost dl) w)) (by omega)
    have hn1 : (stepN bits (setSlot w.n (.lost dl) w)).n = (w.n + 1) % 2 ^ bits := rfl
    have hsl : ∀ i, (stepN bits (setSlot w.n (.lost dl) w)).slotAt i
        = if i % 256 = (w.n + 128) % 256 then .unseen else if i % 256 = w.n % 256 then .lost dl else w.slotAt i := by
      intro i
      unfold stepN
      rw [setSlot_slotAt]
      have : (setSlot w.n (.lost dl) w).ahead bits 128 % 256 = (w.n + 128) % 256 := hb.mod _
      rw [this]; split
      · rfl
      · exact setSlot_slotAt _ _ _ _
    have hm : ∀ d, ((w.n + 1) % 2 ^ bits + d) % 256 = (w.n + 1 + d) % 256 := fun d => hb.mod_add _ _
    have he : loseRun bits dl (k + 1) w = loseRun bits dl k (stepN bits (setSlot w.n (.lost dl) w)) := rfl
    rw [he]
    refine ⟨fun d hd => ?_, fun d hd => ?_, ?_, d, e, fun i h1 h2 => ?_⟩
    · rw [a d hd]
      by_cases h : d + k ≤ 127
      · rw [if_pos h, stepN_off hb _ (by omega)]
        by_cases h' : d + k = 127
        · rw [if_pos h', if_neg (by omega)]
        · rw [if_neg h', if_pos (by omega), setSlot_off _ _ (by omega) (by omega)]; rfl
      · rw [if_neg h, if_neg (by omega)]
    · by_cases h : d = 0
      · subst h
        rw [f]
        · rw [hsl, if_neg (by omega), if_pos (by omega)]
        · intro d hd; rw [hn1, hm]; omega
        · intro d hd; rw [hn1, Nat.add_assoc, hm]; omega
      · have := b (d - 1) (by omega)
        refine Eq.trans (slotAt_congr _ ?_) this
        rw [hn1, hm]; omega
    · rw [c, hn1, if_neg (show ¬ k + 1 = 0 by omega)]
      by_cases h : k = 0
      · rw [if_pos h, h]
      · rw [if_neg h, Nat.mod_add_mod]; congr 1; omega
    · rw [f i (fun d hd => ?_) (fun d hd => ?_), hsl, if_neg, if_neg]
      · have := h1 0 (by omega); simpa using this
      · have := h2 0 (by omega); simpa using this
      · have := h1 (d + 1) (by omega)
        rw [hn1, hm, show w.n + 1 + d = w.n + (d + 1) by omega]; exact this
      · have := h2 (d + 1) (by omega)
        rw [hn1, Nat.add_assoc, hm, show w.n + 1 + (128 + d) = w.n + 128 + (d + 1) by omega]; exact this

/-- N has moved on by `j` from where it stood in `w`, and nothing else (R114). -/
structure Moved (bits j : Nat) (w v : SeqWindow) : Prop where
  n : v.n = if j = 0 then w.n else (w.n + j) % 2 ^ bits
  slots : ∀ i, i ≤ 255 → v.slotAt (w.n + i) = if 128 ≤ i ∧ i < 128 + j then .unseen else w.slotAt (w.n + i)
  timeout : v.timeout = w.timeout
  tracking : v.tracking = w.tracking

theorem Moved.n_mod {bits j : Nat} {w v : SeqWindow} (hb : Width bits) (h : Moved bits j w v) (d : Nat) :
    (v.n + d) % 256 = (w.n + j + d) % 256 := by
  rw [h.n]; split
  · rename_i h; subst h; rfl
  · exact hb.mod_add _ _

theorem Moved.step {bits j : Nat} {w v : SeqWindow} (hb : Width bits) (h : Moved bits j w v) (hj : j < 128) :
    Moved bits (j + 1) w (stepN bits v) := by
  have hs : ∀ i, (stepN bits v).slotAt i = if i % 256 = (w.n + j + 128) % 256 then .unseen else v.slotAt i := by
    intro i
    unfold stepN; rw [setSlot_slotAt, show v.ahead bits 128 % 256 = (w.n + j + 128) % 256 from
      (hb.mod _).trans (h.n_mod hb 128)]; rfl
  refine ⟨?_, fun i hi => ?_, h.timeout, h.tracking⟩
  · show (v.n + 1) % 2 ^ bits = _
    rw [if_neg (show ¬ j + 1 = 0 by omega), h.n]; split
    · rename_i h0; rw [h0]
    · rw [Nat.mod_add_mod]; rfl
  · rw [hs, h.slots i hi]
    by_cases h1 : i = 128 + j
    · rw [if_pos (by omega), if_pos (by omega)]
    · rw [if_neg (by omega)]
      by_cases h2 : 128 ≤ i ∧ i < 128 + j
      · rw [if_pos h2, if_pos (by omega)]
      · rw [if_neg h2, if_neg (by omega)]

/-- Where N runs on to (R122, R128): past every FIRST slot to the first that is not, at most 128 numbers on. -/
theorem runOn_moved {bits : Nat} (hb : Width bits) (w : SeqWindow) : ∀ (fuel j : Nat) (v : SeqWindow),
    Moved bits j w v → j ≤ 128 → 129 ≤ fuel + j → (∀ i, i < j → isFirst (w.off i) = true) →
    ∃ k, j ≤ k ∧ k ≤ 128 ∧ Moved bits k w (runOn bits fuel v) ∧ (∀ i, i < k → isFirst (w.off i) = true)
      ∧ (k ≤ 127 → isFirst (w.off k) = false) := by
  intro fuel
  induction fuel with
  | zero => intro j v h hj hf; omega
  | succ fuel ih =>
    intro j v h hj hf hfirst
    have h0 : v.slotAt v.n = if j ≤ 127 then w.off j else .unseen := by
      have a := h.slots j (by omega)
      have b : v.slotAt v.n = v.slotAt (w.n + j) := slotAt_congr v (by simpa using h.n_mod hb 0)
      rw [b, a]
      by_cases hj7 : j ≤ 127
      · rw [if_neg (by omega), if_pos hj7]; rfl
      · rw [if_pos (by omega), if_neg hj7]
    unfold runOn
    rw [h0]
    by_cases hj7 : j ≤ 127
    · rw [if_pos hj7]
      by_cases hf1 : isFirst (w.off j) = true
      · rw [if_pos hf1]
        obtain ⟨k, a, b, c, d, e⟩ := ih (j + 1) _ (h.step hb (by omega)) (by omega) (by omega) fun i hi => by
          rcases Nat.lt_or_ge i j with hh | hh
          · exact hfirst i hh
          · have : i = j := by omega
            rw [this]; exact hf1
        exact ⟨k, by omega, b, c, d, e⟩
      · rw [if_neg hf1]
        exact ⟨j, Nat.le_refl _, hj, h, hfirst, fun _ => by simpa using hf1⟩
    · rw [if_neg hj7, if_neg (by simp [isFirst])]
      exact ⟨j, Nat.le_refl _, hj, h, hfirst, fun h => by omega⟩

/-- What one declaration at deadline `dl` makes of a lawful window (R128): the run below the lowest FIRST ahead is LOST,
N moves past the FIRST numbers that follow it, and a hole is open from `dl` when a FIRST lies further ahead. -/
theorem declared_slots {bits : Nat} (hb : Width bits) (w : SeqWindow) (dl : Nat) {k : Nat} (hl : w.Law bits)
    (hk : firstAhead bits w = some k) :
    (declared bits dl k w).Law bits ∧ (declared bits dl k w).timeout = w.timeout
      ∧ (declared bits dl k w).tracking = w.tracking
      ∧ ∃ j, k < j ∧ j ≤ 128 ∧ (∀ i, k ≤ i → i < j → isFirst (w.off i) = true)
        ∧ (j ≤ 127 → isFirst (w.off j) = false)
        ∧ (declared bits dl k w).n = (w.n + j) % 2 ^ bits
        ∧ (∀ i, i ≤ 255 → (declared bits dl k w).slotAt (w.n + i) =
            if i < k then .lost dl else if 128 ≤ i ∧ i < 128 + j then .unseen else w.slotAt (w.n + i))
        ∧ ((∃ i, j < i ∧ i ≤ 127 ∧ isFirst (w.off i) = true) → (declared bits dl k w).holeSince = some dl)
        ∧ ((∀ i, j < i → i ≤ 127 → isFirst (w.off i) = false) → (declared bits dl k w).holeSince = none) := by
  obtain ⟨hN, h0, hp, hh, hd⟩ := (law_iff hb w).1 hl
  obtain ⟨k1, k2, k3, _⟩ := firstAhead_some hb w hk
  obtain ⟨a, b, c, ct, ck, f⟩ := loseRun_slots hb dl k w k2
  rw [if_neg (by omega)] at c
  have vn : ∀ d, ((loseRun bits dl k w).n + d) % 256 = (w.n + k + d) % 256 := fun d => by rw [c]; exact hb.mod_add _ _
  have vslots : ∀ i, i ≤ 255 → (loseRun bits dl k w).slotAt (w.n + i) =
      if i < k then .lost dl else if 128 ≤ i ∧ i < 128 + k then .unseen else w.slotAt (w.n + i) := by
    intro i hi
    by_cases h1 : i < k
    · rw [if_pos h1]; exact b i h1
    · rw [if_neg h1]
      by_cases h2 : 128 ≤ i ∧ i < 128 + k
      · rw [if_pos h2]
        have := a (i - k) (by omega)
        rw [if_neg (by omega)] at this
        exact (slotAt_congr _ (by rw [vn]; omega)).trans this
      · rw [if_neg h2]; exact f _ (fun d hd => by omega) (fun d hd => by omega)
  have hva : ∀ d, d ≤ 127 → Open ((loseRun bits dl k w).off d) := by
    intro d hd; rw [a d hd]; split
    · exact hp _ (by omega) (by omega)
    · exact .inl rfl
  obtain ⟨m, _, m2, hm, m3, m4⟩ := runOn_moved hb (loseRun bits dl k w) 256 0 _ ⟨rfl, fun i hi => by
    rw [if_neg (by omega)], rfl, rfl⟩ (by omega) (by omega) (fun i hi => by omega)
  have m1 : 1 ≤ m := by
    rcases Nat.eq_zero_or_pos m with h | h
    · have := m4 (by omega)
      rw [h, a 0 (by omega), if_pos (by omega), Nat.zero_add, k3] at this; cases this
    · exact h
  have mk : k + m ≤ 128 := by
    have := m3 (m - 1) (by omega)
    rw [a (m - 1) (by omega)] at this
    by_cases h : m - 1 + k ≤ 127
    · omega
    · rw [if_neg h] at this; cases this
  obtain ⟨o1, o2, o3, o4, o5⟩ := runOn_open hb 256 0 _ hva (fun d h1 h2 => by omega) (by omega)
    (by rw [c]; exact Nat.mod_lt _ hb.pos)
  have first : ∀ i, k ≤ i → i < k + m → isFirst (w.off i) = true := by
    intro i h1 h2
    have := m3 (i - k) (by omega)
    rwa [a (i - k) (by omega), if_pos (by omega), show i - k + k = i by omega] at this
  have slots : ∀ i, i ≤ 255 → (runOn bits 256 (loseRun bits dl k w)).slotAt (w.n + i) =
      if i < k then .lost dl else if 128 ≤ i ∧ i < 128 + (k + m) then .unseen else w.slotAt (w.n + i) := by
    intro i hi
    have key : ∀ d, d ≤ 255 → (w.n + k + d) % 256 = (w.n + i) % 256 →
        (runOn bits 256 (loseRun bits dl k w)).slotAt (w.n + i) =
          if 128 ≤ d ∧ d < 128 + m then .unseen else (loseRun bits dl k w).slotAt (w.n + i) := by
      intro d hd he
      have e1 := slotAt_congr (runOn bits 256 (loseRun bits dl k w)) ((vn d).trans he)
      have e2 := slotAt_congr (loseRun bits dl k w) ((vn d).trans he)
      rw [← e1, hm.slots d hd, e2]
    rcases Nat.lt_or_ge i k with h1 | h1
    · rw [key (256 + i - k) (by omega) (by omega), if_neg (by omega), vslots i hi, if_pos h1, if_pos h1]
    · rw [key (i - k) (by omega) (by omega), vslots i hi]
      simp only [if_neg (show ¬ i < k by omega)]
      by_cases h2 : 128 ≤ i ∧ i < 128 + (k + m)
      · rw [if_pos h2]
        by_cases h3 : 128 ≤ i - k ∧ i - k < 128 + m
        · rw [if_pos h3]
        · rw [if_neg h3, if_pos (by omega)]
      · rw [if_neg h2, if_neg (by omega), if_neg (by omega)]
  have rn : (runOn bits 256 (loseRun bits dl k w)).n = (w.n + (k + m)) % 2 ^ bits := by
    rw [hm.n, if_neg (by omega), c, Nat.mod_add_mod, Nat.add_assoc]
  have ahead : ∀ d, 1 ≤ d → d ≤ 127 → (runOn bits 256 (loseRun bits dl k w)).off d
      = if k + m + d ≤ 127 then w.off (k + m + d) else .unseen := by
    intro d h1 h2
    have e : (runOn bits 256 (loseRun bits dl k w)).off d
        = (runOn bits 256 (loseRun bits dl k w)).slotAt (w.n + (k + m + d)) := by
      refine slotAt_congr _ ?_
      rw [rn, hb.mod_add, Nat.add_assoc]
    rw [e, slots _ (by omega), if_neg (by omega)]
    by_cases h : k + m + d ≤ 127
    · rw [if_neg (by omega), if_pos h]; rfl
    · rw [if_pos (by omega), if_neg h]
  have since : (declared bits dl k w).holeSince
      = if (firstAhead bits (runOn bits 256 (loseRun bits dl k w))).isSome then some dl else none := rfl
  refine ⟨holeFrom_law hb dl _ o1 o2 o3, o4.trans ct, o5.trans ck, k + m, by omega, mk, first, fun h => ?_, rn, slots,
    ?_, ?_⟩
  · have := m4 (by omega)
    rw [a m (by omega)] at this
    rw [if_pos (by omega)] at this
    rw [show k + m = m + k by omega]; exact this
  · rintro ⟨i, h1, h2, h3⟩
    rw [since, if_pos]
    refine (firstAhead_isSome hb _).2 ⟨i - (k + m), by omega, by omega, ?_⟩
    rw [ahead _ (by omega) (by omega), if_pos (by omega), show k + m + (i - (k + m)) = i by omega]; exact h3
  · intro h
    rw [since, if_neg]
    intro hx
    obtain ⟨d, h1, h2, h3⟩ := (firstAhead_isSome hb _).1 hx
    rw [ahead d h1 h2] at h3
    by_cases hh : k + m + d ≤ 127
    · rw [if_pos hh, h _ (by omega) hh] at h3; cases h3
    · rw [if_neg hh] at h3; cases h3

end Sys2Proof.Machine.SeqWindow
end

