-- ==== Sys2Proof/Laws/Deadlines.lean ====
section
/-!
SUPPORT. Declarations one after another (R128, R129): how many a window can make, and what the declaration of every
passed deadline does to each window.
-/
namespace Sys2Proof.Machine.Path
open SeqWindow

/-- One declaration of the run of `k` numbers (R128). -/
theorem declareOnce_eq {e : Env} {st : Stream} {p : Path} {d k : Nat} (hd : (p.arb.windows[st]).deadline = some d)
    (hk : firstAhead (e.cfg.seqBits st) p.arb.windows[st] = some k) :
    declareOnce e st p = offer e (e.cfg.channelOf st)
      (.gap st (p.arb.windows[st]).n k ((p.arb.windows[st]).holeSince.getD 0) d (oneLegged e.cfg p.arb.view st))
      (modStream st (fun c => { c with lost := addSat c.lost k, gaps := countUp c.gaps })
        (modWindow st (declared (e.cfg.seqBits st) d k) p)) := by
  unfold declareOnce; dsimp only; rw [hd, hk]

theorem modWindow_get (st j : Stream) (f : SeqWindow → SeqWindow) (p : Path) :
    (modWindow st f p).arb.windows[j] = if j = st then f p.arb.windows[st] else p.arb.windows[j] := updAt_get _ _ _ _

theorem modStream_get (st j : Stream) (f : StreamCounters → StreamCounters) (p : Path) :
    (modStream st f p).arb.counters[j] = if j = st then f p.arb.counters[st] else p.arb.counters[j] := updAt_get _ _ _ _

theorem declareWhile_succ (e : Env) (st : Stream) (n : Nat) (p : Path) : declareWhile e st (n + 1) p =
    if (p.arb.windows[st]).passed p.arb.time then declareWhile e st n (declareOnce e st p) else p := rfl

/-- What a declaration of stream `st` leaves of the arbiter. -/
structure Beside (st : Stream) (p q : Path) : Prop where
  time : q.arb.time = p.arb.time
  view : q.arb.view = p.arb.view
  windows : ∀ j : Stream, j ≠ st → q.arb.windows[j] = p.arb.windows[j]
  counters : ∀ j : Stream, j ≠ st → q.arb.counters[j] = p.arb.counters[j]

theorem Beside.refl (st : Stream) (p : Path) : Beside st p p := ⟨rfl, rfl, fun _ _ => rfl, fun _ _ => rfl⟩

theorem Beside.trans {st : Stream} {p q r : Path} (h : Beside st p q) (k : Beside st q r) : Beside st p r :=
  ⟨k.time.trans h.time, k.view.trans h.view, fun j hj => (k.windows j hj).trans (h.windows j hj),
    fun j hj => (k.counters j hj).trans (h.counters j hj)⟩

theorem declareOnce_beside (e : Env) (st : Stream) (p : Path) : Beside st p (declareOnce e st p) := by
  unfold declareOnce; dsimp only; split
  · refine ⟨by rw [offer_arb]; rfl, by rw [offer_arb]; rfl, fun j hj => ?_, fun j hj => ?_⟩
    · rw [offer_arb]; show (modWindow _ _ _).arb.windows[j] = _; rw [modWindow_get, if_neg hj]
    · rw [offer_arb, modStream_get, if_neg hj]; rfl
  · exact ⟨rfl, rfl, fun j hj => by rw [modWindow_get, if_neg hj], fun _ _ => rfl⟩

theorem declareWhile_beside (e : Env) (st : Stream) (n : Nat) (p : Path) : Beside st p (declareWhile e st n p) := by
  induction n generalizing p with
  | zero => exact .refl st p
  | succ n ih =>
    rw [declareWhile_succ]; split
    · exact (declareOnce_beside e st p).trans (ih _)
    · exact .refl st p

theorem declareOnce_arb (e : Env) (st : Stream) {p q : Path} (h1 : p.arb.windows[st] = q.arb.windows[st])
    (h2 : p.arb.counters[st] = q.arb.counters[st]) :
    (declareOnce e st p).arb.windows[st] = (declareOnce e st q).arb.windows[st]
      ∧ (declareOnce e st p).arb.counters[st] = (declareOnce e st q).arb.counters[st] := by
  have none_case : ∀ p : Path, (modWindow st (fun w => { w with holeSince := none, deadline := none }) p).arb.windows[st]
      = { p.arb.windows[st] with holeSince := none, deadline := none } := fun p => by rw [modWindow_get, if_pos rfl]
  unfold declareOnce; dsimp only
  rw [h1]
  cases hd : (q.arb.windows[st]).deadline with
  | none => exact ⟨by rw [none_case, none_case, h1], h2⟩
  | some d =>
    cases hk : firstAhead (e.cfg.seqBits st) q.arb.windows[st] with
    | none => exact ⟨by rw [none_case, none_case, h1], h2⟩
    | some k =>
      dsimp only
      rw [offer_arb, offer_arb, modStream_get, modStream_get, if_pos rfl, if_pos rfl]
      refine ⟨?_, ?_⟩
      · show (modWindow _ _ _).arb.windows[st] = (modWindow _ _ _).arb.windows[st]
        rw [modWindow_get, modWindow_get, if_pos rfl, if_pos rfl, h1]
      · have h2' : (modWindow st (declared (e.cfg.seqBits st) d k) p).arb.counters[st]
            = (modWindow st (declared (e.cfg.seqBits st) d k) q).arb.counters[st] := h2
        rw [h2']

/-- What a declaration makes of the arbiter depends on the arbiter alone. -/
theorem declareWhile_arb (e : Env) (st : Stream) (n : Nat) {p q : Path} (hw : p.arb.windows[st] = q.arb.windows[st])
    (hc : p.arb.counters[st] = q.arb.counters[st]) (ht : p.arb.time = q.arb.time) :
    (declareWhile e st n p).arb.windows[st] = (declareWhile e st n q).arb.windows[st]
      ∧ (declareWhile e st n p).arb.counters[st] = (declareWhile e st n q).arb.counters[st] := by
  induction n generalizing p q with
  | zero => exact ⟨hw, hc⟩
  | succ n ih =>
    rw [declareWhile_succ, declareWhile_succ, hw, ht]; split
    · exact ih (declareOnce_arb e st hw hc).1 (declareOnce_arb e st hw hc).2
        (by rw [(declareOnce_beside e st p).time, (declareOnce_beside e st q).time, ht])
    · exact ⟨hw, hc⟩

/-- No slot more than `n` ahead is FIRST. -/
def Top (n : Nat) (w : SeqWindow) : Prop := ∀ i, n < i → i ≤ 127 → isFirst (w.off i) = false

/-- A passed deadline of a lawful window has a run below it to declare (R127, R128). -/
theorem passed_first {bits : Nat} (hb : Width bits) {w : SeqWindow} {t : Nat} (hl : w.tracking = true → w.Law bits)
    (h : w.passed t = true) : ∃ d k, w.Law bits ∧ w.tracking = true ∧ w.deadline = some d ∧ d < t
      ∧ firstAhead bits w = some k := by
  unfold passed at h
  obtain ⟨ht, hd⟩ := Bool.and_eq_true_iff.1 h
  cases hdl : w.deadline with
  | none => rw [hdl] at hd; cases hd
  | some d =>
    rw [hdl] at hd
    have law := hl ht
    obtain ⟨_, _, _, hh, hdd⟩ := (law_iff hb w).1 law
    have : w.holeSince.isSome = true := by
      cases hs : w.holeSince with
      | none => rw [hs, hdl] at hdd; cases hdd
      | some x => rfl
    obtain ⟨k, hk⟩ := Option.isSome_iff_exists.1 ((firstAhead_isSome hb w).2 (hh.1 this))
    exact ⟨d, k, law, ht, rfl, by simpa using hd, hk⟩

/-- A declaration takes at least two numbers from those ahead (R128). -/
theorem declared_top {bits : Nat} (hb : Width bits) {w : SeqWindow} {dl k m : Nat} (hl : w.Law bits)
    (hk : firstAhead bits w = some k) (ht : Top (2 * (m + 1)) w) : Top (2 * m) (declared bits dl k w) := by
  obtain ⟨k1, _⟩ := firstAhead_some hb w hk
  obtain ⟨_, _, _, j, h1, h2, _, _, hn, hs, _⟩ := declared_slots hb w dl hl hk
  intro i hi hi7
  have e : (declared bits dl k w).off i = (declared bits dl k w).slotAt (w.n + (j + i)) := by
    refine slotAt_congr _ ?_
    rw [hn, hb.mod_add, Nat.add_assoc]
  rw [e, hs _ (by omega), if_neg (by omega)]
  by_cases h : j + i ≤ 127
  · rw [if_neg (by omega)]; exact ht (j + i) (by omega) h
  · rw [if_pos (by omega)]; rfl

/-- Declarations end: with nothing FIRST beyond `2 * m` ahead, `m` of them are enough (R129). -/
theorem declareWhile_ends {bits : Nat} (hb : Width bits) {e : Env} {st : Stream} (he : e.cfg.seqBits st = bits) :
    ∀ (m : Nat) (p : Path), ((p.arb.windows[st]).tracking = true → (p.arb.windows[st]).Law bits) →
      Top (2 * m) p.arb.windows[st] →
      (∀ n, m ≤ n → declareWhile e st n p = declareWhile e st m p)
        ∧ ((declareWhile e st m p).arb.windows[st]).passed p.arb.time = false
        ∧ (((declareWhile e st m p).arb.windows[st]).tracking = true →
            ((declareWhile e st m p).arb.windows[st]).Law bits) := by
  intro m
  induction m with
  | zero =>
    intro p hl ht
    have hp : (p.arb.windows[st]).passed p.arb.time = false := by
      rw [Bool.eq_false_iff]; intro h
      obtain ⟨d, k, _, _, _, _, hk⟩ := passed_first hb hl h
      obtain ⟨k1, k2, k3, _⟩ := firstAhead_some hb _ hk
      rw [ht k (by omega) k2] at k3; cases k3
    refine ⟨fun n _ => ?_, hp, hl⟩
    cases n with
    | zero => rfl
    | succ n => rw [declareWhile_succ, if_neg (by rw [hp]; simp)]; rfl
  | succ m ih =>
    intro p hl ht
    by_cases hp : (p.arb.windows[st]).passed p.arb.time = true
    · obtain ⟨d, k, law, tr, hd, _, hk⟩ := passed_first hb hl hp
      have w1 : (declareOnce e st p).arb.windows[st] = declared bits d k p.arb.windows[st] := by
        rw [declareOnce_eq hd (by rw [he]; exact hk), offer_arb]
        show (modWindow _ _ _).arb.windows[st] = _; rw [modWindow_get, if_pos rfl, he]
      obtain ⟨l1, _⟩ := declared_slots hb _ d law hk
      obtain ⟨a, b, c⟩ := ih (declareOnce e st p) (fun _ => by rw [w1]; exact l1)
        (by rw [w1]; exact declared_top hb law hk ht)
      have unroll : ∀ n, declareWhile e st (n + 1) p = declareWhile e st n (declareOnce e st p) := fun n => by
        rw [declareWhile_succ, if_pos hp]
      rw [unroll, ← (declareOnce_beside e st p).time]
      refine ⟨fun n hn => ?_, b, c⟩
      obtain ⟨n, rfl⟩ : ∃ i, n = i + 1 := ⟨n - 1, by omega⟩
      rw [unroll]; exact a n (by omega)
    · have same : ∀ n, declareWhile e st n p = p := fun n => by
        cases n with
        | zero => rfl
        | succ n => rw [declareWhile_succ, if_neg hp]
      rw [same]
      exact ⟨fun n _ => same n, by simpa using hp, hl⟩

/-- A declaration and then those that its new deadline asks for are the whole of it (R129); when it is done the deadline
is not passed. -/
theorem declareWindow_again {bits : Nat} (hb : Width bits) {e : Env} {st : Stream} (he : e.cfg.seqBits st = bits)
    (p : Path) (hl : (p.arb.windows[st]).tracking = true → (p.arb.windows[st]).Law bits) :
    ((p.arb.windows[st]).passed p.arb.time = true →
        declareWindow e st p = declareWindow e st (declareOnce e st p))
      ∧ ((p.arb.windows[st]).passed p.arb.time = false → declareWindow e st p = p)
      ∧ ((declareWindow e st p).arb.windows[st]).passed p.arb.time = false
      ∧ (((declareWindow e st p).arb.windows[st]).tracking = true →
          ((declareWindow e st p).arb.windows[st]).Law bits) := by
  have top : ∀ w : SeqWindow, Top (2 * 64) w := fun w i h1 h2 => by omega
  obtain ⟨a, b, c⟩ := declareWhile_ends hb he 64 p hl (top _)
  have e128 : declareWindow e st p = declareWhile e st 64 p := a 128 (by omega)
  refine ⟨fun hp => ?_, fun hp => ?_, by rw [e128]; exact b, by rw [e128]; exact c⟩
  · obtain ⟨d, k, law, tr, hd, _, hk⟩ := passed_first hb hl hp
    have w1 : (declareOnce e st p).arb.windows[st] = declared bits d k p.arb.windows[st] := by
      rw [declareOnce_eq hd (by rw [he]; exact hk), offer_arb]
      show (modWindow _ _ _).arb.windows[st] = _; rw [modWindow_get, if_pos rfl, he]
    obtain ⟨a1, _⟩ := declareWhile_ends hb he 64 (declareOnce e st p)
      (fun _ => by rw [w1]; exact (declared_slots hb _ d law hk).1) (top _)
    show declareWhile e st (127 + 1) p = declareWhile e st 128 _
    rw [declareWhile_succ, if_pos hp, a1 127 (by omega), a1 128 (by omega)]
  · show declareWhile e st (127 + 1) p = p
    rw [declareWhile_succ, if_neg (by rw [hp]; simp)]

/-- The declaration of every passed deadline does to each window what its own declaration does; a window whose deadline
is not passed, and its stream's counters, stay (R129). -/
theorem declareAll_window (e : Env) (p : Path) :
    (declareAll e p).arb.time = p.arb.time ∧ (declareAll e p).arb.view = p.arb.view
      ∧ ∀ st : Stream, (declareAll e p).arb.windows[st] = (declareWindow e st p).arb.windows[st]
        ∧ (declareAll e p).arb.counters[st] = (declareWindow e st p).arb.counters[st] := by
  have key : ∀ (l : List Stream) (q : Path), l.Nodup →
      (l.foldl (fun p st => declareWindow e st p) q).arb.time = q.arb.time
        ∧ (l.foldl (fun p st => declareWindow e st p) q).arb.view = q.arb.view
        ∧ ∀ st : Stream,
          ((l.foldl (fun p st => declareWindow e st p) q).arb.windows[st]
              = if st ∈ l then (declareWindow e st q).arb.windows[st] else q.arb.windows[st])
            ∧ ((l.foldl (fun p st => declareWindow e st p) q).arb.counters[st]
              = if st ∈ l then (declareWindow e st q).arb.counters[st] else q.arb.counters[st]) := by
    intro l
    induction l with
    | nil => intro q _; exact ⟨rfl, rfl, fun st => by simp⟩
    | cons x l ih =>
      intro q hl
      obtain ⟨hx, hl⟩ := List.nodup_cons.1 hl
      have b := declareWhile_beside e x 128 q
      obtain ⟨i1, i2, i3⟩ := ih (declareWindow e x q) hl
      refine ⟨i1.trans b.time, i2.trans b.view, fun st => ?_⟩
      rw [List.foldl_cons, (i3 st).1, (i3 st).2]
      by_cases h : st = x
      · subst h; simp [hx]
      · have w := declareWhile_arb e st 128 (p := declareWindow e x q) (q := q) (b.windows st h) (b.counters st h) b.time
        simp only [List.mem_cons, h, false_or]
        split
        · exact w
        · exact ⟨b.windows st h, b.counters st h⟩
  have nd : (freeOrder p.draws p.passedStreams).Nodup :=
    (freeOrder_perm _ _).nodup_iff.2 (List.Nodup.filter _ (List.nodup_finRange 64))
  obtain ⟨a, b, c⟩ := key _ { p with draws := p.draws + 1 } nd
  refine ⟨a, b, fun st => ?_⟩
  obtain ⟨c1, c2⟩ := c st
  have w := declareWhile_arb e st 128 (p := { p with draws := p.draws + 1 }) (q := p) rfl rfl rfl
  by_cases h : (p.arb.windows[st]).passed p.arb.time = true
  · have hm : st ∈ freeOrder p.draws p.passedStreams :=
      (freeOrder_perm _ _).mem_iff.2 (List.mem_filter.2 ⟨List.mem_finRange st, h⟩)
    rw [if_pos hm] at c1 c2
    exact ⟨c1.trans w.1, c2.trans w.2⟩
  · have hm : st ∉ freeOrder p.draws p.passedStreams := fun x =>
      h (List.mem_filter.1 ((freeOrder_perm _ _).mem_iff.1 x)).2
    rw [if_neg hm] at c1 c2
    have same : declareWindow e st p = p := by
      show declareWhile e st (127 + 1) p = p
      rw [declareWhile_succ, if_neg h]
    rw [same]; exact ⟨c1, c2⟩

end Sys2Proof.Machine.Path
end

