-- ==== Sys2Proof/Laws/HostMemory.lean ====
section
/-!
SUPPORT. What an operation of the Delivery Engine does to host memory (log 13): it may hide bytes under a write in
flight, and a good completion shows those of its write; and when judging changes nothing.
-/
namespace Sys2Proof.Machine.Path

/-- The address lies under none of the writes. -/
def Clear (a : Nat) (ws : List LinkWrite) : Prop := ∀ x ∈ ws, a < x.addr ∨ x.addr + x.bytes.length ≤ a

/-- Writes in flight stay in flight, and a byte under none of those in flight afterwards reads as before. -/
structure Blurs (p q : Path) : Prop where
  flight : ∀ x ∈ p.inFlightWrites, x ∈ q.inFlightWrites
  reads : ∀ a, Clear a q.inFlightWrites → Memory.read q.mem a = Memory.read p.mem a

theorem Blurs.refl (p : Path) : Blurs p p := ⟨fun _ h => h, fun _ _ => rfl⟩

theorem Blurs.trans {p q r : Path} (h : Blurs p q) (k : Blurs q r) : Blurs p r :=
  ⟨fun x hx => k.flight x (h.flight x hx), fun a ha => by
    rw [k.reads a ha, h.reads a fun x hx => ha x (k.flight x hx)]⟩

/-- An update that leaves the writer, the message and what is known of host memory. -/
theorem Blurs.of_same {p q : Path} (hw : q.writer = p.writer) (ha : q.att.message = p.att.message)
    (hm : q.mem = p.mem) : Blurs p q := by
  have same : q.inFlightWrites = p.inFlightWrites := by unfold inFlightWrites; rw [hw, ha]
  exact ⟨fun x hx => by rw [same]; exact hx, fun a _ => by rw [hm]⟩

theorem read_forgetWrites (ws : List LinkWrite) (m : List Host.Cell) (a : Nat) (h : Clear a ws) :
    Memory.read (ws.foldl (fun m w => forgetWrite w m) m) a = Memory.read m a := by
  induction ws generalizing m with
  | nil => rfl
  | cons w ws ih =>
    rw [List.foldl_cons, ih _ fun x hx => h x (List.mem_cons_of_mem _ hx)]
    exact Memory.read_forget_outside _ _ _ _ (h w List.mem_cons_self)

theorem blur_read (p : Path) (a : Nat) (h : Clear a p.inFlightWrites) :
    Memory.read (blur p).mem a = Memory.read p.mem a := read_forgetWrites _ _ a h

/-- A new write in flight hides its bytes. -/
theorem Blurs.issued {p q : Path} (hm : q.mem = p.mem) (hf : ∀ x ∈ p.inFlightWrites, x ∈ q.inFlightWrites) :
    Blurs p (blur q) := ⟨hf, fun a ha => by rw [blur_read q a ha, hm]⟩

theorem issueMessage_blurs (e : Env) {p : Path} (h : p.att.message = none) : Blurs p (issueMessage e p) := by
  unfold issueMessage
  refine Blurs.issued rfl fun x hx => ?_
  unfold inFlightWrites at hx ⊢
  rw [h] at hx
  simp only [Option.toList_none, List.append_nil] at hx
  exact List.mem_append_left _ hx

theorem trySend_blurs (e : Env) (p : Path) : Blurs p (trySend e p) := by
  unfold trySend
  split
  · dsimp only
    split
    · rename_i h
      exact Blurs.trans (q := { p with att := { p.att with armed := false } }) (.of_same rfl rfl rfl)
        (issueMessage_blurs e h)
    · exact Blurs.of_same rfl rfl rfl
  · exact .refl p

theorem setCause_blurs (e : Env) (k : Cause) (p : Path) : Blurs p (setCause e k p) :=
  Blurs.trans (q := { p with att := { p.att with causes := p.att.causes ||| k.mask } }) (.of_same rfl rfl rfl)
    (trySend_blurs e _)

theorem modChan_blurs (c : Chan) (f : Channel → Channel) (p : Path) : Blurs p (modChan c f p) := .of_same rfl rfl rfl

theorem returnBlocks_blurs (n : Nat) (p : Path) : Blurs p (returnBlocks n p) := .of_same rfl rfl rfl

theorem close_blurs (e : Env) (c : Chan) (r : ClosureReason) (p : Path) : Blurs p (close e c r p) := by
  unfold close
  split
  · exact .refl p
  · exact (modChan_blurs _ _ _).trans (setCause_blurs _ _ _)

theorem stall_blurs (e : Env) (c : Chan) (r : StallReason) (p : Path) : Blurs p (stall e c r p) :=
  (modChan_blurs _ _ _).trans (setCause_blurs _ _ _)

theorem stallIfNoBuffer_blurs (e : Env) (c : Chan) (p : Path) : Blurs p (stallIfNoBuffer e c p) := by
  unfold stallIfNoBuffer
  split
  · exact stall_blurs _ _ _ _
  · exact .refl p

theorem judge_blurs (e : Env) (c : Chan) (p : Path) : Blurs p (judge e c p) := by
  unfold judge
  dsimp only
  split
  · split
    · exact .refl p
    · exact stall_blurs _ _ _ _
    · split
      · exact .refl p
      · split
        · exact (close_blurs _ _ _ _).trans (stallIfNoBuffer_blurs _ _ _)
        · exact stall_blurs _ _ _ _
  · exact .refl p

theorem serve_blurs (e : Env) (p : Path) : Blurs p (serve e p) :=
  foldl_keeps (fun q => Blurs p q) _ _ _ (fun q c _ h => Blurs.trans h (judge_blurs e c q)) (.refl p)

theorem waitingClosure_blurs (e : Env) (c : Chan) (p : Path) : Blurs p (waitingClosure e c p) := by
  unfold waitingClosure
  dsimp only
  split
  · exact (close_blurs _ _ _ _).trans (modChan_blurs _ _ _)
  · split
    · split
      · exact (close_blurs _ _ _ _).trans (stall_blurs _ _ _ _)
      · exact (close_blurs _ _ _ _).trans (modChan_blurs _ _ _)
    · exact .refl p

theorem stopNow_blurs (e : Env) (c : Chan) (p : Path) : Blurs p (stopNow e c p) := by
  unfold stopNow
  dsimp only
  split
  · exact (close_blurs _ _ _ _).trans (modChan_blurs _ _ _)
  · exact modChan_blurs _ _ _

theorem flushNow_blurs (e : Env) (c : Chan) (p : Path) : Blurs p (flushNow e c p).1 := by
  unfold flushNow
  dsimp only
  split
  · exact modChan_blurs _ _ _
  · split
    · exact (modChan_blurs _ _ _).trans (close_blurs _ _ _ _)
    · exact modChan_blurs _ _ _

theorem pendingNow_blurs (e : Env) (c : Chan) (p : Path) : Blurs p (pendingNow e c p).1 := by
  unfold pendingNow
  split
  · exact .refl p
  · exact stopNow_blurs _ _ _
  · exact flushNow_blurs _ _ _

/-- The writer issues a write only with none of its own in flight. -/
theorem issue_blurs (c : Chan) (n : Nat) {p : Path} (h : p.writer = .free) : Blurs p (issue c n p) := by
  unfold issue
  split
  · refine Blurs.issued rfl fun x hx => ?_
    unfold inFlightWrites at hx ⊢
    rw [h] at hx
    exact List.mem_append_right _ hx
  · exact .refl p

theorem give_blurs (c : Chan) (n : Nat) {p : Path} (h : p.writer = .free) : Blurs p (give c n p) := by
  unfold give
  split
  · refine ⟨fun x hx => ?_, fun _ _ => rfl⟩
    unfold inFlightWrites at hx ⊢
    rw [h] at hx
    exact hx
  · exact issue_blurs _ _ h

theorem grant_blurs (e : Env) (k : Option Chan) {p : Path} (h : p.writer = .free) : Blurs p (grant e k p) := by
  unfold grant
  split
  · exact give_blurs _ _ h
  · exact .refl p

theorem choose_blurs (e : Env) (c : Chan) (n : Nat) (b : Bool) {p : Path} (h : p.writer = .free) :
    Blurs p (choose e c n b p) := by
  unfold choose
  split
  · exact give_blurs _ _ h
  · exact grant_blurs e _ h

/-- A grant that is not yet a write gives way to a free writer. -/
theorem freed_blurs {c : Chan} {n : Nat} {p : Path} (h : p.writer = .granted c n) :
    Blurs p { p with writer := .free } := by
  have same : Path.inFlightWrites { p with writer := .free } = p.inFlightWrites := by
    unfold inFlightWrites; rw [h]
  exact ⟨fun x hx => by rw [same]; exact hx, fun _ _ => rfl⟩

theorem revoke_blurs (e : Env) (c : Chan) (p : Path) : Blurs p (revoke e c p) := by
  unfold revoke
  split
  · rename_i h
    split
    · exact (freed_blurs h).trans (grant_blurs e _ rfl)
    · exact .refl p
  · exact .refl p
  · exact .refl p
  · exact .refl p

theorem judgeEnded_blurs (e : Env) (c : Chan) (p : Path) : Blurs p (judgeEnded e c p) := by
  unfold judgeEnded
  split
  · exact (modChan_blurs _ _ _).trans (judge_blurs _ _ _)
  · exact .refl p

theorem judgeAll_blurs (e : Env) (p : Path) : Blurs p (judgeAll e p) :=
  Blurs.trans (q := p.endNone) (.of_same rfl rfl rfl) (serve_blurs e _)

theorem finishAll_blurs (e : Env) (p : Path) : Blurs p (finishAll e p) := by
  have h1 := judgeAll_blurs e p
  unfold finishAll; dsimp only
  split
  · rename_i h
    split
    · exact (h1.trans (freed_blurs h)).trans (issue_blurs _ _ rfl)
    · exact h1.trans (freed_blurs h)
  all_goals exact h1

theorem settle_blurs (e : Env) (p : Path) : Blurs p (settle e p) := by
  have h1 := finishAll_blurs e p
  unfold settle; dsimp only
  split
  · rename_i h
    exact h1.trans (grant_blurs e _ h)
  all_goals exact h1

/-- A completed write in host memory: its bytes are there, but for those under a write in flight (R147). -/
theorem land_read (w : LinkWrite) (p : Path) (a : Nat) (h : Clear a (land w p).inFlightWrites) :
    Memory.read (land w p).mem a
      = if w.addr ≤ a ∧ a < w.addr + w.bytes.length then w.bytes[a - w.addr]? else Memory.read p.mem a := by
  rw [← Memory.read_write]
  exact blur_read { p with mem := Memory.write w.addr w.bytes p.mem } a h

/-- A write that ends with its bytes unknown leaves every byte outside it. -/
theorem forgetWrite_read (w : LinkWrite) (m : List Host.Cell) (a : Nat)
    (h : a < w.addr ∨ w.addr + w.bytes.length ≤ a) : Memory.read (forgetWrite w m) a = Memory.read m a :=
  Memory.read_forget_outside _ _ _ _ h

/-! ## Judging that changes nothing -/

theorem judge_of_still (e : Env) (c : Chan) (p : Path) (h : p.busy c = true ∨ (p.chans[c]).Ready) :
    judge e c p = p := by
  unfold judge
  dsimp only
  split
  · rename_i hr
    rcases h with h | h
    · rw [hr.2] at h; cases h
    · split
      · rfl
      · rename_i r rest hq hb
        obtain ⟨b, hb', _⟩ := h hr.1 r rest hq
        rw [hb] at hb'; cases hb'
      · rename_i r rest b hq hb
        obtain ⟨b', hb', hf⟩ := h hr.1 r rest hq
        rw [hb] at hb'; cases hb'
        exact if_pos (decide_eq_true hf)
  · rfl

/-- Judging the channels changes nothing when each is busy or such that R148 asks nothing of it. -/
theorem serve_of_still (e : Env) (p : Path) (h : ∀ c : Chan, p.busy c = true ∨ (p.chans[c]).Ready) :
    serve e p = p :=
  foldl_keeps (fun q => q = p) _ _ _
    (fun q c _ hq => by
      show judge e c q = p
      rw [hq]; exact judge_of_still e c p (h c)) rfl

/-- Judging every channel when R148 asks nothing of any but the one that writes. -/
theorem judgeAll_of_still (e : Env) (p : Path) (h : ∀ k : Chan, (p.chans[k]).Ready ∨ p.writing k = true) :
    judgeAll e p = p.endNone := by
  refine serve_of_still e p.endNone fun k => ?_
  rcases h k with x | x
  · right; rw [endNone_get]; exact x
  · left; unfold busy; rw [endNone_get]; show (p.writing k || _) = true; rw [x]; rfl

end Sys2Proof.Machine.Path
end

