-- ==== Sys2Proof/Laws/LineForms.lean ====
section
/-!
SUPPORT. What the line operations make of one port: the boundary's code-error test, the LOS change, the bytes of a
frame and a good frame.
-/
namespace Sys2Proof.Machine.State

theorem mem_allLines (l : Line) : l ∈ allLines := by revert l; decide

/-! ## The code-error test (R72) -/

theorem errorTest_get (l k : Line) (s : State) :
    (errorTest l s).lines[k] = if k = l then
        (match errorVerdict (s.settings.errorLimit l) s.lines[l] with
          | some v => { s.lines[l] with state := v.1, settle := none }
          | none => s.lines[l])
      else s.lines[k] := by
  unfold errorTest; split
  · rename_i h; rw [changeLine_get]
    split
    · rw [h]
    · rfl
  · rename_i h; split
    · rename_i e; subst e; rw [h]
    · rfl

theorem errorTest_settings (l : Line) (s : State) : (errorTest l s).settings = s.settings := by
  unfold errorTest; split <;> rfl

/-! ## A change of the qualified LOS (R69, R70) -/

/-- It touches no other line. -/
theorem losChanged_other (l k : Line) (h : k ≠ l) (s : State) :
    (losChanged l s).lines[k] = s.lines[k] ∧ (losChanged l s).settings = s.settings
      ∧ (losChanged l s).losPhase = s.losPhase := by
  have hab : (abortFrame l s).lines[k] = s.lines[k] ∧ (abortFrame l s).settings = s.settings
      ∧ (abortFrame l s).losPhase = s.losPhase := by
    unfold abortFrame; split
    · exact ⟨rfl, rfl, rfl⟩
    · exact ⟨by rw [modLine_get, if_neg h], rfl, rfl⟩
    · exact ⟨by rw [modPath_get, modLineCounters_get, if_neg h, modLine_get, if_neg h], rfl, rfl⟩
  unfold losChanged; split
  · unfold goDown; split
    · exact ⟨rfl, rfl, rfl⟩
    · exact ⟨rfl, rfl, rfl⟩
    all_goals exact ⟨by rw [changeLine_get, if_neg h, modLine_get, if_neg h, hab.1], hab.2.1, hab.2.2⟩
  · unfold trySettle; dsimp only; split
    · split
      · exact ⟨by rw [changeLine_get, if_neg h], rfl, rfl⟩
      · exact ⟨by rw [modLine_get, if_neg h, changeLine_get, if_neg h], rfl, rfl⟩
    · exact ⟨rfl, rfl, rfl⟩

/-- What the line's own port keeps, and the state it comes to. -/
theorem losChanged_self (l : Line) (s : State) (ho : (s.lines[l]).state ≠ .off) :
    ((losChanged l s).lines[l]).history = (s.lines[l]).history ∧ ((losChanged l s).lines[l]).los = (s.lines[l]).los
      ∧ ((losChanged l s).lines[l]).counters.losAssertions = (s.lines[l]).counters.losAssertions
      ∧ ((s.lines[l]).los = true → ((losChanged l s).lines[l]).state = .down)
      ∧ ((s.lines[l]).los = false → ((losChanged l s).lines[l]).state =
          if (s.lines[l]).state = .down ∧ (s.lines[l]).aligned = true then
            (if s.settings.settleTicks = 0 then .up else .settling)
          else (s.lines[l]).state) := by
  have hab : ((abortFrame l s).lines[l]).history = (s.lines[l]).history
      ∧ ((abortFrame l s).lines[l]).los = (s.lines[l]).los
      ∧ ((abortFrame l s).lines[l]).counters.losAssertions = (s.lines[l]).counters.losAssertions := by
    unfold abortFrame; split
    · exact ⟨rfl, rfl, rfl⟩
    · rw [modLine_get, if_pos rfl]; exact ⟨rfl, rfl, rfl⟩
    · rw [modPath_get, modLineCounters_get, if_pos rfl, modLine_get, if_pos rfl]; exact ⟨rfl, rfl, rfl⟩
  unfold losChanged; split
  · rename_i hl
    have hx : ∀ P : Prop, (s.lines[l]).los = false → P := fun P x => by rw [hl] at x; cases x
    unfold goDown; split
    · rename_i h; exact absurd h ho
    · rename_i h; exact ⟨rfl, rfl, rfl, fun _ => h, hx _⟩
    all_goals
      rw [changeLine_get, if_pos rfl, modLine_get, if_pos rfl]
      exact ⟨hab.1, hab.2.1, hab.2.2, fun _ => rfl, hx _⟩
  · rename_i hl
    have hx : ∀ P : Prop, (s.lines[l]).los = true → P := fun P x => absurd x hl
    unfold trySettle; dsimp only; split
    · rename_i hc
      split
      · rw [changeLine_get, if_pos rfl]
        exact ⟨rfl, rfl, rfl, hx _, fun _ => (if_pos ⟨hc.1, hc.2.2⟩).symm⟩
      · rw [modLine_get, if_pos rfl, changeLine_get, if_pos rfl]
        exact ⟨rfl, rfl, rfl, hx _, fun _ => (if_pos ⟨hc.1, hc.2.2⟩).symm⟩
    · rename_i hc
      exact ⟨rfl, rfl, rfl, hx _, fun h => (if_neg (fun x => hc ⟨x.1, h, x.2⟩)).symm⟩

/-! ## The bytes of a frame (R76) -/

theorem updAt_self {α : Type} {n : Nat} (v : Vector α n) (i : Fin n) (f : α → α) (h : f v[i] = v[i]) :
    updAt v i f = v := by
  unfold updAt; rw [h]
  ext j hj
  rw [Vector.getElem_set]; split
  · rename_i e; subst e; rfl
  · rfl

theorem setFrame_setFrame (l : Line) (f g : PortFrame) (s : State) :
    setFrame l f (setFrame l g s) = setFrame l f s := by
  unfold setFrame modLine updAt
  simp only [Vector.set_set]
  congr 1
  simp

theorem setFrame_self {l : Line} {f : PortFrame} {s : State} (h : (s.lines[l]).reception = .capturing f) :
    setFrame l f s = s := by
  unfold setFrame modLine
  rw [updAt_self]
  rw [← h]

theorem feed_stopped {l : Line} {s : State} (h : ∀ f, (s.lines[l]).reception ≠ .capturing f) (bs : List Byte) :
    feed l bs s = s := by
  cases bs with
  | nil => rfl
  | cons b bs =>
    unfold feed; split
    · rename_i f hf; exact absurd hf (h f)
    · rfl
    · rfl

theorem feed_cons {l : Line} {f : PortFrame} {s : State} (h : (s.lines[l]).reception = .capturing f) (b : Byte)
    (bs : List Byte) : feed l (b :: bs) s = feed l bs (takeByte l f b s) := by
  rw [show feed l (b :: bs) s = match (s.lines[l]).reception with
    | .capturing f => feed l bs (takeByte l f b s)
    | .idle => s
    | .skipping => s from rfl, h]

theorem feed_append (l : Line) (bs cs : List Byte) : ∀ s : State, feed l (bs ++ cs) s = feed l cs (feed l bs s) := by
  induction bs with
  | nil => intro s; rfl
  | cons b bs ih =>
    intro s
    cases h : (s.lines[l]).reception with
    | capturing f => rw [List.cons_append, feed_cons h, feed_cons h, ih]
    | idle =>
      have hn : ∀ f, (s.lines[l]).reception ≠ .capturing f := fun f => by rw [h]; simp
      rw [feed_stopped hn, feed_stopped hn, feed_stopped hn]
    | skipping =>
      have hn : ∀ f, (s.lines[l]).reception ≠ .capturing f := fun f => by rw [h]; simp
      rw [feed_stopped hn, feed_stopped hn, feed_stopped hn]

/-- Bytes that are all stored in the blocks held. -/
theorem feed_stored (l : Line) (bs : List Byte) : ∀ (f : PortFrame) (s : State),
    (s.lines[l]).reception = .capturing f → f.cut = false → f.stored + bs.length ≤ 128 * f.blocks →
    f.stored + bs.length ≤ s.settings.captureLen l → f.bytes.length + bs.length ≤ s.settings.ceiling l →
    feed l bs s = setFrame l { f with bytes := f.bytes ++ bs, stored := f.stored + bs.length } s := by
  induction bs with
  | nil =>
    intro f s h _ _ _ _
    simp only [List.append_nil, List.length_nil, Nat.add_zero]
    exact (setFrame_self h).symm
  | cons b bs ih =>
    intro f s h hc h1 h2 h3
    simp only [List.length_cons] at h1 h2 h3
    have : takeByte l f b s = setFrame l { f with bytes := f.bytes ++ [b], stored := f.stored + 1 } s := by
      unfold takeByte; rw [if_neg (by omega)]
      unfold storeByte; dsimp only
      rw [if_neg (by rw [hc]; simp; omega), if_neg]
      unfold needsBlock Config.blockBytes; rw [hc]; simp; omega
    rw [feed_cons h, this,
      ih { f with bytes := f.bytes ++ [b], stored := f.stored + 1 } _ (by rw [setFrame_get, if_pos rfl]) hc
        (by dsimp only; omega) (by show _ ≤ s.settings.captureLen l; dsimp only; omega)
        (by show _ ≤ s.settings.ceiling l; simp; omega),
      setFrame_setFrame]
    congr 1
    simp only [List.append_assoc, List.singleton_append, List.length_cons]
    congr 1; omega

/-- Bytes up to the ceiling none of which asks for a block: the bytes stored end at the capture length, where the frame
is not CUT and they come to it. -/
theorem feed_quiet (l : Line) (bs : List Byte) : ∀ (f : PortFrame) (s : State),
    (s.lines[l]).reception = .capturing f → f.bytes.length + bs.length ≤ s.settings.ceiling l →
    (f.cut = true ∨ min (f.stored + bs.length) (s.settings.captureLen l) ≤ 128 * f.blocks) →
    ∃ n, feed l bs s = setFrame l { f with bytes := f.bytes ++ bs, stored := n } s
      ∧ (f.cut = true ∨ s.settings.captureLen l ≤ n ∨ n = f.stored + bs.length) := by
  induction bs with
  | nil =>
    intro f s h _ _
    refine ⟨f.stored, ?_, .inr (.inr rfl)⟩
    simp only [List.append_nil]
    exact (setFrame_self h).symm
  | cons b bs ih =>
    intro f s h h3 hq
    simp only [List.length_cons] at h3 hq ⊢
    rw [feed_cons h]
    have next : ∃ m, takeByte l f b s = setFrame l { f with bytes := f.bytes ++ [b], stored := m } s
        ∧ (f.cut = true ∨ min (m + bs.length) (s.settings.captureLen l) ≤ 128 * f.blocks)
        ∧ (f.cut = true ∨ (s.settings.captureLen l ≤ f.stored ∧ m = f.stored) ∨ m = f.stored + 1) := by
      unfold takeByte; rw [if_neg (by omega)]
      unfold storeByte; dsimp only
      split
      · rename_i hh
        simp only [Bool.or_eq_true, decide_eq_true_eq] at hh
        exact ⟨f.stored, rfl, hq.imp id fun _ => by omega, hh.imp id fun x => .inl ⟨x, rfl⟩⟩
      · rename_i hh
        simp only [Bool.or_eq_true, decide_eq_true_eq, not_or, Bool.not_eq_true] at hh
        have room : min (f.stored + (bs.length + 1)) (s.settings.captureLen l) ≤ 128 * f.blocks :=
          hq.resolve_left (by rw [hh.1]; simp)
        rw [if_neg]
        · exact ⟨f.stored + 1, rfl, .inr (by omega), .inr (.inr rfl)⟩
        · unfold needsBlock Config.blockBytes
          simp only [Bool.and_eq_true, decide_eq_true_eq, not_and]
          omega
    obtain ⟨m, e, hq', hm⟩ := next
    obtain ⟨n, e2, hn⟩ := ih { f with bytes := f.bytes ++ [b], stored := m }
      (setFrame l { f with bytes := f.bytes ++ [b], stored := m } s) (by rw [setFrame_get, if_pos rfl])
      (by show _ ≤ s.settings.ceiling l; simp; omega) hq'
    refine ⟨n, ?_, ?_⟩
    · rw [e, e2, setFrame_setFrame]
      simp only [List.append_assoc, List.singleton_append]
    · replace hn : f.cut = true ∨ s.settings.captureLen l ≤ n ∨ n = m + bs.length := hn
      rcases hn with hn | hn | hn
      · exact .inl hn
      · exact .inr (.inl hn)
      · rcases hm with hm | hm | hm
        · exact .inl hm
        · exact .inr (.inl (by omega))
        · exact .inr (.inr (by omega))

/-! ## The Frame Store when a frame is dropped (R86, R106) -/

theorem offer_store_of_none (e : Env) (c : Chan) {r : Record} (p : Path) (h : r.blocks = 0) :
    (Path.offer e c r p).store = p.store := by
  unfold Path.offer; dsimp only; split
  · rfl
  · have : (Path.returnBlocks r.blocks (Path.modChan c (fun ch => Path.refused ch r) p)).store = p.store := by
      rw [h]; rfl
    split
    · rw [Path.setCause_store, this]
    · exact this

theorem declareOnce_store (e : Env) (st : Stream) (p : Path) : (Path.declareOnce e st p).store = p.store := by
  unfold Path.declareOnce; dsimp only; split
  · rw [offer_store_of_none e _ _ (by rfl)]; rfl
  · rfl

theorem declareAll_store (e : Env) (p : Path) : (Path.declareAll e p).store = p.store := by
  have key : ∀ (st : Stream) (n : Nat) (p : Path), (Path.declareWhile e st n p).store = p.store := by
    intro st n
    induction n with
    | zero => intro p; rfl
    | succ n ih =>
      intro p; unfold Path.declareWhile; split
      · rw [ih, declareOnce_store]
      · rfl
  unfold Path.declareAll
  exact foldl_keeps (fun q : Path => q.store = p.store) _ _ _ (fun q st _ h => (key st 128 q).trans h) rfl

theorem takeRecord_lowWater (e : Env) (f : Classified) (p : Path) :
    (Path.takeRecord e f p).store.lowWater = p.store.lowWater := by
  have hand : ∀ (n : Naming) (q : Path), (Path.handOn e f n q).store.lowWater = q.store.lowWater := by
    intro n q; unfold Path.handOn; dsimp only; split
    · rw [Path.offer_lowWater]; rfl
    · split
      · rfl
      · rw [Path.offer_lowWater]; rfl
    · rw [Path.offer_lowWater]; rfl
    · rw [Path.offer_lowWater]
      show (Path.offer _ _ _ _).store.lowWater = _
      rw [Path.offer_lowWater]; rfl
  have name : ∀ q : Path, (Path.nameAndHandOn e f q).store.lowWater = q.store.lowWater := by
    intro q; unfold Path.nameAndHandOn; split
    · exact hand _ _
    · split
      · rw [Path.offer_lowWater]; rfl
      · exact hand _ _
  unfold Path.takeRecord
  rw [name, declareAll_store]; rfl

/-- A frame dropped lowers no mark, and where no record is pending its blocks are free again at once. -/
theorem dropFrame_store (e : Env) (l : Line) (n : Nat) (p : Path) :
    (Path.dropFrame e l n p).store.lowWater = p.store.lowWater
      ∧ (p.merge.pending = [] → (Path.dropFrame e l n p).store.free = p.store.free + n) := by
  unfold Path.dropFrame Path.releaseAndOffer Path.offerHorizon
  rw [declareAll_store]
  show (Path.release e (Path.leaveInFlight l (Path.returnBlocks n p))).store.lowWater = _
    ∧ (_ → (Path.release e (Path.leaveInFlight l (Path.returnBlocks n p))).store.free = _)
  have store : (Path.leaveInFlight l (Path.returnBlocks n p)).store = { p.store with free := p.store.free + n } := rfl
  have pending : (Path.leaveInFlight l (Path.returnBlocks n p)).merge.pending = p.merge.pending := rfl
  generalize Path.leaveInFlight l (Path.returnBlocks n p) = q at store pending ⊢
  unfold Path.release; dsimp only
  refine ⟨?_, fun h => ?_⟩
  · rw [show p.store.lowWater = q.store.lowWater by rw [store]]
    exact foldl_keeps (fun x : Path => x.store.lowWater = q.store.lowWater) _ _ _
      (fun x f _ hx => (takeRecord_lowWater e f x).trans hx) rfl
  · rw [pending, h]
    exact congrArg FrameStore.free store

/-! ## A good frame (R104, R105) -/

theorem insertPending_length (f : Classified) (l : List Classified) :
    (insertPending f l).length = l.length + 1 := by
  induction l with
  | nil => rfl
  | cons g l ih => unfold insertPending; split <;> simp [ih]

theorem arrive_peak (e : Env) (r : Classified) (p : Path) :
    (Path.arrive e r p).merge.peak
      = if p.merge.pending.length < 512 then max p.merge.peak (p.merge.pending.length + 1) else p.merge.peak := by
  unfold Path.arrive; dsimp only
  rw [Path.releaseAndOffer_merge]
  unfold Path.pendingFull Config.pendingCapacity
  by_cases h : p.merge.pending.length < 512
  · rw [if_neg (by simpa using h), if_pos h]
    show max p.merge.peak (insertPending r p.merge.pending).length = _
    rw [insertPending_length]
  · rw [if_pos (by simpa using h), if_neg h]; rfl

end Sys2Proof.Machine.State
end

