-- ==== Sys2Proof/Laws/PerInstr.lean ====
section
/-!
SUPPORT. A statement about every command as syntax: a well-formed command about one byte of a frame brings no more bytes
than a frame in CAPTURING can have (R77), and at least the byte that its row is about.
-/
namespace Sys2Proof.Laws.Payload

/-- The bytes of a frame that a command about one of them brings. -/
def bytesOf : Instr → List Byte
  | .furtherBlockRequest _ bytes => bytes
  | .oversize _ bytes => bytes
  | _ => []

/-- The rows that are about one byte of a frame, the last they bring (R76, R77). -/
def asksAByte : Instr → Bool
  | .furtherBlockRequest _ _ | .oversize _ _ => true
  | _ => false

def Statement (i : Instr) : Prop :=
  i.wellFormed = true →
    (bytesOf i).length ≤ maxFrameBytes ∧ (asksAByte i = true → 0 < (bytesOf i).length)

theorem fullReset (straps : Station) (held : Bool) : Statement (.fullReset straps held) := fun _ =>
  ⟨Nat.zero_le _, fun h => nomatch h⟩

theorem lockSettings : Statement (.lockSettings) := fun _ =>
  ⟨Nat.zero_le _, fun h => nomatch h⟩

theorem joinCage : Statement (.joinCage) := fun _ =>
  ⟨Nat.zero_le _, fun h => nomatch h⟩

theorem leaveCage : Statement (.leaveCage) := fun _ =>
  ⟨Nat.zero_le _, fun h => nomatch h⟩

theorem captureReset : Statement (.captureReset) := fun _ =>
  ⟨Nat.zero_le _, fun h => nomatch h⟩

theorem clearCounters : Statement (.clearCounters) := fun _ =>
  ⟨Nat.zero_le _, fun h => nomatch h⟩

theorem startChannel (c : Chan) : Statement (.startChannel c) := fun _ =>
  ⟨Nat.zero_le _, fun h => nomatch h⟩

theorem stopChannel (c : Chan) : Statement (.stopChannel c) := fun _ =>
  ⟨Nat.zero_le _, fun h => nomatch h⟩

theorem flushChannel (c : Chan) : Statement (.flushChannel c) := fun _ =>
  ⟨Nat.zero_le _, fun h => nomatch h⟩

theorem postBuffer (c : Chan) : Statement (.postBuffer c) := fun _ =>
  ⟨Nat.zero_le _, fun h => nomatch h⟩

theorem takeClosed (c : Chan) : Statement (.takeClosed c) := fun _ =>
  ⟨Nat.zero_le _, fun h => nomatch h⟩

theorem armAttention : Statement (.armAttention) := fun _ =>
  ⟨Nat.zero_le _, fun h => nomatch h⟩

theorem unknownCommand (code : Byte) : Statement (.unknownCommand code) := fun _ =>
  ⟨Nat.zero_le _, fun h => nomatch h⟩

theorem settingsValueWrite (value : BitVec 64) : Statement (.settingsValueWrite value) := fun _ =>
  ⟨Nat.zero_le _, fun h => nomatch h⟩

theorem attentionCausesRead (offset size : Nat) : Statement (.attentionCausesRead offset size) := fun _ =>
  ⟨Nat.zero_le _, fun h => nomatch h⟩

theorem attentionEnablesWrite (value : BitVec 64) : Statement (.attentionEnablesWrite value) := fun _ =>
  ⟨Nat.zero_le _, fun h => nomatch h⟩

theorem registerWrite (offset size : Nat) (value : BitVec 64) : Statement (.registerWrite offset size value) := fun _ =>
  ⟨Nat.zero_le _, fun h => nomatch h⟩

theorem attentionMessageComplete (good : Bool) : Statement (.attentionMessageComplete good) := fun _ =>
  ⟨Nat.zero_le _, fun h => nomatch h⟩

theorem ownBoundary : Statement (.ownBoundary) := fun _ =>
  ⟨Nat.zero_le _, fun h => nomatch h⟩

theorem epoHalfPoint : Statement (.epoHalfPoint) := fun _ =>
  ⟨Nat.zero_le _, fun h => nomatch h⟩

theorem windowOpening : Statement (.windowOpening) := fun _ =>
  ⟨Nat.zero_le _, fun h => nomatch h⟩

theorem windowClose : Statement (.windowClose) := fun _ =>
  ⟨Nat.zero_le _, fun h => nomatch h⟩

theorem markHoldEnd : Statement (.markHoldEnd) := fun _ =>
  ⟨Nat.zero_le _, fun h => nomatch h⟩

theorem markLineRise : Statement (.markLineRise) := fun _ =>
  ⟨Nat.zero_le _, fun h => nomatch h⟩

theorem markLineFall : Statement (.markLineFall) := fun _ =>
  ⟨Nat.zero_le _, fun h => nomatch h⟩

theorem pulseWatchRearm : Statement (.pulseWatchRearm) := fun _ =>
  ⟨Nat.zero_le _, fun h => nomatch h⟩

theorem noticeSend (act : NoticeAct) : Statement (.noticeSend act) := fun _ =>
  ⟨Nat.zero_le _, fun h => nomatch h⟩

theorem noticeReceive (samples : BitVec 112) : Statement (.noticeReceive samples) := fun _ =>
  ⟨Nat.zero_le _, fun h => nomatch h⟩

theorem losSample (levels : BitVec 8) : Statement (.losSample levels) := fun _ =>
  ⟨Nat.zero_le _, fun h => nomatch h⟩

theorem receiverAligned (l : Line) : Statement (.receiverAligned l) := fun _ =>
  ⟨Nat.zero_le _, fun h => nomatch h⟩

theorem receiverNotAligned (l : Line) : Statement (.receiverNotAligned l) := fun _ =>
  ⟨Nat.zero_le _, fun h => nomatch h⟩

theorem settleTimeout (l : Line) : Statement (.settleTimeout l) := fun _ =>
  ⟨Nat.zero_le _, fun h => nomatch h⟩

theorem codeError (l : Line) : Statement (.codeError l) := fun _ =>
  ⟨Nat.zero_le _, fun h => nomatch h⟩

theorem frameStart (l : Line) : Statement (.frameStart l) := fun _ =>
  ⟨Nat.zero_le _, fun h => nomatch h⟩

theorem furtherBlockRequest (l : Line) (bytes : List Byte) : Statement (.furtherBlockRequest l bytes) := fun h => by
  simpa [Instr.wellFormed, bytesOf, asksAByte, and_comm] using h

theorem oversize (l : Line) (bytes : List Byte) : Statement (.oversize l bytes) := fun h => by
  simpa [Instr.wellFormed, bytesOf, asksAByte, and_comm] using h

theorem frameEnd (l : Line) (bytes : List Byte) (clean : Bool) : Statement (.frameEnd l bytes clean) := fun _ =>
  ⟨Nat.zero_le _, fun h => nomatch h⟩

theorem gapDeclaration (stream : Stream) : Statement (.gapDeclaration stream) := fun _ =>
  ⟨Nat.zero_le _, fun h => nomatch h⟩

theorem writeCompleteGood : Statement (.writeCompleteGood) := fun _ =>
  ⟨Nat.zero_le _, fun h => nomatch h⟩

theorem writeCompleteFailed : Statement (.writeCompleteFailed) := fun _ =>
  ⟨Nat.zero_le _, fun h => nomatch h⟩

theorem abandonedWriteComplete : Statement (.abandonedWriteComplete) := fun _ =>
  ⟨Nat.zero_le _, fun h => nomatch h⟩

theorem idleFlushExpiry (c : Chan) : Statement (.idleFlushExpiry c) := fun _ =>
  ⟨Nat.zero_le _, fun h => nomatch h⟩

theorem markDriveFault : Statement (.markDriveFault) := fun _ =>
  ⟨Nat.zero_le _, fun h => nomatch h⟩

end Sys2Proof.Laws.Payload
end

