-- ==== Sys2Proof/Tests/Slice0.lean ====
section
/-!
SUPPORT. Own tests: the checks of WellFormed, one or two steps of each command, and for each statement with
hypotheses a state and operands that meet them (`test_meets_<statement>`).
-/
namespace Sys2Proof.Tests
open Sys2Proof Sys2Proof.Machine

/- One theorem after another: the many small kernel checks side by side ask for more threads than the limit allows. -/
set_option Elab.async false

/-! ## Helpers -/

/-- `c` answers a next state of which `P` holds. -/
def after (c : Instr) (s : State) (P : State → Bool) : Bool :=
  match exec c s with
  | .next t => P t
  | .fault _ => false
  | .refused _ => false

/-- One step from `s` answers a next state of which `P` holds. -/
def afterStep (s : State) (P : State → Bool) : Bool :=
  match step s with
  | .next t => P t
  | .fault _ => false
  | .refused _ => false

def locked0 : State := { State.reset with ctl := { State.reset.ctl with locked := true } }
def atTick (n : Nat) (s : State) : State := { s with tb := { s.tb with tick := BitVec.ofNat 64 n } }
def inState (x : ScaleState) (s : State) : State := { s with sc := { s.sc with state := x } }
def withItem (i v : Nat) (s : State) : State := { s with settings := s.settings.write i v }
def withResult (r : ResultCode) (s : State) : State := { s with ctl := { s.ctl with result := r } }
def withLine (p : LinePort) (s : State) : State := { s with lines := s.lines.set 0 p }
def withChan (ch : Channel) (s : State) : State := { s with path := { s.path with chans := s.path.chans.set 0 ch } }
def withWriter (w : Writer) (s : State) : State := { s with path := { s.path with writer := w } }
def withAtt (a : Attention) (s : State) : State := { s with path := { s.path with att := a } }
def withFree (n : Nat) (s : State) : State := { s with path := { s.path with store := ⟨n, n⟩ } }
def withBus (b : CageBus) (s : State) : State := { s with bus := b }
/-- The date runs under locked settings, at this count of an epoch of 1,000,000. -/
def dateAt (count : Nat) : State :=
  { locked0 with tb := { locked0.tb with running := true, count := count, ownStart := true } }

def aFrame : PortFrame :=
  { stamp := ⟨0, 0, 0, .unscaled⟩, blocks := 1, bytes := [], stored := 0, degraded := false, cut := false }
def aLine (st : LineState) : LinePort := { state := st, los := false, aligned := true }
def capturing (f : PortFrame) : LinePort := { aLine .up with reception := .capturing f }
def aRecord : Record := .loss 1 0 0
/-- A record of stream 0 with no sequence, of one block. -/
def aClassified : Classified :=
  { stamp := ⟨0, 0, 0, .unscaled⟩, line := 0, legB := false, stream := 0, seq := none, noSeq := false, degraded := false,
    cut := false, frameLength := 64, captured := [1, 2], blocks := 1 }
def aBuffer : CurrentBuffer := { addr := 4096, len := 4096 }
def fullBuffer : CurrentBuffer := { addr := 4096, len := 4096, fill := 4080, records := 102 }
def anEntry : ClosedEntry := ⟨4096, 80, .flush, 2, 5, 6⟩
def aWrite : LinkWrite := ⟨4096, aRecord.encode⟩
def aChan (st : ChanState) : Channel := { state := st, queue := [aRecord], current := some aBuffer }
/-- Channel 0 in RUN, its write in flight. -/
def writingState (cmd : Option ChanCommand) : State :=
  withWriter (.holding 0 1 aWrite) (withChan { aChan .run with pendingCmd := cmd } locked0)
def aMarkWindow : MarkWindow := { openAsserted := false, releasedBefore := true, expiry := some 10000 }
def inWindow (w : MarkWindow) (st : ScaleState) (count : Nat) : State :=
  inState st (withBus { drive := none, window := some w } (dateAt count))

/-! ## WellFormed refuses -/

theorem test_wellFormed_refuses_a_known_code : (Instr.unknownCommand 1).wellFormed = false
    ∧ (Instr.unknownCommand 11).wellFormed = false ∧ (Instr.unknownCommand 12).wellFormed = true := by decide
theorem test_wellFormed_refuses_an_empty_read : (Instr.attentionCausesRead 0 0).wellFormed = false := by decide
theorem test_wellFormed_refuses_a_read_past_the_window : (Instr.attentionCausesRead 4090 8).wellFormed = false := by
  decide
theorem test_wellFormed_refuses_an_empty_write : (Instr.registerWrite 0 0 0).wellFormed = false := by decide
theorem test_wellFormed_refuses_a_write_past_the_window : (Instr.registerWrite 4096 8 0).wellFormed = false := by
  decide
theorem test_wellFormed_refuses_a_request_without_a_byte : (Instr.furtherBlockRequest 0 []).wellFormed = false := by
  decide
theorem test_wellFormed_refuses_a_request_too_long :
    (Instr.furtherBlockRequest 0 (List.replicate 9602 0)).wellFormed = false := by decide +kernel
theorem test_wellFormed_refuses_oversize_without_a_byte : (Instr.oversize 0 []).wellFormed = false := by decide
theorem test_wellFormed_refuses_oversize_too_long :
    (Instr.oversize 0 (List.replicate 9602 0)).wellFormed = false := by decide +kernel
/-- A frame that is skipped has no longest length (R77). -/
theorem test_wellFormed_takes_any_frame_end :
    (Instr.frameEnd 0 (List.replicate 9602 0) true).wellFormed = true := rfl

/-! ## Each command -/

theorem test_fullReset : after (.fullReset 5 true) locked0
    (fun t => t.bus.station == 5 && !t.ctl.locked && t.resetLow) = true := by decide +kernel
theorem test_lockSettings : after .lockSettings (withItem 10 1 State.reset)
    (fun t => t.ctl.locked && t.tb.running && t.lines[0].state == .down && t.lines[1].state == .off
      && t.ctl.result == .done) = true := by decide +kernel
theorem test_lockSettings_bad_item : after .lockSettings (withItem 765 4 State.reset)
    (fun t => !t.ctl.locked && t.ctl.result == .badValue && t.ctl.resultIndex == 765) = true := by decide +kernel
theorem test_joinCage : after .joinCage locked0 (fun t => t.sc.state == .listen && t.bus.watch == .armed) = true := by
  decide +kernel
theorem test_leaveCage : after .leaveCage (inState .held locked0)
    (fun t => t.sc.state == .quiet && t.path.chans[0].queue.length == 1) = true := by decide +kernel
theorem test_captureReset : after .captureReset (writingState none)
    (fun t => t.path.writer == .abandoned aWrite && t.path.chans[0].queue == []) = true := by decide +kernel
theorem test_clearCounters : after .clearCounters { locked0 with cage := { marks := 7 } }
    (fun t => t.cage.marks == 0 && t.ctl.result == .done) = true := by decide +kernel
theorem test_startChannel : after (.startChannel 0) (withChan (aChan .idle) locked0)
    (fun t => t.path.chans[0].state == .run && t.path.writer == .free) = true := by decide +kernel
theorem test_stopChannel : after (.stopChannel 0) (writingState none)
    (fun t => t.ctl.result == .pending && t.path.chans[0].pendingCmd == some .stop) = true := by decide +kernel
theorem test_flushChannel : after (.flushChannel 0)
    (withChan { state := .run, current := some { aBuffer with fill := 40, records := 1 } } locked0)
    (fun t => t.ctl.result == .done && t.path.chans[0].closed.length == 1 && t.path.att.causes == 1#6) = true := by
  decide +kernel
theorem test_postBuffer : after (.postBuffer 0) { locked0 with ctl := { locked0.ctl with arg0 := 8192, arg1 := 4096 } }
    (fun t => t.ctl.result == .done && t.path.chans[0].current == some { addr := 8192, len := 4096 }) = true := by
  decide +kernel
theorem test_postBuffer_bad : after (.postBuffer 0) { locked0 with ctl := { locked0.ctl with arg0 := 8192, arg1 := 100 } }
    (fun t => t.ctl.result == .badValue && t.path.chans[0].current == none) = true := by decide +kernel
theorem test_takeClosed : after (.takeClosed 0) (withChan { closed := [anEntry] } locked0)
    (fun t => t.ctl.taken == ⟨4096, 80, 2, 2, 0, 5, 6⟩ && t.path.chans[0].closed == []) = true := by decide +kernel
theorem test_armAttention : after .armAttention (withAtt { causes := 4, enables := 4 } locked0)
    (fun t => t.path.att.message.isSome && !t.path.att.armed) = true := by decide +kernel
theorem test_unknownCommand : after (.unknownCommand 12) locked0
    (fun t => t.ctl.result == .badValue && t.ctl.resultIndex == 0) = true := by decide +kernel
theorem test_settingsValueWrite : after (.settingsValueWrite 77)
    { State.reset with ctl := { State.reset.ctl with settingsIndex := 766 } }
    (fun t => t.settings.item 766 == 77 && t.settings.item 767 == 0) = true := by decide +kernel
theorem test_settingsValueWrite_past_the_table : after (.settingsValueWrite 77)
    { State.reset with ctl := { State.reset.ctl with settingsIndex := 767 } }
    (fun t => t.settings == State.reset.settings) = true := by decide +kernel
theorem test_attentionCausesRead : after (.attentionCausesRead 0x179 8) (withAtt { causes := 5 } locked0)
    (fun t => t.path.att.causes == 0 && t.ctl.readData.getLast? == some 5) = true := by decide +kernel
theorem test_attentionCausesRead_beside : after (.attentionCausesRead 0x178 8) (withAtt { causes := 5 } locked0)
    (fun t => t.path.att.causes == 5) = true ∧ after (.attentionCausesRead 0x181 7) (withAtt { causes := 5 } locked0)
    (fun t => t.path.att.causes == 5) = true := by decide +kernel
theorem test_attentionEnablesWrite : after (.attentionEnablesWrite 0x7F) locked0
    (fun t => t.path.att.enables == 0x3F) = true := by decide +kernel
theorem test_registerWrite : after (.registerWrite 0x80 8 0x1F) locked0 (fun t => t.ctl.rosterSelect == 15) = true
    ∧ after (.registerWrite 0x80 4 0x1F) locked0 (fun t => t.ctl.rosterSelect == 0) = true := by decide +kernel
theorem test_registerWrite_command : after (.registerWrite 0x20 8 0x102) locked0
    (fun t => t.sc.state == .listen) = true := by decide +kernel
theorem test_attentionMessageComplete : after (.attentionMessageComplete true)
    (withAtt { message := some ⟨8, [1, 2]⟩ } locked0)
    (fun t => t.path.att.message == none && t.path.mem == [(8, 1), (9, 2)]) = true := by decide +kernel
theorem test_ownBoundary : after .ownBoundary (dateAt 1000000)
    (fun t => t.tb.count == 0 && t.tb.epoch == 1 && t.tb.epo) = true := by decide +kernel
theorem test_ownBoundary_drives : after .ownBoundary (atTick 9 (inState .align (dateAt 1000000)))
    (fun t => t.bus.drive == some 9) = true := by decide +kernel
theorem test_epoHalfPoint : after .epoHalfPoint { dateAt 500000 with tb := { (dateAt 500000).tb with epo := true } }
    (fun t => !t.tb.epo) = true := by decide +kernel
theorem test_windowOpening : after .windowOpening (inState .align (dateAt 990000))
    (fun t => t.bus.window.isSome && t.tb.openAnnounced) = true
    ∧ after .windowOpening (inState .align (dateAt 989999)) (fun t => t.bus.window.isNone) = true := by decide +kernel
theorem test_windowClose : after .windowClose (inWindow { aMarkWindow with r := some 10002, f := some 11006 } .align 10000)
    (fun t => t.bus.lastOffset == -4 && t.cage.marks == 1 && t.tb.eCur == 1000004 && t.tb.trim == -1073) = true := by
  decide +kernel
theorem test_windowClose_void : after .windowClose (inWindow aMarkWindow .locked 10000)
    (fun t => t.cage.voidNoMark == 1 && t.sc.voids == 1 && t.sc.state == .locked) = true := by decide +kernel
theorem test_markHoldEnd : after .markHoldEnd (atTick 1000 (withBus { drive := some 0 } locked0))
    (fun t => t.bus.drive == none) = true ∧ after .markHoldEnd (atTick 999 (withBus { drive := some 0 } locked0))
    (fun t => t.bus.drive == some 0) = true := by decide +kernel
theorem test_markLineRise : after .markLineRise (atTick 7 (inWindow aMarkWindow .align 0))
    (fun t => t.bus.window == some { aMarkWindow with r := some 7 }) = true := by decide +kernel
theorem test_markLineFall : after .markLineFall
    (atTick 600 (inState .listen (withBus { cagePull := true, watch := .rose 200 } (dateAt 0))))
    (fun t => t.tb.count == 700 && t.bus.watch == .ignoring 600 && t.sc.phaseSet) = true := by decide +kernel
theorem test_pulseWatchRearm : after .pulseWatchRearm (atTick 42000 (withBus { watch := .ignoring 0 } locked0))
    (fun t => t.bus.watch == .armed) = true := by decide +kernel
theorem test_noticeSend_begin : after (.noticeSend .begin)
    (atTick 3000 (inState .align (withBus { station := 1, fallRef := some ⟨0, .window⟩ } locked0)))
    (fun t => match t.bus.transmitter with
      | .sending start n bit => start == 3000 && bit == 0 && n.getMsbD 0 == false
      | .idle => false) = true := by decide +kernel
theorem test_noticeSend_clash : after (.noticeSend (.sample false))
    (atTick 10 (inState .align (withBus { transmitter := .sending 0 (BitVec.allOnes 112) 0 } locked0)))
    (fun t => t.bus.transmitter == .idle && t.sc.clashCount == 1 && t.cage.slotClash == 1) = true := by decide +kernel
/-- The 112 bits of a notice of station 2 in LOCKED, written out field by field in the order of R31. -/
def aNotice : BitVec 112 :=
  0#1 ++ 0b0010#4 ++ 0b011#3 ++ 0#1 ++ 0x000000000007#48 ++ 0x0000#16 ++ 0x1234#16 ++ 0b10000001#8 ++ 0b00011#5
    ++ noticeCheck (0b0010#4 ++ 0b011#3 ++ 0#1 ++ 0x000000000007#48 ++ 0x0000#16 ++ 0x1234#16 ++ 0b10000001#8
      ++ 0b00011#5) ++ 0b11#2
def slotEnd : State :=
  atTick 7840 (inState .listen (withBus { receiver := some 2, fallRef := some ⟨0, .watch⟩ } (dateAt 0)))
theorem test_noticeReceive : after (.noticeReceive aNotice) slotEnd
    (fun t => t.roster[2].present && t.roster[2].epoch == 7 && t.roster[2].linesUp == 0x81
      && t.roster[2].peersHeard == 3 && t.bus.receiver == none) = true := by decide +kernel
theorem test_noticeReceive_error : after (.noticeReceive 0) slotEnd (fun t => t.cage.noticeError == 1) = true := by
  decide +kernel
def losState : State :=
  { withLine { aLine .down with los := true, history := some false } locked0 with losPhase := some 10000 }
theorem test_losSample : after (.losSample 0) losState
    (fun t => t.losPhase == some 0 && !t.lines[0].los && t.lines[0].state == .settling) = true := by decide +kernel
theorem test_receiverAligned : after (.receiverAligned 0) (withLine { aLine .down with aligned := false } locked0)
    (fun t => t.lines[0].state == .settling && t.path.arb.view[0] == .settling) = true := by decide +kernel
theorem test_receiverNotAligned : after (.receiverNotAligned 0) (withFree 4095 (withLine (capturing aFrame) locked0))
    (fun t => t.lines[0].state == .down && t.lines[0].counters.aborts == 1 && t.path.store.free == 4096) = true := by
  decide +kernel
theorem test_settleTimeout : after (.settleTimeout 0)
    (atTick 100000 (withLine { aLine .settling with settle := some 0 } locked0))
    (fun t => t.lines[0].state == .up && t.lines[0].settle == none) = true := by decide +kernel
theorem test_codeError : after (.codeError 0) (withLine (aLine .up) locked0)
    (fun t => t.lines[0].epochErrors == 1 && t.lines[0].counters.codeErrors == 1) = true := by decide +kernel
theorem test_frameStart : after (.frameStart 0) (withLine (aLine .up) locked0)
    (fun t => t.path.store.free == 4095 && t.path.merge.inFlight[0] == some 0) = true := by decide +kernel
theorem test_furtherBlockRequest : after (.furtherBlockRequest 0 [9])
    (withFree 4095 (withLine (capturing { aFrame with bytes := List.replicate 128 0, stored := 128 }) locked0))
    (fun t => t.path.store.free == 4094) = true := by decide +kernel
theorem test_oversize : after (.oversize 0 [9])
    (withFree 4095 (withItem 12 64 (withLine (capturing { aFrame with bytes := List.replicate 64 0, stored := 64 }) locked0)))
    (fun t => t.path.store.free == 4096 && t.lines[0].counters.oversize == 1 && t.lines[0].reception == .skipping)
      = true := by decide +kernel
theorem test_frameEnd_runt : after (.frameEnd 0 (List.replicate 63 0) true)
    (withFree 4095 (withLine (capturing aFrame) locked0))
    (fun t => t.path.store.free == 4096 && t.lines[0].counters.runts == 1) = true := by decide +kernel
theorem test_frameEnd_unclean : after (.frameEnd 0 (List.replicate 64 0) false)
    (withFree 4095 (withLine (capturing aFrame) locked0))
    (fun t => t.path.store.free == 4096 && t.lines[0].counters.fcsErrors == 1) = true := by decide +kernel
/-- The digits 1 to 9 and their check sequence, as it is known of CRC-32 (R78). -/
theorem test_fcs_of_digits : fcsPasses
    [0x31#8, 0x32#8, 0x33#8, 0x34#8, 0x35#8, 0x36#8, 0x37#8, 0x38#8, 0x39#8, 0x26#8, 0x39#8, 0xF4#8, 0xCB#8] = true := by
  decide +kernel
/-- An IPv4 UDP frame to 239.1.1.1, port 30000, its payload opening with 1234h, and its frame check sequence. -/
def udpFrame : List Byte :=
  List.replicate 12 0
    ++ [0x08#8, 0#8, 0x45#8, 0#8, 0#8, 0x2E#8, 0#8, 0#8, 0#8, 0#8, 0x40#8, 0x11#8, 0#8, 0#8, 10#8, 0#8, 0#8, 1#8]
    ++ [239#8, 1#8, 1#8, 1#8, 0x30#8, 0x39#8, 0x75#8, 0x30#8, 0#8, 26#8, 0#8, 0#8, 0x12#8, 0x34#8]
    ++ List.replicate 16 0 ++ [0xE6#8, 0x66#8, 0x91#8, 0x99#8]
/-- The bits of ten bytes of the frame. -/
def tenOf (k : Nat) : List Bool := ((udpFrame.drop (10 * k)).take 10).flatMap bitsLowFirst
theorem crcBits_append {w : Nat} (poly init : BitVec w) (a b : List Bool) :
    crcBits poly init (a ++ b) = crcBits poly (crcBits poly init a) b := List.foldl_append
theorem test_fcs_ten : crcBits 0x04C11DB7#32 0xFFFFFFFF#32 (tenOf 0) = 0x91E9AE38#32 := by decide +kernel
theorem test_fcs_twenty : crcBits 0x04C11DB7#32 0x91E9AE38#32 (tenOf 1) = 0x4FF19172#32 := by decide +kernel
theorem test_fcs_thirty : crcBits 0x04C11DB7#32 0x4FF19172#32 (tenOf 2) = 0x5161D9A0#32 := by decide +kernel
theorem test_fcs_forty : crcBits 0x04C11DB7#32 0x5161D9A0#32 (tenOf 3) = 0x61FD6A4A#32 := by decide +kernel
theorem test_fcs_fifty : crcBits 0x04C11DB7#32 0x61FD6A4A#32 (tenOf 4) = 0x43C3EE9C#32 := by decide +kernel
theorem test_fcs_sixty : crcBits 0x04C11DB7#32 0x43C3EE9C#32 (tenOf 5) = 0x98997666#32 := by decide +kernel
theorem test_udpFrame_passes : fcsPasses udpFrame = true := by
  have cut : (udpFrame.take (udpFrame.length - 4)).flatMap bitsLowFirst
      = tenOf 0 ++ tenOf 1 ++ tenOf 2 ++ tenOf 3 ++ tenOf 4 ++ tenOf 5 := by decide +kernel
  have check : fcsOf (udpFrame.take (udpFrame.length - 4)) = ~~~ 0x98997666#32 := by
    rw [fcsOf, cut]
    simp only [crcBits_append, test_fcs_ten, test_fcs_twenty, test_fcs_thirty, test_fcs_forty, test_fcs_fifty,
      test_fcs_sixty]
  simp only [fcsPasses, check]
  decide +kernel
/-- Stream 0 of lines 0, keyed to that address and port, with a sequence of two bytes. -/
def streamState : State := withItem 48 1 (withItem 49 0xEF0101017530 (withItem 51 1 (withItem 53 2 locked0)))
def caughtFrame : PortFrame := { aFrame with bytes := udpFrame, stored := 64 }
theorem test_classify : (classify streamState.settings 0 false caughtFrame).map
    (fun r => (r.stream, r.seq, r.captured.length, r.blocks)) = some (0, some 0x1234, 64, 1) := by decide +kernel
/-- Stream 0 of width 2, N = 0, with number 1 arrived at tick 5 and nothing of number 0. -/
def holeWindow : SeqWindow :=
  { tracking := true, n := 0, slots := (Vector.replicate 256 Slot.unseen).set 1 (.first false 5),
    holeSince := some 5, deadline := some 105, timeout := 100 }
/-- Stream 0 of width 2 with window `w`, at this tick. -/
def holding (w : SeqWindow) (tick : Nat) : State :=
  atTick tick { withItem 53 2 State.reset with
    path := { State.reset.path with arb := { State.reset.path.arb with
      windows := State.reset.path.arb.windows.set 0 w } } }
def holeState : State := holding holeWindow 106
theorem test_gapDeclaration : after (.gapDeclaration 0) holeState
    (fun t => t.path.arb.windows[0].n == 2 && t.path.arb.counters[0].lost == 1
      && t.path.chans[0].queue == [.gap 0 0 1 5 105 false]) = true := by decide +kernel
theorem test_writeCompleteGood : after .writeCompleteGood (writingState none)
    (fun t => t.path.chans[0].queue == [] && t.path.chans[0].current == some { aBuffer with fill := 40, records := 1 }
      && t.path.chans[0].ended && t.path.writer == .free) = true := by decide +kernel
/-- Two records queued on channel 0, the write of the first in flight; the run length of item 753. -/
def secondQueued (run : Nat) (cmd : Option ChanCommand) : State :=
  withWriter (.holding 0 1 aWrite)
    (withChan { aChan .run with queue := [aRecord, aRecord], pendingCmd := cmd } (withItem 753 run locked0))
/-- The same two records, a next buffer posted. -/
def backedUp (cmd : Option ChanCommand) : State :=
  withChan { aChan .run with queue := [aRecord, aRecord], next := some ⟨8192, 4096⟩, pendingCmd := cmd }
    (secondQueued 2 cmd)
/-- The choice is made at the completion, and the write is issued when the instant ends. -/
theorem test_completion_keeps_the_writer :
    after .writeCompleteGood (secondQueued 2 none) (fun t => t.path.writer == .granted 0 2
      && afterStep t fun u => u.path.writer == .holding 0 2 ⟨4136, aRecord.encode⟩ && u.tb.tick == t.tb.tick) = true := by
  decide +kernel
/-- A pended FLUSH stops the holder: its completion passes it over, and it comes back with a run count of 1. -/
theorem test_completion_passes_a_flushed_holder :
    after .writeCompleteGood (backedUp (some .flush)) (fun t => t.path.writer == .free && t.ctl.result == .done
      && afterStep t fun u => u.path.writer == .holding 0 1 ⟨8192, aRecord.encode⟩) = true := by decide +kernel
/-- A STOP after the completion passes the channel over too, and START of the same instant brings it a run count of 1.
-/
theorem test_stop_and_start_after_a_completion :
    after .writeCompleteGood (backedUp none) (fun t => after (.stopChannel 0) t fun u => u.path.writer == .free
      && after (.startChannel 0) u fun v => v.path.chans[0].state == .run
        && afterStep v fun x => match x.path.writer with
          | .holding c run _ => c == 0 && run == 1
          | _ => false) = true := by decide +kernel
theorem test_writeCompleteFailed : after .writeCompleteFailed (writingState (some .stop))
    (fun t => t.path.chans[0].state == .error && t.path.chans[0].closed.length == 1 && t.ctl.result == .refusedState)
      = true := by decide +kernel
theorem test_abandonedWriteComplete : after .abandonedWriteComplete
    (withWriter (.abandoned aWrite) (withChan (aChan .run) locked0))
    (fun t => t.path.writer == .free) = true := by decide +kernel
theorem test_idleFlushExpiry : after (.idleFlushExpiry 0)
    (withChan { state := .run, current := some { aBuffer with fill := 40, records := 1 }, idleExpiry := some 0 } locked0)
    (fun t => t.path.chans[0].closed.length == 1 && t.path.chans[0].counters.idle == 1) = true := by decide +kernel
theorem test_markDriveFault : after .markDriveFault
    (atTick 1 (inState .locked (withBus { drive := some 0, pullFails := true } locked0)))
    (fun t => t.sc.state == .held && t.bus.drive == none) = true := by decide +kernel

theorem test_step_idles : afterStep State.reset (fun t => t.tb.tick == 1 && t.pending == []) = true := by decide +kernel
/-- The grant ends the instant: the tick has not moved. -/
theorem test_step_grants : afterStep (withChan (aChan .run) locked0)
    (fun t => t.path.writer == .holding 0 1 aWrite && t.tb.tick == 0) = true := by decide +kernel
/-- The own drive makes the line rise, unless another station pulls it already or the pull fails. -/
theorem test_ownBoundary_rises :
    after .ownBoundary (atTick 9 (inWindow aMarkWindow .align 1000000))
      (fun t => t.bus.markLine && t.bus.window == some { aMarkWindow with expiry := some 9, r := some 9 }) = true
    ∧ after .ownBoundary (inState .align (withBus { pullFails := true, window := some aMarkWindow } (dateAt 1000000)))
      (fun t => !t.bus.markLine && t.bus.window == some { aMarkWindow with expiry := some 0 }) = true := by
  decide +kernel
/-- The end of the hold lets the line fall, unless another station still pulls it. -/
theorem test_markHoldEnd_falls :
    after .markHoldEnd (atTick 1000 (withBus { drive := some 0, window := some { aMarkWindow with r := some 0 } } locked0))
      (fun t => !t.bus.markLine && t.bus.fallRef == some ⟨1000, .window⟩) = true
    ∧ after .markHoldEnd (atTick 1000 (withBus { drive := some 0, cagePull := true } locked0))
      (fun t => t.bus.markLine && t.bus.fallRef == none) = true := by decide +kernel
/-- The phase set lasts to the next own boundary, in ALIGN as in LISTEN. -/
theorem test_ownBoundary_clears_phaseSet :
    after .ownBoundary { dateAt 1000000 with sc := { state := .align, phaseSet := true } }
      (fun t => !t.sc.phaseSet && t.sc.state == .align) = true
    ∧ after .ownBoundary { dateAt 1000000 with sc := { state := .listen, phaseSet := true } }
      (fun t => !t.sc.phaseSet && t.sc.listen == 1) = true := by decide +kernel

/-! ## States and operands that meet the hypotheses of the statements -/

/-- Busy: a frame in reception on line 0 with its block and its in-flight entry, the mark line driven, the date on. -/
def busy : State :=
  { withFree 4095 (withLine (capturing aFrame) (inState .locked (withBus { drive := some 0 } (dateAt 5)))) with
    path := { (withFree 4095 State.reset).path with
      merge := { inFlight := (Vector.replicate 8 none).set 0 (some 0) }, mem := [(8, 1), (9, 2)] } }

theorem test_meets_CommandsThatHaveNoEffect :
    ({ State.reset with resetLow := true }.resetLow = true ∧ Instr.lockSettings.isFullReset = false)
    ∧ ((withResult .pending locked0).ctl.result = .pending ∧ (Instr.unknownCommand 0).isHostCommand = true)
    ∧ State.reset.Takes := by decide +kernel
theorem test_meets_FullResetClearsThePart : 0 < itemCount ∧ 766 < itemCount := by decide
theorem test_meets_OnlyFullResetMovesTickAndLock :
    Instr.joinCage.isFullReset = false ∧ (∃ t, exec .joinCage locked0 = .next t) ∧ locked0.ctl.locked = true :=
  ⟨rfl, ⟨_, rfl⟩, rfl⟩
theorem test_meets_TimePassesOnAnEmptyQueue :
    (State.reset.pending = [] ∧ State.reset.resetLow = false ∧ State.reset.dueEvents = []
      ∧ State.reset.bus.asserting = none ∧ State.reset.path.unsettled = false ∧ State.reset.tb.running = false)
    ∧ ((dateAt 5).pending = [] ∧ (dateAt 5).resetLow = false ∧ (dateAt 5).dueEvents = []
      ∧ (dateAt 5).bus.asserting = none ∧ (dateAt 5).path.unsettled = false
      ∧ (dateAt 5).tb.running = true ∧ (dateAt 5).tb.trim = 0 ∧ (dateAt 5).tb.phase = (dateAt 5).tb.frac)
    ∧ (dateAt 5).DateBounded := by
  unfold State.DateBounded; decide +kernel
/-- The LOS counter below its sample point and at it, a slot's bits with their last tick and without, and the horizon at
the present tick, at a frame in flight and at a pending record. -/
theorem test_meets_TimePassesOnAnEmptyQueue_tick :
    afterStep { State.reset with losPhase := some 9999 } (fun t => t.losPhase == some 10000) = true
    ∧ afterStep { State.reset with losPhase := some 10000 } (fun t => t.losPhase == some 1) = true
    ∧ afterStep (atTick 2639 (inState .listen (withBus { fallRef := some ⟨0, .watch⟩ } State.reset)))
        (fun t => t.bus.receiver == some 0) = true
    ∧ afterStep (atTick 2640 (inState .listen (withBus { fallRef := some ⟨0, .watch⟩ } State.reset)))
        (fun t => t.bus.receiver == none) = true
    ∧ afterStep (atTick 9 State.reset) (fun t => t.path.arb.time == 10) = true
    ∧ afterStep (atTick 9 { State.reset with path := { State.reset.path with
        merge := { inFlight := (Vector.replicate 8 none).set 3 (some 4) } } }) (fun t => t.path.arb.time == 4) = true
    ∧ afterStep (atTick 9 { State.reset with path := { State.reset.path with
        merge := { pending := [{ aClassified with stamp := ⟨6, 0, 0, .unscaled⟩ }] } } })
        (fun t => t.path.arb.time == 6) = true := by decide +kernel
/-- Channel 0 has completed a good write at this instant. -/
def endedChan (ch : Channel) (w : Writer) : State := withWriter w (withChan { ch with ended := true } locked0)
/-- With RESET low; with an event due; with the writer free, fallen to a channel that requests and to one that has
stopped, and holding while another channel's write has just completed; and R148 with its four outcomes. -/
theorem test_meets_EmptyQueueSettlesTheWriter :
    (aBuffer.fill + aRecord.size ≤ aBuffer.len ∧ fullBuffer.len < fullBuffer.fill + aRecord.size)
    ∧ ({ State.reset with resetLow := true }.resetLow = true ∧ (dateAt 1000000).dueEvents ≠ [])
    ∧ ((withChan (aChan .run) locked0).dueEvents = [] ∧ (withChan (aChan .run) locked0).path.unsettled = true)
    ∧ (endedChan {} (.holding 1 1 aWrite)).path.unsettled = true
    ∧ afterStep (endedChan (aChan .run) (.granted 0 2)) (fun t => t.path.writer == .holding 0 2 aWrite) = true
    ∧ afterStep (withWriter (.granted 0 2) (withChan (aChan .stopped) locked0)) (fun t => t.path.writer == .free) = true
    ∧ afterStep (endedChan { aChan .run with current := some fullBuffer } .free)
        (fun t => t.path.chans[0].closed == [fullBuffer.entry .full] && t.path.writer == .free) = true
    ∧ afterStep (endedChan { aChan .run with current := some fullBuffer, next := some ⟨8192, 4096⟩ } (.granted 0 2))
        (fun t => t.path.chans[0].state == .run && t.path.writer == .holding 0 2 ⟨8192, aRecord.encode⟩) = true
    ∧ afterStep (endedChan { aChan .run with current := some fullBuffer, closed := List.replicate 4 anEntry } .free)
        (fun t => t.path.chans[0].state == .stalled .closedFull) = true
    ∧ afterStep (endedChan { aChan .run with current := none } .free)
        (fun t => t.path.chans[0].state == .stalled .noBuffer && t.path.writer == .free) = true := by decide +kernel
/-- The mark line is driven from this instant, after f (`some true`) or not, with this window open. -/
def drivenNow (after : Option Bool) (w : Option MarkWindow) : State :=
  inState .align (withBus { drive := some 0, asserting := after, window := w, faultReported := true } (dateAt 0))
def fallenWindow : MarkWindow := { aMarkWindow with expiry := some 0, r := some 3, f := some 4 }
/-- What a drive leaves: a SPLIT once in a window, and a hold with no fault reported. -/
theorem test_meets_EmptyQueueSettlesTheWriter_drive :
    ((drivenNow (some true) (some fallenWindow)).pending = [] ∧ (drivenNow (some true) (some fallenWindow)).dueEvents = []
      ∧ (drivenNow (some true) (some fallenWindow)).unsettled = true)
    ∧ afterStep (drivenNow (some true) (some fallenWindow)) (fun t => t.cage.split == 1 && !t.bus.faultReported
        && t.bus.window == some { fallenWindow with split := true } && t.bus.asserting == none && t.tb.tick == 0) = true
    ∧ afterStep (drivenNow (some true) (some { fallenWindow with split := true }))
        (fun t => t.cage.split == 0 && !t.bus.faultReported) = true
    ∧ afterStep (drivenNow (some true) none) (fun t => t.cage.split == 0 && t.bus.window == none) = true
    ∧ afterStep (drivenNow (some false) (some aMarkWindow))
        (fun t => t.cage.split == 0 && t.bus.window == some aMarkWindow && !t.bus.faultReported) = true := by
  decide +kernel
/-- Channels 0, BULK, and 1, URGENT, both request. -/
def twoRequests (w : Writer) : State :=
  let s := withItem 755 1 (secondQueued 2 none)
  withWriter w { s with path := { s.path with chans := s.path.chans.set 1 (aChan .run) } }
theorem test_urgent_goes_first :
    (twoRequests .free).settings.urgent 1 = true ∧ (twoRequests .free).settings.urgent 0 = false
    ∧ afterStep (twoRequests .free) (fun t => t.path.writer == .holding 1 1 aWrite) = true
    ∧ after .writeCompleteGood (twoRequests (.holding 0 1 aWrite)) (fun t => t.path.writer == .holding 1 1 aWrite)
      = true := by
  decide +kernel
theorem test_meets_CaptureSideKeepsTheCageSide :
    ((Instr.frameStart 0).family = .line ∧ ∃ t, exec (.frameStart 0) busy = .next t)
    ∧ (Instr.writeCompleteGood.family = .delivery ∧ ∃ t, exec .writeCompleteGood busy = .next t) :=
  ⟨⟨rfl, _, rfl⟩, rfl, _, rfl⟩
theorem test_meets_CageSideKeepsTheControlWindow :
    Instr.epoHalfPoint.family = .cage ∧ (∃ t, exec .epoHalfPoint busy = .next t) ∧ Instr.epoHalfPoint ≠ .ownBoundary
      ∧ Instr.epoHalfPoint ≠ .windowClose ∧ Instr.epoHalfPoint ≠ .markLineFall :=
  ⟨rfl, ⟨_, rfl⟩, by decide, by decide, by decide⟩
theorem test_meets_ChannelCommandsKeepTheRest :
    (∃ t, exec (.startChannel 3) busy = .next t) ∧ (∃ t, exec (.stopChannel 3) busy = .next t)
      ∧ (∃ t, exec (.flushChannel 3) busy = .next t) ∧ (∃ t, exec (.postBuffer 3) busy = .next t)
      ∧ (∃ t, exec (.takeClosed 3) busy = .next t) ∧ (∃ t, exec .armAttention busy = .next t) :=
  ⟨⟨_, rfl⟩, ⟨_, rfl⟩, ⟨_, rfl⟩, ⟨_, rfl⟩, ⟨_, rfl⟩, ⟨_, rfl⟩⟩
theorem test_meets_BlocksStayConserved : busy.BlocksConserved ∧ ∃ t, step busy = .next t := by
  refine ⟨⟨by decide +kernel, fun l f h => ?_⟩, _, rfl⟩
  have all : ∀ l : Line, busy.lines[l].reception = .capturing aFrame ∨ busy.lines[l].reception = .idle := by
    decide +kernel
  rcases all l with e | e <;> rw [e] at h <;> cases h
  decide
theorem test_meets_CapacitiesAreKept : busy.path.WithinCapacity ∧ ∃ t, step busy = .next t :=
  ⟨by unfold Path.WithinCapacity; decide +kernel, _, rfl⟩
theorem test_meets_DriveStaysLawful :
    busy.DriveLawful ∧ busy.bus.drive.isSome = true ∧ ∃ t, step busy = .next t :=
  ⟨by unfold State.DriveLawful; decide +kernel, by decide +kernel, _, rfl⟩
theorem test_meets_DateStaysBounded : busy.DateBounded ∧ busy.tb.running = true ∧ ∃ t, step busy = .next t :=
  ⟨by unfold State.DateBounded; decide +kernel, by decide +kernel, _, rfl⟩
theorem test_meets_NothingRunsBeforeTheLock :
    (withItem 3 5 State.reset).QuietBeforeLock ∧ (withItem 3 5 State.reset).ctl.locked = false
      ∧ ∃ t, step (withItem 3 5 State.reset) = .next t :=
  ⟨by unfold State.QuietBeforeLock; decide +kernel, by decide +kernel, _, rfl⟩
theorem test_meets_MergeStaysLawful : busy.MergeLawful ∧ ∃ t, step busy = .next t :=
  ⟨⟨by decide +kernel, .nil, fun _ h => nomatch h⟩, _, rfl⟩
theorem test_meets_TablesStayCanonical : busy.Canonical ∧ busy.path.mem ≠ [] ∧ ∃ t, step busy = .next t :=
  ⟨by unfold State.Canonical; decide +kernel, by decide +kernel, _, rfl⟩
theorem test_meets_ArbiterTimeDoesNotFall :
    (Instr.ownBoundary.isFullReset = false ∧ Instr.ownBoundary ≠ .captureReset
      ∧ (∀ offset size v, Instr.ownBoundary ≠ .registerWrite offset size v)
      ∧ ∃ t, step { busy with pending := [.ownBoundary] } = .next t)
    ∧ (busy.pending = [] ∧ ∃ t, step busy = .next t) :=
  ⟨⟨rfl, by decide, fun _ _ _ => Instr.noConfusion, _, rfl⟩, rfl, _, rfl⟩
theorem test_meets_SettingsValueWriteOutcomes :
    (State.reset.resetLow = false ∧ State.reset.ctl.locked = false ∧ State.reset.settings.wf)
    ∧ (locked0.resetLow = false ∧ locked0.ctl.locked = true ∧ locked0.ctl.result ≠ .pending)
    ∧ ((withResult .pending locked0).resetLow = false ∧ (withResult .pending locked0).ctl.locked = true
      ∧ (withResult .pending locked0).ctl.result = .pending) := by decide +kernel
/-- A valid stream entry, and one that is not, at both ends of the ranges of its checked items. -/
theorem test_meets_LockSettingsValidatesAndStarts_ranges :
    (locked0.settings.item 48 ≠ 1 ∧ streamState.settings.item 48 = 1
      ∧ streamState.settings.itemOk 52 = true ∧ streamState.settings.itemOk 53 = true
      ∧ (withItem 53 3 streamState).settings.itemOk 53 = false)
    ∧ ((withItem 11 2048 State.reset).settings.itemOk 11 = true ∧ (withItem 11 2112 State.reset).settings.itemOk 11 = false
      ∧ (withItem 11 63 State.reset).settings.itemOk 11 = false)
    ∧ ((withItem 753 16 State.reset).settings.itemOk 753 = true
      ∧ (withItem 753 17 State.reset).settings.itemOk 753 = false
      ∧ (withItem 753 0 State.reset).settings.itemOk 753 = false) := by decide +kernel
theorem test_meets_LockSettingsValidatesAndStarts_locked : locked0.Takes ∧ locked0.ctl.locked = true := by
  decide +kernel
/-- The first item bad, and the last one that has a check. -/
theorem test_meets_LockSettingsValidatesAndStarts_bad :
    ((withItem 0 999 State.reset).Takes ∧ (withItem 0 999 State.reset).ctl.locked = false
      ∧ (withItem 0 999 State.reset).settings.itemOk 0 = false)
    ∧ (withItem 765 4 State.reset).Takes ∧ (withItem 765 4 State.reset).settings.itemOk 765 = false
      ∧ ∀ j ∈ List.range 765, (withItem 765 4 State.reset).settings.itemOk j = true := by decide +kernel
theorem test_meets_LockSettingsValidatesAndStarts_good :
    (withItem 48 1 (withItem 10 1 State.reset)).Takes
      ∧ (∀ i ∈ List.range itemCount, (withItem 48 1 (withItem 10 1 State.reset)).settings.itemOk i = true)
      ∧ 0 < (withItem 48 1 (withItem 10 1 State.reset)).settings.epochLen
      ∧ (withItem 48 1 (withItem 10 1 State.reset)).settings.valid 0 = true
      ∧ (withItem 48 1 (withItem 10 1 State.reset)).settings.enabled 0 = true := by decide +kernel
theorem test_meets_RegisterWriteReachesItsRegister :
    State.reset.resetLow = false ∧ ((4 : Nat) ≠ 8 ∨ 0x18 % 8 ≠ 0) ∧ ((8 : Nat) ≠ 8 ∨ 0x1C % 8 ≠ 0)
      ∧ 0x000 ∉ [0x010, 0x018, 0x020, 0x028, 0x030, 0x070, 0x080, 0x188]
      ∧ 0xFF8 ∉ [0x010, 0x018, 0x020, 0x028, 0x030, 0x070, 0x080, 0x188] := by decide
theorem test_meets_ReadsChangeOnlyTheCauses :
    State.reset.resetLow = false ∧ (0x180 ≤ 0x180 ∧ 0x180 < 0x180 + 1) ∧ (0x179 ≤ 0x180 ∧ 0x180 < 0x179 + 8)
      ∧ ¬ (0x180 < 0x178 + 8) ∧ ¬ (0x181 ≤ 0x180) := by decide
/-- A channel of which nothing is asked, one whose write is in flight, and one to be judged, whose FULL closure is
counted before the clear. -/
theorem test_meets_ClearCountersClearsCountersOnly : busy.Takes ∧ 144 ≠ 145
    ∧ (busy.path.writing 0 = false ∧ (writingState none).path.writing 0 = true)
    ∧ after .clearCounters (endedChan { aChan .run with current := some fullBuffer } .free) (fun t =>
        t.path.chans[0] == { aChan (.stalled .noBuffer) with current := none, closed := [fullBuffer.entry .full] }
          && t.path.att.causes == 3#6) = true := by decide +kernel
theorem test_meets_CaptureResetEmptiesTheCapturePath :
    (State.reset.Takes ∧ State.reset.ctl.locked = false)
    ∧ (busy.Takes ∧ busy.ctl.locked = true ∧ busy.path.writer = .free
      ∧ busy.lines[0].reception = .capturing aFrame ∧ busy.lines[7].reception = .idle)
    ∧ ((writingState none).Takes ∧ (writingState none).path.writer = .holding 0 1 aWrite)
    ∧ (withWriter (.abandoned aWrite) locked0).path.writer = .abandoned aWrite
    ∧ (withWriter (.granted 0 1) locked0).path.writer = .granted 0 1 := by decide +kernel
/-- The write of a channel the writer has fallen to is abandoned as any other; a channel that stalls gives it up. -/
theorem test_meets_CaptureResetEmptiesTheCapturePath_granted :
    after .captureReset (endedChan (aChan .run) (.granted 0 2)) (fun t => t.path.writer == .abandoned aWrite
      && t.path.chans[0] == {}) = true
    ∧ after .captureReset (endedChan { aChan .run with current := some fullBuffer } (.granted 0 2))
      (fun t => t.path.writer == .free && t.path.att.causes == 3#6) = true := by decide +kernel
theorem test_meets_AttentionMessageIsSentAndCompleted :
    ((withAtt { causes := 4, enables := 3 } locked0).path.att.causes &&& 3#6) = 0
    ∧ ((withAtt { causes := 4, enables := 4, armed := true } locked0).path.att.causes &&& 4#6) ≠ 0
    ∧ (withAtt { causes := 4, enables := 4, armed := true } locked0).path.att.message = none
    ∧ (withAtt { causes := 4, enables := 4, armed := true } locked0).ctl.result ≠ .pending
    ∧ (withAtt { causes := 4, armed := true, message := some aWrite } locked0).path.att.message = some aWrite
    ∧ (withAtt { message := some aWrite } locked0).path.att.waiting = false
    ∧ (withAtt { message := some aWrite } locked0).path.writer = .free := by decide +kernel
def queueOf (n : Nat) (t : Option Tally) : State :=
  withChan { queue := List.replicate n aRecord, tally := t } locked0
theorem test_meets_OfferFollowsTheTally_empty :
    (queueOf 1023 none).path.WithinCapacity ∧ ((queueOf 1023 none).path.chans[0]).queue.length < 1024 := by
  unfold Path.WithinCapacity; decide +kernel
theorem test_meets_OfferFollowsTheTally_full :
    (queueOf 1024 none).path.WithinCapacity ∧ ((queueOf 1024 none).path.chans[0]).queue.length = 1024 := by
  unfold Path.WithinCapacity; decide +kernel
theorem test_meets_OfferFollowsTheTally_tally :
    (queueOf 1022 (some ⟨1, 0, 0⟩)).path.WithinCapacity
      ∧ ((queueOf 1022 (some ⟨1, 0, 0⟩)).path.chans[0]).queue.length + 2 ≤ 1024
      ∧ (queueOf 1023 (some ⟨1, 0, 0⟩)).path.WithinCapacity
      ∧ 1024 ≤ ((queueOf 1023 (some ⟨1, 0, 0⟩)).path.chans[0]).queue.length + 1 := by
  unfold Path.WithinCapacity; decide +kernel
theorem test_meets_StartChannelEntersRun :
    ((withChan (aChan .run) locked0).Takes ∧ ((withChan (aChan .run) locked0).path.chans[0]).state = .run)
    ∧ ((withChan { aChan .error with owed := true } locked0).path.chans[0]).owed = true
    ∧ (((withChan { state := .idle } locked0).path.chans[0]).queue = [] ∧ (withChan {} locked0).path.writing 0 = false)
    ∧ ((withChan { state := .error, queue := [aRecord] } locked0).path.chans[0]).current = none
    ∧ ((withChan (aChan .stopped) locked0).path.chans[0]).queue = aRecord :: []
    ∧ aBuffer.fill + aRecord.size ≤ aBuffer.len ∧ fullBuffer.len < fullBuffer.fill + aRecord.size
    ∧ (withWriter (.holding 0 1 aWrite) (withChan (aChan .stopped) locked0)).path.writing 0 = true
    ∧ (withChan (aChan .stopped) locked0).path.writing 0 = false
    ∧ (withItem 754 7 State.reset).settings.idleTicks 0 = 7000 ∧ State.reset.settings.idleTicks 0 = 0
    ∧ (0 < fullBuffer.records ∧ aBuffer.records = 0)
    ∧ ((withChan { aChan .idle with closed := List.replicate 3 anEntry } locked0).path.chans[0]).closed.length < 4
    ∧ 4 ≤ ((withChan { aChan .idle with closed := List.replicate 4 anEntry } locked0).path.chans[0]).closed.length := by
  decide +kernel
theorem test_meets_StopChannelStops :
    ((withChan (aChan .stopped) locked0).Takes ∧ ((withChan (aChan .stopped) locked0).path.chans[0]).state = .stopped)
    ∧ ((writingState none).Takes ∧ ((writingState none).path.chans[0]).state = .run
      ∧ (writingState none).path.writing 0 = true)
    ∧ ((withChan { aChan (.stalled .noBuffer) with current := some fullBuffer } locked0).path.writing 0 = false
      ∧ 0 < fullBuffer.records)
    ∧ (endedChan (aChan .run) (.granted 0 1)).path.writer = .granted 0 1
    ∧ aBuffer.records = 0 := by decide +kernel
theorem test_meets_FlushChannelFlushes :
    ((withChan (aChan .error) locked0).Takes ∧ ((withChan (aChan .error) locked0).path.chans[0]).state = .error)
    ∧ ((writingState none).Takes ∧ ((writingState none).path.chans[0]).state ≠ .idle
      ∧ ((writingState none).path.chans[0]).state ≠ .error ∧ (writingState none).path.writing 0 = true)
    ∧ ((withChan { aChan .run with current := some fullBuffer } locked0).path.writing 0 = false
      ∧ 0 < fullBuffer.records
      ∧ ((withChan { aChan .run with current := some fullBuffer } locked0).path.chans[0]).queue = aRecord :: []
      ∧ ((withChan { aChan .run with current := some fullBuffer } locked0).path.chans[0]).next = none)
    ∧ 4 ≤ ((withChan { aChan .stopped with closed := List.replicate 4 anEntry } locked0).path.chans[0]).closed.length :=
  by decide +kernel
/-- In RUN with a head that fits, with nothing queued, and out of RUN. -/
theorem test_meets_Ready : (aChan .run).Ready ∧ ({ state := .run } : Channel).Ready ∧ (aChan .stopped).Ready := by
  refine ⟨?_, ?_, ?_⟩
  · intro _ r rest h
    cases h
    exact ⟨aBuffer, rfl, by decide⟩
  · intro _ r rest h
    cases h
  · intro h
    cases h
def posted (addr : BitVec 64) (len : BitVec 32) (ch : Channel) : State :=
  withChan ch { locked0 with ctl := { locked0.ctl with arg0 := addr, arg1 := len } }
/-- A valid post at the very top of the address space, an invalid one just past it, and the three slots. -/
theorem test_meets_PostBufferFillsTheSlots :
    ((posted 0xFFFFFFFFFFFFF000 4096 {}).Takes
      ∧ (posted 0xFFFFFFFFFFFFF000 4096 {}).ctl.arg0.toNat + 4096 ≤ 2 ^ 64
      ∧ (posted 0xFFFFFFFFFFFFF000 4096 {}).ctl.arg0.toNat % 4096 = 0)
    ∧ ¬ (posted 0xFFFFFFFFFFFFF000 8192 {}).ctl.arg0.toNat + 8192 ≤ 2 ^ 64
    ∧ ((posted 4096 4096 {}).path.chans[0]).current = none ∧ aRecord.size ≤ 4096
    ∧ ((posted 4096 4194304 (aChan .run)).path.chans[0]).current ≠ none
    ∧ ((posted 4096 4194304 (aChan .run)).path.chans[0]).next = none
    ∧ ((posted 4096 4096 { aChan .run with next := some ⟨8192, 4096⟩ }).path.chans[0]).next ≠ none := by decide +kernel
/-- A channel whose good write completed at this very instant is judged before the buffer is posted, with room in the
closed list and without. -/
theorem test_meets_PostBufferFillsTheSlots_ended :
    let full := fun (closed : List ClosedEntry) (next : Option PostedBuffer) =>
      posted 4096 4096 { aChan .run with current := some fullBuffer, next := next, closed := closed, ended := true }
    after (.postBuffer 0) (full [] none) (fun t => t.path.att.causes == 3#6 && t.path.chans[0].state == .run
        && t.path.chans[0].current == some { addr := 4096, len := 4096 }
        && t.path.chans[0].closed == [fullBuffer.entry .full]) = true
    ∧ after (.postBuffer 0) (full (List.replicate 4 anEntry) none) (fun t =>
        t.path.chans[0].state == .stalled .closedFull && t.path.chans[0].next == some ⟨4096, 4096⟩) = true
    ∧ after (.postBuffer 0) (full [] (some ⟨8192, 4096⟩)) (fun t => t.ctl.result == .done
        && t.path.chans[0].current == some { addr := 8192, len := 4096 }
        && t.path.chans[0].next == some ⟨4096, 4096⟩) = true
    ∧ after (.postBuffer 0) (withWriter (.holding 0 1 aWrite) (full [] none)) (fun t =>
        t.path.chans[0].current == some fullBuffer && t.path.chans[0].next == some ⟨4096, 4096⟩) = true := by decide +kernel
theorem test_meets_TakeClosedReturnsTheOldest :
    (locked0.Takes ∧ (locked0.path.chans[0]).closed = [])
    ∧ ((withChan { aChan .error with closed := [anEntry], owed := true } locked0).path.chans[0]).owed = true
    ∧ ((withChan { aChan (.stalled .closedFull) with closed := [anEntry] } locked0).path.chans[0]).state
        = .stalled .closedFull
    ∧ ((withChan { aChan (.stalled .closedFull) with closed := [anEntry] } locked0).path.chans[0]).next = none
    ∧ aRecord.size ≤ (⟨8192, 4096⟩ : PostedBuffer).len
    ∧ ((withChan { closed := [anEntry] } locked0).path.chans[0]).state ≠ .stalled .closedFull := by decide +kernel
/-- The stall of a completion of this very instant stands before the entry is taken, and the freed entry takes the
closure that waited. -/
theorem test_meets_TakeClosedReturnsTheOldest_ended :
    let full := fun (closed : List ClosedEntry) =>
      endedChan { aChan .run with current := some fullBuffer, next := some ⟨8192, 4096⟩, closed := closed } .free
    after (.takeClosed 0) (full (List.replicate 4 anEntry)) (fun t => t.path.chans[0].state == .run
        && t.path.att.causes == 3#6 && t.path.chans[0].current == some { addr := 8192, len := 4096 }
        && t.path.chans[0].closed == List.replicate 3 anEntry ++ [fullBuffer.entry .full]) = true
    ∧ after (.takeClosed 0) (full []) (fun t => t.ctl.taken.fill == 4080 && t.path.chans[0].closed == []
        && t.path.att.causes == 1#6) = true := by decide +kernel
theorem test_meets_Completions (cmd : Option ChanCommand) :
    (writingState cmd).resetLow = false ∧ (writingState cmd).path.writer = .holding 0 1 aWrite
      ∧ (writingState cmd).path.chans[(0 : Chan)].queue = aRecord :: []
      ∧ (writingState cmd).path.chans[(0 : Chan)].current = some aBuffer
      ∧ (writingState cmd).path.chans[(0 : Chan)].pendingCmd = cmd
      ∧ (writingState cmd).path.chans[(0 : Chan)].closed.length < 4 :=
  ⟨rfl, rfl, rfl, rfl, rfl, Nat.zero_lt_succ 3⟩
theorem test_meets_GoodCompletion_mem : after .writeCompleteGood (writingState none)
    (fun t => t.path.inFlightWrites == []) = true := by decide +kernel
theorem test_meets_FailedCompletion_owes : 4 ≤ ((withChan { aChan .run with closed := List.replicate 4 anEntry }
    (writingState none)).path.chans[0]).closed.length := by decide +kernel
theorem test_meets_AbandonedCompletionFreesTheWriter :
    locked0.resetLow = false ∧ (withWriter (.abandoned aWrite) locked0).path.writer = .abandoned aWrite
    ∧ aWrite.addr + aWrite.bytes.length ≤ 4136 ∧ 4095 < aWrite.addr := by decide +kernel
theorem test_meets_StopAndCompletionAgree :
    (writingState none).Takes ∧ (writingState none).path.chans[(0 : Chan)].state = .run
      ∧ (writingState none).path.chans[(0 : Chan)].pendingCmd = none
      ∧ ∀ k : Chan, k ≠ 0 → ((writingState none).path.chans[k]).queue = [] := by decide +kernel
theorem test_meets_IdleFlushExpiryCloses :
    ((withChan { aChan .run with idleExpiry := some 0 } locked0).path.chans[0]).idleExpiry = some 0
    ∧ ticksSince locked0.now 0 < 2 ^ 63 ∧ (writingState none).path.writing 0 = true
    ∧ (withChan { aChan .run with idleExpiry := some 0 } locked0).path.writing 0 = false
    ∧ ((withChan { aChan .run with idleExpiry := some 0 } locked0).path.chans[0]).ended = false
    ∧ ((endedChan { aChan .run with idleExpiry := some 0 } .free).path.chans[0]).ended = true
    ∧ ((withChan { aChan .run with idleExpiry := some 0 } locked0).path.chans[0]).next = none := by decide +kernel
theorem test_meets_RecordsHaveTheirSize :
    (⟨⟨0, 0, 0, .unscaled⟩, 0, false, 0, none, false, false, false, 2048, List.replicate 2048 0, 16⟩ : Classified).frameLength
      = 2048 ∧ (List.replicate 2048 (0 : Byte)).length ≤ 2048 := ⟨rfl, Nat.le_of_eq List.length_replicate⟩
theorem test_meets_JoinListensAndLeaveGoesQuiet :
    (State.reset.Takes ∧ State.reset.ctl.locked = false) ∧ (busy.Takes ∧ busy.ctl.locked = true ∧ busy.sc.state ≠ .quiet)
    ∧ (locked0.Takes ∧ locked0.ctl.locked = true ∧ locked0.sc.state = .quiet
      ∧ (locked0.path.chans[locked0.settings.eventChannel]).tally = none
      ∧ (locked0.path.chans[locked0.settings.eventChannel]).queue.length + 1 ≤ 1024)
    ∧ (busy.path.chans[busy.settings.eventChannel]).tally = none := by decide +kernel
/-- The three statements about an own boundary, in each state of the Scale Controller. -/
theorem test_meets_OwnBoundary (st : ScaleState) :
    (inState st (dateAt 1000000)).resetLow = false ∧ (inState st (dateAt 1000000)).tb.running = true
      ∧ (inState st (dateAt 1000000)).tb.eCur ≤ (inState st (dateAt 1000000)).tb.count
      ∧ (inState st (dateAt 1000000)).sc.state = st :=
  ⟨rfl, rfl, show (dateAt 1000000).tb.eCur ≤ (dateAt 1000000).tb.count by decide +kernel, rfl⟩
theorem test_meets_OwnBoundary_drives : after .ownBoundary (inState .align (dateAt 1000000))
    (fun t => t.sc.state == .align && !t.sc.mutedProfile && !t.sc.mutedClash) = true := by decide +kernel
/-- The windows of the drive clauses: nothing taken, a rise taken, a rise and a fall taken; nothing drives before. -/
theorem test_meets_OwnBoundaryWorksTheCage :
    ((inWindow aMarkWindow .align 1000000).bus.window = some aMarkWindow
      ∧ (inWindow aMarkWindow .align 1000000).bus.drive = none
      ∧ (inWindow aMarkWindow .align 1000000).bus.pullFails = false)
    ∧ after .ownBoundary (inWindow { aMarkWindow with r := some 3 } .align 1000000)
      (fun t => t.bus.window == some { aMarkWindow with expiry := some 0, r := some 3 }) = true
    ∧ after .ownBoundary (inWindow { aMarkWindow with r := some 3, f := some 4 } .align 1000000)
      (fun t => t.bus.asserting == some true && t.cage.split == 0
        && afterStep t fun u => u.cage.split == 1 && u.tb.tick == t.tb.tick) = true
    ∧ after .ownBoundary (inWindow aMarkWindow .held 1000000)
      (fun t => t.sc.state == .align && t.bus.drive == some 0) = true := by decide +kernel
/-- A LEAVE in the instant of the boundary leaves no drive and no SPLIT. -/
theorem test_leave_at_the_boundary_drives_nothing :
    after .ownBoundary (inWindow { aMarkWindow with r := some 3, f := some 4 } .align 1000000)
      (fun t => after .leaveCage t fun u => u.bus.drive == none && u.cage.split == 0 && !u.unsettled) = true := by
  decide +kernel
/-- Station 3, heard no more, falls silent. -/
theorem test_meets_OwnBoundaryWorksTheCage_peer :
    let s : State := { inState .align (dateAt 1000000) with
      roster := (dateAt 1000000).roster.set 3 { present := true, silence := 254 } }
    (s.roster[3]).present = true
    ∧ after .ownBoundary s (fun t => !t.roster[3].present && t.path.att.causes.getLsbD 4) = true := by decide +kernel
/-- The TIME records of a boundary at which no line changes. -/
theorem test_meets_OwnBoundaryWorksTheCage_records :
    (∀ l : Line, ((dateAt 1000000).lines[l]).state = .off)
    ∧ after .ownBoundary (inState .held (dateAt 1000000)) (fun t => t.path.chans[0].queue ==
        [.time .held .align .resumed false false 0 0 0 ⟨0, 1, 0, .aligning⟩]) = true
    ∧ after .ownBoundary { dateAt 1000000 with sc := { state := .listen, listen := 254 } }
      (fun t => t.path.chans[0].queue == [.time .listen .align .founded false false 0 0 0 ⟨0, 1, 0, .aligning⟩]) = true
    ∧ after .ownBoundary { dateAt 1000000 with sc := { state := .held, mutedProfile := true, measuredHeld := true } }
      (fun t => t.path.chans[0].queue == [.time .held .held .unmuted false false 0 0 0 ⟨0, 1, 0, .holdover⟩,
        .time .held .align .resumed false false 0 0 0 ⟨0, 1, 0, .aligning⟩]) = true
    ∧ after .ownBoundary { dateAt 1000000 with sc := { state := .held, mutedClash := true, measuredHeld := true } }
      (fun t => t.path.chans[0].queue == [.time .held .align .remeasured false true 0 0 0 ⟨0, 1, 0, .aligning⟩]) = true := by
  decide +kernel
theorem test_meets_OwnBoundaryRestartsTheDateAndTestsTheLines :
    (withLine { aLine .up with epochErrors := 17 } (dateAt 1000000)).settings.errorLimit 0
      < ((withLine { aLine .up with epochErrors := 17 } (dateAt 1000000)).lines[0]).epochErrors
    ∧ ((withLine { aLine .degraded with epochErrors := 16 } (dateAt 1000000)).lines[0]).epochErrors
      ≤ (withLine { aLine .degraded with epochErrors := 16 } (dateAt 1000000)).settings.errorLimit 0 := by
  decide +kernel
theorem test_meets_ClockworkEventsAndTheWindowOpening :
    (dateAt 500000).resetLow = false ∧ ((dateAt 500000).tb.eCur + 1) / 2 ≤ (dateAt 500000).tb.count
    ∧ locked0.settings.hold ≤ ticksSince (atTick 1000 locked0).now 0 ∧ 42000 ≤ ticksSince (atTick 42000 locked0).now 0
    ∧ (aMarkWindow.r = none ∧ { aMarkWindow with r := some 3 }.f = none
      ∧ { aMarkWindow with r := some 3, f := some 4 }.f ≠ none) := by
  decide +kernel
theorem test_meets_ClockworkEventsAndTheWindowOpening_opens (st : ScaleState) :
    (inState st (dateAt 990000)).tb.openAnnounced = false ∧ (inState st (dateAt 990000)).tb.running = true
    ∧ (inState st (dateAt 990000)).tb.eCur ≤ (dateAt 990000).tb.count + (dateAt 990000).settings.halfWidth :=
  ⟨rfl, rfl, show (dateAt 990000).tb.eCur ≤ _ by decide +kernel⟩
theorem test_meets_OutcomeIsTheFirstThatHolds :
    aMarkWindow.expiry = some 10000 ∧ aMarkWindow.openAsserted = false ∧ aMarkWindow.r = none
    ∧ ({ aMarkWindow with openAsserted := true }.openAsserted = true ∧ aMarkWindow.releasedBefore = true)
    ∧ ({ aMarkWindow with openAsserted := true, releasedBefore := false }.releasedBefore = false)
    ∧ ({ aMarkWindow with r := some 9000 }.r = some 9000 ∧ { aMarkWindow with r := some 9000 }.f = none)
    ∧ { aMarkWindow with r := some 9000, f := some 9900 }.f = some 9900 := by decide
/-- What a close tells: GAINED, OFFSET, VOIDS, SILENT and STUCK. -/
theorem test_meets_CompleteCloseSteers_records :
    after .windowClose { inWindow { aMarkWindow with r := some 10002, f := some 11006 } .align 10000 with
        sc := { state := .align, good := 254 } }
      (fun t => t.path.chans[0].queue == [.time .align .locked .gained false false (-4) 0 0 ⟨0, 0, 10000, .locked⟩]) = true
    ∧ after .windowClose (inWindow { aMarkWindow with r := some 10402, f := some 11406 } .locked 10000)
      (fun t => t.path.chans[0].queue == [.time .locked .align .offset false false (-404) 0 0 ⟨0, 0, 10000, .aligning⟩])
      = true := by decide +kernel
theorem test_meets_VoidAndStuckCloses_records :
    after .windowClose { inWindow aMarkWindow .locked 10000 with sc := { state := .locked, voids := 1 } }
      (fun t => t.path.chans[0].queue == [.time .locked .align .voids false false 0 0 0 ⟨0, 0, 10000, .aligning⟩]) = true
    ∧ after .windowClose { inWindow aMarkWindow .align 10000 with
        sc := { state := .align, mutedClash := true, noMarkRun := 1 } }
      (fun t => t.path.chans[0].queue == [.time .align .held .silent false true 0 0 0 ⟨0, 0, 10000, .holdover⟩]) = true
    ∧ after .windowClose (inWindow { aMarkWindow with openAsserted := true, releasedBefore := false } .align 10000)
      (fun t => t.path.chans[0].queue == [.time .align .held .stuck false false 0 0 0 ⟨0, 0, 10000, .holdover⟩]) = true := by
  decide +kernel
/-- A window close in its four states; the outcome is a complete one, NO MARK or STUCK by the window. -/
theorem test_meets_WindowClose (w : MarkWindow) (st : ScaleState) :
    (inWindow w st 10000).resetLow = false ∧ (inWindow w st 10000).tb.running = true
      ∧ (inWindow w st 10000).tb.ownStart = true ∧ (inWindow w st 10000).tb.closeAnnounced = false
      ∧ (inWindow w st 10000).settings.halfWidth ≤ (inWindow w st 10000).tb.count
      ∧ (inWindow w st 10000).bus.window = some w ∧ (inWindow w st 10000).sc.state = st
      ∧ (inWindow w st 10000).bus.drive = none ∧ (inWindow w st 10000).bus.markLine = false :=
  ⟨rfl, rfl, rfl, rfl, show (dateAt 10000).settings.halfWidth ≤ (dateAt 10000).tb.count by decide +kernel, rfl, rfl,
    rfl, rfl⟩
theorem test_meets_CompleteCloseSteers :
    { aMarkWindow with r := some 10002, f := some 11006 }.outcome 10000 1000 = .complete (-4)
    ∧ { aMarkWindow with r := some 10052, f := some 11056 }.outcome 10000 1000 = .complete (-54)
    ∧ { aMarkWindow with r := some 10102, f := some 11106 }.outcome 10000 1000 = .complete (-104)
    ∧ (dateAt 10000).settings.slew ≤ (dateAt 10000).settings.epochLen
    ∧ (dateAt 10000).tb.count < (dateAt 10000).settings.epochLen - (dateAt 10000).settings.slew
    ∧ (-54 : Int).natAbs > (dateAt 10000).settings.threshold
    ∧ (-104 : Int).natAbs > 2 * (dateAt 10000).settings.threshold := by decide +kernel
theorem test_meets_VoidAndStuckCloses :
    aMarkWindow.outcome 10000 1000 = .noMark
    ∧ { aMarkWindow with openAsserted := true, releasedBefore := false }.outcome 10000 1000 = .stuck
    ∧ { aMarkWindow with openAsserted := true }.outcome 10000 1000 = .early
    ∧ { aMarkWindow with r := some 9000 }.outcome 10000 1000 = .long
    ∧ ({ (inWindow aMarkWindow .align 10000).sc with mutedClash := true, noMarkRun := 1 }.mutedClash = true) := by
  decide +kernel
theorem test_meets_MarkLineEdges :
    (locked0.bus.markLine = false ∧ (withBus { cagePull := true } locked0).bus.markLine = true
      ∧ (withBus { drive := some 0 } locked0).bus.markLine = true
      ∧ (withBus { drive := some 0, pullFails := true } locked0).bus.markLine = false)
    ∧ (withBus { drive := some 0, cagePull := true } locked0).bus.pullFails = false
    ∧ (inWindow aMarkWindow .align 0).bus.window = some aMarkWindow
    ∧ (ticksSince 399 0 < 400 ∧ 42000 ≤ ticksSince 42000 0 ∧ 2240 ≤ (ticksSince 2640 0 - 400) % 2600)
    ∧ (400 ≤ ticksSince 400 0 ∧ ticksSince 2639 0 < 42000 ∧ (ticksSince 2639 0 - 400) % 2600 < 2240)
    ∧ (withBus { watch := .armed } locked0).bus.watch = .armed
    ∧ ((withBus { cagePull := true, watch := .rose 200 } (dateAt 0)).bus.drive = none
      ∧ (inState .listen (dateAt 0)).sc.state = .listen)
    ∧ ((400 + (dateAt 0).settings.hold) / 2 < (dateAt 0).tb.eCur
      ∧ (dateAt 0).tb.eCur ≤ (1999000 + (dateAt 0).settings.hold) / 2)
    ∧ (0 < ticksSince 1 0 ∧ ticksSince 999 0 < (dateAt 0).settings.hold) := by decide +kernel
def failing : State := atTick 1 (inState .locked (withBus { drive := some 0, pullFails := true } (dateAt 5)))
theorem test_meets_DriveFaultEntersHeld :
    failing.bus.drive = some 0 ∧ 0 < ticksSince failing.now 0 ∧ ticksSince failing.now 0 < failing.settings.hold
      ∧ failing.bus.markLine = false ∧ failing.bus.faultReported = false ∧ failing.sc.state = .locked := by
  decide +kernel
theorem test_meets_NoticeSendingAndReadBack :
    ((inState .align (withBus { station := 15, fallRef := some ⟨0, .window⟩ } locked0)).bus.fallRef
        = some ⟨0, .window⟩ ∧ ticksSince 39400 0 = 400 + 2600 * (15 : Station).val)
    ∧ (ticksSince 10 0 = 20 * 0 + 10 ∧ aNotice.getMsbD 0 = false)
    ∧ (ticksSince 2230 0 = 20 * 111 + 10 ∧ aNotice.getMsbD 111 = true)
    ∧ 2240 ≤ ticksSince 2240 0 := by decide +kernel
/-- The own pull in the first and the last bit, at their first and last ticks; and the level the lane keeps. -/
theorem test_meets_NoticeSendingAndReadBack_lane :
    let sends := fun tick : Nat => atTick tick (withBus { transmitter := .sending 0 aNotice 0 } locked0)
    (sends 0).pullsLane = true ∧ (sends 19).pullsLane = true ∧ (sends 2239).pullsLane = false
    ∧ (aNotice.getMsbD 0 = false ∧ aNotice.getMsbD 111 = true) ∧ locked0.pullsLane = false
    ∧ (State.laneUpTo 0 0 = BitVec.allOnes 112 ∧ (State.laneUpTo 0 2).getMsbD 1 = false
      ∧ (State.laneUpTo 0 2).getMsbD 2 = true)
    ∧ after (.noticeSend .finish) (sends 2240) (fun t => t.bus.lane == aNotice && t.bus.noticeSent) = true := by
  decide +kernel
/-- The third clash epoch mutes, and a fault leads to HELD. -/
theorem test_meets_NoticeSendingAndReadBack_records :
    let sending := fun (n : BitVec 112) (clashes : Nat) =>
      atTick 10 (withBus { transmitter := .sending 0 n 0 } { locked0 with sc := { state := .align, clashCount := clashes } })
    after (.noticeSend (.sample false)) (sending (BitVec.allOnes 112) 2) (fun t => t.path.chans[0].queue ==
        [.time .align .align .muted false true 0 0 0 ⟨10, 0, 0, .aligning⟩]) = true
    ∧ after (.noticeSend (.sample false)) (sending (BitVec.allOnes 112) 1) (fun t => t.path.chans[0].queue == []) = true
    ∧ after (.noticeSend (.sample true)) (sending 0 0) (fun t => t.path.chans[0].queue ==
        [.time .align .held .driveFault false false 0 0 0 ⟨10, 0, 0, .holdover⟩]) = true := by decide +kernel
theorem test_meets_NoticesAreClassifiedAndTaken :
    (slotEnd.resetLow = false ∧ slotEnd.sc.state ≠ .quiet ∧ slotEnd.bus.receiver = some 2
      ∧ slotEnd.bus.fallRef = some ⟨0, .watch⟩ ∧ ticksSince slotEnd.now 0 = 400 + 2600 * (2 : Station).val + 2240)
    ∧ (aNotice ≠ BitVec.allOnes 112 ∧ (readNotice aNotice).map (·.station) = some 2 ∧ (2 : Station) ≠ slotEnd.bus.station)
    ∧ ((0#112) ≠ BitVec.allOnes 112 ∧ readNotice 0#112 = none)
    ∧ (slotEnd.roster[2]).present = false ∧ (readNotice aNotice).map (·.state) = some .locked := by decide +kernel
/-- The own slot, with no other station pulling: the notice sent to its end is read and is no error and no number seen;
one that was abandoned is an error; and the receiver takes what the others add. -/
theorem test_meets_NoticesAreClassifiedAndTaken_own :
    let own := fun (sent : Bool) (lane : BitVec 112) => atTick 7840 (inState .align (withBus
      { station := 2, receiver := some 2, fallRef := some ⟨0, .window⟩, noticeSent := sent, lane := lane } (dateAt 0)))
    let silent := BitVec.allOnes 112
    (State.slotLevels 2 silent (own true aNotice) = aNotice ∧ State.slotLevels 1 silent (own true aNotice) = silent)
    ∧ after (.noticeReceive silent) (own true aNotice) (fun t =>
        t.cage == {} && t.roster == (dateAt 0).roster && t.bus.receiver == none) = true
    ∧ after (.noticeReceive silent) (own false (State.laneUpTo aNotice 30)) (fun t => t.cage.noticeError == 1) = true
    ∧ after (.noticeReceive aNotice) (own false silent) (fun t => t.cage.numberSeen == 1) = true
    ∧ after (.noticeReceive 0) (own true aNotice) (fun t => t.cage.noticeError == 1) = true := by decide +kernel
/-- What an adoption and a renumbering tell. -/
theorem test_meets_NoticesAreClassifiedAndTaken_records :
    after (.noticeReceive aNotice) { slotEnd with sc := { state := .listen, phaseSet := true } }
      (fun t => t.path.chans[0].queue ==
        [.time .listen .align .adopted false false 0 2 0 ⟨7840, 7, 0, .aligning⟩]) = true
    ∧ after (.noticeReceive aNotice) (inState .align slotEnd) (fun t => t.path.chans[0].queue ==
        [.time .align .align .renumbered false false 0 2 0 ⟨7840, 7, 0, .aligning⟩]) = true
    ∧ 0 < modDist 48 slotEnd.tb.epoch.toNat 7 ∧ ¬ 0 < modDist 48 7 7 := by decide +kernel
theorem test_meets_NoticeIsReadAsSent :
    (ScaleState.held = .align ∨ ScaleState.held = .locked ∨ ScaleState.held = .held) ∧ (-32767 : Int) ≤ -32767
      ∧ (32767 : Int) ≤ 32767 ∧ 15 ≤ 15 := by decide
/-- The same fields with a start bit of 1, a wrong check, a wrong stop bit, a state of 1 and of 5, an offset of 8000h
and 16 peers: none is a valid notice; `aNotice` is one. -/
theorem test_meets_NoticeIsReadAsSent_rejects :
    let notice := fun (start : BitVec 1) (state : BitVec 3) (offset : BitVec 16) (peers : BitVec 5) (bad : BitVec 8)
        (stop : BitVec 2) =>
      let fields : BitVec 101 :=
        0b0010#4 ++ state ++ 0#1 ++ 7#48 ++ offset ++ 0x1234#16 ++ 0b10000001#8 ++ peers
      readNotice (start ++ fields ++ (noticeCheck fields ^^^ bad) ++ stop)
    (notice 0 2 0 15 0 3).isSome = true ∧ (notice 0 4 0x8001 0 0 3).map (·.offset) = some (-32767)
      ∧ notice 1 2 0 0 0 3 = none ∧ notice 0 2 0 0 1 3 = none ∧ notice 0 2 0 0 0 1 = none ∧ notice 0 2 0 0 0 2 = none
      ∧ notice 0 1 0 0 0 3 = none ∧ notice 0 5 0 0 0 3 = none ∧ notice 0 2 0x8000 0 0 3 = none
      ∧ notice 0 2 0 16 0 3 = none ∧ (readNotice aNotice).isSome = true := by decide +kernel
theorem test_meets_LosSampleFilters : losState.resetLow = false ∧ losState.losPhase = some losState.settings.losPeriod
    ∧ (losState.lines[0]).state ≠ .off ∧ (losState.lines[0]).history = some false ∧ (losState.lines[0]).los = true
    ∧ (losState.lines[1]).state = .off := by decide +kernel
/-- Line 0 goes DOWN by LOS in mid-frame, no other line changing, and goes UP at once with no settle interval. -/
theorem test_meets_LosSampleFilters_changes :
    (let s : State := { withFree 4095 (withLine { capturing aFrame with history := some true } locked0) with
        losPhase := some 10000 }
     (s.lines[0]).state ≠ .down ∧ (s.lines[0]).los = false ∧ (s.lines[0]).reception = .capturing aFrame
      ∧ (∀ k : Line, k ≠ 0 → (s.lines[k]).state = .off)
      ∧ after (.losSample 1) s (fun t => t.lines[0].state == .down && t.lines[0].reception == .idle
        && t.lines[0].counters.aborts == 1 && t.path.store.free == 4096 && t.path.att.causes == 4#6
        && t.path.chans[0].queue == [.line 0 .up .down .los 0 ⟨0, 0, 0, .unscaled⟩]) = true)
    ∧ after (.losSample 0) losState (fun t => t.lines[0].settle == some 0 && t.path.arb.view[0] == .settling
        && t.path.chans[0].queue == [.line 0 .down .settling .signal 0 ⟨0, 0, 0, .unscaled⟩]) = true
    ∧ after (.losSample 0) (withItem 47 0 losState) (fun t => t.lines[0].state == .up && t.path.arb.view[0] == .up
        && t.path.chans[0].queue == [.line 0 .down .up .settled 0 ⟨0, 0, 0, .unscaled⟩]) = true := by decide +kernel
/-- Alignment lost in mid-frame: the frame is aborted, and one that it held back is released before the record. -/
theorem test_meets_LineReportsMoveTheLine_abort :
    let s : State := { busy with path := { busy.path with merge := { busy.path.merge with pending := [aClassified] } } }
    (s.lines[0]).reception = .capturing aFrame
    ∧ after (.receiverNotAligned 0) s (fun t => t.lines[0].state == .down && t.lines[0].reception == .idle
        && t.path.merge.inFlight[0] == none && t.path.arb.view[0] == .down && t.path.att.causes == 4#6
        && t.path.chans[0].queue
          == [.first aClassified, .line 0 .up .down .alignLost 0 ⟨0, 0, 5, .locked⟩]) = true := by decide +kernel
theorem test_meets_LineReportsMoveTheLine :
    ((withLine (aLine .down) locked0).lines[0].state = .down ∧ (withLine (aLine .down) locked0).lines[0].los = false
      ∧ 0 < locked0.settings.settleTicks ∧ (withItem 47 0 State.reset).settings.settleTicks = 0)
    ∧ busy.lines[0].state = .up ∧ busy.lines[0].reception = .capturing aFrame ∧ busy.lines[1].state = .off
    ∧ (withLine { aLine .settling with settle := some 0 } locked0).lines[0].settle = some 0
    ∧ (locked0.path.chans[locked0.settings.eventChannel].queue.length < 1024
      ∧ (Path.viewReport locked0.settings 0 .up locked0.path).passedStreams = [])
    ∧ (locked0.settings.errorLimit 0 < ({ aLine .up with epochErrors := 17 } : LinePort).epochErrors
      ∧ ({ aLine .degraded with epochErrors := 16 } : LinePort).epochErrors ≤ locked0.settings.errorLimit 0)
    ∧ locked0.settings.settleTicks ≤ ticksSince (atTick 100000 locked0).now 0 := by decide +kernel
/-- A paired stream on lines 0 and 1, with a gap timeout of 5 µs: with both legs up it waits, with one it does not, and
a line outside its legs leaves its window. -/
def pairedState : State :=
  { withItem 42 1 (withItem 58 5 (withItem 51 3 (withItem 48 1 locked0))) with
    path := { locked0.path with arb := { locked0.path.arb with
      view := (locked0.path.arb.view.set 0 .up).set 1 .up, windows := locked0.path.arb.windows.set 0
        { ({} : SeqWindow) with holeSince := some 9, deadline := some 5009, timeout := 5000 } } } }
theorem test_meets_LineReportsMoveTheLine_legs :
    effectiveTimeout pairedState.settings pairedState.path.arb.view 0 = 5000
    ∧ effectiveTimeout pairedState.settings (pairedState.path.arb.view.set 1 .down) 0 = 0
    ∧ (Path.viewReport pairedState.settings 1 .down pairedState.path).arb.windows[0].deadline = some 9
    ∧ (Path.viewReport pairedState.settings 0 .degraded pairedState.path).arb.windows[0].deadline = some 5009
    ∧ (Path.viewReport pairedState.settings 2 .up pairedState.path).arb.windows[0].deadline = some 5009 := by
  decide +kernel
theorem test_meets_FrameStartCapturesOrSkips :
    (withLine (aLine .degraded) locked0).lines[0].reception = .idle
    ∧ (withLine (aLine .degraded) locked0).lines[0].state = .degraded ∧ 0 < locked0.path.store.free
    ∧ (withFree 0 locked0).path.store.free = 0 ∧ (withLine (aLine .settling) locked0).lines[0].state = .settling
    ∧ locked0.lines[0].state = .off := by decide +kernel
def blockEnd : PortFrame := { aFrame with bytes := List.replicate 127 0, stored := 127 }
theorem test_meets_BytesAskForBlocksAndPassTheCeiling :
    ((withLine (capturing blockEnd) locked0).lines[0].reception = .capturing blockEnd ∧ blockEnd.cut = false
      ∧ blockEnd.stored + ([7] : List Byte).length = 128 * blockEnd.blocks
      ∧ blockEnd.stored + ([7] : List Byte).length < locked0.settings.captureLen 0
      ∧ blockEnd.bytes.length + ([7] : List Byte).length + 1 ≤ locked0.settings.ceiling 0)
    ∧ ((aFrame.bytes.length + (List.replicate 1518 (0 : Byte)).length = locked0.settings.ceiling 0
      ∧ min (aFrame.stored + (List.replicate 1518 (0 : Byte)).length) ((withItem 11 64 locked0).settings.captureLen 0)
        ≤ 128 * aFrame.blocks)
    ∧ ({ aFrame with cut := true } : PortFrame).cut = true) := by decide +kernel
/-- A frame of 1,535 bytes in 12 blocks: the byte that fills the last block is stored, and the one after it asks for a
block and passes a ceiling of 1,536 (log 9). -/
def atCeiling : PortFrame :=
  { aFrame with bytes := List.replicate 1535 0, stored := 1535, blocks := 12 }
theorem test_meets_BytesAskForBlocksAndPassTheCeiling_log9 :
    atCeiling.bytes.length + ([7] : List Byte).length = (withItem 12 1536 locked0).settings.ceiling 0
    ∧ (atCeiling.cut = false ∧ atCeiling.stored + ([7] : List Byte).length = 128 * atCeiling.blocks
      ∧ atCeiling.stored + ([7] : List Byte).length < (withItem 11 2048 locked0).settings.captureLen 0)
    ∧ min (atCeiling.stored + ([7] : List Byte).length) ((withItem 11 2048 locked0).settings.captureLen 0)
      ≤ 128 * atCeiling.blocks := by decide +kernel
/-- The check sequence of the frame is right by `test_udpFrame_passes`. -/
theorem test_meets_FrameEndJudgesInOrder :
    64 ≤ udpFrame.length ∧ (List.replicate 63 (0 : Byte)).length < 64
    ∧ classify locked0.settings 0 false caughtFrame = none
    ∧ (classify streamState.settings 0 false caughtFrame).isSome = true
    ∧ streamState.path.merge.pending.length < 512 := by decide +kernel
/-- A frame that parses on the settings of `streamState`, whose key stream 0 alone fits, and one that does not. -/
theorem test_meets_ClassifierFollowsTheTable :
    (let region := udpFrame.take (min 64 (udpFrame.length - 4))
     let byte := fun i : Nat => (region.getD i 0).toNat
     (256 * byte 12 + byte 13 = 0x0800 ∧ byte 14 / 16 = 4 ∧ byte 14 % 16 = 5 ∧ byte 20 / 32 % 2 = 0
      ∧ (256 * byte 20 + byte 21) % 8192 = 0 ∧ byte 23 = 17 ∧ 14 + 4 * (byte 14 % 16) + 8 ≤ region.length))
    ∧ (streamState.settings.valid 0 = true ∧ streamState.settings.inLineSet 0 0 = true
      ∧ ∀ e : Stream, e ≠ 0 → streamState.settings.valid e = false)
    ∧ streamState.settings.seqWidth 0 = 2
    ∧ (classify (withItem 53 0 streamState).settings 0 false caughtFrame).map (fun r => (r.seq, r.noSeq))
      = some (none, false)
    ∧ (classify (withItem 52 255 streamState).settings 0 false caughtFrame).map (fun r => (r.seq, r.noSeq))
      = some (none, true)
    ∧ (classify (withItem 54 1 streamState).settings 0 false caughtFrame).map (fun r => r.seq) = some (some 0x3412)
    ∧ classify streamState.settings 0 false { caughtFrame with stored := 41 } = none
    ∧ classify streamState.settings 1 false caughtFrame = none := by decide +kernel
theorem test_meets_FrameEndJudgesInOrder_full :
    (List.replicate 512 (⟨⟨0, 0, 0, .unscaled⟩, 0, false, 0, none, false, false, false, 64, [], 0⟩ : Classified)).length
      = 512 := by rw [List.length_replicate]
theorem test_meets_NamingFollowsTheWindow_law : holeWindow.Law 16 := by
  have slots : ∀ d ∈ List.range 128, 1 ≤ d → holeWindow.slotAt (holeWindow.ahead 16 d) = .unseen
      ∨ SeqWindow.isFirst (holeWindow.slotAt (holeWindow.ahead 16 d)) = true := by decide +kernel
  refine ⟨by decide, by decide +kernel, fun d h1 h2 => slots d (List.mem_range.2 (by omega)) h1,
    ⟨fun _ => ⟨1, by decide, by decide, by decide +kernel⟩, fun _ => rfl⟩, rfl⟩
/-- The least and the greatest distance of each clause. -/
theorem test_meets_NamingFollowsTheWindow :
    (modDist 16 holeWindow.n 0 = 0 ∧ SeqWindow.isFirst (holeWindow.slotAt (holeWindow.ahead 16 1)) = true
      ∧ SeqWindow.isFirst (holeWindow.slotAt (holeWindow.ahead 16 2)) = false
      ∧ (nameRecord 16 0 false 7 holeWindow).1.n = 2 ∧ (nameRecord 16 0 false 7 holeWindow).1.holeSince = none)
    ∧ (nameRecord 16 0 false 7 (holeWindow.setSlot 3 (.first true 6))).1.holeSince = some 7
    ∧ (modDist 16 holeWindow.n 2 = 2 ∧ holeWindow.slotAt 2 = .unseen)
    ∧ (modDist 16 holeWindow.n 127 = 127 ∧ holeWindow.slotAt 127 = .unseen) ∧ modDist 16 holeWindow.n 128 = 128
    ∧ (modDist 16 holeWindow.n 65408 = -128 ∧ holeWindow.slotAt 65408 = .unseen)
    ∧ modDist 16 holeWindow.n 65407 = -129 ∧ holeWindow.slotAt 1 = .first false 5
    ∧ (holeWindow.setSlot 65535 (.lost 9)).slotAt 65535 = .lost 9
    ∧ (holeWindow.setSlot 65535 (.late true 9)).slotAt 65535 = .late true 9 := by decide +kernel
/-- A run that ends at one FIRST, one that N runs on past, and one declared twice, its second deadline at the first. -/
theorem test_meets_GapDeclarationLosesTheRun :
    (holeState.settings.seqBits 0 = 16 ∧ holeState.path.arb.windows[0] = holeWindow ∧ holeWindow.tracking = true
      ∧ holeWindow.deadline = some 105 ∧ 105 < holeState.offeredTime)
    ∧ (SeqWindow.declared 16 105 1 (holeWindow.setSlot 2 (.first true 6))).n = 3
    ∧ ((SeqWindow.declared 16 105 1 (holeWindow.setSlot 3 (.first true 6))).n = 2
      ∧ (SeqWindow.declared 16 105 1 (holeWindow.setSlot 3 (.first true 6))).deadline = some 205)
    ∧ (atTick 105 holeState).offeredTime ≤ 105
    ∧ after (.gapDeclaration 0) (holding (holeWindow.setSlot 3 (.first true 6)) 206) (fun t =>
        t.path.arb.windows[0].n == 4 && t.path.arb.counters[0].lost == 2 && t.path.arb.counters[0].gaps == 2
          && t.path.chans[0].queue == [.gap 0 0 1 5 105 false, .gap 0 2 1 105 205 false]) = true := by decide +kernel

/-! ## Released records -/

/-- Stream 0 of width 2, delivered or suppressed, with this window. -/
def arbiterOf (shadow : Nat) (w : SeqWindow) : State := withItem 55 shadow (holding w 0)
/-- The record `f` is taken from the merge, and then its counters and its channel's queue are these. -/
def taken (s : State) (f : Classified) (P : StreamCounters → List Record → Bool) : Bool :=
  let p := Path.takeRecord s.env f s.path
  P p.arb.counters[0] p.chans[0].queue
def numbered (n : Nat) : Classified := { aClassified with seq := some n }
def tracked : SeqWindow := { ({} : SeqWindow) with tracking := true, n := 1000 }
/-- The last pending record waits for a frame in flight, and those before it do not. -/
def inPart : Path :=
  { State.reset.path with merge := {
      inFlight := (Vector.replicate 8 none).set 3 (some 5)
      pending := [aClassified, { aClassified with line := 1 }, { aClassified with stamp := ⟨6, 0, 0, .unscaled⟩ }] } }
theorem test_meets_ReleasedRecordIsNamedAndHandedOn :
    ((∀ f ∈ inPart.merge.pending.take 2, ∀ k ∈ inPart.inFlightKeys, f.key.earlier k = true)
      ∧ (∀ f ∈ inPart.merge.pending.drop 2, ∃ k ∈ inPart.inFlightKeys, f.key.earlier k = false)
      ∧ (Path.release State.reset.env inPart).chans[0].queue = [.first aClassified, .first { aClassified with line := 1 }])
    ∧ ((withLine (capturing caughtFrame) streamState).lines[0].reception = .capturing caughtFrame
      ∧ 64 ≤ caughtFrame.bytes.length ∧ (classify streamState.settings 0 false caughtFrame).isSome = true
      ∧ streamState.path.merge.pending.length < 512)
    ∧ (0 ≤ aClassified.stamp.tick ∧ (arbiterOf 0 tracked).path.arb.windows[0].passed 0 = false) := by decide +kernel
/-- Each name that a record can get, with its counter and what stands in the queue. -/
theorem test_meets_ReleasedRecordIsNamedAndHandedOn_names :
    taken (arbiterOf 0 {}) aClassified (fun k q => k == { first := 1 } && q == [.first aClassified]) = true
    ∧ taken (arbiterOf 0 tracked) { aClassified with noSeq := true }
        (fun k q => k == { noSeq := 1 } && q == [.first { aClassified with noSeq := true }]) = true
    ∧ taken (arbiterOf 0 tracked) (numbered 1000) (fun k q => k == { first := 1 } && q == [.first (numbered 1000)]) = true
    ∧ taken (arbiterOf 0 (tracked.setSlot 999 (.first true 0))) (numbered 999)
        (fun k q => k == { shadowDelivered := 1 } && q == [.shadow (numbered 999) 0 true]) = true
    ∧ taken (arbiterOf 1 (tracked.setSlot 999 (.first true 0))) (numbered 999)
        (fun k q => k == { shadowSuppressed := 1 } && q == []) = true
    ∧ taken (arbiterOf 0 (tracked.setSlot 999 (.lost 0))) (numbered 999)
        (fun k q => k == { late := 1 } && q == [.late (numbered 999) 0]) = true
    ∧ taken (arbiterOf 0 tracked) (numbered 2000) (fun k q => k == { reseeds := 1, first := 1 }
        && q == [.reseed 0 1000 2000 0 0 false, .first (numbered 2000)]) = true
    ∧ (State.reset.settings.suppress 0 = false ∧ (arbiterOf 1 tracked).settings.suppress 0 = true) := by decide +kernel

end Sys2Proof.Tests
end

section
/-!
SUPPORT. The law of R87 at every step: first the ways in which a state comes to conserve the blocks, then the resets and
the operations that Laws/Keeps.lean and Laws/CageKeeps.lean leave out, then one line for each command and one lemma for
the passing of time.
-/
namespace Sys2Proof.Machine

namespace Path

/-- With nothing pending and nothing queued the free blocks are all there are downstream. -/
theorem downstreamBlocks_of_empty {p : Path} (hm : p.merge.pending = [])
    (hq : ∀ c : Chan, (p.chans[c]).queue = []) : p.downstreamBlocks = p.store.free := by
  have queued : p.queuedBlocks = 0 := by unfold queuedBlocks; simp only [hq]; rfl
  unfold downstreamBlocks pendingBlocks
  rw [queued, hm]; rfl

theorem Moves.downstreamBlocks_eq {p q : Path} (h : Moves 0 p q) : q.downstreamBlocks = p.downstreamBlocks := by
  have := h.blocks; omega

end Path

namespace State

/-! ## Ways to conserve the blocks -/

/-- The law rests on what the ports receive and on the blocks downstream alone. -/
theorem BlocksConserved.congr {s t : State} (h : s.BlocksConserved)
    (hr : ∀ l : Line, (t.lines[l]).reception = (s.lines[l]).reception)
    (hp : t.path.downstreamBlocks = s.path.downstreamBlocks) : t.BlocksConserved := by
  obtain ⟨total, fits⟩ := h
  have held : t.receptionBlocks = s.receptionBlocks := by
    unfold receptionBlocks LinePort.heldBlocks; simp only [hr]
  exact ⟨by rw [held, hp]; exact total, fun l f hf => fits l f (hr l ▸ hf)⟩

/-- A change that leaves the lines and the record path. -/
theorem BlocksConserved.same {s t : State} (h : s.BlocksConserved) (hl : t.lines = s.lines) (hp : t.path = s.path) :
    t.BlocksConserved := h.congr (fun l => by rw [hl]) (by rw [hp])

/-- A change of the record path alone that leaves the blocks downstream. -/
theorem BlocksConserved.withPath {s : State} (h : s.BlocksConserved) {q : Path}
    (hq : q.downstreamBlocks = s.path.downstreamBlocks) : BlocksConserved { s with path := q } :=
  congr (t := { s with path := q }) h (fun _ => rfl) hq

/-- With no frame in CAPTURING, nothing pending and nothing queued, all 4,096 blocks are free. -/
theorem BlocksConserved.ofEmpty {t : State}
    (hr : ∀ (l : Line) (f : PortFrame), (t.lines[l]).reception ≠ .capturing f) (hm : t.path.merge.pending = [])
    (hq : ∀ c : Chan, (t.path.chans[c]).queue = []) (hf : t.path.store.free = 4096) : t.BlocksConserved := by
  have held : ∀ l : Line, (t.lines[l]).heldBlocks = 0 := fun l => by
    unfold LinePort.heldBlocks
    split
    · exact absurd ‹_› (hr l _)
    · rfl
    · rfl
  have reception : t.receptionBlocks = 0 := by unfold receptionBlocks; simp only [held]; rfl
  exact ⟨by rw [Path.downstreamBlocks_of_empty hm hq, hf, reception], fun l f h => absurd h (hr l f)⟩

theorem modPath_conserves {s : State} {f : Env → Path → Path} (h : s.BlocksConserved)
    (hm : Path.Moves 0 s.path (f s.env s.path)) : (modPath f s).BlocksConserved := h.withPath hm.downstreamBlocks_eq

/-- An event that is passed over at any other instant (log 2). -/
theorem ifDue_conserves {c : Prop} [Decidable c] {s t : State} (h : s.BlocksConserved) (ht : t.BlocksConserved) :
    (if c then t else s).BlocksConserved := by
  split
  · exact ht
  · exact h

theorem takeCommand_conserves {s : State} {body : State → State} (h : s.BlocksConserved)
    (hb : (body s).BlocksConserved) : (takeCommand body s).BlocksConserved := by
  unfold takeCommand; split
  · exact h
  · exact hb

theorem chanCommand_conserves {s : State} {f : Env → Path → Path × ResultCode} (h : s.BlocksConserved)
    (hm : Path.Moves 0 s.path (f s.env s.path).1) : (chanCommand f s).BlocksConserved :=
  (setResult_goes _ _ _).blocks (h.withPath hm.downstreamBlocks_eq)

theorem complete_conserves {s : State} {f : Env → Path → Path × Option ResultCode} (h : s.BlocksConserved)
    (hm : Path.Moves 0 s.path (f s.env s.path).1) : (complete f s).BlocksConserved := by
  have moved := h.withPath hm.downstreamBlocks_eq
  unfold complete; dsimp only
  split
  · exact (setResult_goes _ _ _).blocks moved
  · exact moved

/-! ## Resets -/

theorem reset_conserved : State.reset.BlocksConserved :=
  .ofEmpty (fun l f => by simp [State.reset]) rfl (fun c => by simp [State.reset]) rfl

theorem fullReset_conserved (straps : Station) (held : Bool) (s : State) : (fullReset straps held s).BlocksConserved :=
  .ofEmpty (fun l f => by simp [fullReset]) rfl (fun c => by simp [fullReset]) rfl

/-- No port captures after capture reset (R89). -/
theorem resetPort_notCapturing (p : LinePort) (f : PortFrame) : (resetPort p).reception ≠ .capturing f := by
  unfold resetPort; cases p.reception <;> simp

theorem captureNow_conserved (s : State) : (captureNow s).BlocksConserved := by
  refine .ofEmpty (fun l f => ?_) rfl (fun c => ?_) rfl
  · show ((mapLines (fun _ => resetPort) s).lines[l]).reception ≠ _
    rw [mapLines_get]; exact resetPort_notCapturing _ f
  · show (((Vector.replicate 4 {} : Vector Channel 4))[c]).queue = []
    rw [replicate_get]

/-! ## Host commands -/

theorem lockNow_conserves {s : State} (h : s.BlocksConserved) : (lockNow s).BlocksConserved := by
  refine h.congr (fun l => ?_) (Path.lockView_moves s.settings s.path).downstreamBlocks_eq
  show ((mapLines (lockPort s.settings) s).lines[l]).reception = _
  rw [mapLines_get]; rfl

theorem lockSettings_conserves {s : State} (h : s.BlocksConserved) : (lockSettings s).BlocksConserved := by
  unfold lockSettings
  split
  · exact (setResult_goes _ _ s).blocks h
  · split
    · exact (setResult_goes _ _ s).blocks h
    · exact (setResult_goes _ _ _).blocks (lockNow_conserves h)

theorem captureReset_conserves {s : State} (h : s.BlocksConserved) : (captureReset s).BlocksConserved := by
  unfold captureReset
  split
  · exact (setResult_goes _ _ s).blocks h
  · exact (setResult_goes _ _ _).blocks (captureNow_conserved s)

theorem clearPathCounters_downstreamBlocks (p : Path) :
    (clearPathCounters p).downstreamBlocks = p.downstreamBlocks := by
  have queued : (clearPathCounters p).queuedBlocks = p.queuedBlocks :=
    Path.queuedBlocks_congr fun c => by unfold clearPathCounters; rw [ofFn_get]
  unfold Path.downstreamBlocks
  rw [queued]; rfl

theorem clearCounters_conserves {s : State} (h : s.BlocksConserved) : (clearCounters s).BlocksConserved := by
  have cage : BlocksConserved { s with cage := {} } := h.same rfl rfl
  have lines := (goes_mapLines (fun _ p => { p with counters := {} }) { s with cage := {} } (fun _ _ => rfl)
    fun _ _ off => off).blocks cage
  refine (setResult_goes _ _ _).blocks (lines.withPath ?_)
  rw [clearPathCounters_downstreamBlocks]
  exact (Path.judgeAll_moves _ _).downstreamBlocks_eq

theorem takeClosed_conserves {s : State} (c : Chan) (h : s.BlocksConserved) : (takeClosed c s).BlocksConserved := by
  have taken := h.withPath (Path.take_moves s.env c s.path).downstreamBlocks_eq
  unfold takeClosed; dsimp only
  split
  · exact (setResult_goes _ _ _).blocks (taken.same rfl rfl)
  · exact (setResult_goes _ _ _).blocks taken

/-- A change of the attention logic, and the message where that makes it due (R174). -/
theorem trySend_conserves {s : State} (f : Attention → Attention) (h : s.BlocksConserved) :
    (modPath (fun e p => Path.trySend e { p with att := f p.att }) s).BlocksConserved :=
  h.withPath (Path.trySend_moves s.env { s.path with att := f s.path.att }).downstreamBlocks_eq

theorem armAttention_conserves {s : State} (h : s.BlocksConserved) : (armAttention s).BlocksConserved :=
  (setResult_goes _ _ _).blocks (trySend_conserves (fun a => { a with armed := true }) h)

theorem writeEnables_conserves {s : State} (v : BitVec 64) (h : s.BlocksConserved) :
    (writeEnables v s).BlocksConserved := trySend_conserves (fun a => { a with enables := v.truncate 6 }) h

theorem settingsValueWrite_conserves {s : State} (v : BitVec 64) (h : s.BlocksConserved) :
    (settingsValueWrite v s).BlocksConserved := by
  unfold settingsValueWrite
  split
  · split
    · exact h
    · exact (setResult_goes _ _ s).blocks h
  · exact h.same rfl rfl

theorem readWindow_conserves {s : State} (offset size : Nat) (h : s.BlocksConserved) :
    (readWindow offset size s).BlocksConserved := by
  unfold readWindow; dsimp only
  split
  · exact h.congr (fun _ => rfl) rfl
  · exact h.same rfl rfl

theorem commandBody_conserves {s : State} (code : Nat) (c : Chan) (h : s.BlocksConserved) :
    (commandBody code c s).BlocksConserved := by
  unfold commandBody
  split
  · exact lockSettings_conserves h
  · exact (joinCage_goes s).blocks h
  · exact (leaveCage_keeps s).1.blocks h
  · exact captureReset_conserves h
  · exact clearCounters_conserves h
  · exact chanCommand_conserves h (Path.startChan_moves _ c _)
  · exact chanCommand_conserves h (Path.stopChan_moves _ c _)
  · exact chanCommand_conserves h (Path.flushChan_moves _ c _)
  · exact chanCommand_conserves h (Path.post_moves _ c _ _ _)
  · exact takeClosed_conserves c h
  · exact armAttention_conserves h
  · exact (setResult_goes _ _ s).blocks h

/-- A write to the command register conserves the blocks, taken or dropped (R169). -/
theorem takeBody_conserves {s : State} (code : Nat) (c : Chan) (h : s.BlocksConserved) :
    (takeCommand (commandBody code c) s).BlocksConserved := takeCommand_conserves h (commandBody_conserves code c h)

theorem registerWrite_conserves {s : State} (offset size : Nat) (v : BitVec 64) (h : s.BlocksConserved) :
    (registerWrite offset size v s).BlocksConserved := by
  unfold registerWrite
  split
  · unfold writeRegister
    split
    · exact h.same rfl rfl
    · exact settingsValueWrite_conserves v h
    · exact takeBody_conserves _ _ h
    · exact h.same rfl rfl
    · exact h.same rfl rfl
    · exact h.same rfl rfl
    · exact h.same rfl rfl
    · exact writeEnables_conserves v h
    · exact h
  · exact h

/-! ## The passing of time -/

theorem queueDue_conserves {s : State} (h : s.BlocksConserved) : (queueDue s).BlocksConserved :=
  h.congr (fun _ => rfl) rfl

theorem settle_conserves {s : State} (h : s.BlocksConserved) : (State.settle s).BlocksConserved :=
  modPath_conserves ((driveStands_goes s).blocks h) (Path.settle_moves _ _)

theorem advance_conserves {s : State} (h : s.BlocksConserved) : (State.advance s).BlocksConserved := by
  unfold State.advance; dsimp only
  split
  · exact h.congr (fun _ => rfl) (Path.raiseTime_moves _ s.path).downstreamBlocks_eq
  · exact h.same rfl rfl

theorem idle_conserves {s : State} (h : s.BlocksConserved) : s.idle.BlocksConserved := by
  unfold idle
  split
  · exact h
  · split
    · exact queueDue_conserves h
    · split
      · exact settle_conserves h
      · exact queueDue_conserves (advance_conserves h)

/-! ## Every step -/

theorem served_conserves {s : State} (h : s.BlocksConserved) : (served s).BlocksConserved := (served_goes s).blocks h

/-- The receiver's report on its alignment is kept (R69, R70). -/
theorem setAligned_conserves {s : State} (l : Line) (b : Bool) (h : s.BlocksConserved) :
    (modLine l (fun p => { p with aligned := b }) s).BlocksConserved := (goes_modLine l _ s rfl id).blocks h

/-- The horizon is offered to the arbiter and the window declared (R128). -/
theorem gapDeclaration_conserves {s : State} (st : Stream) (h : s.BlocksConserved) :
    (modPath (fun e p => Path.serve e (Path.declareWindow e st (p.raiseTime (Path.horizon e.now p))))
      s).BlocksConserved :=
  modPath_conserves h
    (((Path.raiseTime_moves _ _).trans0 (Path.declareWindow_moves _ st _)).trans0 (Path.serve_moves _ _))

theorem settling_of_settleDue {l : Line} {s : State} (h : s.settleDue l = true) : (s.lines[l]).state = .settling := by
  unfold settleDue at h
  split at h
  · assumption
  · cases h

/-- A line that settles is not OFF (R69). -/
theorem settleTimeout_conserves {s : State} (l : Line) (h : s.BlocksConserved) :
    (if s.settleDue l then (changeLine l .up .settled 0 s).served else s).BlocksConserved := by
  split
  · rename_i due
    have on : (s.lines[l]).state ≠ .off := by rw [settling_of_settleDue due]; decide
    exact served_conserves ((changeLine_goes l .up .settled 0 s on).blocks h)
  · exact h

theorem answer_conserves {s u t : State} (h : s.BlocksConserved) (hu : u.BlocksConserved)
    (e : answer s u = .next t) : t.BlocksConserved := by
  unfold answer at e
  cases e
  split
  · exact h
  · exact hu

/-- R87 for each command: what it does on a state that conserves the blocks conserves them. The twelve rows that
are writes to the command register go through the code that names them (R164). -/
theorem exec_conserves (i : Instr) {s t : State} (h : s.BlocksConserved) (e : exec i s = .next t) :
    t.BlocksConserved := by
  cases i with
  | fullReset straps held => cases e; exact fullReset_conserved straps held s
  | lockSettings => exact answer_conserves h (takeBody_conserves 1 0 h) e
  | joinCage => exact answer_conserves h (takeBody_conserves 2 0 h) e
  | leaveCage => exact answer_conserves h (takeBody_conserves 3 0 h) e
  | captureReset => exact answer_conserves h (takeBody_conserves 4 0 h) e
  | clearCounters => exact answer_conserves h (takeBody_conserves 5 0 h) e
  | startChannel c => exact answer_conserves h (takeBody_conserves 6 c h) e
  | stopChannel c => exact answer_conserves h (takeBody_conserves 7 c h) e
  | flushChannel c => exact answer_conserves h (takeBody_conserves 8 c h) e
  | postBuffer c => exact answer_conserves h (takeBody_conserves 9 c h) e
  | takeClosed c => exact answer_conserves h (takeBody_conserves 10 c h) e
  | armAttention => exact answer_conserves h (takeBody_conserves 11 0 h) e
  | unknownCommand code => exact answer_conserves h (takeBody_conserves 0 0 h) e
  | settingsValueWrite value => exact answer_conserves h (settingsValueWrite_conserves value h) e
  | attentionCausesRead offset size => exact answer_conserves h (readWindow_conserves offset size h) e
  | attentionEnablesWrite value => exact answer_conserves h (writeEnables_conserves value h) e
  | registerWrite offset size value => exact answer_conserves h (registerWrite_conserves offset size value h) e
  | attentionMessageComplete good =>
    exact answer_conserves h (modPath_conserves h (Path.messageComplete_moves _ good _)) e
  | ownBoundary => exact answer_conserves h (ifDue_conserves h (served_conserves ((ownBoundary_goes s).blocks h))) e
  | epoHalfPoint =>
    refine answer_conserves h (ifDue_conserves h ?_) e
    exact h.same rfl rfl
  | windowOpening => exact answer_conserves h ((windowOpening_goes s).blocks h) e
  | windowClose => exact answer_conserves h ((windowClose_goes s).blocks h) e
  | markHoldEnd => exact answer_conserves h ((markHoldEnd_goes s).blocks h) e
  | markLineRise => exact answer_conserves h ((markLineRise_goes s).blocks h) e
  | markLineFall => exact answer_conserves h ((markLineFall_goes s).blocks h) e
  | pulseWatchRearm => exact answer_conserves h ((pulseWatchRearm_goes s).blocks h) e
  | noticeSend act => exact answer_conserves h ((noticeSend_goes act s).blocks h) e
  | noticeReceive samples => exact answer_conserves h ((noticeReceive_goes samples s).blocks h) e
  | losSample levels =>
    exact answer_conserves h (ifDue_conserves h (served_conserves ((losSample_goes levels s).blocks h))) e
  | receiverAligned l =>
    exact answer_conserves h (served_conserves ((trySettle_goes l _).blocks (setAligned_conserves l true h))) e
  | receiverNotAligned l =>
    exact answer_conserves h (served_conserves ((goDown_goes l _ _).blocks (setAligned_conserves l false h))) e
  | settleTimeout l => exact answer_conserves h (settleTimeout_conserves l h) e
  | codeError l => exact answer_conserves h ((codeErrorAt_goes l s).blocks h) e
  | frameStart l => exact answer_conserves h ((frameStartAt_goes l s).blocks h) e
  | furtherBlockRequest l bytes => exact answer_conserves h (served_conserves ((feed_goes l bytes s).blocks h)) e
  | oversize l bytes => exact answer_conserves h (served_conserves ((feed_goes l bytes s).blocks h)) e
  | frameEnd l bytes clean =>
    exact answer_conserves h (served_conserves ((frameEndAt_goes l clean _).blocks ((feed_goes l bytes s).blocks h))) e
  | gapDeclaration stream => exact answer_conserves h (gapDeclaration_conserves stream h) e
  | writeCompleteGood => exact answer_conserves h (complete_conserves h (Path.completeGood_moves _ _)) e
  | writeCompleteFailed => exact answer_conserves h (complete_conserves h (Path.completeFailed_moves _ _)) e
  | abandonedWriteComplete => exact answer_conserves h (modPath_conserves h (Path.completeAbandoned_moves _ _)) e
  | idleFlushExpiry c => exact answer_conserves h (modPath_conserves h (Path.idleExpire_moves _ c _)) e
  | markDriveFault => exact answer_conserves h ((markDriveFault_goes s).blocks h) e

/-- A step takes the front command, or time passes (log 1). -/
theorem step_conserves {s t : State} (h : s.BlocksConserved) (e : step s = .next t) : t.BlocksConserved := by
  unfold step at e
  split at e
  · rename_i i rest _
    exact exec_conserves i (s := { s with pending := rest }) (h.same rfl rfl) e
  · cases e; exact idle_conserves h

end State

/-- Settles O11: the blocks are conserved after reset, and every command and the passing of time keeps them so. -/
theorem blocksStayConserved : Obligations.BlocksStayConserved :=
  ⟨State.reset_conserved, fun _ _ => State.step_conserves⟩

end Sys2Proof.Machine
end

section
/-!
SUPPORT. The bytes of a record (R159 to R161): a record's header is a list of fields laid side by side, so each field
is found at the sum of the widths before it; then the size, the captured bytes and the padding.
-/
namespace Sys2Proof.Machine

/-! ## Bytes of one value -/

@[simp] theorem leBytes_length (n v : Nat) : (leBytes n v).length = n := by
  induction n generalizing v with
  | zero => rfl
  | succ n ih => simp [leBytes, ih]

theorem leBytes_getElem? {n i : Nat} (v : Nat) (h : i < n) :
    (leBytes n v)[i]? = some (BitVec.ofNat 8 (v / 256 ^ i)) := by
  induction n generalizing v i with
  | zero => omega
  | succ n ih =>
    cases i with
    | zero => simp [leBytes]
    | succ i =>
      have := ih (v / 256) (Nat.lt_of_succ_lt_succ h)
      rwa [Nat.div_div_eq_div_mul, ← Nat.pow_succ'] at this

/-! ## Fields laid side by side -/

/-- The bytes of fields, each a width and a value, one after the other. -/
def fieldBytes : List (Nat × Nat) → List Byte
  | [] => []
  | (width, value) :: fields => leBytes width value ++ fieldBytes fields

/-- The same fields with their offsets, the first at `start`: offset, width and value. -/
def placed : Nat → List (Nat × Nat) → List (Nat × Nat × Nat)
  | _, [] => []
  | start, (width, value) :: fields => (start, width, value) :: placed (start + width) fields

/-- A field stands at its offset, whatever bytes stand before and after the fields. -/
theorem take_drop_of_mem_placed {fields : List (Nat × Nat)} {x : Nat × Nat × Nat} (pre rest : List Byte)
    (h : x ∈ placed pre.length fields) :
    ((pre ++ fieldBytes fields ++ rest).drop x.1).take x.2.1 = leBytes x.2.1 x.2.2 := by
  induction fields generalizing pre with
  | nil => cases h
  | cons field fields ih =>
    obtain ⟨width, value⟩ := field
    rcases List.mem_cons.mp h with rfl | later
    · simp [fieldBytes]
    · have found := ih (pre ++ leBytes width value) (by simpa using later)
      simpa [fieldBytes] using found

/-! ## A record as its header fields and what follows them -/

/-- The header of R159 as fields: the part before area A, then the fields of the areas. -/
def headerFields (kind flags stream line size captured tick : Nat) (areas : List (Nat × Nat)) : List (Nat × Nat) :=
  [(1, kind), (1, flags), (1, stream), (1, line), (2, size), (2, captured), (8, tick)] ++ areas

/-- The fields of a date in area A (R160). -/
def dateFields (st : Stamp) : List (Nat × Nat) := [(6, st.epoch.toNat), (3, st.count), (1, st.quality.code)]

/-- The header of a frame record (R160). -/
def frameFields (kind extraFlags lag : Nat) (f : Classified) : List (Nat × Nat) :=
  headerFields kind (Record.frameFlags f + extraFlags) f.stream.val f.line.val f.size f.captured.length f.stamp.tick
    (dateFields f.stamp ++ [(2, f.frameLength), (8, f.seq.getD 0), (4, lag)])

/-- What follows the header of a frame record: the captured bytes and the padding (R160). -/
def Classified.body (f : Classified) : List Byte :=
  f.captured ++ List.replicate (f.size - (40 + f.captured.length)) 0

namespace Record

/-- The fields of a record's header, area by area (R159 to R161). -/
def fields : Record → List (Nat × Nat)
  | .first f => frameFields 1 0 0 f
  | .shadow f lag winnerB => frameFields 2 (16 * winnerB.toNat) lag f
  | .late f lag => frameFields 3 0 lag f
  | .gap stream firstLost count holeSince deadline oneLeg =>
    headerFields 4 (32 * oneLeg.toNat) stream.val 0 40 0 deadline
      [(8, holeSince), (2, 0), (2, 0), (8, firstLost), (4, count)]
  | .reseed stream oldN number tick ln legB =>
    headerFields 5 (8 * legB.toNat) stream.val ln.val 40 0 tick [(8, oldN), (2, 0), (2, 0), (8, number), (4, 0)]
  | .line ln old new reason errors stamp =>
    headerFields 6 0 0 ln.val 40 0 stamp.tick
      (dateFields stamp ++ [(2, 0), (1, old.code), (1, new.code), (1, reason.code), (5, 0), (4, errors)])
  | .time old new reason mutedProfile mutedClash offset peer previous stamp =>
    headerFields 7 0 0 0 40 0 stamp.tick
      (dateFields stamp ++ [(2, (offset % 65536).toNat), (1, old.code), (1, new.code), (1, reason.code),
        (1, mutedProfile.toNat + 2 * mutedClash.toNat), (6, previous.toNat), (1, peer), (1, 0)])
  | .loss count firstTick lastTick =>
    headerFields 8 0 0 0 40 0 lastTick [(8, firstTick), (2, 0), (2, 0), (8, 0), (4, count)]

/-- The bytes after the header: only a frame record has some (R160, R161). -/
def body : Record → List Byte
  | .first f | .shadow f _ _ | .late f _ => f.body
  | .gap .. | .reseed .. | .line .. | .time .. | .loss .. => []

theorem frameBytes_eq (kind extraFlags lag : Nat) (f : Classified) :
    frameBytes kind extraFlags lag f = fieldBytes (frameFields kind extraFlags lag f) ++ f.body := by
  simp [frameBytes, header, dateArea, frameFields, headerFields, dateFields, fieldBytes, Classified.body]

theorem encode_eq (r : Record) : r.encode = fieldBytes r.fields ++ r.body := by
  cases r with
  | first f | shadow f | late f => exact frameBytes_eq ..
  | gap | reseed | loss => simp [encode, header, fields, headerFields, fieldBytes, body]
  | line | time => simp [encode, header, dateArea, leSigned, fields, headerFields, dateFields, fieldBytes, body]

@[simp] theorem fieldBytes_fields_length (r : Record) : (fieldBytes r.fields).length = 40 := by
  cases r <;> simp [fields, frameFields, headerFields, dateFields, fieldBytes]

/-- A list of fields taken from the placed header stands in the record. -/
theorem lies_of_subset {r : Record} {fs : List (Nat × Nat × Nat)} (h : fs ⊆ placed 0 r.fields) :
    ∀ x ∈ fs, (r.encode.drop x.1).take x.2.1 = leBytes x.2.1 x.2.2 := by
  intro x hx
  rw [encode_eq]
  exact take_drop_of_mem_placed [] r.body (h hx)

theorem drop_header (r : Record) : r.encode.drop 40 = r.body := by
  rw [encode_eq, List.drop_left' (fieldBytes_fields_length r)]

/-! ## Sizes (R138) -/

theorem header_and_captured_le_size (f : Classified) : 40 + f.captured.length ≤ f.size := by
  unfold Classified.size roundUp8; omega

theorem body_length (r : Record) : 40 + r.body.length = r.size := by
  cases r with
  | first f | shadow f | late f =>
    have := header_and_captured_le_size f
    simp only [body, size, Classified.body, List.length_append, List.length_replicate]; omega
  | gap | reseed | line | time | loss => rfl

theorem header_le_size (r : Record) : 40 ≤ r.size := by
  rw [← body_length]; exact Nat.le_add_right ..

theorem encode_length (r : Record) : r.encode.length = r.size := by
  rw [encode_eq, List.length_append, fieldBytes_fields_length, body_length]

theorem size_mod_eight (r : Record) : r.size % 8 = 0 := by
  cases r with
  | first f | shadow f | late f => exact Nat.mul_mod_left _ 8
  | gap | reseed | line | time | loss => simp only [size]

/-- The header fields that every kind has (R159). -/
theorem common_subset (r : Record) :
    [(0, 1, r.kindCode), (4, 2, r.size), (8, 8, r.tick)] ⊆ placed 0 r.fields := by
  cases r <;> simp [fields, frameFields, headerFields, placed, kindCode, size, tick]

/-! ## Dated records (R160, R161) -/

/-- A record whose area A begins with a date carries the stamp's tick, epoch, count and quality. -/
theorem dated_subset {r : Record} {st : Stamp} {kind flags stream line size captured : Nat} {areas : List (Nat × Nat)}
    (h : r.fields = headerFields kind flags stream line size captured st.tick (dateFields st ++ areas)) :
    [(8, 8, st.tick), (16, 6, st.epoch.toNat), (22, 3, st.count), (25, 1, st.quality.code)] ⊆ placed 0 r.fields := by
  rw [h]; simp [headerFields, dateFields, placed]

/-! ## Frame records (R160) -/

/-- `r` is a record of frame `f` with this kind code, these flags of the kind and this lag. -/
structure HoldsFrame (r : Record) (f : Classified) (kind flags lag : Nat) : Prop where
  fields : r.fields = frameFields kind flags lag f
  body : r.body = f.body
  size : r.size = f.size

theorem holdsFrame_of_kind {r : Record} {f : Classified} {kind flags lagField lag : Nat} {winnerB : Bool}
    (h : (r = .first f ∧ kind = 1 ∧ flags = 0 ∧ lagField = 0)
      ∨ (r = .shadow f lag winnerB ∧ kind = 2 ∧ flags = 16 * winnerB.toNat ∧ lagField = lag)
      ∨ (r = .late f lag ∧ kind = 3 ∧ flags = 0 ∧ lagField = lag)) : r.HoldsFrame f kind flags lagField := by
  obtain ⟨rfl, rfl, rfl, rfl⟩ | ⟨rfl, rfl, rfl, rfl⟩ | ⟨rfl, rfl, rfl, rfl⟩ := h <;> exact ⟨rfl, rfl, rfl⟩

section
variable {r : Record} {f : Classified} {kind flags lag : Nat}

theorem HoldsFrame.fields_subset (h : r.HoldsFrame f kind flags lag) :
    [(0, 1, kind), (1, 1, frameFlags f + flags), (2, 1, f.stream.val), (3, 1, f.line.val), (4, 2, r.size),
      (6, 2, f.captured.length), (26, 2, f.frameLength), (28, 8, f.seq.getD 0), (36, 4, lag)] ⊆ placed 0 r.fields := by
  rw [h.fields, h.size]; simp [frameFields, headerFields, dateFields, placed]

/-- The captured bytes stand from offset 40. -/
theorem HoldsFrame.captured (h : r.HoldsFrame f kind flags lag) :
    (r.encode.drop 40).take f.captured.length = f.captured := by
  rw [drop_header, h.body]; exact List.take_left' rfl

/-- Zero bytes stand from the last captured byte to the end of the record. -/
theorem HoldsFrame.padding (h : r.HoldsFrame f kind flags lag) {i : Nat} (lo : 40 + f.captured.length ≤ i)
    (hi : i < r.size) : r.encode[i]? = some 0 := by
  have inBody : r.encode[i]? = f.body[i - 40]? := by
    rw [← h.body, ← drop_header, List.getElem?_drop, Nat.add_sub_cancel' (by omega)]
  have := h.size
  rw [inBody, Classified.body, List.getElem?_append_right (by omega), List.getElem?_replicate_of_lt (by omega)]

end

/-! ## LINE and TIME records (R161) -/

theorem line_subset (l : Line) (old new : LineState) (reason : LineReason) (errors : Nat) (st : Stamp) :
    [(0, 1, 6), (1, 1, 0), (2, 1, 0), (3, 1, l.val), (4, 2, 40), (6, 2, 0), (26, 2, 0), (28, 1, old.code),
      (29, 1, new.code), (30, 1, reason.code), (31, 5, 0), (36, 4, errors)]
      ⊆ placed 0 (fields (.line l old new reason errors st)) := by
  simp [fields, headerFields, dateFields, placed]

theorem time_subset (old new : ScaleState) (reason : TimeReason) (profile clash : Bool) (offset : Int) (peer : Nat)
    (previous : BitVec 48) (st : Stamp) :
    [(0, 1, 7), (1, 1, 0), (2, 1, 0), (3, 1, 0), (4, 2, 40), (6, 2, 0), (26, 2, (offset % 65536).toNat),
      (28, 1, old.code), (29, 1, new.code), (30, 1, reason.code), (31, 1, profile.toNat + 2 * clash.toNat),
      (32, 6, previous.toNat), (38, 1, peer), (39, 1, 0)]
      ⊆ placed 0 (fields (.time old new reason profile clash offset peer previous st)) := by
  simp [fields, headerFields, dateFields, placed]

end Record

/-- A captured length within the capture limit of 2048 keeps the record within 2088 bytes (R138). -/
theorem Classified.size_le {f : Classified} (h : f.captured.length ≤ 2048) : f.size ≤ 2088 := by
  unfold Classified.size roundUp8; omega

open Record in
/-- Settles O38: a record is its header fields laid side by side and its body, so each field list of the statement is
a part of the placed header of its kind. -/
theorem recordsHaveTheirSize : Obligations.RecordsHaveTheirSize := by
  unfold Obligations.RecordsHaveTheirSize
  intro lies dated
  refine ⟨fun n v => ⟨leBytes_length n v, fun i hi => leBytes_getElem? v hi⟩,
    fun r => ⟨encode_length r, size_mod_eight r, header_le_size r, lies_of_subset (common_subset r)⟩,
    fun f => Classified.size_le, ?frames, ?gap, ?reseed, ?line, ?time, ?loss, rfl, rfl, rfl, rfl, rfl⟩
  case frames =>
    intro f lag winnerB r kind flags lagField isKind
    have holds := holdsFrame_of_kind isKind
    exact ⟨holds.size, lies_of_subset holds.fields_subset, lies_of_subset (dated_subset holds.fields),
      holds.captured, fun i => holds.padding⟩
  case gap => exact fun st firstLost count since deadline oneLeg => lies_of_subset (List.Subset.refl _)
  case reseed => exact fun st oldN number tick l legB => lies_of_subset (List.Subset.refl _)
  case line =>
    exact fun l old new reason errors st =>
      ⟨lies_of_subset (dated_subset rfl), lies_of_subset (line_subset l old new reason errors st)⟩
  case time =>
    exact fun old new reason profile clash offset peer previous st =>
      ⟨lies_of_subset (dated_subset rfl),
        lies_of_subset (time_subset old new reason profile clash offset peer previous st)⟩
  case loss => exact fun count first last => lies_of_subset (List.Subset.refl _)

end Sys2Proof.Machine
end

section
/-!
SUPPORT. Every law at every step: `Keeps` of Laws/Keeps.lean for each command, with the arbiter time where the command
does not set it back, and the laws through the passing of time. The statements about laws that every step keeps, and
those about the tick, the lock and the queue, are read off from these.
-/
namespace Sys2Proof.Machine

namespace State

/-! ## What each law rests on -/

theorem DriveLawful.congr {s t : State} (h : s.DriveLawful) (bus : t.bus = s.bus) (sc : t.sc = s.sc) :
    t.DriveLawful := by
  unfold DriveLawful; rw [bus, sc]; exact h

theorem DateBounded.congr {s t : State} (h : s.DateBounded) (tb : t.tb = s.tb) (settings : t.settings = s.settings)
    (locked : t.ctl.locked = s.ctl.locked) : t.DateBounded := by
  unfold DateBounded; rw [tb, settings, locked]; exact h

theorem QuietBeforeLock.congr {s t : State} (h : s.QuietBeforeLock) (sc : t.sc = s.sc)
    (running : t.tb.running = s.tb.running) (locked : t.ctl.locked = s.ctl.locked)
    (lines : ∀ l : Line, (t.lines[l]).state = (s.lines[l]).state) : t.QuietBeforeLock := by
  unfold QuietBeforeLock; simp only [sc, running, locked, lines]; exact h

theorem MergeLawful.congr {s t : State} (h : s.MergeLawful)
    (lines : ∀ l : Line, (t.lines[l]).reception = (s.lines[l]).reception) (merge : t.path.merge = s.path.merge) :
    t.MergeLawful := by
  obtain ⟨table, sorted, heldBack⟩ := h
  refine ⟨fun l => ?_, (Path.sorted_congr merge).mpr sorted, (Path.heldBack_congr merge).mpr heldBack⟩
  rw [merge, lines]; exact table l

/-! ## Ways to keep the laws -/

/-- `Keeps`, and the arbiter time does not fall. -/
def Steady (s t : State) : Prop := Keeps s t ∧ s.path.arb.time ≤ t.path.arb.time

theorem Goes.steady {s t : State} (h : Goes s t) : Steady s t := ⟨h.toKeeps, h.time⟩

theorem Steady.refl (s : State) : Steady s s := (Goes.refl s).steady

theorem Steady.trans {s t u : State} (h : Steady s t) (k : Steady t u) : Steady s u :=
  ⟨h.1.trans k.1, Nat.le_trans h.2 k.2⟩

/-- A change of the record path that leaves the merge, within the capacities and with the blocks downstream kept. -/
theorem Keeps.ofPath (s : State) {q : Path} (blocks : q.downstreamBlocks = s.path.downstreamBlocks)
    (caps : s.path.WithinCapacity → q.WithinCapacity) (canon : Memory.wf s.path.mem → Memory.wf q.mem)
    (inFlight : q.merge.inFlight = s.path.merge.inFlight) (pending : q.merge.pending = s.path.merge.pending) :
    Keeps s { s with path := q } := by
  refine ⟨fun h => h.withPath blocks, caps, id, id, id, fun h => ?_, fun h => ⟨canon h.1, h.2⟩, rfl, rfl,
    fun h => ⟨h, rfl⟩⟩
  obtain ⟨table, sorted, heldBack⟩ := h
  refine ⟨fun l => ?_, ?_, ?_⟩
  · show q.merge.inFlight[l] = _
    rw [inFlight]; exact table l
  · unfold Path.Sorted at sorted ⊢; rw [pending]; exact sorted
  · unfold Path.HeldBack at heldBack ⊢
    rw [pending, Path.inFlightKeys_congr inFlight]; exact heldBack

/-- The enable set and the causes are no part of any law. -/
theorem Steady.ofAttention (s : State) (a : Attention) : Steady s { s with path := { s.path with att := a } } :=
  ⟨.ofPath s rfl id id rfl rfl, Nat.le_refl _⟩

theorem ifDue_steady {c : Prop} [Decidable c] {s t : State} (h : Steady s t) : Steady s (if c then t else s) := by
  split
  · exact h
  · exact .refl s

theorem takeCommand_steady {s : State} {body : State → State} (h : Steady s (body s)) :
    Steady s (takeCommand body s) := by
  unfold takeCommand; split
  · exact .refl s
  · exact h

theorem takeCommand_keeps {s : State} {body : State → State} (h : Keeps s (body s)) :
    Keeps s (takeCommand body s) := by
  unfold takeCommand; split
  · exact .refl s
  · exact h

theorem Steady.thenGoes {s t u : State} (h : Steady s t) (k : Goes t u) : Steady s u := h.trans k.steady

theorem modPath_steady (f : Env → Path → Path) (s : State) (h : Path.Moves 0 s.path (f s.env s.path))
    (hm : (f s.env s.path).merge = s.path.merge) : Steady s (modPath f s) := (goes_modPath f s h hm).steady

/-! ## Host commands -/

/-- The lock starts the date with the length E, which lies within E - S to E + S, and the trim 0 (R15). -/
theorem lockNow_dateBounded (s : State) : (lockNow s).DateBounded := by
  refine ⟨fun _ => ⟨rfl, ?_, ?_⟩, ?_, ?_, ?_, ?_⟩
  · show (s.settings.epochLen : Int) - s.settings.slew ≤ s.settings.epochLen
    omega
  · show s.settings.epochLen ≤ s.settings.epochLen + s.settings.slew
    omega
  · show (-858993 : Int) ≤ 0
    decide
  · show (0 : Int) ≤ 858993
    decide
  · show 0 < 2 ^ 32
    decide
  · show 0 < rateOf 0
    decide

theorem lockNow_reception (l : Line) (s : State) :
    ((lockNow s).lines[l]).reception = (s.lines[l]).reception := by
  show ((mapLines (lockPort s.settings) s).lines[l]).reception = _
  rw [mapLines_get]; rfl

theorem lockNow_steady (s : State) : Steady s (lockNow s) := by
  have moves : Path.Moves 0 s.path (lockNow s).path := Path.lockView_moves s.settings s.path
  exact ⟨{
    blocks := lockNow_conserves
    caps := moves.caps
    drive := fun h => ⟨h.1, h.2⟩
    date := fun _ => lockNow_dateBounded s
    quiet := fun _ unlocked => nomatch unlocked
    merge := fun h => h.congr (fun l => lockNow_reception l s) (Path.lockView_merge s.settings s.path)
    canon := fun h => ⟨moves.canon h.1, h.2⟩
    queue := rfl
    tick := rfl
    lock := fun _ => ⟨rfl, rfl⟩ }, moves.time⟩

theorem lockSettings_steady (s : State) : Steady s (lockSettings s) := by
  unfold lockSettings
  split
  · exact (setResult_goes _ _ s).steady
  · split
    · exact (setResult_goes _ _ s).steady
    · exact (lockNow_steady s).thenGoes (setResult_goes _ _ _)

/-- After capture reset nothing is in flight and nothing is pending (R89, R112). -/
theorem captureNow_mergeLawful (s : State) : (captureNow s).MergeLawful := by
  refine ⟨fun l => ?_, List.Pairwise.nil, fun f h => by cases h⟩
  have empty : (captureNow s).path.merge.inFlight[l] = none := replicate_get none l
  have port : (captureNow s).lines[l] = resetPort s.lines[l] := mapLines_get _ l s
  rw [empty]
  cases hr : ((captureNow s).lines[l]).reception with
  | idle | skipping => rfl
  | capturing f => rw [port] at hr; exact absurd hr (resetPort_notCapturing _ f)

theorem resetDelivery_withinCapacity {p : Path} (h : p.merge.pending = []) : (Path.resetDelivery p).WithinCapacity := by
  refine ⟨fun c => ?_, ?_⟩
  · have empty : (Path.resetDelivery p).chans[c] = {} := replicate_get _ c
    rw [empty]; exact ⟨Nat.zero_le _, Nat.zero_le _⟩
  · rw [Path.resetDelivery_merge, h]; exact Nat.zero_le _

theorem captureNow_lines_state (l : Line) (s : State) : ((captureNow s).lines[l]).state = (s.lines[l]).state := by
  have port : (captureNow s).lines[l] = resetPort s.lines[l] := mapLines_get _ l s
  rw [port]; rfl

theorem captureNow_path (s : State) : (captureNow s).path = resetPath s.now (Path.finishAll s.env s.path) := rfl

theorem resetPath_mem (now : Nat) (p : Path) : (resetPath now p).mem = p.mem := rfl

theorem captureNow_keeps (s : State) : Keeps s (captureNow s) where
  blocks _ := captureNow_conserved s
  caps _ := by rw [captureNow_path]; exact resetDelivery_withinCapacity rfl
  drive h := h.congr rfl rfl
  date h := h.congr rfl rfl rfl
  quiet h := h.congr rfl rfl rfl fun l => captureNow_lines_state l s
  merge _ := captureNow_mergeLawful s
  canon h := ⟨by rw [captureNow_path, resetPath_mem]; exact Path.finishAll_wf s.env h.1, h.2⟩
  queue := rfl
  tick := rfl
  lock h := ⟨h, rfl⟩

theorem captureReset_keeps (s : State) : Keeps s (captureReset s) := by
  unfold captureReset
  split
  · exact (setResult_goes _ _ s).toKeeps
  · exact (captureNow_keeps s).trans (setResult_goes _ _ _).toKeeps

theorem clearPathCounters_withinCapacity {p : Path} (h : p.WithinCapacity) :
    (clearPathCounters p).WithinCapacity := by
  obtain ⟨chans, pending⟩ := h
  refine ⟨fun c => ?_, pending⟩
  have kept : (clearPathCounters p).chans[c] = { p.chans[c] with counters := {} } := ofFn_get _ c
  rw [kept]; exact chans c

theorem clearPathCounters_steady (s : State) : Steady s (modPath (fun _ => clearPathCounters) s) :=
  ⟨.ofPath s (clearPathCounters_downstreamBlocks _) clearPathCounters_withinCapacity id rfl rfl, Nat.le_refl _⟩

theorem clearCounters_steady (s : State) : Steady s (clearCounters s) := by
  have cage : Goes s { s with cage := {} } := goes_plain rfl rfl rfl rfl rfl rfl id rfl rfl rfl id
  have lines : Goes { s with cage := {} } (mapLines (fun _ p => { p with counters := {} }) { s with cage := {} }) :=
    goes_mapLines _ _ (fun _ _ => rfl) fun _ _ off => off
  have judged := modPath_steady Path.judgeAll (mapLines (fun _ p => { p with counters := {} }) { s with cage := {} })
    (Path.judgeAll_moves _ _) (Path.judgeAll_leaves _ _).merge
  exact (((cage.trans lines).steady.trans judged).trans (clearPathCounters_steady _)).thenGoes
    (setResult_goes .done 0 _)

theorem setTaken_goes (x : Taken) (s : State) : Goes s { s with ctl := { s.ctl with taken := x } } :=
  goes_plain rfl rfl rfl rfl rfl rfl id rfl rfl rfl id

theorem takeClosed_steady (c : Chan) (s : State) : Steady s (takeClosed c s) := by
  have taken := (goes_path s (Path.take_moves s.env c s.path) (Path.take_leaves s.env c s.path).merge).steady
  unfold takeClosed; dsimp only
  split
  · rename_i x _
    exact (taken.thenGoes (setTaken_goes (takenOf c x) _)).thenGoes (setResult_goes _ _ _)
  · exact taken.thenGoes (setResult_goes _ _ _)

theorem trySend_steady (s : State) : Steady s (modPath Path.trySend s) :=
  modPath_steady _ s (Path.trySend_moves _ _) (Path.trySend_leaves _ _).merge

theorem armAttention_steady (s : State) : Steady s (armAttention s) :=
  ((Steady.ofAttention s { s.path.att with armed := true }).trans (trySend_steady _)).thenGoes
    (setResult_goes .done 0 _)

theorem writeEnables_steady (v : BitVec 64) (s : State) : Steady s (writeEnables v s) :=
  (Steady.ofAttention s { s.path.att with enables := v.truncate 6 }).trans (trySend_steady _)

/-- While the settings are unlocked the date does not run, so no law reads an item (R14). -/
theorem writeSettings_steady (i v : Nat) {s : State} (unlocked : s.ctl.locked = false) :
    Steady s { s with settings := s.settings.write i v } := by
  refine ⟨⟨id, id, id, fun h => ⟨fun running => ?_, h.2⟩, id, id,
    fun h => ⟨h.1, Settings.write_wf s.settings i v h.2⟩, rfl, rfl, fun locked => ?_⟩, Nat.le_refl _⟩
  · exact absurd ((h.1 running).1) (by rw [unlocked]; decide)
  · rw [unlocked] at locked; cases locked

theorem settingsValueWrite_steady (v : BitVec 64) (s : State) : Steady s (settingsValueWrite v s) := by
  unfold settingsValueWrite
  split
  · split
    · exact .refl s
    · exact (setResult_goes _ _ s).steady
  · exact writeSettings_steady _ _ (Bool.eq_false_iff.mpr ‹_›)

theorem readWindow_steady (offset size : Nat) (s : State) : Steady s (readWindow offset size s) := by
  have read : Goes s { s with ctl := { s.ctl with readData := s.readBytes offset size } } :=
    goes_plain rfl rfl rfl rfl rfl rfl id rfl rfl rfl id
  unfold readWindow; dsimp only
  split
  · exact read.steady.trans (.ofAttention _ { s.path.att with causes := 0 })
  · exact read.steady

theorem chanCommand_steady {s : State} {f : Env → Path → Path × ResultCode}
    (moves : Path.Moves 0 s.path (f s.env s.path).1) (leaves : Path.Leaves s.path (f s.env s.path).1) :
    Steady s (chanCommand f s) := (chanCommand_goes f s moves leaves.merge).steady

theorem complete_steady {s : State} {f : Env → Path → Path × Option ResultCode}
    (moves : Path.Moves 0 s.path (f s.env s.path).1) (leaves : Path.Leaves s.path (f s.env s.path).1) :
    Steady s (complete f s) := (complete_goes f s moves leaves.merge).steady

/-- A write to the command register, but for CAPTURE RESET, whose code is 4. -/
theorem commandBody_steady {code : Nat} (h : code ≠ 4) (c : Chan) (s : State) : Steady s (commandBody code c s) := by
  unfold commandBody
  split
  · exact lockSettings_steady s
  · exact (joinCage_goes s).steady
  · exact leaveCage_keeps s
  · exact absurd rfl h
  · exact clearCounters_steady s
  · exact chanCommand_steady (Path.startChan_moves _ c _) (Path.startChan_leaves _ c _)
  · exact chanCommand_steady (Path.stopChan_moves _ c _) (Path.stopChan_leaves _ c _)
  · exact chanCommand_steady (Path.flushChan_moves _ c _) (Path.flushChan_leaves _ c _)
  · exact chanCommand_steady (Path.post_moves _ c _ _ _) (Path.post_leaves _ c _ _ _)
  · exact takeClosed_steady c s
  · exact armAttention_steady s
  · exact (setResult_goes _ _ s).steady

theorem takeBody_steady {code : Nat} (h : code ≠ 4) (c : Chan) (s : State) :
    Steady s (takeCommand (commandBody code c) s) := takeCommand_steady (commandBody_steady h c s)

theorem commandBody_keeps (code : Nat) (c : Chan) (s : State) : Keeps s (commandBody code c s) := by
  by_cases h : code = 4
  · subst h; exact captureReset_keeps s
  · exact (commandBody_steady h c s).1

theorem registerWrite_keeps (offset size : Nat) (v : BitVec 64) (s : State) :
    Keeps s (registerWrite offset size v s) := by
  have plain : ∀ ctl : ControlWindow, ctl.locked = s.ctl.locked → Keeps s { s with ctl := ctl } := fun ctl h =>
    (goes_plain (s := s) (t := { s with ctl := ctl }) rfl rfl rfl rfl h rfl id rfl rfl rfl id).toKeeps
  unfold registerWrite
  split
  · unfold writeRegister
    split
    · exact plain _ rfl
    · exact (settingsValueWrite_steady v s).1
    · exact takeCommand_keeps (commandBody_keeps _ _ s)
    · exact plain _ rfl
    · exact plain _ rfl
    · exact plain _ rfl
    · exact plain _ rfl
    · exact (writeEnables_steady v s).1
    · exact .refl s
  · exact .refl s

/-! ## Every command -/

theorem answer_steady {s u t : State} (h : Steady s u) (e : answer s u = .next t) : Steady s t := by
  unfold answer at e; cases e
  split
  · exact .refl s
  · exact h

theorem answer_keeps {s u t : State} (h : Keeps s u) (e : answer s u = .next t) : Keeps s t := by
  unfold answer at e; cases e
  split
  · exact .refl s
  · exact h

theorem setEpo_goes (s : State) : Goes s { s with tb := { s.tb with epo := false } } :=
  goes_cage rfl rfl rfl rfl rfl rfl (fun h => h.congr rfl rfl) (fun h => h) (fun h => h.congr rfl rfl rfl fun _ => rfl)
    id

/-- A line that settles is not OFF (R69). -/
theorem settleTimeout_steady (l : Line) (s : State) :
    Steady s (if s.settleDue l then (changeLine l .up .settled 0 s).served else s) := by
  split
  · rename_i due
    have on : (s.lines[l]).state ≠ .off := by rw [settling_of_settleDue due]; decide
    exact ((changeLine_goes l .up .settled 0 s on).trans (served_goes _)).steady
  · exact .refl s

/-- The horizon is offered to the arbiter and the window declared (R128). -/
theorem gapDeclaration_steady (st : Stream) (s : State) :
    Steady s (modPath (fun e p => Path.serve e (Path.declareWindow e st (p.raiseTime (Path.horizon e.now p)))) s) :=
  modPath_steady _ s
    (((Path.raiseTime_moves _ _).trans0 (Path.declareWindow_moves _ st _)).trans0 (Path.serve_moves _ _)) (by simp)

/-- The command sets nothing of the arbiter back: it is no reset, and no register write, which may issue one. -/
def keepsTime : Instr → Bool
  | .fullReset _ _ | .captureReset | .registerWrite _ _ _ => false
  | _ => true

theorem keepsTime_iff (i : Instr) : keepsTime i = true ↔
    i.isFullReset = false ∧ i ≠ .captureReset ∧ ∀ offset size v, i ≠ .registerWrite offset size v := by
  cases i <;> simp [keepsTime, Instr.isFullReset]

theorem goes_setAligned (l : Line) (b : Bool) (s : State) :
    Goes s (modLine l (fun p => { p with aligned := b }) s) := goes_modLine l _ s rfl id

/-- Each command that sets no time back; the twelve rows that are writes to the command register go through the code
that names them (R164). -/
theorem exec_steady {i : Instr} (h : keepsTime i = true) {s t : State} (e : exec i s = .next t) : Steady s t := by
  cases i with
  | fullReset | captureReset | registerWrite => cases h
  | lockSettings => exact answer_steady (takeBody_steady (code := 1) (by decide) 0 s) e
  | joinCage => exact answer_steady (takeBody_steady (code := 2) (by decide) 0 s) e
  | leaveCage => exact answer_steady (takeBody_steady (code := 3) (by decide) 0 s) e
  | clearCounters => exact answer_steady (takeBody_steady (code := 5) (by decide) 0 s) e
  | startChannel c => exact answer_steady (takeBody_steady (code := 6) (by decide) c s) e
  | stopChannel c => exact answer_steady (takeBody_steady (code := 7) (by decide) c s) e
  | flushChannel c => exact answer_steady (takeBody_steady (code := 8) (by decide) c s) e
  | postBuffer c => exact answer_steady (takeBody_steady (code := 9) (by decide) c s) e
  | takeClosed c => exact answer_steady (takeBody_steady (code := 10) (by decide) c s) e
  | armAttention => exact answer_steady (takeBody_steady (code := 11) (by decide) 0 s) e
  | unknownCommand code => exact answer_steady (takeBody_steady (code := 0) (by decide) 0 s) e
  | settingsValueWrite v => exact answer_steady (settingsValueWrite_steady v s) e
  | attentionCausesRead offset size => exact answer_steady (readWindow_steady offset size s) e
  | attentionEnablesWrite v => exact answer_steady (writeEnables_steady v s) e
  | attentionMessageComplete good =>
    exact answer_steady (modPath_steady _ s (Path.messageComplete_moves _ good _)
      (Path.messageComplete_leaves _ good _).merge) e
  | ownBoundary => exact answer_steady (ifDue_steady ((ownBoundary_goes s).trans (served_goes _)).steady) e
  | epoHalfPoint => exact answer_steady (ifDue_steady (setEpo_goes s).steady) e
  | windowOpening => exact answer_steady (windowOpening_goes s).steady e
  | windowClose => exact answer_steady (windowClose_goes s).steady e
  | markHoldEnd => exact answer_steady (markHoldEnd_goes s).steady e
  | markLineRise => exact answer_steady (markLineRise_goes s).steady e
  | markLineFall => exact answer_steady (markLineFall_goes s).steady e
  | pulseWatchRearm => exact answer_steady (pulseWatchRearm_goes s).steady e
  | noticeSend act => exact answer_steady (noticeSend_goes act s).steady e
  | noticeReceive samples => exact answer_steady (noticeReceive_goes samples s).steady e
  | losSample levels => exact answer_steady (ifDue_steady ((losSample_goes levels s).trans (served_goes _)).steady) e
  | receiverAligned l =>
    exact answer_steady (((goes_setAligned l true s).trans (trySettle_goes l _)).trans (served_goes _)).steady e
  | receiverNotAligned l =>
    exact answer_steady (((goes_setAligned l false s).trans (goDown_goes l _ _)).trans (served_goes _)).steady e
  | settleTimeout l => exact answer_steady (settleTimeout_steady l s) e
  | codeError l => exact answer_steady (codeErrorAt_goes l s).steady e
  | frameStart l => exact answer_steady (frameStartAt_goes l s).steady e
  | furtherBlockRequest l bytes => exact answer_steady ((feed_goes l bytes s).trans (served_goes _)).steady e
  | oversize l bytes => exact answer_steady ((feed_goes l bytes s).trans (served_goes _)).steady e
  | frameEnd l bytes clean =>
    exact answer_steady (((feed_goes l bytes s).trans (frameEndAt_goes l clean _)).trans (served_goes _)).steady e
  | gapDeclaration st => exact answer_steady (gapDeclaration_steady st s) e
  | writeCompleteGood =>
    exact answer_steady (complete_steady (Path.completeGood_moves _ _) (Path.completeGood_leaves _ _)) e
  | writeCompleteFailed =>
    exact answer_steady (complete_steady (Path.completeFailed_moves _ _) (Path.completeFailed_leaves _ _)) e
  | abandonedWriteComplete =>
    exact answer_steady (modPath_steady _ s (Path.completeAbandoned_moves _ _)
      (Path.completeAbandoned_leaves _ _).merge) e
  | idleFlushExpiry c =>
    exact answer_steady (modPath_steady _ s (Path.idleExpire_moves _ c _) (Path.idleExpire_leaves _ c _).merge) e
  | markDriveFault => exact answer_steady (markDriveFault_goes s).steady e

/-- Every command but full reset keeps the laws, the queue, the tick and the lock. -/
theorem exec_keeps {i : Instr} (h : i.isFullReset = false) {s t : State} (e : exec i s = .next t) : Keeps s t := by
  cases ht : keepsTime i with
  | true => exact (exec_steady ht e).1
  | false =>
    cases i with
    | captureReset => exact answer_keeps (takeCommand_keeps (commandBody_keeps 4 0 s)) e
    | registerWrite offset size v => exact answer_keeps (registerWrite_keeps offset size v s) e
    | fullReset => cases h
    | _ => cases ht

/-! ## Full reset, and the part at reset -/

theorem blank_dateBounded {s : State} (h : s.tb = {}) : s.DateBounded := by
  unfold DateBounded; rw [h]
  exact ⟨fun running => (nomatch running), by decide, by decide, by decide, by decide⟩

theorem blank_mergeLawful {s : State} (merge : s.path.merge = {})
    (idle : ∀ l : Line, (s.lines[l]).reception = .idle) : s.MergeLawful := by
  unfold MergeLawful Path.Sorted Path.HeldBack; rw [merge]
  refine ⟨fun l => ?_, List.Pairwise.nil, fun f h => by cases h⟩
  rw [idle l]; exact replicate_get none l

theorem blank_withinCapacity {p : Path} (merge : p.merge = {}) (chans : p.chans = Vector.replicate 4 {}) :
    p.WithinCapacity := by
  unfold Path.WithinCapacity; rw [merge, chans]
  refine ⟨fun c => ?_, Nat.zero_le _⟩
  rw [replicate_get]; exact ⟨Nat.zero_le _, Nat.zero_le _⟩

theorem blank_driveLawful {s : State} (drive : s.bus.drive = none) (watch : s.bus.watch = .off) : s.DriveLawful :=
  ⟨fun h => absurd (drive ▸ h) (by decide), fun h => absurd watch h⟩

theorem settings_blank_wf : Settings.wf {} := ⟨List.Pairwise.nil, fun _ h => nomatch h⟩

theorem fullReset_lines (straps : Station) (held : Bool) (l : Line) (s : State) :
    (fullReset straps held s).lines[l] = { aligned := (s.lines[l]).aligned } := ofFn_get _ l

/-! ## The laws through the passing of time -/

/-- The laws that a step keeps, whatever it does to the queue and the tick. -/
structure KeepsLaws (s t : State) : Prop where
  caps : s.path.WithinCapacity → t.path.WithinCapacity
  drive : s.DriveLawful → t.DriveLawful
  date : s.DateBounded → t.DateBounded
  quiet : s.QuietBeforeLock → t.QuietBeforeLock
  merge : s.MergeLawful → t.MergeLawful
  canon : s.Canonical → t.Canonical

theorem Keeps.laws {s t : State} (h : Keeps s t) : KeepsLaws s t :=
  ⟨h.caps, h.drive, h.date, h.quiet, h.merge, h.canon⟩

theorem KeepsLaws.refl (s : State) : KeepsLaws s s := (Keeps.refl s).laws

theorem KeepsLaws.trans {s t u : State} (h : KeepsLaws s t) (k : KeepsLaws t u) : KeepsLaws s u :=
  ⟨k.caps ∘ h.caps, k.drive ∘ h.drive, k.date ∘ h.date, k.quiet ∘ h.quiet, k.merge ∘ h.merge, k.canon ∘ h.canon⟩

theorem fullReset_keepsLaws (straps : Station) (held : Bool) (s : State) : KeepsLaws s (fullReset straps held s) where
  caps _ := blank_withinCapacity rfl rfl
  drive _ := blank_driveLawful rfl rfl
  date _ := blank_dateBounded rfl
  quiet _ _ := ⟨rfl, rfl, fun l => by rw [fullReset_lines]⟩
  merge _ := blank_mergeLawful rfl fun l => by rw [fullReset_lines]
  canon h := ⟨Path.blur_wf h.1, settings_blank_wf⟩

/-- A change of the queue and of the number of free values drawn is no part of any law. -/
theorem queueDue_keepsLaws (s : State) : KeepsLaws s (queueDue s) where
  caps h := h
  drive h := h.congr rfl rfl
  date h := h.congr rfl rfl rfl
  quiet h := h.congr rfl rfl rfl fun _ => rfl
  merge h := h.congr (fun _ => rfl) rfl
  canon h := h

theorem settle_goes (s : State) : Goes s (State.settle s) :=
  (driveStands_goes s).trans (goes_modPath Path.settle _ (Path.settle_moves _ _) (Path.settle_leaves _ _).merge)

/-- The rate of a trim within its limits is positive (R3, R4). -/
theorem rateOf_pos {trim : Int} (h : -858993 ≤ trim) : 0 < rateOf trim := by unfold rateOf; omega

theorem timeBase_advance_bounds (tb : TimeBase) (rate : 0 < rateOf tb.trim) (frac : tb.frac < 2 ^ 32)
    (phase : tb.phase < rateOf tb.trim) : tb.advance.frac < 2 ^ 32 ∧ tb.advance.phase < rateOf tb.trim := by
  unfold TimeBase.advance
  split
  · dsimp only; split <;> split <;> dsimp only <;> constructor <;> omega
  · exact ⟨frac, phase⟩

/-- What the passing of time leaves of the Time Base. -/
theorem timeBase_advance_eq (tb : TimeBase) : tb.advance =
    { tb with tick := tb.advance.tick, count := tb.advance.count, frac := tb.advance.frac,
              phase := tb.advance.phase } := by
  unfold TimeBase.advance
  split
  · dsimp only; split <;> split <;> rfl
  · rfl

/-- What the passing of time leaves of the part: a new tick moves the LOS sampling counter, the receiver and the
arbiter time besides (R34, R66, R116). -/
theorem advance_eq (s : State) : s.advance =
    { s with tb := s.tb.advance, losPhase := s.advance.losPhase,
             bus := { s.bus with receiver := s.advance.bus.receiver },
             path := { s.path with arb := { s.path.arb with time := s.advance.path.arb.time } } } := by
  unfold State.advance; dsimp only
  split <;> rfl

theorem advance_dateBounded {s : State} (h : s.DateBounded) : s.advance.DateBounded := by
  obtain ⟨running, lo, hi, frac, phase⟩ := h
  have bounds := timeBase_advance_bounds s.tb (rateOf_pos lo) frac phase
  unfold DateBounded
  rw [advance_eq]; dsimp only
  rw [timeBase_advance_eq]
  exact ⟨running, lo, hi, bounds⟩

theorem advance_keepsLaws (s : State) : KeepsLaws s s.advance where
  caps h := by rw [advance_eq]; exact h
  drive h := by rw [advance_eq]; exact h
  date := advance_dateBounded
  quiet h := by
    refine h.congr ?_ ?_ ?_ fun l => ?_ <;> rw [advance_eq]
    dsimp only; rw [timeBase_advance_eq]
  merge h := by
    refine h.congr (fun l => ?_) ?_ <;> rw [advance_eq]
  canon h := by rw [advance_eq]; exact h

theorem advance_time (s : State) : s.path.arb.time ≤ s.advance.path.arb.time := by
  unfold State.advance; dsimp only
  split
  · exact Nat.le_max_left ..
  · exact Nat.le_refl _

theorem idle_keepsLaws (s : State) : KeepsLaws s s.idle := by
  unfold idle
  split
  · exact .refl s
  · split
    · exact queueDue_keepsLaws s
    · split
      · exact (settle_goes s).toKeeps.laws
      · exact (advance_keepsLaws s).trans (queueDue_keepsLaws _)

theorem idle_time (s : State) : s.path.arb.time ≤ s.idle.path.arb.time := by
  unfold idle
  split
  · exact Nat.le_refl _
  · split
    · exact Nat.le_refl _
    · split
      · exact (settle_goes s).time
      · exact advance_time s

theorem step_keepsLaws {s t : State} (e : step s = .next t) : KeepsLaws s t := by
  unfold step at e
  split at e
  · rename_i i rest _
    have popped : KeepsLaws s { s with pending := rest } :=
      ⟨id, id, fun h => h.congr rfl rfl rfl, id, id, id⟩
    refine popped.trans ?_
    cases hi : i.isFullReset with
    | false => exact (exec_keeps hi e).laws
    | true =>
      cases i with
      | fullReset straps held => cases e; exact fullReset_keepsLaws straps held _
      | _ => cases hi
  · cases e; exact idle_keepsLaws s

/-! ## Answers -/

/-- Every command but full reset answers with its effect, which RESET held low drops (R175, log 14). -/
theorem exec_isAnswer {i : Instr} (h : i.isFullReset = false) (s : State) : ∃ u, exec i s = answer s u := by
  cases i with
  | fullReset => cases h
  | _ => exact ⟨_, rfl⟩

/-- A row that is a write to the command register is dropped while the result reads PENDING (R169). -/
theorem exec_isTaken {i : Instr} (h : i.isHostCommand = true) (s : State) :
    ∃ body, exec i s = answer s (takeCommand body s) := by
  cases i with
  | lockSettings | joinCage | leaveCage | captureReset | clearCounters | startChannel | stopChannel | flushChannel
  | postBuffer | takeClosed | armAttention | unknownCommand => exact ⟨_, rfl⟩
  | _ => cases h

theorem answer_of_resetLow {s : State} (u : State) (h : s.resetLow = true) : answer s u = .next s := by
  unfold answer; rw [if_pos h]

theorem answer_of_running {s : State} (u : State) (h : s.resetLow = false) : answer s u = .next u := by
  unfold answer; rw [h]; rfl

theorem answer_self (s : State) : answer s s = .next s := by unfold answer; rw [ite_self]

theorem takeCommand_of_pending {s : State} (body : State → State) (h : s.ctl.result = .pending) :
    takeCommand body s = s := if_pos h

theorem takeCommand_of_taken {s : State} (body : State → State) (h : s.ctl.result ≠ .pending) :
    takeCommand body s = body s := if_neg h

/-- A write to the command register that is taken answers with its effect. -/
theorem answer_of_takes {s : State} (body : State → State) (h : s.Takes) :
    answer s (takeCommand body s) = .next (body s) := by
  rw [takeCommand_of_taken body h.2, answer_of_running _ h.1]

end State

open State

/-! ## Laws kept by every step -/

/-- Settles O12: every command and the passing of time keep the capacities. -/
theorem capacitiesAreKept : Obligations.CapacitiesAreKept := fun _ _ h e => (step_keepsLaws e).caps h

/-- Settles O13: no step drives the mark line outside ALIGN and LOCKED, nor runs the pulse watch outside LISTEN. -/
theorem driveStaysLawful : Obligations.DriveStaysLawful := fun _ _ h e => (step_keepsLaws e).drive h

/-- Settles O14: a new rate, length or instant stays within the limits. -/
theorem dateStaysBounded : Obligations.DateStaysBounded := fun _ _ h e => (step_keepsLaws e).date h

/-- Settles O15: until the lock no step leaves QUIET, starts the date or enables a line. -/
theorem nothingRunsBeforeTheLock : Obligations.NothingRunsBeforeTheLock := fun _ _ h e => (step_keepsLaws e).quiet h

/-- Settles O16: frames enter and leave the in-flight table with reception, and every removal is followed by the
releases that it allows. -/
theorem mergeStaysLawful : Obligations.MergeStaysLawful := fun _ _ h e => (step_keepsLaws e).merge h

/-- Settles O17: writes and forgetting keep the keys of the sparse tables rising. -/
theorem tablesStayCanonical : Obligations.TablesStayCanonical := fun _ _ h e => (step_keepsLaws e).canon h

/-- Settles O18: after reset the part is blank. -/
theorem lawsHoldAtReset : Obligations.LawsHoldAtReset := by
  have idle : ∀ l : Line, State.reset.lines[l] = {} := fun l => replicate_get _ l
  exact ⟨reset_conserved, blank_withinCapacity rfl rfl, blank_driveLawful rfl rfl, blank_dateBounded rfl,
    fun _ => ⟨rfl, rfl, fun l => by rw [idle]⟩, blank_mergeLawful rfl fun l => by rw [idle], List.Pairwise.nil,
    settings_blank_wf⟩

/-- Settles O19: the arbiter time only rises, but in the commands that the statement leaves out. -/
theorem arbiterTimeDoesNotFall : Obligations.ArbiterTimeDoesNotFall := by
  intro s t front e
  unfold step at e
  split at e
  · rename_i i rest hp
    exact (exec_steady ((keepsTime_iff i).mpr (front i rest hp)) e).2
  · cases e; exact idle_time s

/-! ## Answers, queue, tick and lock -/

/-- Settles O1: the definition of a step, at a queue with a command at its front. -/
theorem stepRunsTheFrontCommand : Obligations.StepRunsTheFrontCommand := fun _ _ _ => rfl

/-- Settles O2: full reset carries the queue over, and every other command keeps it. -/
theorem everyCommandAnswersAndKeepsTheQueue : Obligations.EveryCommandAnswersAndKeepsTheQueue := by
  intro i s
  cases hi : i.isFullReset with
  | false =>
    obtain ⟨u, hu⟩ := exec_isAnswer hi s
    exact ⟨_, hu, (exec_keeps hi hu).queue⟩
  | true =>
    cases i with
    | fullReset straps held => exact ⟨_, rfl, rfl⟩
    | _ => cases hi

/-- Settles O3: a command that is not taken answers with the state as it stands. -/
theorem commandsThatHaveNoEffect : Obligations.CommandsThatHaveNoEffect := by
  refine ⟨fun i s low hi => ?_, fun i s pending hi => ?_, fun code s takes => answer_of_takes unknownCommand takes⟩
  · obtain ⟨u, hu⟩ := exec_isAnswer hi s
    rw [hu, answer_of_resetLow u low]
  · obtain ⟨body, hb⟩ := exec_isTaken hi s
    rw [hb, takeCommand_of_pending body pending, answer_self]

/-- Settles O5: every command but full reset keeps the tick, and the settings once they are locked. -/
theorem onlyFullResetMovesTickAndLock : Obligations.OnlyFullResetMovesTickAndLock := fun _ _ _ hi e =>
  ⟨(exec_keeps hi e).tick, (exec_keeps hi e).lock⟩

end Sys2Proof.Machine
end

section
/-!
SUPPORT. Full reset, field by field, and the step on an empty queue: the next instant and the end of the present one.
-/
namespace Sys2Proof.Machine

/-! ## Blank counters and settings -/

theorem CageCounters.nth_blank (i : Nat) : ({} : CageCounters).nth i = 0 := by
  unfold nth; split <;> rfl

theorem LineCounters.nth_blank (i : Nat) : ({} : LineCounters).nth i = 0 := by
  unfold nth; split <;> rfl

theorem StreamCounters.nth_blank (i : Nat) : ({} : StreamCounters).nth i = 0 := by
  unfold nth; split <;> rfl

theorem ChanCounters.nth_blank (i : Nat) : ({} : ChanCounters).nth i = 0 := by
  unfold nth; split <;> rfl

/-- Every counter reads 0 where every block's are blank; the peak of the pending set is the one that may not be (R172). -/
theorem State.counter_of_blank {s : State} {i : Nat} (cage : s.cage = {})
    (lines : ∀ l : Line, (s.lines[l]).counters = {}) (released : s.path.merge.released = 0)
    (peak : i = 145 → s.path.merge.peak = 0) (streams : ∀ st : Stream, s.path.arb.counters[st] = {})
    (chans : ∀ c : Chan, (s.path.chans[c]).counters = {}) : s.counter i = 0 := by
  unfold State.counter
  split
  · rw [cage]; exact CageCounters.nth_blank i
  split
  · rw [lines]; exact LineCounters.nth_blank _
  split
  · exact released
  split
  · exact peak ‹_›
  split
  · rfl
  split
  · rw [streams]; exact StreamCounters.nth_blank _
  split
  · rw [chans]; exact ChanCounters.nth_blank _
  · rfl

theorem Settings.item_blank {i : Nat} (h : i < itemCount) : ({} : Settings).item i = itemDefault i := by
  unfold item; rw [if_pos h]; rfl

/-- Settles O4: full reset makes a blank part, but for the straps, the pull of the other stations and the receivers'
reports. -/
theorem fullResetClearsThePart : Obligations.FullResetClearsThePart := by
  intro straps held s
  have window : ∀ st : Stream, (State.fullReset straps held s).path.arb.windows[st] = {} := fun st => replicate_get _ st
  have chan : ∀ c : Chan, (State.fullReset straps held s).path.chans[c] = {} := fun c => replicate_get _ c
  have line := fun l => State.fullReset_lines straps held l s
  refine ⟨State.fullReset straps held s, rfl, rfl, rfl, rfl, rfl, rfl, rfl, rfl, rfl, rfl, rfl, rfl, rfl, rfl, rfl, rfl,
    rfl, rfl, rfl, rfl, rfl, rfl, rfl, rfl, fun j => replicate_get _ j, rfl, fun l => ?_, rfl, fun l => replicate_get _ l,
    rfl, rfl, fun st => ?_, fun l => replicate_get _ l, fun c => ?_, rfl, rfl, fun i => Settings.item_blank, rfl, rfl,
    rfl, rfl, rfl, rfl, rfl, rfl, rfl, fun i => ?_, rfl⟩
  · rw [line l]; exact ⟨rfl, rfl, rfl, rfl, rfl, rfl, rfl⟩
  · rw [window st]; exact ⟨rfl, rfl⟩
  · rw [chan c]; exact ⟨rfl, rfl, rfl, rfl, rfl, rfl, rfl, rfl, rfl⟩
  · exact State.counter_of_blank rfl (fun l => by rw [line l]) rfl (fun _ => rfl) (fun st => replicate_get _ st)
      fun c => by rw [chan c]

/-! ## A step on an empty queue -/

theorem step_of_empty {s : State} (h : s.pending = []) : step s = .next s.idle := by
  unfold step; rw [h]

namespace State

theorem idle_of_low {s : State} (h : s.resetLow = true) : s.idle = s := by unfold idle; rw [if_pos h]

section
variable {s : State} (running : s.resetLow = false)
include running

theorem idle_of_due (due : s.dueEvents ≠ []) : s.idle = s.queueDue := by
  unfold idle
  rw [if_neg (by rw [running]; decide), if_pos (by rwa [List.isEmpty_eq_false_iff])]

theorem idle_of_unsettled (none : s.dueEvents = []) (left : s.unsettled = true) : s.idle = s.settle := by
  unfold idle
  rw [if_neg (by rw [running]; decide), none, if_neg (by decide), if_pos left]

theorem idle_of_settled (none : s.dueEvents = []) (left : s.unsettled = false) : s.idle = s.advance.queueDue := by
  unfold idle
  rw [if_neg (by rw [running]; decide), none, if_neg (by decide), if_neg (by rw [left]; decide)]

end

theorem queueDue_perm (s : State) : (queueDue s).pending.Perm (queueDue s).dueEvents := freeOrder_perm _ _

end State

/-! ## The next instant (R1, R3) -/

namespace TimeBase

theorem tick_ne (t : BitVec 64) : t + 1 ≠ t := by bv_omega

theorem advance_of_stopped {tb : TimeBase} (h : tb.running = false) : tb.advance = { tb with tick := tb.tick + 1 } := by
  unfold advance; rw [h]; rfl

/-- With the date running the next instant is the nearer of the next tick and the next count, or both. -/
theorem advance_of_running {tb : TimeBase} (h : tb.running = true) :
    (2 ^ 32 - tb.frac < rateOf tb.trim - tb.phase ∧ tb.advance.tick = tb.tick ∧ tb.advance.count = tb.count + 1
      ∧ tb.advance.frac = 0 ∧ tb.advance.phase = tb.phase + (2 ^ 32 - tb.frac))
    ∨ (rateOf tb.trim - tb.phase < 2 ^ 32 - tb.frac ∧ tb.advance.tick = tb.tick + 1 ∧ tb.advance.count = tb.count
      ∧ tb.advance.frac = tb.frac + (rateOf tb.trim - tb.phase) ∧ tb.advance.phase = 0)
    ∨ (rateOf tb.trim - tb.phase = 2 ^ 32 - tb.frac ∧ tb.advance.tick = tb.tick + 1
      ∧ tb.advance.count = tb.count + 1 ∧ tb.advance.frac = 0 ∧ tb.advance.phase = 0) := by
  unfold advance; rw [h]; dsimp only
  rcases Nat.lt_trichotomy (2 ^ 32 - tb.frac) (rateOf tb.trim - tb.phase) with lt | eq | gt
  · refine .inl ⟨lt, ?_⟩
    rw [if_pos rfl, if_neg (by omega), if_pos (by omega)]; exact ⟨rfl, rfl, rfl, rfl⟩
  · refine .inr (.inr ⟨eq.symm, ?_⟩)
    rw [if_pos rfl, if_pos (by omega), if_pos (by omega)]; exact ⟨rfl, rfl, rfl, rfl⟩
  · refine .inr (.inl ⟨gt, ?_⟩)
    rw [if_pos rfl, if_pos (by omega), if_neg (by omega)]; exact ⟨rfl, rfl, rfl, rfl⟩

/-- The next instant is a whole tick exactly where the tick moves. -/
theorem advance_tick (tb : TimeBase) :
    tb.advance.tick = if tb.advanceTicks then tb.tick + 1 else tb.tick := by
  unfold advanceTicks
  cases hr : tb.running with
  | false => rw [advance_of_stopped hr]; rfl
  | true =>
    rcases advance_of_running hr with ⟨lt, tick, _⟩ | ⟨lt, tick, _⟩ | ⟨eq, tick, _⟩
    · rw [tick, decide_eq_false (by omega)]; rfl
    · rw [tick, decide_eq_true (by omega)]; rfl
    · rw [tick, decide_eq_true (by omega)]; rfl

theorem advanceTicks_iff (tb : TimeBase) : tb.advanceTicks = true ↔ tb.advance.tick ≠ tb.tick := by
  rw [advance_tick]
  cases tb.advanceTicks with
  | true => simp
  | false => simp

theorem rateOf_int {trim : Int} (h : -858993 ≤ trim) : (rateOf trim : Int) = 2 ^ 32 + trim := by
  unfold rateOf; omega

/-- The date moves at the rate 2^32 + trim from one tick to the next; what has passed of the tick stands in the phase
(R3). -/
theorem advance_date {tb : TimeBase} (running : tb.running = true) (lo : -858993 ≤ tb.trim) (frac : tb.frac < 2 ^ 32)
    (phase : tb.phase < rateOf tb.trim) :
    ((tb.advance.count * 2 ^ 32 + tb.advance.frac : Nat) : Int) + tb.phase
        = ((tb.count * 2 ^ 32 + tb.frac : Nat) : Int) + tb.advance.phase
          + (if tb.advance.tick = tb.tick then 0 else 2 ^ 32 + tb.trim)
      ∧ (tb.advance.tick ≠ tb.tick → tb.advance.phase = 0) := by
  have rate := rateOf_int lo
  rcases advance_of_running running with ⟨_, tick, count, f, ph⟩ | ⟨_, tick, count, f, ph⟩ | ⟨_, tick, count, f, ph⟩
  · rw [tick, count, f, ph, if_pos rfl]; exact ⟨by omega, fun h => absurd rfl h⟩
  · rw [tick, count, f, ph, if_neg (tick_ne _)]; exact ⟨by omega, fun _ => rfl⟩
  · rw [tick, count, f, ph, if_neg (tick_ne _)]; exact ⟨by omega, fun _ => rfl⟩

end TimeBase

namespace State

theorem advance_of_no_tick {s : State} (h : s.tb.advance.tick = s.tb.tick) :
    s.advance = { s with tb := s.tb.advance } := by
  unfold State.advance
  rw [if_neg (fun ticks => (s.tb.advanceTicks_iff).mp ticks h)]

theorem advance_of_tick {s : State} (h : s.tb.advance.tick ≠ s.tb.tick) :
    s.advance = onTick { s with tb := s.tb.advance } := by
  unfold State.advance
  rw [if_pos ((s.tb.advanceTicks_iff).mpr h)]

@[simp] theorem advance_tb (s : State) : s.advance.tb = s.tb.advance := by rw [advance_eq]

/-- At a new tick the LOS sampling counter counts on, from a sample point anew (R66). -/
theorem losTick_cases (period : Nat) (k : Option Nat) :
    (k = none → losTick period k = none)
      ∧ (∀ n, k = some n → n < period → losTick period k = some (n + 1))
      ∧ ∀ n, k = some n → period ≤ n → losTick period k = some 1 := by
  refine ⟨fun h => by rw [h]; rfl, fun n h lt => ?_, fun n h le => ?_⟩
  · rw [h]; unfold losTick; rw [Option.map_some, if_neg (by omega)]
  · rw [h]; unfold losTick; rw [Option.map_some, if_pos le]

/-- The receiver takes the slot of the instant in every state but QUIET (R34). -/
theorem trackReceiver_iff (s : State) (k : Station) : (trackReceiver s).bus.receiver = some k ↔
    s.sc.state ≠ .quiet ∧ ∃ f, s.bus.fallRef = some f ∧ 400 + 2600 * k.val ≤ ticksSince s.now f.tick
      ∧ ticksSince s.now f.tick ≤ 400 + 2600 * k.val + 2240 := by
  have receiver : (trackReceiver s).bus.receiver =
      if s.sc.state = .quiet then none else s.bus.fallRef.bind fun f => slotOf (ticksSince s.now f.tick) := rfl
  rw [receiver]
  by_cases quiet : s.sc.state = .quiet
  · rw [if_pos quiet]; exact ⟨fun h => (nomatch h), fun h => absurd quiet h.1⟩
  · rw [if_neg quiet, Option.bind_eq_some_iff]
    refine ⟨fun ⟨f, hf, slot⟩ => ⟨quiet, f, hf, (slotOf_iff _ k).mp slot⟩, fun ⟨_, f, hf, slot⟩ => ⟨f, hf, ?_⟩⟩
    exact (slotOf_iff _ k).mpr slot

end State

open State in
/-- Settles O6: the step is `advance` with the events due after it; the Time Base by the three cases of its next
instant, the rest by whether that is a new tick. -/
theorem timePassesOnAnEmptyQueue : Obligations.TimePassesOnAnEmptyQueue := by
  intro s empty up none standing settled
  have left : s.unsettled = false := by unfold State.unsettled; rw [standing, settled]; rfl
  have eq := advance_eq s
  have tb : s.advance.queueDue.tb = s.tb.advance := advance_tb s
  refine ⟨s.advance.queueDue, by rw [step_of_empty empty, idle_of_settled up none left], queueDue_perm _, ?draws, ?tb,
    ?stopped, ?moves, ?even, ?date, ?sc, ?lines, ?settings, ?ctl, ?roster, ?cage, ?low, ?chans, ?merge, ?store, ?writer,
    ?att, ?mem, ?bus, ?arb, ?noTick, ?tick⟩
  case draws => show s.advance.path.draws + 1 = _; rw [eq]
  case tb => rw [tb]; exact timeBase_advance_eq s.tb
  case stopped =>
    intro stopped
    rw [tb, TimeBase.advance_of_stopped stopped]; exact ⟨rfl, rfl, rfl⟩
  case moves =>
    intro running
    rw [tb]
    rcases TimeBase.advance_of_running running with ⟨_, t, c, _⟩ | ⟨_, t, c, _⟩ | ⟨_, t, c, _⟩
    · exact .inl ⟨t, c⟩
    · exact .inr ⟨t, .inl c⟩
    · exact .inr ⟨t, .inr c⟩
  case even =>
    intro running trim phase
    have rate : rateOf s.tb.trim = 2 ^ 32 := by rw [trim]; rfl
    rw [tb]
    rcases TimeBase.advance_of_running running with ⟨lt, _⟩ | ⟨lt, _⟩ | ⟨_, t, c, f, ph⟩
    · omega
    · omega
    · exact ⟨t, c, ph.trans f.symm⟩
  case date =>
    intro running ⟨_, lo, _, frac, phase⟩
    rw [tb]; exact TimeBase.advance_date running lo frac phase
  case noTick =>
    intro same
    rw [tb] at same
    show s.advance.losPhase = _ ∧ s.advance.bus.receiver = _ ∧ s.advance.path.arb.time = _
    rw [advance_of_no_tick same]; exact ⟨rfl, rfl, rfl⟩
  case tick =>
    intro moved
    rw [tb] at moved
    have now : s.advance.queueDue.now = ({ s with tb := s.tb.advance } : State).now := by
      unfold State.now; rw [tb]
    have los : s.advance.queueDue.losPhase = losTick s.settings.losPeriod s.losPhase := by
      show s.advance.losPhase = _; rw [advance_of_tick moved]; rfl
    have receiver : s.advance.queueDue.bus.receiver
        = (trackReceiver { s with tb := s.tb.advance, losPhase := s.advance.losPhase }).bus.receiver := by
      show s.advance.bus.receiver = _; rw [advance_of_tick moved]; rfl
    have time : s.advance.queueDue.path.arb.time
        = max s.path.arb.time (Path.horizon s.advance.queueDue.now s.path) := by
      show s.advance.path.arb.time = _; rw [now, advance_of_tick moved]; rfl
    obtain ⟨stays, counts, restarts⟩ := losTick_cases s.settings.losPeriod s.losPhase
    obtain ⟨le, inFlight, pending, reached⟩ := Path.horizon_spec s.advance.queueDue.now s.path
    refine ⟨los ▸ stays, los ▸ counts, los ▸ restarts, fun k => ?_,
      Path.horizon s.advance.queueDue.now s.path, le, inFlight, pending, reached, time⟩
    rw [receiver, now]; exact trackReceiver_iff _ k
  case bus => show s.advance.bus = { s.bus with receiver := s.advance.bus.receiver }; rw [eq]
  case arb => show s.advance.path.arb = { s.path.arb with time := s.advance.path.arb.time }; rw [eq]
  case sc => show s.advance.sc = _; rw [eq]
  case lines => show s.advance.lines = _; rw [eq]
  case settings => show s.advance.settings = _; rw [eq]
  case ctl => show s.advance.ctl = _; rw [eq]
  case roster => show s.advance.roster = _; rw [eq]
  case cage => show s.advance.cage = _; rw [eq]
  case low => show s.advance.resetLow = _; rw [eq]
  case chans => show s.advance.path.chans = _; rw [eq]
  case merge => show s.advance.path.merge = _; rw [eq]
  case store => show s.advance.path.store = _; rw [eq]
  case writer => show s.advance.path.writer = _; rw [eq]
  case att => show s.advance.path.att = _; rw [eq]
  case mem => show s.advance.path.mem = _; rw [eq]

/-! ## The end of an instant (log 18, log 38) -/

namespace Path

theorem writing_iff (p : Path) (k : Chan) : p.writing k = true ↔ ∃ run w, p.writer = .holding k run w := by
  unfold writing
  cases p.writer with
  | holding c run w => simp
  | free | granted | abandoned => simp

theorem writing_false_iff (p : Path) (k : Chan) : p.writing k = false ↔ ¬ ∃ run w, p.writer = .holding k run w := by
  rw [← writing_iff, Bool.not_eq_true]

/-- A change of the channels, the writer, the attention logic and what is known of host memory. -/
theorem eq_of_delivery {p q : Path} (store : q.store = p.store) (merge : q.merge = p.merge) (arb : q.arb = p.arb)
    (draws : q.draws = p.draws) :
    q = { p with chans := q.chans, writer := q.writer, att := q.att, mem := q.mem } := by
  cases p; cases q; simp_all

end Path

namespace State

theorem noteSplit_of_none {s : State} (h : s.bus.window = none) : noteSplit s = s := by
  unfold noteSplit; rw [h]

/-- A SPLIT is noted and counted once in a window (R27). -/
theorem noteSplit_of_window {s : State} {w : MarkWindow} (h : s.bus.window = some w) :
    noteSplit s = { s with
      bus := { s.bus with window := some { w with split := true } }
      cage := { s.cage with split := if w.split then s.cage.split else countUp s.cage.split } } := by
  unfold noteSplit; rw [h]
  dsimp only
  cases hs : w.split with
  | false => rfl
  | true =>
    have same : ({ w with split := true } : MarkWindow) = w := by rw [← hs]
    rw [same, ← h]; rfl

theorem settle_eq_path (s : State) : State.settle s = { driveStands s with path := Path.settle s.env s.path } := by
  obtain ⟨w, k, eq⟩ := driveStands_form s
  unfold State.settle modPath
  rw [eq]; rfl

/-- The hold has begun, with no fault reported (R21). -/
def hold (s : State) : State := { s with bus := { s.bus with asserting := none, faultReported := false } }

/-- What a drive leaves at the end of its instant (R21, R27). -/
theorem driveStands_of_asserting {s : State} {after : Bool} (h : s.bus.asserting = some after) :
    driveStands s = if after then noteSplit s.hold else s.hold := by
  unfold driveStands; rw [h]; rfl

theorem unsettled_iff (s : State) : s.unsettled = true ↔
    s.bus.asserting ≠ none ∨ (∃ k : Chan, (s.path.chans[k]).ended = true)
      ∨ (∃ c run, s.path.writer = .granted c run)
      ∨ (s.path.writer = .free ∧ ∃ c : Chan, s.path.chans[c].Requests) := by
  unfold State.unsettled
  rw [Bool.or_eq_true, Option.isSome_iff_ne_none, Path.unsettled_iff]

end State

open State in
/-- Settles O7: the branches of `idle`; the end of the instant is `driveStands` on the port and `Path.settle` on the
delivery engine. -/
theorem emptyQueueSettlesTheWriter : Obligations.EmptyQueueSettlesTheWriter := by
  refine ⟨State.unsettled_iff, fun s empty low => by rw [step_of_empty empty, idle_of_low low],
    fun s empty up due => ⟨_, by rw [step_of_empty empty, idle_of_due up due]; rfl, freeOrder_perm _ _⟩,
    fun s empty up none left => ?_⟩
  have t : State.settle s = { driveStands s with path := Path.settle s.env s.path } := settle_eq_path s
  obtain ⟨chans, holding, abandoned, granted, free⟩ := Path.settle_rule s.env s.path
  refine ⟨State.settle s, by rw [step_of_empty empty, idle_of_unsettled up none left], ?frame, ?calm, ?stands, ?judged,
    ?attended, ?still, ?memory, ?holding, ?abandoned, ?granted, ?free⟩
  case frame =>
    obtain ⟨w, k, eq⟩ := driveStands_form s
    have path := Path.eq_of_delivery (Path.settle_store s.env s.path) (Path.settle_merge s.env s.path)
      (Path.settle_arb s.env s.path) (Path.settle_draws s.env s.path)
    rw [t, eq]; dsimp only; rw [← path]
  case calm => intro h; rw [t, driveStands_of_none h]; exact ⟨rfl, rfl⟩
  case stands =>
    intro after h
    rw [t, driveStands_of_asserting h]
    cases after with
    | false => exact ⟨rfl, fun _ => ⟨rfl, rfl⟩, fun w h => by cases h⟩
    | true =>
      cases hw : s.bus.window with
      | none =>
        have e := noteSplit_of_none (s := s.hold) hw
        exact ⟨congrArg (·.bus.faultReported) e, fun _ => ⟨(congrArg (·.bus.window) e).trans hw, congrArg (·.cage) e⟩,
          fun w _ h => by cases h⟩
      | some w =>
        have e := noteSplit_of_window (s := s.hold) hw
        refine ⟨congrArg (·.bus.faultReported) e, fun h => ?_, fun v _ h => ?_⟩
        · rcases h with h | h <;> cases h
        · cases h; exact ⟨congrArg (·.bus.window) e, congrArg (·.cage.split) e⟩
  case judged =>
    intro k
    show (_ → (State.settle s).path.chans[k] = _) ∧ _
    rw [← Path.writing_iff]
    rw [t]; dsimp only; rw [chans k]
    refine ⟨fun writes => by rw [writes, Path.judgedChan_busy], fun idle => ?_⟩
    rw [Bool.not_eq_true] at idle
    rw [idle]; exact Path.judgedTo_judgedChan _
  case attended => rw [t]; exact Path.settle_attended s.env s.path
  case still =>
    intro h
    rw [t]; dsimp only; rw [Path.settle_att]
    have same := Path.judgeAll_of_still s.env s.path fun k => (h k).imp_right (Path.writing_iff _ k).mpr
    unfold Path.judgeAll at same; rw [same]; rfl
  case memory => rw [t]; exact (Path.settle_blurs s.env s.path).reads
  case holding => rw [t]; exact holding
  case abandoned => rw [t]; exact abandoned
  case granted => rw [t]; exact granted
  case free => rw [t]; exact free

end Sys2Proof.Machine
end

section
/-!
SUPPORT. Noninterference: what the cage side leaves of the capture side, what the lines and the delivery engine leave of
the cage side, and what the channel commands leave of the rest. One relation for each, closed under composition, and one
lemma for each operation.
-/
namespace Sys2Proof.Machine

/-! ## The record path under the channel commands -/

namespace Path

theorem offer_leaves (e : Env) (c : Chan) (r : Record) (p : Path) : Leaves p (offer e c r p) :=
  ⟨offer_merge e c r p, offer_arb e c r p, offer_lowWater e c r p, offer_draws e c r p, (offer_moves e c r p).enables⟩

/-- Going from `p` to `q` changes the channels, but for what is queued and tallied, the writer, the attention logic, but
for the enable set, and what is known of the bytes under a write in flight; nothing else. -/
structure Tends (p q : Path) : Prop where
  store : q.store = p.store
  merge : q.merge = p.merge
  arb : q.arb = p.arb
  draws : q.draws = p.draws
  enables : q.att.enables = p.att.enables
  queues : ∀ k : Chan, (q.chans[k]).queue = (p.chans[k]).queue ∧ (q.chans[k]).tally = (p.chans[k]).tally
  blurs : Blurs p q

theorem Tends.refl (p : Path) : Tends p p := ⟨rfl, rfl, rfl, rfl, rfl, fun _ => ⟨rfl, rfl⟩, .refl p⟩

theorem Tends.trans {p q r : Path} (h : Tends p q) (k : Tends q r) : Tends p r :=
  ⟨k.store.trans h.store, k.merge.trans h.merge, k.arb.trans h.arb, k.draws.trans h.draws, k.enables.trans h.enables,
    fun c => ⟨(k.queues c).1.trans (h.queues c).1, (k.queues c).2.trans (h.queues c).2⟩, h.blurs.trans k.blurs⟩

theorem Tends.path_eq {p q : Path} (h : Tends p q) :
    q = { p with chans := q.chans, writer := q.writer, att := q.att, mem := q.mem } :=
  eq_of_delivery h.store h.merge h.arb h.draws

/-- A change of one channel that leaves its queue and its tally. -/
theorem modChan_tends (c : Chan) (f : Channel → Channel) (p : Path) (queue : (f p.chans[c]).queue = (p.chans[c]).queue)
    (tally : (f p.chans[c]).tally = (p.chans[c]).tally) : Tends p (modChan c f p) := by
  refine ⟨rfl, rfl, rfl, rfl, rfl, fun k => ?_, modChan_blurs c f p⟩
  rw [modChan_get]; split
  · rename_i h; subst h; exact ⟨queue, tally⟩
  · exact ⟨rfl, rfl⟩

theorem trySend_tends (e : Env) (p : Path) : Tends p (trySend e p) :=
  ⟨trySend_store e p, trySend_merge e p, trySend_arb e p, trySend_draws e p, trySend_att_enables e p,
    fun k => by rw [trySend_chans]; exact ⟨rfl, rfl⟩, trySend_blurs e p⟩

theorem close_tends (e : Env) (c : Chan) (r : ClosureReason) (p : Path) : Tends p (close e c r p) := by
  refine ⟨close_store e c r p, close_merge e c r p, close_arb e c r p, close_draws e c r p, close_att_enables e c r p,
    fun k => ?_, close_blurs e c r p⟩
  rw [close_get]; split
  · rename_i h; subst h
    obtain ⟨queue, tally, _⟩ := shut_fixed r p.chans[k]
    exact ⟨queue, tally⟩
  · exact ⟨rfl, rfl⟩

theorem judgedChan_tally (w : Bool) (ch : Channel) : (judgedChan w ch).tally = ch.tally := (judgedChan_fixed w ch).2.1

theorem serve_tends (e : Env) (p : Path) : Tends p (serve e p) :=
  ⟨serve_store e p, serve_merge e p, serve_arb e p, serve_draws e p, serve_att_enables e p,
    fun k => by rw [serve_get]; exact ⟨judgedChan_queue _ _, judgedChan_tally _ _⟩, serve_blurs e p⟩

theorem judgeEnded_tends (e : Env) (c : Chan) (p : Path) : Tends p (judgeEnded e c p) := by
  refine ⟨judgeEnded_store e c p, judgeEnded_merge e c p, judgeEnded_arb e c p, judgeEnded_draws e c p,
    judgeEnded_att_enables e c p, fun k => ?_, judgeEnded_blurs e c p⟩
  rw [judgeEnded_get]; split
  · rename_i h; rw [h.1]; exact ⟨judgedChan_queue _ _, judgedChan_tally _ _⟩
  · exact ⟨rfl, rfl⟩

theorem revoke_tends (e : Env) (c : Chan) (p : Path) : Tends p (revoke e c p) :=
  ⟨revoke_store e c p, revoke_merge e c p, revoke_arb e c p, revoke_draws e c p, by rw [revoke_att],
    fun k => by rw [revoke_chans]; exact ⟨rfl, rfl⟩, revoke_blurs e c p⟩

theorem waitingClosure_tends (e : Env) (c : Chan) (p : Path) : Tends p (waitingClosure e c p) := by
  refine ⟨waitingClosure_store e c p, waitingClosure_merge e c p, waitingClosure_arb e c p, waitingClosure_draws e c p,
    waitingClosure_att_enables e c p, fun k => ?_, waitingClosure_blurs e c p⟩
  rw [waitingClosure_get]; split
  · rename_i h; subst h
    obtain ⟨queue, tally, _⟩ := waitedChan_fixed p.chans[k]
    exact ⟨queue, tally⟩
  · exact ⟨rfl, rfl⟩

theorem startIdle_tends (e : Env) (c : Chan) (p : Path) : Tends p (startIdle e c p) := modChan_tends c _ p rfl rfl

theorem stopNow_tends (e : Env) (c : Chan) (p : Path) : Tends p (stopNow e c p) := by
  unfold stopNow; dsimp only
  split
  · exact (close_tends e c .stop p).trans (modChan_tends c _ _ rfl rfl)
  · exact modChan_tends c _ p rfl rfl

theorem flushNow_tends (e : Env) (c : Chan) (p : Path) : Tends p (flushNow e c p).1 := by
  unfold flushNow; dsimp only
  split
  · exact modChan_tends c _ p rfl rfl
  · split
    · exact (modChan_tends c _ p rfl rfl).trans (close_tends e c .flush _)
    · exact modChan_tends c _ p rfl rfl

theorem enterRun_tends (e : Env) (c : Chan) (p : Path) : Tends p (enterRun e c p) :=
  ((modChan_tends c _ p rfl rfl).trans (startIdle_tends e c _)).trans (serve_tends e _)

theorem startChan_tends (e : Env) (c : Chan) (p : Path) : Tends p (startChan e c p).1 := by
  unfold startChan
  split
  · exact enterRun_tends e c p
  · exact enterRun_tends e c p
  · split
    · exact .refl p
    · obtain ⟨queue, _, tally⟩ := promote_fixed p.chans[c]
      exact (modChan_tends c promote p queue tally).trans (enterRun_tends e c _)
  · exact .refl p
  · exact .refl p

/-- STOP of a channel in RUN or STALLED (R150). -/
theorem stopChan_tends (e : Env) (c : Chan) (p : Path) : Tends p (stopChan e c p).1 := by
  have pending := modChan_tends c (fun ch => { ch with pendingCmd := some .stop }) p rfl rfl
  have now := (stopNow_tends e c p).trans (revoke_tends e c _)
  unfold stopChan; dsimp only
  split
  · split
    · exact pending
    · exact now
  · split
    · exact pending
    · exact now
  all_goals exact .refl p

/-- FLUSH of a channel in RUN, STALLED or STOPPED (R151). -/
theorem flushChan_tends (e : Env) (c : Chan) (p : Path) : Tends p (flushChan e c p).1 := by
  have pending := modChan_tends c (fun ch => { ch with pendingCmd := some .flush }) p rfl rfl
  have now := ((flushNow_tends e c p).trans (serve_tends e _)).trans (revoke_tends e c _)
  unfold flushChan; dsimp only
  split
  · split
    · exact pending
    · exact now
  · split
    · exact pending
    · exact now
  · split
    · exact pending
    · exact now
  all_goals exact .refl p

theorem postInto_tends (e : Env) (c : Chan) (a n : Nat) (p : Path) : Tends p (postInto e c a n p).1 := by
  unfold postInto; dsimp only
  split
  · exact (modChan_tends c _ p rfl rfl).trans (serve_tends e _)
  · split
    · exact modChan_tends c _ p rfl rfl
    · exact .refl p

theorem post_tends (e : Env) (c : Chan) (a n : Nat) (p : Path) : Tends p (post e c a n p).1 := by
  unfold post
  split
  · exact .refl p
  · exact (judgeEnded_tends e c p).trans (postInto_tends e c a n _)

theorem takeFrom_tends (e : Env) (c : Chan) (p : Path) : Tends p (takeFrom e c p).1 := by
  unfold takeFrom
  split
  · exact .refl p
  · exact ((modChan_tends c _ p rfl rfl).trans (waitingClosure_tends e c _)).trans (serve_tends e _)

theorem take_tends (e : Env) (c : Chan) (p : Path) : Tends p (take e c p).1 :=
  (judgeEnded_tends e c p).trans (takeFrom_tends e c _)

/-! ### The writer under the channel commands (R155; log 18) -/

theorem revoke_writer {e : Env} {c : Chan} {p : Path} (h : ∀ run, p.writer ≠ .granted c run) :
    (revoke e c p).writer = p.writer := by
  unfold revoke
  split
  · rename_i d run hw
    rw [if_neg (fun same : d = c => h run (same ▸ hw))]
  all_goals rfl

@[simp] theorem flushNow_writer (e : Env) (c : Chan) (p : Path) : (flushNow e c p).1.writer = p.writer := by
  unfold flushNow; dsimp only
  split
  · rfl
  · split
    · rw [close_writer]; rfl
    · rfl

@[simp] theorem enterRun_writer (e : Env) (c : Chan) (p : Path) : (enterRun e c p).writer = p.writer := by
  unfold enterRun; rw [serve_writer]; rfl

@[simp] theorem startChan_writer (e : Env) (c : Chan) (p : Path) : (startChan e c p).1.writer = p.writer := by
  unfold startChan
  split
  · exact enterRun_writer e c p
  · exact enterRun_writer e c p
  · split
    · rfl
    · exact enterRun_writer e c _
  all_goals rfl

@[simp] theorem post_writer (e : Env) (c : Chan) (a n : Nat) (p : Path) : (post e c a n p).1.writer = p.writer := by
  unfold post postInto; dsimp only
  split
  · rfl
  · split
    · rw [serve_writer]; exact judgeEnded_writer e c p
    · split
      · exact judgeEnded_writer e c p
      · exact judgeEnded_writer e c p

@[simp] theorem take_writer (e : Env) (c : Chan) (p : Path) : (take e c p).1.writer = p.writer := by
  unfold take takeFrom
  split
  · exact judgeEnded_writer e c p
  · rw [serve_writer, waitingClosure_writer]; exact judgeEnded_writer e c p

theorem stopChan_writer {e : Env} {c : Chan} {p : Path} (h : ∀ run, p.writer ≠ .granted c run) :
    (stopChan e c p).1.writer = p.writer := by
  have now : (revoke e c (stopNow e c p)).writer = p.writer := by
    rw [revoke_writer (by rw [stopNow_writer]; exact h), stopNow_writer]
  unfold stopChan; dsimp only
  split
  · split
    · rfl
    · exact now
  · split
    · rfl
    · exact now
  all_goals rfl

theorem flushChan_writer {e : Env} {c : Chan} {p : Path} (h : ∀ run, p.writer ≠ .granted c run) :
    (flushChan e c p).1.writer = p.writer := by
  have now : (revoke e c (serve e (flushNow e c p).1)).writer = p.writer := by
    rw [revoke_writer (by rw [serve_writer, flushNow_writer]; exact h), serve_writer, flushNow_writer]
  unfold flushChan; dsimp only
  split
  · split
    · rfl
    · exact now
  · split
    · rfl
    · exact now
  · split
    · rfl
    · exact now
  all_goals rfl

end Path

namespace State

theorem answer_cases {s u t : State} (e : answer s u = .next t) : t = s ∨ t = u := by
  unfold answer at e; cases e
  split
  · exact .inl rfl
  · exact .inr rfl

theorem takeCommand_cases (body : State → State) (s : State) :
    takeCommand body s = s ∨ takeCommand body s = body s := by
  unfold takeCommand
  split
  · exact .inl rfl
  · exact .inr rfl

/-- What a command of START to ARM ATTENTION does: the record path `Tends`, and the result and taken registers. -/
structure Commands (s t : State) : Prop where
  eq : t = { s with path := t.path
                    ctl := { s.ctl with result := t.ctl.result, resultIndex := t.ctl.resultIndex,
                                        taken := t.ctl.taken } }
  tends : Path.Tends s.path t.path

theorem Commands.refl (s : State) : Commands s s := ⟨rfl, .refl _⟩

theorem chanCommand_commands (f : Env → Path → Path × ResultCode) (s : State) (h : Path.Tends s.path (f s.env s.path).1) :
    Commands s (chanCommand f s) := ⟨rfl, h⟩

theorem takeClosed_path (c : Chan) (s : State) : (takeClosed c s).path = (Path.take s.env c s.path).1 := by
  unfold takeClosed; dsimp only
  split <;> rfl

theorem takeClosed_commands (c : Chan) (s : State) : Commands s (takeClosed c s) := by
  refine ⟨?_, by rw [takeClosed_path]; exact Path.take_tends _ c _⟩
  unfold takeClosed; dsimp only
  split <;> rfl

theorem armAttention_commands (s : State) : Commands s (armAttention s) := by
  have armed : Path.Tends s.path { s.path with att := { s.path.att with armed := true } } :=
    ⟨rfl, rfl, rfl, rfl, rfl, fun _ => ⟨rfl, rfl⟩, .of_same rfl rfl rfl⟩
  exact ⟨rfl, armed.trans (Path.trySend_tends s.env _)⟩

theorem armAttention_writer (s : State) : (armAttention s).path.writer = s.path.writer :=
  Path.trySend_writer s.env { s.path with att := { s.path.att with armed := true } }

end State

open State in
/-- Settles O10: each command `Tends` the record path, and only STOP and FLUSH can move the writer. -/
theorem channelCommandsKeepTheRest : Obligations.ChannelCommandsKeepTheRest := by
  intro c i s t isCommand e
  have key : ∀ body : State → State, Commands s (body s) →
      ((i ≠ .stopChannel c ∧ i ≠ .flushChannel c) ∨ (∀ run, s.path.writer ≠ .granted c run) →
        (body s).path.writer = s.path.writer) →
      exec i s = answer s (takeCommand body s) → Commands s t
        ∧ ((i ≠ .stopChannel c ∧ i ≠ .flushChannel c) ∨ (∀ run, s.path.writer ≠ .granted c run) →
            t.path.writer = s.path.writer) := by
    intro body commands writer hb
    rcases answer_cases (hb ▸ e) with rfl | rfl
    · exact ⟨.refl _, fun _ => rfl⟩
    · rcases takeCommand_cases body s with h | h <;> rw [h]
      · exact ⟨.refl _, fun _ => rfl⟩
      · exact ⟨commands, writer⟩
  have both : Commands s t ∧ ((i ≠ .stopChannel c ∧ i ≠ .flushChannel c) ∨ (∀ run, s.path.writer ≠ .granted c run) →
      t.path.writer = s.path.writer) := by
    rcases isCommand with rfl | rfl | rfl | rfl | rfl | rfl
    · exact key (State.startChannel c) (chanCommand_commands _ s (Path.startChan_tends _ c _))
        (fun _ => Path.startChan_writer s.env c s.path) rfl
    · exact key (State.stopChannel c) (chanCommand_commands _ s (Path.stopChan_tends _ c _))
        (fun h => Path.stopChan_writer (e := s.env) (h.resolve_left fun h => h.1 rfl)) rfl
    · exact key (State.flushChannel c) (chanCommand_commands _ s (Path.flushChan_tends _ c _))
        (fun h => Path.flushChan_writer (e := s.env) (h.resolve_left fun h => h.2 rfl)) rfl
    · exact key (State.postBuffer c)
        (chanCommand_commands _ s (Path.post_tends _ c _ _ _)) (fun _ => Path.post_writer s.env c _ _ s.path) rfl
    · exact key _ (takeClosed_commands c s)
        (fun _ => (congrArg Path.writer (takeClosed_path c s)).trans (Path.take_writer s.env c s.path)) rfl
    · exact key _ (armAttention_commands s) (fun _ => armAttention_writer s) rfl
  obtain ⟨⟨eq, tends⟩, writer⟩ := both
  refine ⟨?_, writer, tends.enables, tends.queues, tends.blurs.reads⟩
  rw [← tends.path_eq]; exact eq

/-! ## The lines and the delivery engine leave the cage side -/

namespace State

/-- The cage side, the settings, the control window and the enable set stay. -/
structure KeepsCage (s t : State) : Prop where
  tb : t.tb = s.tb
  bus : t.bus = s.bus
  sc : t.sc = s.sc
  roster : t.roster = s.roster
  cage : t.cage = s.cage
  settings : t.settings = s.settings
  resetLow : t.resetLow = s.resetLow
  ctl : t.ctl = s.ctl
  enables : t.path.att.enables = s.path.att.enables

theorem KeepsCage.refl (s : State) : KeepsCage s s := ⟨rfl, rfl, rfl, rfl, rfl, rfl, rfl, rfl, rfl⟩

theorem KeepsCage.trans {s t u : State} (h : KeepsCage s t) (k : KeepsCage t u) : KeepsCage s u :=
  ⟨k.tb.trans h.tb, k.bus.trans h.bus, k.sc.trans h.sc, k.roster.trans h.roster, k.cage.trans h.cage,
    k.settings.trans h.settings, k.resetLow.trans h.resetLow, k.ctl.trans h.ctl, k.enables.trans h.enables⟩

theorem modPath_keepsCage (f : Env → Path → Path) (s : State)
    (h : (f s.env s.path).att.enables = s.path.att.enables) : KeepsCage s (modPath f s) :=
  ⟨rfl, rfl, rfl, rfl, rfl, rfl, rfl, rfl, h⟩

/-- A change of the lines, of LOS sampling and of the number of free values drawn. -/
theorem lines_keepsCage (L : Vector LinePort 8) (k : Option Nat) (n : Nat) (s : State) :
    KeepsCage s { s with lines := L, losPhase := k, path := { s.path with draws := n } } :=
  ⟨rfl, rfl, rfl, rfl, rfl, rfl, rfl, rfl, rfl⟩

theorem modLine_keepsCage (l : Line) (f : LinePort → LinePort) (s : State) : KeepsCage s (modLine l f s) :=
  ⟨rfl, rfl, rfl, rfl, rfl, rfl, rfl, rfl, rfl⟩

theorem modLineCounters_keepsCage (l : Line) (f : LineCounters → LineCounters) (s : State) :
    KeepsCage s (modLineCounters l f s) := ⟨rfl, rfl, rfl, rfl, rfl, rfl, rfl, rfl, rfl⟩

theorem setFrame_keepsCage (l : Line) (f : PortFrame) (s : State) : KeepsCage s (setFrame l f s) :=
  modLine_keepsCage l _ s

theorem served_keepsCage (s : State) : KeepsCage s (served s) := modPath_keepsCage _ s (Path.serve_att_enables _ _)

theorem dropFrame_keepsCage (l : Line) (n : Nat) (s : State) :
    KeepsCage s (modPath (fun e => Path.dropFrame e l n) s) :=
  modPath_keepsCage _ s (Path.dropFrame_moves _ l n _).enables

theorem changeLine_keepsCage (l : Line) (new : LineState) (r : LineReason) (n : Nat) (s : State) :
    KeepsCage s (changeLine l new r n s) :=
  (modLine_keepsCage l _ s).trans (modPath_keepsCage _ _ (lineEffects_moves ..).enables)

theorem abortFrame_keepsCage (l : Line) (s : State) : KeepsCage s (abortFrame l s) := by
  unfold abortFrame
  split
  · exact .refl s
  · exact modLine_keepsCage l _ s
  · exact ((modLine_keepsCage l _ s).trans (modLineCounters_keepsCage l _ _)).trans (dropFrame_keepsCage l _ _)

theorem goDown_keepsCage (l : Line) (r : LineReason) (s : State) : KeepsCage s (goDown l r s) := by
  have down := ((abortFrame_keepsCage l s).trans (modLine_keepsCage l (fun p => { p with epochErrors := 0 }) _)).trans
    (changeLine_keepsCage l .down r 0 _)
  unfold goDown
  split
  · exact .refl s
  · exact .refl s
  all_goals exact down

theorem trySettle_keepsCage (l : Line) (s : State) : KeepsCage s (trySettle l s) := by
  unfold trySettle; dsimp only
  split
  · split
    · exact changeLine_keepsCage l _ _ _ s
    · exact (changeLine_keepsCage l _ _ _ s).trans (modLine_keepsCage l _ _)
  · exact .refl s

theorem losChanged_keepsCage (l : Line) (s : State) : KeepsCage s (losChanged l s) := by
  unfold losChanged
  split
  · exact goDown_keepsCage l _ s
  · exact trySettle_keepsCage l s

theorem foldl_keepsCage {α : Type} (f : State → α → State) (l : List α) (s : State)
    (h : ∀ t a, KeepsCage t (f t a)) : KeepsCage s (l.foldl f s) :=
  foldl_keeps (KeepsCage s) f l s (fun t a _ k => k.trans (h t a)) (.refl s)

theorem losSample_keepsCage (levels : BitVec 8) (s : State) : KeepsCage s (losSample levels s) :=
  (lines_keepsCage _ (some 0) (s.path.draws + 1) s).trans
    (foldl_keepsCage (fun s l => losChanged l s) _ _ fun t l => losChanged_keepsCage l t)

theorem codeErrorAt_keepsCage (l : Line) (s : State) : KeepsCage s (codeErrorAt l s) := by
  unfold codeErrorAt
  split
  · exact .refl s
  · exact modLine_keepsCage l _ s

theorem frameStartAt_keepsCage (l : Line) (s : State) : KeepsCage s (frameStartAt l s) := by
  have skipped := fun f => (modLineCounters_keepsCage l f s).trans
    (modLine_keepsCage l (fun p => { p with reception := .skipping }) _)
  have captured : KeepsCage s (modPath (fun e p => Path.enterInFlight l e.now (Path.grantBlock p))
      (modLine l (fun q => { q with reception := .capturing (newFrame s.stamp (q.state == .degraded)) }) s)) :=
    (modLine_keepsCage l _ s).trans (modPath_keepsCage _ _ rfl)
  unfold frameStartAt; dsimp only
  split
  · exact .refl s
  · exact .refl s
  · split
    · exact .refl s
    · exact skipped _
    · exact skipped _
    all_goals
      split
      · exact captured
      · exact skipped _

theorem storeByte_keepsCage (l : Line) (f : PortFrame) (b : Byte) (s : State) : KeepsCage s (storeByte l f b s) := by
  unfold storeByte; dsimp only
  split
  · exact setFrame_keepsCage l _ s
  · split
    · split
      · exact (modPath_keepsCage (fun _ => Path.grantBlock) s rfl).trans (setFrame_keepsCage l _ _)
      · exact (setFrame_keepsCage l _ s).trans (modLineCounters_keepsCage l _ _)
    · exact setFrame_keepsCage l _ s

theorem endOversize_keepsCage (l : Line) (f : PortFrame) (s : State) : KeepsCage s (endOversize l f s) :=
  ((modLine_keepsCage l _ s).trans (modLineCounters_keepsCage l _ _)).trans (dropFrame_keepsCage l _ _)

theorem takeByte_keepsCage (l : Line) (f : PortFrame) (b : Byte) (s : State) : KeepsCage s (takeByte l f b s) := by
  unfold takeByte; dsimp only
  split
  · split
    · have stored := (lines_keepsCage s.lines s.losPhase (s.path.draws + 1) s).trans (storeByte_keepsCage l f b _)
      split
      · exact stored.trans (endOversize_keepsCage l _ _)
      · exact stored
      · exact stored
    · exact endOversize_keepsCage l f s
  · exact storeByte_keepsCage l f b s

theorem feed_keepsCage (l : Line) (bytes : List Byte) (s : State) : KeepsCage s (feed l bytes s) := by
  induction bytes generalizing s with
  | nil => exact .refl s
  | cons b bs ih =>
    unfold feed
    split
    · exact (takeByte_keepsCage l _ b s).trans (ih _)
    · exact .refl s
    · exact .refl s

theorem goodFrame_keepsCage (l : Line) (f : PortFrame) (s : State) : KeepsCage s (goodFrame l f s) := by
  have captured := modLineCounters_keepsCage l (fun k => { k with captured := countUp k.captured }) s
  unfold goodFrame; dsimp only
  split
  · rename_i r _
    have returned := captured.trans (modPath_keepsCage (fun _ => Path.returnBlocks (f.blocks - r.blocks)) _ rfl)
    have arrived := fun t => modPath_keepsCage (fun e => Path.arrive e r) t (Path.arrive_moves _ r _).enables
    split
    · exact (returned.trans (modLineCounters_keepsCage l _ _)).trans (arrived _)
    · exact returned.trans (arrived _)
  · exact (captured.trans (modLineCounters_keepsCage l _ _)).trans (dropFrame_keepsCage l _ _)

theorem frameEndAt_keepsCage (l : Line) (clean : Bool) (s : State) : KeepsCage s (frameEndAt l clean s) := by
  have idle := modLine_keepsCage l (fun p => { p with reception := .idle }) s
  unfold frameEndAt; dsimp only
  split
  · exact .refl s
  · exact idle
  · split
    · exact (idle.trans (modLineCounters_keepsCage l _ _)).trans (dropFrame_keepsCage l _ _)
    · split
      · exact (idle.trans (modLineCounters_keepsCage l _ _)).trans (dropFrame_keepsCage l _ _)
      · exact idle.trans (goodFrame_keepsCage l _ _)

theorem gapDeclaration_keepsCage (st : Stream) (s : State) :
    KeepsCage s (modPath (fun e p => Path.serve e (Path.declareWindow e st (p.raiseTime (Path.horizon e.now p)))) s) :=
  modPath_keepsCage _ s
    ((Path.serve_att_enables _ _).trans (Path.declareWindow_moves _ st _).enables)

theorem ifDue_keepsCage {c : Prop} [Decidable c] {s t : State} (h : KeepsCage s t) :
    KeepsCage s (if c then t else s) := by
  split
  · exact h
  · exact .refl s

theorem answer_keepsCage {s u t : State} (h : KeepsCage s u) (e : answer s u = .next t) : KeepsCage s t := by
  rcases answer_cases e with rfl | rfl
  · exact .refl _
  · exact h

/-- Every command of the line family leaves the cage side. -/
theorem line_keepsCage {i : Instr} (h : i.family = .line) {s t : State} (e : exec i s = .next t) : KeepsCage s t := by
  cases i with
  | losSample levels =>
    exact answer_keepsCage (ifDue_keepsCage ((losSample_keepsCage levels s).trans (served_keepsCage _))) e
  | receiverAligned l =>
    exact answer_keepsCage (((modLine_keepsCage l _ s).trans (trySettle_keepsCage l _)).trans (served_keepsCage _)) e
  | receiverNotAligned l =>
    exact answer_keepsCage (((modLine_keepsCage l _ s).trans (goDown_keepsCage l _ _)).trans (served_keepsCage _)) e
  | settleTimeout l =>
    exact answer_keepsCage (ifDue_keepsCage ((changeLine_keepsCage l _ _ _ s).trans (served_keepsCage _))) e
  | codeError l => exact answer_keepsCage (codeErrorAt_keepsCage l s) e
  | frameStart l => exact answer_keepsCage (frameStartAt_keepsCage l s) e
  | furtherBlockRequest l bytes => exact answer_keepsCage ((feed_keepsCage l bytes s).trans (served_keepsCage _)) e
  | oversize l bytes => exact answer_keepsCage ((feed_keepsCage l bytes s).trans (served_keepsCage _)) e
  | frameEnd l bytes clean =>
    exact answer_keepsCage (((feed_keepsCage l bytes s).trans (frameEndAt_keepsCage l clean _)).trans
      (served_keepsCage _)) e
  | gapDeclaration st => exact answer_keepsCage (gapDeclaration_keepsCage st s) e
  | _ => cases h

/-- What the delivery family changes: the record path, but for what `Leaves` names, and the result of a STOP or FLUSH
that waited. -/
structure Delivers (s t : State) : Prop where
  eq : t = { s with path := t.path
                    ctl := { s.ctl with result := t.ctl.result, resultIndex := t.ctl.resultIndex } }
  leaves : Path.Leaves s.path t.path

theorem complete_delivers {f : Env → Path → Path × Option ResultCode} {s : State}
    (h : Path.Leaves s.path (f s.env s.path).1) : Delivers s (complete f s) := by
  unfold complete; dsimp only
  split
  · exact ⟨rfl, h⟩
  · exact ⟨rfl, h⟩

theorem answer_delivers {s u t : State} (h : Delivers s u) (e : answer s u = .next t) : Delivers s t := by
  rcases answer_cases e with rfl | rfl
  · exact ⟨rfl, .refl _⟩
  · exact h

theorem delivery_delivers {i : Instr} (h : i.family = .delivery) {s t : State} (e : exec i s = .next t) :
    Delivers s t := by
  cases i with
  | writeCompleteGood => exact answer_delivers (complete_delivers (Path.completeGood_leaves _ _)) e
  | writeCompleteFailed => exact answer_delivers (complete_delivers (Path.completeFailed_leaves _ _)) e
  | abandonedWriteComplete => exact answer_delivers ⟨rfl, Path.completeAbandoned_leaves _ _⟩ e
  | idleFlushExpiry c => exact answer_delivers ⟨rfl, Path.idleExpire_leaves _ c _⟩ e
  | _ => cases h

end State

open State in
/-- Settles O8: `KeepsCage` for the line family, `Delivers` for the delivery family. -/
theorem captureSideKeepsTheCageSide : Obligations.CaptureSideKeepsTheCageSide := by
  rintro i s t (line | delivery) e
  · have k := line_keepsCage line e
    refine ⟨k.tb, k.bus, k.sc, k.roster, k.cage, k.settings, k.resetLow, by rw [k.ctl], k.enables, fun _ => k.ctl,
      fun h => ?_⟩
    rw [line] at h; cases h
  · obtain ⟨eq, leaves⟩ := delivery_delivers delivery e
    refine ⟨by rw [eq], by rw [eq], by rw [eq], by rw [eq], by rw [eq], by rw [eq], by rw [eq], by rw [eq],
      leaves.enables, fun h => ?_, fun _ => ⟨by rw [eq], by rw [eq], leaves.merge, leaves.arb, leaves.lowWater⟩⟩
    rw [delivery] at h; cases h

/-! ## The cage side leaves the capture side -/

namespace State

/-- The settings, the control window, LOS sampling, the merge and the enable set stay. -/
structure Apart (s t : State) : Prop where
  settings : t.settings = s.settings
  ctl : t.ctl = s.ctl
  resetLow : t.resetLow = s.resetLow
  losPhase : t.losPhase = s.losPhase
  merge : t.path.merge = s.path.merge
  enables : t.path.att.enables = s.path.att.enables

/-- `Apart`, and the lines and the arbiter stay: the cage side without an own boundary. -/
structure CageOnly (s t : State) : Prop extends Apart s t where
  lines : t.lines = s.lines
  arb : t.path.arb = s.path.arb

theorem Apart.refl (s : State) : Apart s s := ⟨rfl, rfl, rfl, rfl, rfl, rfl⟩

theorem Apart.trans {s t u : State} (h : Apart s t) (k : Apart t u) : Apart s u :=
  ⟨k.settings.trans h.settings, k.ctl.trans h.ctl, k.resetLow.trans h.resetLow, k.losPhase.trans h.losPhase,
    k.merge.trans h.merge, k.enables.trans h.enables⟩

theorem CageOnly.refl (s : State) : CageOnly s s := ⟨.refl s, rfl, rfl⟩

theorem CageOnly.trans {s t u : State} (h : CageOnly s t) (k : CageOnly t u) : CageOnly s u :=
  ⟨h.toApart.trans k.toApart, k.lines.trans h.lines, k.arb.trans h.arb⟩

/-- A change of the Time Base, the port, the Scale Controller, the roster and the cage counters. -/
theorem cageOnly_fields (tb : TimeBase) (bus : CageBus) (sc : ScaleController) (roster : Vector RosterEntry 16)
    (cage : CageCounters) (s : State) :
    CageOnly s { s with tb := tb, bus := bus, sc := sc, roster := roster, cage := cage } :=
  ⟨⟨rfl, rfl, rfl, rfl, rfl, rfl⟩, rfl, rfl⟩

theorem modPath_cageOnly (f : Env → Path → Path) (s : State) (h : Path.Leaves s.path (f s.env s.path)) :
    CageOnly s (modPath f s) := ⟨⟨rfl, rfl, rfl, rfl, h.merge, h.enables⟩, rfl, h.arb⟩

theorem served_cageOnly (s : State) : CageOnly s (served s) := modPath_cageOnly _ s (Path.serve_leaves _ _)

theorem peerCause_cageOnly (s : State) : CageOnly s (peerCause s) := modPath_cageOnly _ s (Path.setCause_leaves _ _ _)

theorem emitTime_cageOnly (old new : ScaleState) (r : TimeReason) (peer : Nat) (prev : BitVec 48) (s : State) :
    CageOnly s (emitTime old new r peer prev s) :=
  modPath_cageOnly _ s ((Path.offer_leaves _ _ _ _).trans (Path.setCause_leaves _ _ _))

theorem releaseDrive_cageOnly (s : State) : CageOnly s (releaseDrive s) := ⟨⟨rfl, rfl, rfl, rfl, rfl, rfl⟩, rfl, rfl⟩

theorem ifDue_cageOnly {c : Prop} [Decidable c] {s t : State} (h : CageOnly s t) :
    CageOnly s (if c then t else s) := by
  split
  · exact h
  · exact .refl s

theorem dropDrive_cageOnly (s : State) : CageOnly s (dropDrive s) := by
  unfold dropDrive
  split
  · exact .refl s
  · exact releaseDrive_cageOnly s

theorem moveTo_cageOnly (new : ScaleState) (r : TimeReason) (peer : Nat) (prev : BitVec 48) (s : State) :
    CageOnly s (moveTo new r peer prev s) :=
  ((cageOnly_fields s.tb s.bus { s.sc with state := new } s.roster s.cage s).trans (dropDrive_cageOnly _)).trans
    (emitTime_cageOnly ..)

/-- A change of the Scale Controller, the port, the date and the counters, and then a move. -/
theorem moveFrom_cageOnly {s u : State} (h : CageOnly s u) (new : ScaleState) (r : TimeReason) (peer : Nat)
    (prev : BitVec 48) : CageOnly s (moveTo new r peer prev u) := h.trans (moveTo_cageOnly ..)

theorem leaveListen_cageOnly (s : State) : CageOnly s (leaveListen s) := cageOnly_fields s.tb _ s.sc s.roster s.cage s

theorem found_cageOnly (s : State) : CageOnly s (found s) :=
  moveFrom_cageOnly ((cageOnly_fields s.tb s.bus s.sc.clearRuns s.roster s.cage s).trans (leaveListen_cageOnly _)) ..

theorem adopt_cageOnly (j : Station) (n : BitVec 48) (s : State) : CageOnly s (adopt j n s) :=
  moveFrom_cageOnly ((cageOnly_fields { s.tb with epoch := n } s.bus s.sc.clearRuns s.roster s.cage s).trans
    (leaveListen_cageOnly _)) ..

theorem enterHeld_cageOnly (r : TimeReason) (s : State) : CageOnly s (enterHeld r s) :=
  moveFrom_cageOnly (cageOnly_fields s.tb s.bus { s.sc.clearRuns with measuredHeld := false } s.roster
    { s.cage with heldEntries := countUp s.cage.heldEntries } s) ..

theorem takeDriveFault_cageOnly (s : State) : CageOnly s (takeDriveFault s) := ifDue_cageOnly (enterHeld_cageOnly _ s)

theorem renumberTo_cageOnly (j : Station) (n : BitVec 48) (s : State) : CageOnly s (renumberTo j n s) :=
  (cageOnly_fields (s.tb.renumber n) s.bus s.sc s.roster { s.cage with epochClash := countUp s.cage.epochClash } s).trans
    (emitTime_cageOnly ..)

theorem afterMuting_cageOnly (added : Bool) (s : State) : CageOnly s (afterMuting added s) :=
  (dropDrive_cageOnly s).trans (emitTime_cageOnly ..)

theorem profileTest_cageOnly (s : State) : CageOnly s (profileTest s) := by
  have noted := fun sc => cageOnly_fields s.tb s.bus sc s.roster s.cage s
  unfold profileTest; dsimp only
  split
  · exact .refl s
  · exact (noted { s.sc with mutedProfile := _ }).trans (afterMuting_cageOnly _ _)

theorem takeClash_cageOnly (s : State) : CageOnly s (takeClash s) := by
  have counted := fun muted => cageOnly_fields s.tb s.bus { s.sc with
    clashThisEpoch := true, clashCount := min (s.sc.clashCount + 1) 3, mutedClash := muted } s.roster s.cage s
  unfold takeClash; dsimp only
  split
  · exact (counted true).trans (afterMuting_cageOnly _ _)
  · exact counted s.sc.mutedClash

theorem modEntry_cageOnly (j : Station) (f : RosterEntry → RosterEntry) (s : State) : CageOnly s (modEntry j f s) :=
  ⟨⟨rfl, rfl, rfl, rfl, rfl, rfl⟩, rfl, rfl⟩

theorem ageStation_cageOnly (j : Station) (s : State) : CageOnly s (ageStation j s) := by
  unfold ageStation; dsimp only
  split
  · exact (modEntry_cageOnly j _ s).trans (peerCause_cageOnly _)
  · exact modEntry_cageOnly j _ s

theorem foldl_cageOnly {α : Type} (f : State → α → State) (l : List α) (s : State)
    (h : ∀ t a, CageOnly t (f t a)) : CageOnly s (l.foldl f s) :=
  foldl_keeps (CageOnly s) f l s (fun t a _ k => k.trans (h t a)) (.refl s)

theorem silenceAccounting_cageOnly (s : State) : CageOnly s (silenceAccounting s) :=
  foldl_cageOnly (fun s j => ageStation j s) _ s fun t j => ageStation_cageOnly j t

theorem rosterTake_cageOnly (n : NoticeContent) (s : State) : CageOnly s (rosterTake n s) := by
  unfold rosterTake; dsimp only
  split
  · exact modEntry_cageOnly _ _ s
  · exact (modEntry_cageOnly _ _ s).trans (peerCause_cageOnly _)

theorem scaleTake_cageOnly (n : NoticeContent) (s : State) : CageOnly s (scaleTake n s) := by
  unfold scaleTake
  split
  · split
    · exact ifDue_cageOnly (adopt_cageOnly _ _ s)
    · exact ifDue_cageOnly (renumberTo_cageOnly _ _ s)
  · exact .refl s

theorem noteSplit_cageOnly (s : State) : CageOnly s (noteSplit s) := by
  obtain ⟨w, k, eq⟩ := noteSplit_form s
  rw [eq]; exact ⟨⟨rfl, rfl, rfl, rfl, rfl, rfl⟩, rfl, rfl⟩

theorem riseInWindow_cageOnly (s : State) : CageOnly s (riseInWindow s) := by
  obtain ⟨w, k, eq⟩ := riseInWindow_form s
  rw [eq]; exact ⟨⟨rfl, rfl, rfl, rfl, rfl, rfl⟩, rfl, rfl⟩

theorem driveAtExpiry_cageOnly (s : State) : CageOnly s (driveAtExpiry s) := by
  obtain ⟨w, k, eq⟩ := driveAtExpiry_form s
  rw [eq]; exact ⟨⟨rfl, rfl, rfl, rfl, rfl, rfl⟩, rfl, rfl⟩

theorem listenWork_cageOnly (s : State) : CageOnly s (listenWork s) := by
  have counted := cageOnly_fields s.tb s.bus { s.sc with listen := s.sc.listen + 1 } s.roster s.cage s
  unfold listenWork; dsimp only
  split
  · exact counted.trans (found_cageOnly _)
  · exact counted

theorem heldWork_cageOnly (s : State) : CageOnly s (heldWork s) := by
  have leaves := fun r => moveFrom_cageOnly (cageOnly_fields s.tb s.bus s.sc.clearRuns s.roster s.cage s) .align r 0 0
  unfold heldWork
  split
  · exact ifDue_cageOnly (leaves _)
  · split
    · exact .refl s
    · exact leaves _

theorem stateWork_cageOnly (s : State) : CageOnly s (stateWork s) := by
  unfold stateWork
  split
  · exact listenWork_cageOnly s
  · exact heldWork_cageOnly s
  all_goals exact .refl s

theorem scaleWork_cageOnly (s : State) : CageOnly s (scaleWork s) := by
  unfold scaleWork
  split
  · exact .refl s
  · have clash : CageOnly s (clashTest s) := ⟨⟨rfl, rfl, rfl, rfl, rfl, rfl⟩, rfl, rfl⟩
    have phase : ∀ t : State, CageOnly t (clearPhaseSet t) := fun t => ⟨⟨rfl, rfl, rfl, rfl, rfl, rfl⟩, rfl, rfl⟩
    exact ((((clash.trans (silenceAccounting_cageOnly _)).trans (profileTest_cageOnly _)).trans
      (stateWork_cageOnly _)).trans (phase _)).trans (driveAtExpiry_cageOnly _)

/-! ### Own boundaries and what brings one -/

theorem changeLine_apart (l : Line) (new : LineState) (r : LineReason) (n : Nat) (s : State) :
    Apart s (changeLine l new r n s) :=
  ⟨rfl, rfl, rfl, rfl, lineEffects_merge .., (lineEffects_moves ..).enables⟩

theorem errorTest_apart (l : Line) (s : State) : Apart s (errorTest l s) := by
  unfold errorTest
  split
  · exact changeLine_apart l _ _ _ s
  · exact .refl s

theorem boundaryWork_apart {s t : State} {w : State → State} (h : w ∈ boundaryWork s) : Apart t (w t) := by
  unfold boundaryWork at h
  rcases List.mem_append.mp h with h | h
  · split at h
    · cases h
    · rw [List.mem_singleton.mp h]; exact (scaleWork_cageOnly t).toApart
  · obtain ⟨l, _, rfl⟩ := List.mem_map.mp h
    exact errorTest_apart l t

theorem ownBoundary_apart (s : State) : Apart s (ownBoundary s) := by
  unfold ownBoundary; dsimp only
  have start : Apart s { recordExpiry { s with tb := s.tb.boundary s.settings } with
      path := { s.path with draws := s.path.draws + 1 } } := ⟨rfl, rfl, rfl, rfl, rfl, rfl⟩
  have lines : ∀ t : State, Apart t (clearEpochErrors t) := fun t => ⟨rfl, rfl, rfl, rfl, rfl, rfl⟩
  refine Apart.trans ?_ (lines _)
  exact foldl_keeps (Apart s) _ _ _ (fun t w hw k => k.trans (boundaryWork_apart (mem_freeOrder.mp hw))) start

/-- A change of the Time Base and the Scale Controller alone. -/
theorem date_apart (tb : TimeBase) (s : State) : Apart s { s with tb := tb } := ⟨rfl, rfl, rfl, rfl, rfl, rfl⟩

theorem programLength_apart (len : Int) (s : State) : Apart s (programLength len s) := by
  unfold programLength; dsimp only
  split
  · exact (date_apart _ s).trans (ownBoundary_apart _)
  · exact date_apart _ s

theorem setCount_apart (v : Nat) (s : State) : Apart s (setCount v s) := by
  unfold setCount
  split
  · split
    · exact ownBoundary_apart s
    · exact date_apart _ s
  · exact .refl s

theorem phaseSetFrom_apart (pulse : Nat) (s : State) : Apart s (phaseSetFrom pulse s) :=
  (setCount_apart _ s).trans ⟨rfl, rfl, rfl, rfl, rfl, rfl⟩

theorem steer_apart (d : Int) (s : State) : Apart s (steer d s) :=
  (programLength_apart _ s).trans (date_apart _ _)

theorem countGood_cageOnly (d : Int) (s : State) : CageOnly s (countGood d s) := by
  have counted : CageOnly s { s with sc := { s.sc with good := min (s.sc.good + 1) 255 } } :=
    ⟨⟨rfl, rfl, rfl, rfl, rfl, rfl⟩, rfl, rfl⟩
  unfold countGood; dsimp only
  split
  · split
    · exact moveFrom_cageOnly counted ..
    · exact counted
  · exact ⟨⟨rfl, rfl, rfl, rfl, rfl, rfl⟩, rfl, rfl⟩

theorem testOffset_cageOnly (d : Int) (s : State) : CageOnly s (testOffset d s) :=
  ifDue_cageOnly (moveFrom_cageOnly (cageOnly_fields s.tb s.bus { s.sc with good := 0 } s.roster s.cage s) ..)

theorem takeComplete_apart (d : Int) (s : State) : Apart s (takeComplete d s) := by
  have cleared : Apart s { s with sc := { s.sc with voids := 0, noMarkRun := 0 } } := ⟨rfl, rfl, rfl, rfl, rfl, rfl⟩
  have steered := cleared.trans (steer_apart d _)
  unfold takeComplete; dsimp only
  split
  · exact steered.trans (countGood_cageOnly d _).toApart
  · exact steered.trans (testOffset_cageOnly d _).toApart
  · exact ⟨rfl, rfl, rfl, rfl, rfl, rfl⟩
  all_goals exact .refl s

theorem takeVoid_cageOnly (noMark : Bool) (s : State) : CageOnly s (takeVoid noMark s) := by
  have counted := fun run => cageOnly_fields s.tb s.bus { s.sc with
    good := 0, voids := min (s.sc.voids + 1) 255, noMarkRun := run } s.roster s.cage s
  unfold takeVoid; dsimp only
  generalize (if (noMark && s.sc.muted) = true then s.sc.noMarkRun + 1 else 0) = run
  split
  · split
    · exact (counted run).trans (enterHeld_cageOnly _ _)
    · split
      · exact moveFrom_cageOnly (counted run) ..
      · exact counted run
  · exact .refl s

theorem takeStuck_cageOnly (s : State) : CageOnly s (takeStuck s) := ifDue_cageOnly (enterHeld_cageOnly _ s)

theorem takeOutcome_apart (o : Outcome) (s : State) : Apart s (takeOutcome o s) := by
  cases o with
  | stuck => exact (takeStuck_cageOnly s).toApart
  | early | long => exact (takeVoid_cageOnly false s).toApart
  | noMark => exact (takeVoid_cageOnly true s).toApart
  | complete d => exact takeComplete_apart d s

theorem endWindow_cageOnly (o : Outcome) (s : State) : CageOnly s (endWindow o s) :=
  cageOnly_fields s.tb _ s.sc s.roster _ s

theorem windowClose_apart (s : State) : Apart s (windowClose s) := by
  have announced := date_apart { s.tb with closeAnnounced := true } s
  unfold windowClose; dsimp only
  split
  · split
    · exact ((announced.trans (endWindow_cageOnly _ _).toApart).trans (takeOutcome_apart _ _)).trans
        (served_cageOnly _).toApart
    · exact announced
  · exact .refl s

theorem windowOpening_cageOnly (s : State) : CageOnly s (windowOpening s) := by
  unfold windowOpening; dsimp only
  split
  · split
    · exact ⟨⟨rfl, rfl, rfl, rfl, rfl, rfl⟩, rfl, rfl⟩
    · exact ⟨⟨rfl, rfl, rfl, rfl, rfl, rfl⟩, rfl, rfl⟩
  · exact .refl s

theorem driveFault_cageOnly (s : State) : CageOnly s (driveFault s) := by
  have reported := cageOnly_fields s.tb { s.bus with faultReported := true } s.sc s.roster s.cage s
  unfold driveFault
  split
  · exact .refl s
  · exact reported.trans (takeDriveFault_cageOnly _)

theorem riseInWatch_cageOnly (s : State) : CageOnly s (riseInWatch s) := by
  unfold riseInWatch
  split
  · exact ⟨⟨rfl, rfl, rfl, rfl, rfl, rfl⟩, rfl, rfl⟩
  all_goals exact .refl s

theorem markLineRise_cageOnly (s : State) : CageOnly s (markLineRise s) := by
  have pulled : CageOnly s { s with bus := { s.bus with cagePull := true } } := ⟨⟨rfl, rfl, rfl, rfl, rfl, rfl⟩, rfl, rfl⟩
  unfold markLineRise; dsimp only
  split
  · exact pulled
  · exact (pulled.trans (riseInWindow_cageOnly _)).trans (riseInWatch_cageOnly _)

theorem fallInWatch_apart (s : State) : Apart s (fallInWatch s) := by
  unfold fallInWatch
  split
  · have ignores := cageOnly_fields s.tb { s.bus with
      watch := .ignoring s.now, fallRef := some ⟨s.now, .watch⟩, noticeSent := false, lane := BitVec.allOnes 112 }
      s.sc s.roster s.cage s
    exact ignores.toApart.trans (phaseSetFrom_apart _ _)
  all_goals exact .refl s

theorem markLineFall_apart (s : State) : Apart s (markLineFall s) := by
  have port := fun bus => (cageOnly_fields s.tb bus s.sc s.roster s.cage s).toApart
  unfold markLineFall; dsimp only
  split
  · have fell := port ((ceasePull s.bus).lineFell s.now)
    refine Apart.trans (Apart.trans (fell.trans ?_) (fallInWatch_apart _)) (served_cageOnly _).toApart
    split
    · exact (driveFault_cageOnly _).toApart
    · exact .refl _
  · exact port (ceasePull s.bus)

theorem abandonNotice_cageOnly (notice : BitVec 112) (k : Nat) (s : State) : CageOnly s (abandonNotice notice k s) :=
  cageOnly_fields s.tb _ s.sc s.roster s.cage s

theorem noticeSample_cageOnly (released : Bool) (s : State) : CageOnly s (noticeSample released s) := by
  have clashed := fun notice k => (abandonNotice_cageOnly notice k s).trans (cageOnly_fields s.tb
    (abandonNotice notice k s).bus s.sc s.roster { s.cage with slotClash := countUp s.cage.slotClash } _)
  unfold noticeSample
  split
  · exact .refl s
  · dsimp only
    split
    · split
      · exact ((clashed _ _).trans (takeClash_cageOnly _)).trans (served_cageOnly _)
      · split
        · exact ((abandonNotice_cageOnly _ _ s).trans (takeDriveFault_cageOnly _)).trans (served_cageOnly _)
        · exact cageOnly_fields s.tb { s.bus with transmitter := _ } s.sc s.roster s.cage s
    · exact .refl s

theorem noticeSend_cageOnly (act : NoticeAct) (s : State) : CageOnly s (noticeSend act s) := by
  cases act with
  | begin => exact ifDue_cageOnly ⟨⟨rfl, rfl, rfl, rfl, rfl, rfl⟩, rfl, rfl⟩
  | sample released => exact noticeSample_cageOnly released s
  | finish => exact ifDue_cageOnly ⟨⟨rfl, rfl, rfl, rfl, rfl, rfl⟩, rfl, rfl⟩

theorem classifySlot_cageOnly (k : Station) (samples : BitVec 112) (s : State) :
    CageOnly s (classifySlot k samples s) := by
  have counted : ∀ cage : CageCounters, CageOnly s { s with cage := cage } := fun cage =>
    ⟨⟨rfl, rfl, rfl, rfl, rfl, rfl⟩, rfl, rfl⟩
  unfold classifySlot; dsimp only
  split
  · exact .refl s
  · split
    · exact counted _
    · split
      · exact counted _
      · split
        · exact ((rosterTake_cageOnly _ s).trans (scaleTake_cageOnly _ _)).trans (served_cageOnly _)
        · split
          · exact .refl s
          · exact counted _

theorem noticeReceive_cageOnly (others : BitVec 112) (s : State) : CageOnly s (noticeReceive others s) := by
  unfold noticeReceive
  split
  · have idle := cageOnly_fields s.tb { s.bus with receiver := none } s.sc s.roster s.cage s
    exact ifDue_cageOnly (idle.trans (classifySlot_cageOnly _ _ _))
  · exact .refl s

theorem answer_apart {s u t : State} (h : Apart s u) (e : answer s u = .next t) : Apart s t := by
  rcases answer_cases e with rfl | rfl
  · exact .refl _
  · exact h

theorem answer_cageOnly {s u t : State} (h : CageOnly s u) (e : answer s u = .next t) : CageOnly s t := by
  rcases answer_cases e with rfl | rfl
  · exact .refl _
  · exact h

theorem pulseWatchRearm_cageOnly (s : State) : CageOnly s (pulseWatchRearm s) :=
  ifDue_cageOnly (cageOnly_fields s.tb { s.bus with watch := .armed } s.sc s.roster s.cage s)

/-- The commands of the cage family that bring no own boundary. -/
theorem cage_cageOnly {i : Instr} (h : i.family = .cage) (h1 : i ≠ .ownBoundary) (h2 : i ≠ .windowClose)
    (h3 : i ≠ .markLineFall) {s t : State} (e : exec i s = .next t) : CageOnly s t := by
  cases i with
  | ownBoundary => exact absurd rfl h1
  | windowClose => exact absurd rfl h2
  | markLineFall => exact absurd rfl h3
  | epoHalfPoint =>
    exact answer_cageOnly (ifDue_cageOnly (cageOnly_fields { s.tb with epo := false } s.bus s.sc s.roster s.cage s)) e
  | windowOpening => exact answer_cageOnly (windowOpening_cageOnly s) e
  | markHoldEnd => exact answer_cageOnly (ifDue_cageOnly (releaseDrive_cageOnly s)) e
  | markLineRise => exact answer_cageOnly (markLineRise_cageOnly s) e
  | pulseWatchRearm => exact answer_cageOnly (pulseWatchRearm_cageOnly s) e
  | noticeSend act => exact answer_cageOnly (noticeSend_cageOnly act s) e
  | noticeReceive samples => exact answer_cageOnly (noticeReceive_cageOnly samples s) e
  | markDriveFault => exact answer_cageOnly (ifDue_cageOnly ((driveFault_cageOnly s).trans (served_cageOnly _))) e
  | _ => cases h

theorem cage_apart {i : Instr} (h : i.family = .cage) {s t : State} (e : exec i s = .next t) : Apart s t := by
  by_cases h1 : i = .ownBoundary
  · subst h1
    rcases answer_cases e with rfl | rfl
    · exact .refl _
    · split
      · exact (ownBoundary_apart s).trans (served_cageOnly _).toApart
      · exact .refl s
  by_cases h2 : i = .windowClose
  · subst h2; exact answer_apart (windowClose_apart s) e
  by_cases h3 : i = .markLineFall
  · subst h3; exact answer_apart (markLineFall_apart s) e
  · exact (cage_cageOnly h h1 h2 h3 e).toApart

end State

open State in
/-- Settles O9: `Apart` for the whole family, `CageOnly` for the commands that bring no own boundary. -/
theorem cageSideKeepsTheControlWindow : Obligations.CageSideKeepsTheControlWindow := by
  intro i s t cage e
  have k := cage_apart cage e
  exact ⟨k.settings, k.ctl, k.resetLow, k.losPhase, k.merge, k.enables, fun h1 h2 h3 =>
    ⟨(cage_cageOnly cage h1 h2 h3 e).lines, (cage_cageOnly cage h1 h2 h3 e).arb⟩⟩

end Sys2Proof.Machine
end

section
/-!
SUPPORT. The control window: settings writes, register accesses, counters, CLEAR COUNTERS, CAPTURE RESET and the
attention message.
-/
namespace Sys2Proof.Machine

namespace State

/-! ## Settings and register writes (R163, R164, R167) -/

theorem settingsValueWrite_unlocked (v : BitVec 64) {s : State} (h : s.ctl.locked = false) :
    settingsValueWrite v s = { s with settings := s.settings.write s.ctl.settingsIndex.toNat v.toNat } := by
  unfold settingsValueWrite; rw [h]; rfl

theorem settingsValueWrite_locked (v : BitVec 64) {s : State} (h : s.ctl.locked = true) :
    settingsValueWrite v s = if s.ctl.result = .pending then s else setResult .refusedLock 0 s := by
  unfold settingsValueWrite; rw [h]; rfl

theorem registerWrite_partial {offset size : Nat} (v : BitVec 64) (s : State) (h : size ≠ 8 ∨ offset % 8 ≠ 0) :
    registerWrite offset size v s = s := if_neg (by omega)

theorem writeRegister_other {offset : Nat} (v : BitVec 64) (s : State)
    (h : offset ∉ [0x010, 0x018, 0x020, 0x028, 0x030, 0x070, 0x080, 0x188]) : writeRegister offset v s = s := by
  simp only [List.mem_cons, List.not_mem_nil, or_false, not_or] at h
  obtain ⟨h1, h2, h3, h4, h5, h6, h7, h8⟩ := h
  unfold writeRegister
  split
  case h_9 => rfl
  all_goals exact absurd rfl ‹_›

theorem registerWrite_other {offset size : Nat} (v : BitVec 64) (s : State)
    (h : offset ∉ [0x010, 0x018, 0x020, 0x028, 0x030, 0x070, 0x080, 0x188]) : registerWrite offset size v s = s := by
  unfold registerWrite
  rw [writeRegister_other v s h, ite_self]

theorem commandBody_other (n : Nat) (c : Chan) : commandBody (n + 12) c = unknownCommand := rfl

end State

open State in
/-- Settles O20: the write is the table's own write, and `Settings.item_write` says what it stores. -/
theorem settingsValueWriteOutcomes : Obligations.SettingsValueWriteOutcomes := by
  intro v s running
  have answers : exec (.settingsValueWrite v) s = .next (settingsValueWrite v s) := answer_of_running _ running
  refine ⟨fun unlocked wf => ⟨_, answers, ?_⟩, fun locked taken => ?_, fun locked pending => ?_⟩
  · rw [settingsValueWrite_unlocked v unlocked]
    exact ⟨rfl, Settings.write_wf _ _ _ wf, fun j => Settings.item_write _ _ _ j wf⟩
  · rw [answers, settingsValueWrite_locked v locked, if_neg taken]; rfl
  · rw [answers, settingsValueWrite_locked v locked, if_pos pending]

open State in
/-- Settles O22: the register is named by its offset, and the command by the low byte of what is written. -/
theorem registerWriteReachesItsRegister : Obligations.RegisterWriteReachesItsRegister := by
  intro offset size v s running
  have answers : ∀ offset size, exec (.registerWrite offset size v) s = .next (registerWrite offset size v s) :=
    fun _ _ => answer_of_running _ running
  refine ⟨fun h => ?_, fun h => ?_, answers _ _, answers _ _, answers _ _, answers _ _, answers _ _, rfl, rfl, ?_⟩
  · rw [answers, registerWrite_partial v s h]
  · rw [answers, registerWrite_other v s h]
  · show answer s (takeCommand (commandBody (v.toNat % 256) (Fin.ofNat 4 (v.toNat / 256))) s) = _
    dsimp only
    generalize v.toNat % 256 = n, (Fin.ofNat 4 (v.toNat / 256) : Chan) = c
    by_cases small : n < 12
    · interval_cases n <;> rfl
    · obtain ⟨m, rfl⟩ := Nat.exists_eq_add_of_le' (Nat.not_lt.mp small)
      rfl

/-! ## Reads (R163, R164, R166, R173) -/

namespace State

theorem readBytes_length (offset size : Nat) (s : State) : (s.readBytes offset size).length = size := by
  unfold readBytes; rw [List.length_map, List.length_range]

theorem readBytes_get (offset : Nat) {size k : Nat} (s : State) (h : k < size) :
    (s.readBytes offset size)[k]? = some (s.readByte (offset + k)) := by
  unfold readBytes; rw [List.getElem?_map, List.getElem?_range h]; rfl

theorem readWindow_eq (offset size : Nat) (s : State) : readWindow offset size s =
    { s with ctl := { s.ctl with readData := s.readBytes offset size }
             path := { s.path with att := { s.path.att with causes :=
               if offset ≤ 0x180 ∧ 0x180 < offset + size then 0 else s.path.att.causes } } } := by
  unfold readWindow coversCauses
  by_cases h : offset ≤ 0x180 ∧ 0x180 < offset + size
  · rw [decide_eq_true h, if_pos h]; rfl
  · rw [decide_eq_false h, if_neg h]; rfl

/-- The four registers of channel `c` stand in a row (R163). -/
theorem register_chan (c : Chan) (k : Nat) {offset : Nat} (s : State) (h : k < 4)
    (place : offset = 0x100 + 0x20 * c.val + 8 * k) : s.register offset = chanRegister c k s := by
  have chan : (Fin.ofNat 4 ((offset - 0x100) / 0x20) : Chan) = c := Fin.ext (by rw [Fin.val_ofNat]; omega)
  have field : (offset - 0x100) % 0x20 / 8 = k := by omega
  unfold register
  rw [if_pos (by omega), chan, field]

theorem register_none {offset : Nat} (s : State)
    (h : 0x0C0 < offset ∧ offset < 0x100 ∨ 0x190 < offset ∨ offset = 0x068) : s.register offset = 0 := by
  unfold register
  rw [if_neg (by omega)]
  split <;> omega

theorem filterMap_length {α β : Type} (f : α → Option β) (l : List α) :
    (l.filterMap f).length = (l.filter fun x => (f x).isSome).length := by
  rw [List.length_filterMap_eq_countP, List.countP_eq_length_filter]

theorem counter_cage {i : Nat} (h : i < 16) (s : State) : s.counter i = s.cage.nth i := if_pos h

theorem counter_line (l : Line) {i j : Nat} (s : State) (h : i < 16) (place : j = 16 + 16 * l.val + i) :
    s.counter j = ((s.lines[l]).counters).nth i := by
  have line : (Fin.ofNat 8 ((j - 16) / 16) : Line) = l := Fin.ext (by rw [Fin.val_ofNat]; omega)
  have field : (j - 16) % 16 = i := by omega
  unfold counter
  rw [if_neg (by omega), if_pos (by omega)]
  simp only [line, field]

theorem counter_stream (e : Stream) {i j : Nat} (s : State) (h : i < 8) (place : j = 256 + 8 * e.val + i) :
    s.counter j = (s.path.arb.counters[e]).nth i := by
  have stream : (Fin.ofNat 64 ((j - 256) / 8) : Stream) = e := Fin.ext (by rw [Fin.val_ofNat]; omega)
  have field : (j - 256) % 8 = i := by omega
  unfold counter
  rw [if_neg (by omega), if_neg (by omega), if_neg (by omega), if_neg (by omega), if_neg (by omega),
    if_pos (by omega)]
  simp only [stream, field]

theorem counter_chan (c : Chan) {i j : Nat} (s : State) (h : i < 16) (place : j = 768 + 16 * c.val + i) :
    s.counter j = ((s.path.chans[c]).counters).nth i := by
  have chan : (Fin.ofNat 4 ((j - 768) / 16) : Chan) = c := Fin.ext (by rw [Fin.val_ofNat]; omega)
  have field : (j - 768) % 16 = i := by omega
  unfold counter
  rw [if_neg (by omega), if_neg (by omega), if_neg (by omega), if_neg (by omega), if_neg (by omega),
    if_neg (by omega), if_pos (by omega)]
  simp only [chan, field]

theorem writerRegister_eq (s : State) : s.writerRegister = (match s.path.writer with
    | .abandoned _ => 1
    | _ => 0) := by
  unfold writerRegister
  cases s.path.writer <;> rfl

end State

open State in
/-- Settles O23: the bytes are those of `register`, which is read off at each offset; the counters likewise. -/
theorem readsChangeOnlyTheCauses : Obligations.ReadsChangeOnlyTheCauses := by
  refine ⟨fun offset size s running => ⟨readWindow offset size s, answer_of_running _ running, ?_⟩, fun _ => rfl,
    fun s => ?_, fun s => ?_⟩
  · rw [readWindow_eq]
    exact ⟨rfl, readBytes_length offset size s, fun k => readBytes_get offset s, rfl⟩
  · refine ⟨rfl, rfl, rfl, rfl, rfl, rfl, rfl, rfl, rfl, rfl, rfl, rfl, rfl, rfl, rfl, rfl, rfl, rfl, rfl, rfl, rfl,
      rfl, ?_, writerRegister_eq s, fun c => ⟨register_chan c 0 s (by omega) rfl,
      register_chan c 1 s (by omega) (by omega), register_chan c 2 s (by omega) (by omega),
      register_chan c 3 s (by omega) (by omega)⟩, rfl, rfl, rfl, fun offset => register_none s⟩
    show fieldsAt [(0, s.path.inFlightKeys.length), (16, s.path.merge.pending.length)] = _
    unfold Path.inFlightKeys
    rw [filterMap_length]
    simp only [Option.isSome_map]
  · refine ⟨fun i h => ?_, fun l i h => ?_, rfl, rfl, fun e i h => ?_, fun c i h => ?_⟩
    · rw [counter_cage (by omega)]; interval_cases i <;> rfl
    · dsimp only; rw [counter_line l s (by omega) rfl]; interval_cases i <;> rfl
    · dsimp only; rw [counter_stream e s h rfl]; interval_cases i <;> rfl
    · dsimp only; rw [counter_chan c s (by omega) rfl]; interval_cases i <;> rfl

/-! ## CLEAR COUNTERS (R172) -/

namespace Path

theorem judgeAll_eq (e : Env) (p : Path) : judgeAll e p =
    { p with chans := (judgeAll e p).chans, att := (judgeAll e p).att, mem := (judgeAll e p).mem } := by
  have same := eq_of_delivery (p := p) (q := judgeAll e p) (serve_store e p.endNone) (serve_merge e p.endNone)
    (serve_arb e p.endNone) (serve_draws e p.endNone)
  rw [judgeAll_writer] at same
  exact same

end Path

namespace State

theorem clearPathCounters_judgeAll (e : Env) (p : Path) : clearPathCounters (Path.judgeAll e p) =
    { p with store := { p.store with lowWater := p.store.free }
             merge := { p.merge with released := 0, peak := p.merge.pending.length }
             arb := { p.arb with counters := Vector.replicate 64 {} }
             chans := Vector.ofFn fun c : Chan => { (Path.judgeAll e p).chans[c] with counters := {} }
             att := (Path.judgeAll e p).att, mem := (Path.judgeAll e p).mem } := by
  conv_lhs => rw [Path.judgeAll_eq]
  rfl

theorem clearCounters_path (s : State) :
    (clearCounters s).path = clearPathCounters (Path.judgeAll s.env s.path) := rfl

theorem clearCounters_eq (s : State) : clearCounters s =
    { s with cage := {}, lines := (clearCounters s).lines, path := (clearCounters s).path
             ctl := { s.ctl with result := .done, resultIndex := 0 } } := rfl

theorem clearCounters_line (s : State) (l : Line) :
    (clearCounters s).lines[l] = { s.lines[l] with counters := {} } := by
  unfold clearCounters
  rw [setResult_lines, modPath_lines, mapLines_get]

end State

open State in
/-- Settles O24: what `judgeAll` leaves, with every counter at 0. -/
theorem clearCountersClearsCountersOnly : Obligations.ClearCountersClearsCountersOnly := by
  intro s takes
  have path : (clearCounters s).path = _ := (clearCounters_path s).trans (clearPathCounters_judgeAll s.env s.path)
  have streams : ∀ st : Stream, (clearCounters s).path.arb.counters[st] = {} := fun st => by
    rw [path]; exact replicate_get _ st
  have chans : ∀ c : Chan, (clearCounters s).path.chans[c]
      = { (Path.judgeAll s.env s.path).chans[c] with counters := {} } := fun c => by
    rw [path]; exact ofFn_get _ c
  have att : (clearCounters s).path.att = (Path.judgeAll s.env s.path).att := by rw [path]
  have mem : (clearCounters s).path.mem = (Path.judgeAll s.env s.path).mem := by rw [path]
  have flight : (clearCounters s).path.inFlightWrites = (Path.judgeAll s.env s.path).inFlightWrites := by
    unfold Path.inFlightWrites
    rw [att, Path.judgeAll_writer, path]
  refine ⟨clearCounters s, answer_of_takes clearCounters takes, ?_, rfl, clearCounters_line s, streams, fun c => ?_, ?_,
    fun still => ?_, fun a clear => ?_, fun i notPeak => ?_⟩
  · rw [path]; refine (clearCounters_eq s).trans ?_; rw [path]; rfl
  · obtain ⟨busy, judged⟩ := Path.judgeAll_judges s.env c s.path
    refine ⟨fun w => ?_, fun w => ⟨_, judged w, chans c⟩⟩
    rw [chans, busy w]
  · have judged := Path.judgeAll_attended s.env s.path
    refine ⟨fun i h => by rw [att]; exact judged.1 i h, fun k => ?_⟩
    rw [chans, att]; exact judged.2 k
  · rw [att, mem, Path.judgeAll_of_still _ _ still]
    exact ⟨rfl, rfl⟩
  · rw [mem]; exact (Path.judgeAll_blurs s.env s.path).reads a (flight ▸ clear)
  · refine counter_of_blank rfl (fun l => by rw [clearCounters_line]) (by rw [path]) (fun h => absurd h notPeak) streams
      (fun c => by rw [chans])

/-! ## CAPTURE RESET (R171) -/

namespace State

theorem resetPath_inFlightWrites (now : Nat) (q : Path) :
    (resetPath now q).inFlightWrites = q.inFlightWrites := by
  show (Path.resetDelivery q).inFlightWrites = _
  unfold Path.resetDelivery Path.inFlightWrites
  cases q.writer <;> rfl

theorem resetPath_eq (now : Nat) (q : Path) : resetPath now q =
    { resetPath now q with att := q.att, mem := q.mem, draws := q.draws } := rfl

theorem resetPath_writer (now : Nat) (q : Path) : (resetPath now q).writer = (Path.resetDelivery q).writer := rfl

theorem captureReset_unlocked {s : State} (h : s.ctl.locked = false) :
    captureReset s = setResult .refusedLock 0 s := if_pos h

theorem captureReset_locked {s : State} (h : s.ctl.locked = true) :
    captureReset s = setResult .done 0 (captureNow s) := by unfold captureReset; rw [h]; rfl

theorem captureNow_eq (s : State) :
    captureNow s = { s with lines := (captureNow s).lines, path := (captureNow s).path } := rfl

theorem captureNow_line (s : State) (l : Line) : (captureNow s).lines[l] = resetPort s.lines[l] := mapLines_get _ l s

theorem resetPort_of_none {p : LinePort} (h : ∀ f, p.reception ≠ .capturing f) :
    resetPort p = { p with counters := {} } := by
  obtain ⟨_, _, _, _, _, _, _, reception, _⟩ := p
  unfold resetPort
  cases reception with
  | capturing f => exact absurd rfl (h f)
  | idle | skipping => rfl

theorem resetPort_of_capturing {p : LinePort} {f : PortFrame} (h : p.reception = .capturing f) :
    resetPort p = { p with counters := {}, reception := .skipping } := by unfold resetPort; rw [h]

end State

open State in
/-- Settles O25: `q` is what `finishAll` leaves, and the reset acts on it. -/
theorem captureResetEmptiesTheCapturePath : Obligations.CaptureResetEmptiesTheCapturePath := by
  intro s takes
  refine ⟨fun unlocked => ?_, fun locked =>
    ⟨setResult .done 0 (captureNow s), Path.finishAll s.env s.path, ?_, fun k => ?_,
      Path.finishAll_attended s.env s.path, fun still => ?_, fun a clear => ?_, ?_⟩⟩
  · exact (answer_of_takes captureReset takes).trans (by rw [captureReset_unlocked unlocked]; rfl)
  · exact (answer_of_takes captureReset takes).trans (by rw [captureReset_locked locked])
  · rw [Path.finishAll_chans]; exact Path.judgeAll_judges s.env k s.path
  · rw [Path.finishAll_att]
    show (Path.judgeAll s.env s.path).att = _
    rw [Path.judgeAll_of_still _ _ still]; rfl
  · rw [setResult_path, captureNow_path, resetPath_inFlightWrites] at clear
    exact (Path.finishAll_blurs s.env s.path).reads a clear
  have path : (setResult .done 0 (captureNow s)).path = resetPath s.now (Path.finishAll s.env s.path) := by
    rw [setResult_path, captureNow_path]
  have writer : (setResult .done 0 (captureNow s)).path.writer
      = (Path.resetDelivery (Path.finishAll s.env s.path)).writer := by rw [path, resetPath_writer]
  obtain ⟨free, holding, abandoned, granted⟩ := Path.finishAll_rule s.env s.path
  refine ⟨?_, ?_⟩
  · rw [path, ← Path.finishAll_draws s.env s.path, ← resetPath_eq, ← captureNow_path]; rfl
  refine ⟨by rw [path]; rfl, fun l => by rw [path]; exact replicate_get _ l, by rw [path]; rfl, by rw [path]; rfl,
    by rw [path]; rfl, by rw [path]; rfl, by rw [path, ← Path.finishAll_arb s.env s.path]; rfl,
    fun st => by rw [path, ← Path.finishAll_arb s.env s.path]; exact ofFn_get _ st,
    fun st => by rw [path]; exact replicate_get _ st, fun c => by rw [path]; exact replicate_get _ c, fun h => ?_,
    fun c run w h => ?_, fun w h => ?_, fun c run h => ⟨fun req => ?_, fun req => ?_⟩, fun l h => ?_, fun l f h => ?_⟩
  · rw [writer]; unfold Path.resetDelivery; dsimp only; rw [free h]
  · rw [writer]; unfold Path.resetDelivery; dsimp only; rw [holding c run w h]
  · rw [writer]; unfold Path.resetDelivery; dsimp only; rw [abandoned w h]
  · obtain ⟨falls, notEnded⟩ := (granted c run h).1 req
    unfold Path.FallsTo at falls
    rw [notEnded] at falls
    obtain ⟨r, rest, b, queue, current, issued⟩ := falls
    refine ⟨r, rest, b, queue, current, ?_⟩
    rw [writer]; unfold Path.resetDelivery; dsimp only; rw [issued]
  · rw [writer]; unfold Path.resetDelivery; dsimp only; rw [(granted c run h).2 req]
  · rw [setResult_lines, captureNow_line, resetPort_of_none h]
  · rw [setResult_lines, captureNow_line, resetPort_of_capturing h]

/-! ## Attention (R173, R174) -/

namespace Path

/-- The message that the settings give (R174). -/
def messageOf (c : Settings) : LinkWrite := ⟨c.attentionAddr, leBytes 8 c.attentionWord⟩

theorem sendDue_iff (p : Path) : p.sendDue = true ↔ p.att.armed = true ∧ (p.att.causes &&& p.att.enables) ≠ 0 := by
  unfold sendDue; rw [Bool.and_eq_true, bne_iff_ne]

theorem trySend_of_calm {e : Env} {p : Path} (h : p.sendDue = false) : trySend e p = p := by
  unfold trySend; rw [h]; rfl

theorem trySend_att_of_free {e : Env} {p : Path} (due : p.sendDue = true) (free : p.att.message = none) :
    (trySend e p).att = { p.att with armed := false, message := some (messageOf e.cfg) } := by
  unfold trySend; dsimp only; rw [if_pos due, free]; rfl

theorem trySend_att_of_busy {e : Env} {p : Path} (due : p.sendDue = true) (busy : p.att.message ≠ none) :
    (trySend e p).att = { p.att with armed := false, waiting := true } := by
  obtain ⟨w, h⟩ := Option.ne_none_iff_exists'.mp busy
  unfold trySend; dsimp only; rw [if_pos due, h]

theorem trySend_disarms {e : Env} {p : Path} (due : p.sendDue = true) : (trySend e p).att.armed = false := by
  by_cases h : p.att.message = none
  · rw [trySend_att_of_free due h]
  · rw [trySend_att_of_busy due h]

/-- The record path once the write `w` of the message has completed. -/
def messageEnded (good : Bool) (w : LinkWrite) (p : Path) : Path :=
  let p0 := { p with att := { p.att with message := none } }
  let p1 := if good then land w p0 else { p0 with mem := forgetWrite w p0.mem }
  { p1 with att := { p1.att with waiting := false } }

theorem messageEnded_att (good : Bool) (w : LinkWrite) (p : Path) :
    (messageEnded good w p).att = { p.att with message := none, waiting := false } := by cases good <;> rfl

theorem messageComplete_eq {e : Env} {good : Bool} {p : Path} {w : LinkWrite} (h : p.att.message = some w) :
    messageComplete e good p =
      if p.att.waiting then issueMessage e (messageEnded good w p) else messageEnded good w p := by
  unfold messageComplete messageEnded; rw [h]; dsimp only
  cases good <;> cases p.att.waiting <;> rfl

theorem messageComplete_att {e : Env} {good : Bool} {p : Path} {w : LinkWrite} (h : p.att.message = some w) :
    (messageComplete e good p).att = { p.att with
      message := if p.att.waiting then some (messageOf e.cfg) else none, waiting := false } := by
  rw [messageComplete_eq h]
  split
  · show { (messageEnded good w p).att with message := some (messageOf e.cfg) } = _
    rw [messageEnded_att]
  · exact messageEnded_att good w p

theorem messageComplete_blurs {e : Env} {good : Bool} {p : Path} {w : LinkWrite} (h : p.att.message = some w) :
    Blurs (messageEnded good w p) (messageComplete e good p) := by
  rw [messageComplete_eq h]
  split
  · exact issueMessage_blurs e (by rw [messageEnded_att])
  · exact .refl _

theorem messageEnded_read_good (w : LinkWrite) (p : Path) (a : Nat)
    (h : Clear a (messageEnded true w p).inFlightWrites) : Memory.read (messageEnded true w p).mem a
      = if w.addr ≤ a ∧ a < w.addr + w.bytes.length then w.bytes[a - w.addr]? else Memory.read p.mem a :=
  land_read w { p with att := { p.att with message := none } } a h

theorem messageEnded_read_outside (good : Bool) (w : LinkWrite) (p : Path) (a : Nat)
    (out : a < w.addr ∨ w.addr + w.bytes.length ≤ a) (h : Clear a (messageEnded good w p).inFlightWrites) :
    Memory.read (messageEnded good w p).mem a = Memory.read p.mem a := by
  cases good with
  | true => rw [messageEnded_read_good w p a h, if_neg (by omega)]
  | false => exact forgetWrite_read w p.mem a out

end Path

open State in
/-- Settles O26: `trySend` by the sending condition, and the completion by whether a message waits. -/
theorem attentionMessageIsSentAndCompleted : Obligations.AttentionMessageIsSentAndCompleted := by
  intro v good s running
  refine ⟨fun taken => ⟨armAttention s, answer_of_takes armAttention ⟨running, taken⟩, rfl, ?_⟩,
    ⟨writeEnables v s, answer_of_running _ running, rfl, ?_⟩, fun w message =>
    ⟨modPath (fun e => Path.messageComplete e good) s, answer_of_running _ running, ?_⟩⟩
  · generalize armed : ({ s.path with att := { s.path.att with armed := true } } : Path) = p
    have path : (armAttention s).path = Path.trySend s.env p := by rw [← armed]; rfl
    have due := p.sendDue_iff
    rw [path, Path.trySend_att_causes, Path.trySend_att_enables]
    subst armed
    refine ⟨rfl, rfl, fun calm => ?_, fun cause => ?_⟩
    · rw [Path.trySend_of_calm (by rw [Bool.eq_false_iff, ne_eq, due]; exact fun h => h.2 calm)]
      exact ⟨rfl, rfl⟩
    · have sends := due.mpr ⟨rfl, cause⟩
      refine ⟨Path.trySend_disarms sends, fun free => ?_, fun busy => ?_⟩
      · rw [Path.trySend_att_of_free sends free]; exact ⟨rfl, rfl⟩
      · rw [Path.trySend_att_of_busy sends busy]; exact ⟨rfl, rfl⟩
  · generalize enabled : ({ s.path with att := { s.path.att with enables := v.truncate 6 } } : Path) = p
    have path : (writeEnables v s).path = Path.trySend s.env p := by rw [← enabled]; rfl
    have due := p.sendDue_iff
    rw [path, Path.trySend_att_causes, Path.trySend_att_enables]
    subst enabled
    refine ⟨rfl, rfl, fun calm => ?_, fun armed cause => ?_⟩
    · rw [Path.trySend_of_calm (by
        rw [Bool.eq_false_iff, ne_eq, due]
        rintro ⟨armed, cause⟩
        rcases calm with h | h
        · exact absurd (h.symm.trans armed) (by decide)
        · exact cause h)]
      exact ⟨rfl, rfl⟩
    · have sends := due.mpr ⟨armed, cause⟩
      refine ⟨Path.trySend_disarms sends, fun free => ?_, fun busy => ?_⟩
      · rw [Path.trySend_att_of_free sends free]; rfl
      · rw [Path.trySend_att_of_busy sends busy]; exact ⟨rfl, rfl⟩
  · have blurs := Path.messageComplete_blurs (e := s.env) (good := good) message
    rw [modPath_path]
    refine ⟨Path.messageComplete_att message, ?_, fun isGood k inside clear => ?_, fun a out clear => ?_⟩
    · have same := Path.eq_of_delivery (p := s.path) (q := Path.messageComplete s.env good s.path)
        (Path.messageComplete_store _ _ _) (Path.messageComplete_merge _ _ _) (Path.messageComplete_arb _ _ _)
        (Path.messageComplete_draws _ _ _)
      rw [Path.messageComplete_chans, Path.messageComplete_writer] at same
      rw [← same]; rfl
    · subst isGood
      rw [blurs.reads _ clear,
        Path.messageEnded_read_good w s.path _ fun x hx => clear x (blurs.flight x hx), if_pos (by omega),
        Nat.add_sub_cancel_left]
    · rw [blurs.reads a clear,
        Path.messageEnded_read_outside good w s.path a out fun x hx => clear x (blurs.flight x hx)]

end Sys2Proof.Machine
end

section
/-!
SUPPORT. LOCK SETTINGS: the check of each item, the first that fails, and what the lock starts.
-/
namespace Sys2Proof.Machine

namespace Settings

/-! ## The check of each item (R35, R38, R64, R95, R137, R168) -/

theorem within_iff {lo hi v : Nat} : within lo hi v = true ↔ lo ≤ v ∧ v ≤ hi := decide_eq_true_iff

theorem within_zero_iff {hi v : Nat} : within 0 hi v = true ↔ v ≤ hi := by rw [within_iff]; omega

theorem itemOk_epochLen (c : Settings) : c.itemOk 3 = true
    ↔ 100000 ≤ c.item 3 ∧ c.item 3 ≤ 10000000 ∧ 3 * c.item 0 + 43000 ≤ c.item 3 := by
  show (within 100000 10000000 (c.item 3) && decide (3 * c.item 0 + 43000 ≤ c.item 3)) = true ↔ _
  rw [Bool.and_eq_true, within_iff, decide_eq_true_iff, and_assoc]

/-- The items of the lines (R64). -/
theorem itemOk_line (c : Settings) {i : Nat} (lo : 10 ≤ i) (hi : i < 48) : c.itemOk i = c.lineItemOk i := by
  unfold itemOk; rw [if_neg (by omega), if_neg (by omega), if_pos hi]

theorem itemOk_free (c : Settings) {i : Nat} (lo : 10 ≤ i) (hi : i < 42) (field : (i - 10) % 4 = 0 ∨ (i - 10) % 4 = 3) :
    c.itemOk i = true := by
  rw [itemOk_line c lo (by omega)]
  unfold lineItemOk
  rw [if_pos hi]
  rcases field with h | h <;> rw [h] <;> rfl

theorem itemOk_captureLen (c : Settings) {i : Nat} (lo : 10 ≤ i) (hi : i < 42) (field : (i - 10) % 4 = 1) :
    c.itemOk i = true ↔ 64 ≤ c.item i ∧ c.item i ≤ 2048 ∧ c.item i % 64 = 0 := by
  rw [itemOk_line c lo (by omega)]
  unfold lineItemOk
  rw [if_pos hi, field]
  show (within 64 2048 (c.item i) && c.item i % 64 == 0) = true ↔ _
  rw [Bool.and_eq_true, within_iff, beq_iff_eq, and_assoc]

theorem itemOk_ceiling (c : Settings) {i : Nat} (lo : 10 ≤ i) (hi : i < 42) (field : (i - 10) % 4 = 2) :
    c.itemOk i = true ↔ 1518 ≤ c.item i ∧ c.item i ≤ 9600 := by
  rw [itemOk_line c lo (by omega)]
  unfold lineItemOk
  rw [if_pos hi, field]
  exact within_iff

/-- Field `k` of entry `e` is item `48 + 11 * e + k`. -/
theorem streamItemOk_field (c : Settings) (e : Stream) {i k : Nat} (h : k < 11) (place : i = 48 + 11 * e.val + k) :
    c.itemOk i = c.streamItemOk i ∧ (Fin.ofNat 64 ((i - 48) / 11) : Stream) = e ∧ (i - 48) % 11 = k := by
  refine ⟨?_, Fin.ext (by rw [Fin.val_ofNat]; omega), by omega⟩
  unfold itemOk
  rw [if_neg (by omega), if_neg (by omega), if_neg (by omega), if_pos (by omega)]

theorem itemOk_streamFree (c : Settings) (e : Stream) {i k : Nat} (h : k ∈ [0, 1, 2, 3, 6, 7, 10])
    (place : i = 48 + 11 * e.val + k) : c.itemOk i = true := by
  have small : k < 11 := by revert k; simp
  obtain ⟨owner, _, field⟩ := c.streamItemOk_field e small place
  rw [owner]
  unfold streamItemOk
  dsimp only
  rw [field]
  simp only [List.mem_cons, List.not_mem_nil, or_false] at h
  rcases h with rfl | rfl | rfl | rfl | rfl | rfl | rfl <;> exact Bool.or_true _

theorem itemOk_invalid (c : Settings) (e : Stream) {i k : Nat} (h : k < 11) (place : i = 48 + 11 * e.val + k)
    (invalid : c.item (48 + 11 * e.val) ≠ 1) : c.itemOk i = true := by
  obtain ⟨owner, stream, _⟩ := c.streamItemOk_field e h place
  have no : c.valid e = false := beq_eq_false_iff_ne.mpr invalid
  rw [owner]
  unfold streamItemOk
  dsimp only
  rw [stream, no]
  rfl

/-- The check of field `k` of a valid entry (R95). -/
def streamFieldOk (c : Settings) (e : Stream) (k : Nat) : Bool :=
  match k with
  | 4 => within 0 255 (c.seqOffset e)
  | 5 => c.seqWidth e == 0 || c.seqWidth e == 2 || c.seqWidth e == 4 || c.seqWidth e == 8
  | 8 => within 0 3 (c.entry e 8)
  | 9 => within 0 2048 (c.snapLen e)
      && allLines.all fun l => !c.inLineSet e l || decide (c.snapLen e ≤ c.captureLen l)
  | _ => true

theorem streamItemOk_valid (c : Settings) (e : Stream) {i k : Nat} (h : k < 11) (place : i = 48 + 11 * e.val + k)
    (valid : c.item (48 + 11 * e.val) = 1) : c.itemOk i = c.streamFieldOk e k := by
  obtain ⟨owner, stream, field⟩ := c.streamItemOk_field e h place
  have yes : c.valid e = true := beq_iff_eq.mpr valid
  rw [owner]
  unfold streamItemOk
  dsimp only
  rw [stream, field, yes]
  rfl

theorem itemOk_channel (c : Settings) {i : Nat} (lo : 752 ≤ i) (hi : i < 764) :
    c.itemOk i = if (i - 752) % 3 = 1 then within 1 16 (c.item i) else true := by
  unfold itemOk channelItemOk
  rw [if_neg (by omega), if_neg (by omega), if_neg (by omega), if_neg (by omega), if_pos (by omega),
    if_neg (by omega)]

theorem itemOk_attention (c : Settings) : c.itemOk 765 = true ↔ c.item 765 % 8 = 0 := beq_iff_eq

/-! ## The first item that fails (R168) -/

theorem firstBad_some {c : Settings} {i : Nat} (h : i < itemCount) (bad : c.itemOk i = false)
    (before : ∀ j, j < i → c.itemOk j = true) : c.firstBad = some i := by
  unfold firstBad
  rw [List.find?_range_eq_some]
  exact ⟨by rw [bad]; rfl, List.mem_range.mpr h, fun j hj => by rw [before j hj]; rfl⟩

theorem firstBad_none {c : Settings} (h : ∀ i, i < itemCount → c.itemOk i = true) : c.firstBad = none := by
  unfold firstBad
  rw [List.find?_range_eq_none]
  exact fun i hi => by rw [h i hi]; rfl

end Settings

theorem allStreams_nodup : allStreams.Nodup := List.nodup_finRange 64

namespace Path

/-! ## The arbiter at the lock (R117, R118) -/

theorem foldl_modWindow (f : Stream → SeqWindow → SeqWindow) (l : List Stream) (p : Path) :
    l.foldl (fun p st => modWindow st (f st) p) p
      = { p with arb := { p.arb with windows := l.foldl (fun v st => updAt v st (f st)) p.arb.windows } } := by
  induction l generalizing p with
  | nil => rfl
  | cons st l ih => rw [List.foldl_cons, ih]; rfl

theorem lockView_eq (c : Settings) (p : Path) : lockView c p =
    { p with arb := { p.arb with view := (lockView c p).arb.view, windows := (lockView c p).arb.windows } } := by
  unfold lockView; dsimp only; rw [foldl_modWindow]

theorem lockView_view (c : Settings) (p : Path) (l : Line) :
    (lockView c p).arb.view[l] = if c.enabled l then .down else .off := by
  unfold lockView; dsimp only; rw [foldl_modWindow]; exact ofFn_get _ l

theorem lockView_timeout (c : Settings) (p : Path) (st : Stream) (h : c.valid st = true) :
    ((lockView c p).arb.windows[st]).timeout = effectiveTimeout c (lockView c p).arb.view st := by
  unfold lockView; dsimp only; rw [foldl_modWindow]
  generalize (Vector.ofFn fun l : Line => if c.enabled l then LineState.down else .off) = view
  have window := foldl_updAt_get (fun st (w : SeqWindow) => { w with timeout := effectiveTimeout c view st })
    (allStreams.filter c.valid) p.arb.windows st (allStreams_nodup.filter _)
  rw [if_pos (List.mem_filter.mpr ⟨mem_allStreams st, h⟩)] at window
  exact congrArg SeqWindow.timeout window

end Path

namespace State

theorem lockSettings_locked {s : State} (h : s.ctl.locked = true) : lockSettings s = setResult .refusedLock 0 s := by
  unfold lockSettings; rw [h]; rfl

theorem lockSettings_bad {s : State} {i : Nat} (h : s.ctl.locked = false) (bad : s.settings.firstBad = some i) :
    lockSettings s = setResult .badValue i s := by
  unfold lockSettings; rw [h, bad]; rfl

theorem lockSettings_good {s : State} (h : s.ctl.locked = false) (good : s.settings.firstBad = none) :
    lockSettings s = setResult .done 0 (lockNow s) := by
  unfold lockSettings; rw [h, good]; rfl

theorem lockNow_path (s : State) : (lockNow s).path = s.path.lockView s.settings := rfl

theorem lockNow_line (s : State) (l : Line) : (lockNow s).lines[l] = lockPort s.settings l s.lines[l] :=
  mapLines_get _ l s

theorem start_epo (c : Settings) (tb : TimeBase) (h : 0 < c.epochLen) : (tb.start c).epo = true := by
  show (true && decide (0 < halfPoint c.epochLen)) = true
  unfold halfPoint
  rw [Bool.true_and, decide_eq_true_iff]
  omega

end State

open State in
/-- Settles O21: the checks item by item; `firstBad` is the first of them that fails. -/
theorem lockSettingsValidatesAndStarts : Obligations.LockSettingsValidatesAndStarts := by
  refine ⟨fun c => ?_, fun s takes => ⟨fun locked => ?_, fun i unlocked inRange bad before => ?_,
    fun unlocked good => ?_⟩⟩
  · dsimp only
    refine ⟨Settings.within_iff, Settings.within_iff, Settings.within_iff, c.itemOk_epochLen, Settings.within_iff,
      Settings.within_iff, Settings.within_zero_iff, Settings.within_iff, Settings.within_iff, rfl, fun l => ?_, rfl,
      rfl, rfl, rfl, Settings.within_iff, rfl, fun e => ?_, fun k => ?_, Settings.within_zero_iff, c.itemOk_attention,
      rfl⟩
    · exact ⟨c.itemOk_free (by omega) (by omega) (.inl (by omega)), c.itemOk_free (by omega) (by omega)
        (.inr (by omega)), c.itemOk_captureLen (by omega) (by omega) (by omega),
        c.itemOk_ceiling (by omega) (by omega) (by omega)⟩
    · refine ⟨fun k h => c.itemOk_streamFree e h rfl, fun invalid => ?_, fun valid => ⟨?_, ?_, ?_, ?_⟩⟩
      · have free := fun {k : Nat} (h : k < 11) => c.itemOk_invalid e h rfl invalid
        exact ⟨free (by omega), free (by omega), free (by omega), free (by omega)⟩
      · rw [c.streamItemOk_valid e (by omega) rfl valid]; exact Settings.within_zero_iff
      · rw [c.streamItemOk_valid e (by omega) rfl valid]
        unfold Settings.streamFieldOk
        simp only [Bool.or_eq_true, beq_iff_eq, or_assoc]
        rfl
      · rw [c.streamItemOk_valid e (by omega) rfl valid]; exact Settings.within_zero_iff
      · rw [c.streamItemOk_valid e (by omega) rfl valid]
        unfold Settings.streamFieldOk
        simp only [Bool.and_eq_true, Settings.within_zero_iff, List.all_eq_true, mem_allLines, forall_const,
          Bool.or_eq_true, Bool.not_eq_true', decide_eq_true_iff, ← Bool.not_eq_true, ← imp_iff_not_or]
        rfl
    · refine ⟨?_, ?_, ?_⟩
      · rw [c.itemOk_channel (by omega) (by omega), if_neg (by omega)]
      · rw [c.itemOk_channel (by omega) (by omega), if_neg (by omega)]
      · rw [c.itemOk_channel (by omega) (by omega), if_pos (by omega)]; exact Settings.within_iff
  · exact (answer_of_takes lockSettings takes).trans (by rw [lockSettings_locked locked]; rfl)
  · exact (answer_of_takes lockSettings takes).trans
      (by rw [lockSettings_bad unlocked (Settings.firstBad_some inRange bad before)]; rfl)
  · refine ⟨setResult .done 0 (lockNow s), (answer_of_takes lockSettings takes).trans
      (by rw [lockSettings_good unlocked (Settings.firstBad_none good)]), rfl, rfl, rfl, rfl, rfl, rfl, rfl, rfl, rfl,
      rfl, rfl, rfl, start_epo s.settings s.tb, rfl, rfl, lockNow_line s, ?_, ?_, ?_, ?_, ?_⟩
    all_goals rw [setResult_path, lockNow_path]
    · exact Path.lockView_view s.settings s.path
    · exact Path.lockView_timeout s.settings s.path
    all_goals rw [Path.lockView_eq]

end Sys2Proof.Machine
end

section
/-!
SUPPORT. The channels: offers, START, STOP and FLUSH, POST BUFFER and TAKE CLOSED.
-/
namespace Sys2Proof.Machine

namespace Path

/-! ## Offers (R140, R141) -/

theorem offer_of_accepts {e : Env} {c : Chan} {r : Record} {p : Path} (h : accepts p.chans[c] = true) :
    offer e c r p = modChan c (fun ch => accepted ch r) p := if_pos h

theorem accepted_of_none {ch : Channel} (r : Record) (h : ch.tally = none) :
    accepted ch r = { ch with queue := ch.queue ++ [r] } := by unfold accepted; rw [h]

theorem accepted_of_some {ch : Channel} {t : Tally} (r : Record) (h : ch.tally = some t) :
    accepted ch r = { ch with queue := ch.queue ++ [.loss t.count t.first t.last, r], tally := none } := by
  unfold accepted; rw [h]

/-- What a refusal leaves, before its cause. -/
def refusedPath (c : Chan) (r : Record) (p : Path) : Path := returnBlocks r.blocks (modChan c (fun ch => refused ch r) p)

theorem offer_of_refuses {e : Env} {c : Chan} {r : Record} {p : Path} (h : accepts p.chans[c] = false) :
    offer e c r p = if (p.chans[c]).tally.isNone then setCause e .loss (refusedPath c r p) else refusedPath c r p := by
  unfold offer; dsimp only; rw [h]; rfl

theorem refusedPath_get (c k : Chan) (r : Record) (p : Path) :
    (refusedPath c r p).chans[k] = if k = c then refused p.chans[c] r else p.chans[k] := modChan_get c k _ p

theorem refused_of_none {ch : Channel} (r : Record) (h : ch.tally = none) : refused ch r =
    { ch with tally := some ⟨1, r.tick, r.tick⟩, counters := { ch.counters with lost := countUp ch.counters.lost } } := by
  unfold refused; rw [h]; rfl

theorem refused_of_some {ch : Channel} {t : Tally} (r : Record) (h : ch.tally = some t) : refused ch r =
    { ch with tally := some ⟨min (t.count + 1) 4294967295, t.first, r.tick⟩
              counters := { ch.counters with lost := countUp ch.counters.lost } } := by
  unfold refused; rw [h]; rfl

theorem offer_self (e : Env) (c : Chan) (r : Record) (p : Path) : (offer e c r p).chans[c]
    = if accepts p.chans[c] then accepted p.chans[c] r else refused p.chans[c] r := by rw [offer_get, if_pos rfl]

theorem accepts_eq_false {ch : Channel} (h : (ch.tally = none ∧ 1024 ≤ ch.queue.length)
    ∨ ((∃ t, ch.tally = some t) ∧ 1024 < ch.queue.length + 2)) : accepts ch = false := by
  rw [Bool.eq_false_iff, ne_eq, accepts_iff]
  rintro (⟨empty, room⟩ | ⟨⟨t, tally⟩, room⟩)
  · rcases h with h | ⟨⟨t, tally⟩, _⟩
    · omega
    · rw [empty] at tally; cases tally
  · rcases h with ⟨empty, _⟩ | h
    · rw [empty] at tally; cases tally
    · omega

end Path

open Sys2Proof.Machine.Path in
/-- Settles O27: by whether the queue accepts the record, and whether the tally is empty. -/
theorem offerFollowsTheTally : Obligations.OfferFollowsTheTally := by
  intro e c r p _
  refine ⟨fun empty room => ?_, fun t tally room => ?_, fun empty full => ?_, fun t tally full => ?_, fun k other => ?_⟩
  · have yes := (accepts_iff p.chans[c]).mpr (.inl ⟨empty, room⟩)
    refine ⟨by rw [offer_of_accepts yes]; rfl, ?_⟩
    rw [offer_self, if_pos yes, accepted_of_none r empty]
  · have yes := (accepts_iff p.chans[c]).mpr (.inr ⟨⟨t, tally⟩, room⟩)
    refine ⟨by rw [offer_of_accepts yes]; rfl, ?_⟩
    rw [offer_self, if_pos yes, accepted_of_some r tally]
  · have no := accepts_eq_false (.inl ⟨empty, full.ge⟩)
    refine ⟨?_, ?_⟩
    · rw [offer_self, no, if_neg Bool.false_ne_true, refused_of_none r empty]
    · rw [offer_of_refuses no, empty, Option.isNone_none, if_pos rfl, setCause_store, setCause_causes]; exact ⟨rfl, rfl⟩
  · have no := accepts_eq_false (.inr ⟨⟨t, tally⟩, by omega⟩)
    refine ⟨?_, ?_⟩
    · rw [offer_self, no, if_neg Bool.false_ne_true, refused_of_some r tally]
    · rw [offer_of_refuses no, tally]; exact ⟨rfl, rfl⟩
  · rw [offer_get, if_neg other]

/-! ## One channel under each operation -/

namespace Path

theorem writing_congr {p q : Path} (h : q.writer = p.writer) (c : Chan) : q.writing c = p.writing c := by
  unfold writing; rw [h]

theorem modChan_self (c : Chan) (f : Channel → Channel) (p : Path) : (modChan c f p).chans[c] = f p.chans[c] := by
  rw [modChan_get, if_pos rfl]

theorem modChan_other {c k : Chan} (h : k ≠ c) (f : Channel → Channel) (p : Path) :
    (modChan c f p).chans[k] = p.chans[k] := by rw [modChan_get, if_neg h]

theorem close_self {e : Env} {c : Chan} {r : ClosureReason} {p : Path} {b : CurrentBuffer}
    (h : (p.chans[c]).current = some b) : (close e c r p).chans[c] = closedWith r b p.chans[c] := by
  rw [close_get, if_pos rfl, shut_some h]

theorem close_other {e : Env} {c k : Chan} {r : ClosureReason} {p : Path} (h : k ≠ c) :
    (close e c r p).chans[k] = p.chans[k] := by rw [close_get, if_neg h]

theorem close_causes {e : Env} {c : Chan} {r : ClosureReason} {p : Path} {b : CurrentBuffer}
    (h : (p.chans[c]).current = some b) : (close e c r p).att.causes = p.att.causes ||| 0b000001#6 := by
  unfold close; rw [h]; dsimp only; rw [setCause_causes]; rfl

theorem serve_other {e : Env} {p : Path} {k : Chan} (h : (p.chans[k]).Ready) : (serve e p).chans[k] = p.chans[k] := by
  rw [serve_get, judgedChan_of_ready h]

theorem serve_chan_of_ended {e : Env} {p : Path} {c : Chan} (h : (p.chans[c]).ended = true) :
    (serve e p).chans[c] = p.chans[c] := by
  have busy : p.busy c = true := by unfold busy; rw [h, Bool.or_true]
  rw [serve_get, busy, judgedChan_busy]

theorem serve_chan {e : Env} {p : Path} {c : Chan} (h : (p.chans[c]).ended = false) :
    (serve e p).chans[c] = judgedChan (p.writing c) p.chans[c] := by
  have busy : p.busy c = p.writing c := by unfold busy; rw [h, Bool.or_false]
  rw [serve_get, busy]

theorem serve_writing {e : Env} {p : Path} {c : Chan} (h : p.writing c = true) :
    (serve e p).chans[c] = p.chans[c] := by
  have busy : p.busy c = true := by unfold busy; rw [h, Bool.true_or]
  rw [serve_get, busy, judgedChan_busy]

theorem serve_judges {e : Env} {p : Path} {c : Chan} (h : (p.chans[c]).ended = false) (w : p.writing c = false) :
    (p.chans[c]).JudgedTo (serve e p).chans[c] := by
  rw [serve_chan h, w]; exact judgedTo_judgedChan _

theorem holdsRecord_of_some {ch : Channel} {b : CurrentBuffer} (h : ch.current = some b) (records : 0 < b.records) :
    holdsRecord ch = true := by unfold holdsRecord; rw [h]; exact decide_eq_true records

theorem holdsRecord_of_none {ch : Channel} (h : ∀ b, ch.current = some b → b.records = 0) :
    holdsRecord ch = false := by
  unfold holdsRecord
  split
  · rename_i b current; rw [h b current]; rfl
  · rfl

theorem hasClosedRoom_eq_false {ch : Channel} (h : 4 ≤ ch.closed.length) : hasClosedRoom ch = false := by
  rw [Bool.eq_false_iff, ne_eq, hasClosedRoom_iff]; omega

theorem revoke_grants {e : Env} {c : Chan} {run : Nat} {p : Path} (h : p.writer = .granted c run) :
    (revoke e c p).Grants e.cfg.urgent (some c) := by
  unfold revoke; rw [h]; dsimp only; rw [if_pos rfl]
  exact grant_grants e _ _ rfl

/-! ## START CHANNEL (R145, R154) -/

/-- The channel at its entry to RUN, not judged yet (R145). -/
def enteredChan (e : Env) (c : Chan) (ch : Channel) : Channel :=
  { ch with state := .run, ended := false, idleExpiry := if holdsRecord ch then idleFrom e.cfg c e.now else none }

/-- The record path at the entry of channel `c` to RUN, before any channel is judged. -/
def entering (e : Env) (c : Chan) (p : Path) : Path :=
  startIdle e c (modChan c (fun ch => { ch with state := .run, ended := false }) p)

theorem enterRun_eq (e : Env) (c : Chan) (p : Path) : enterRun e c p = serve e (entering e c p) := rfl

theorem entering_self (e : Env) (c : Chan) (p : Path) : (entering e c p).chans[c] = enteredChan e c p.chans[c] := by
  unfold entering startIdle; rw [modChan_self, modChan_self]; rfl

theorem entering_other {e : Env} {c k : Chan} (h : k ≠ c) (p : Path) : (entering e c p).chans[k] = p.chans[k] := by
  unfold entering startIdle; rw [modChan_other h, modChan_other h]

theorem startChan_refused {e : Env} {c : Chan} {p : Path} (h : (p.chans[c]).state = .run
    ∨ (∃ r, (p.chans[c]).state = .stalled r) ∨ ((p.chans[c]).state = .error ∧ (p.chans[c]).owed = true)) :
    startChan e c p = (p, .refusedState) := by
  unfold startChan
  rcases h with h | ⟨r, h⟩ | ⟨h, owed⟩
  · rw [h]
  · rw [h]
  · rw [h, owed]; rfl

theorem promote_eq (ch : Channel) : promote ch =
    { ch with current := if ch.current = none then ch.next.map freshBuffer else ch.current
              next := if ch.current = none then none else ch.next } := by
  unfold promote
  by_cases h : ch.current = none
  · rw [if_pos (by rw [h]; rfl), if_pos h, if_pos h]
  · rw [if_neg (by rw [Option.isNone_iff_eq_none]; exact h), if_neg h, if_neg h]

/-- A START that is taken enters RUN from a path `p0` in which the next buffer has been promoted, out of ERROR. -/
theorem startChan_enters {e : Env} {c : Chan} {p : Path} (h : (p.chans[c]).state = .idle
    ∨ (p.chans[c]).state = .stopped ∨ ((p.chans[c]).state = .error ∧ (p.chans[c]).owed = false)) :
    ∃ p0 : Path, startChan e c p = (enterRun e c p0, .done) ∧ p0.writer = p.writer
      ∧ (∀ k : Chan, k ≠ c → p0.chans[k] = p.chans[k])
      ∧ p0.chans[c] = { p.chans[c] with
          current := if (p.chans[c]).state = .error ∧ (p.chans[c]).current = none
            then (p.chans[c]).next.map freshBuffer else (p.chans[c]).current
          next := if (p.chans[c]).state = .error ∧ (p.chans[c]).current = none then none else (p.chans[c]).next } := by
  rcases h with h | h | ⟨h, owed⟩
  · refine ⟨p, by unfold startChan; rw [h], rfl, fun _ _ => rfl, ?_⟩
    rw [if_neg (by rw [h]; exact fun h => nomatch h.1), if_neg (by rw [h]; exact fun h => nomatch h.1)]
  · refine ⟨p, by unfold startChan; rw [h], rfl, fun _ _ => rfl, ?_⟩
    rw [if_neg (by rw [h]; exact fun h => nomatch h.1), if_neg (by rw [h]; exact fun h => nomatch h.1)]
  · refine ⟨modChan c promote p, by unfold startChan; rw [h, owed]; rfl, rfl, fun k other => modChan_other other _ p, ?_⟩
    rw [modChan_self, promote_eq]
    simp only [h, true_and]

/-! ## STOP and FLUSH (R150, R151) -/

/-- The channel that STOP leaves. -/
def haltedChan (ch : Channel) : Channel :=
  { ch with state := .stopped, pendingCmd := none, idleExpiry := none, ended := false }

/-- The channel on which no command waits and of which no completion is left. -/
def calmChan (ch : Channel) : Channel := { ch with pendingCmd := none, ended := false }

theorem stopNow_of_record {e : Env} {c : Chan} {p : Path} {b : CurrentBuffer} (h : (p.chans[c]).current = some b)
    (records : 0 < b.records) (room : (p.chans[c]).closed.length < 4) :
    stopNow e c p = modChan c haltedChan (close e c .stop p) := by
  unfold stopNow; dsimp only
  rw [holdsRecord_of_some h records, hasClosedRoom_iff.mpr room]; rfl

theorem stopNow_of_rest {e : Env} {c : Chan} {p : Path}
    (h : ∀ b, (p.chans[c]).current = some b → b.records = 0 ∨ 4 ≤ (p.chans[c]).closed.length) :
    stopNow e c p = modChan c haltedChan p := by
  have no : (holdsRecord p.chans[c] && hasClosedRoom p.chans[c]) = false := by
    by_cases full : 4 ≤ (p.chans[c]).closed.length
    · rw [hasClosedRoom_eq_false full, Bool.and_false]
    · rw [holdsRecord_of_none fun b hb => (h b hb).resolve_right full, Bool.false_and]
  unfold stopNow; dsimp only; rw [no]; rfl

theorem stopNow_halts (e : Env) (c : Chan) (p : Path) :
    ∃ q, stopNow e c p = modChan c haltedChan q ∧ ∀ k : Chan, k ≠ c → q.chans[k] = p.chans[k] := by
  unfold stopNow; dsimp only
  split
  · exact ⟨_, rfl, fun k other => close_other other⟩
  · exact ⟨p, rfl, fun _ _ => rfl⟩

theorem stopNow_other {e : Env} {c k : Chan} (h : k ≠ c) (p : Path) : (stopNow e c p).chans[k] = p.chans[k] := by
  obtain ⟨q, eq, same⟩ := stopNow_halts e c p
  rw [eq, modChan_other h, same k h]

theorem stopChan_refused {e : Env} {c : Chan} {p : Path} (h : (p.chans[c]).state = .idle
    ∨ (p.chans[c]).state = .stopped ∨ (p.chans[c]).state = .error) : stopChan e c p = (p, .refusedState) := by
  unfold stopChan
  rcases h with h | h | h <;> rw [h]

theorem stopChan_taken {e : Env} {c : Chan} {p : Path}
    (h : (p.chans[c]).state = .run ∨ ∃ r, (p.chans[c]).state = .stalled r) : stopChan e c p =
      if p.writing c then (modChan c (fun ch => { ch with pendingCmd := some .stop }) p, .pending)
      else (revoke e c (stopNow e c p), .done) := by
  unfold stopChan
  rcases h with h | ⟨r, h⟩ <;> rw [h]

theorem flushChan_refused {e : Env} {c : Chan} {p : Path} (h : (p.chans[c]).state = .idle
    ∨ (p.chans[c]).state = .error) : flushChan e c p = (p, .refusedState) := by
  unfold flushChan
  rcases h with h | h <;> rw [h]

theorem flushChan_taken {e : Env} {c : Chan} {p : Path} (notIdle : (p.chans[c]).state ≠ .idle)
    (notError : (p.chans[c]).state ≠ .error) : flushChan e c p =
      if p.writing c then (modChan c (fun ch => { ch with pendingCmd := some .flush }) p, .pending)
      else (revoke e c (serve e (flushNow e c p).1), (flushNow e c p).2) := by
  unfold flushChan
  cases h : (p.chans[c]).state with
  | idle => exact absurd h notIdle
  | error => exact absurd h notError
  | run | stalled | stopped => rfl

theorem flushNow_empty {e : Env} {c : Chan} {p : Path} (h : ∀ b, (p.chans[c]).current = some b → b.records = 0) :
    flushNow e c p = (modChan c calmChan p, .empty) := by
  unfold flushNow; dsimp only; rw [holdsRecord_of_none h]; rfl

theorem flushNow_done {e : Env} {c : Chan} {p : Path} {b : CurrentBuffer} (h : (p.chans[c]).current = some b)
    (records : 0 < b.records) (room : (p.chans[c]).closed.length < 4) :
    flushNow e c p = (close e c .flush (modChan c calmChan p), .done) := by
  unfold flushNow; dsimp only; rw [holdsRecord_of_some h records, hasClosedRoom_iff.mpr room]; rfl

theorem flushNow_full {e : Env} {c : Chan} {p : Path} {b : CurrentBuffer} (h : (p.chans[c]).current = some b)
    (records : 0 < b.records) (full : 4 ≤ (p.chans[c]).closed.length) :
    flushNow e c p = (modChan c calmChan p, .full) := by
  unfold flushNow; dsimp only; rw [holdsRecord_of_some h records, hasClosedRoom_eq_false full]; rfl

theorem flushNow_other {e : Env} {c k : Chan} (h : k ≠ c) (p : Path) : (flushNow e c p).1.chans[k] = p.chans[k] := by
  unfold flushNow; dsimp only
  split
  · exact modChan_other h _ p
  · split
    · rw [close_other h]; exact modChan_other h _ p
    · exact modChan_other h _ p

theorem calm_current {c : Chan} {p : Path} {b : CurrentBuffer} (h : (p.chans[c]).current = some b) :
    ((modChan c calmChan p).chans[c]).current = some b := by rw [modChan_self]; exact h

/-! ## Judging a channel whose completion is left (R148; log 18) -/

theorem judgeEnded_of_none {e : Env} {c : Chan} {p : Path} (h : (p.chans[c]).ended = false) : judgeEnded e c p = p := by
  unfold judgeEnded; rw [h]; rfl

theorem judgeEnded_other {e : Env} {c k : Chan} (h : k ≠ c) (p : Path) : (judgeEnded e c p).chans[k] = p.chans[k] := by
  rw [judgeEnded_get, if_neg fun both => h both.1]

theorem judgeEnded_ended (e : Env) (c : Chan) (p : Path) : ((judgeEnded e c p).chans[c]).ended = false := by
  rw [judgeEnded_get]
  split
  · rw [judgedChan_ended]
  · rename_i h
    exact Bool.eq_false_iff.mpr fun ended => h ⟨rfl, ended⟩

/-- The judging that changes nothing of the channel was not asked for. -/
theorem judgeEnded_of_same {e : Env} {c : Chan} {p : Path} (h : (judgeEnded e c p).chans[c] = p.chans[c]) :
    judgeEnded e c p = p :=
  judgeEnded_of_none (by rw [← h]; exact judgeEnded_ended e c p)

/-! ## POST BUFFER (R142, R149) -/

theorem postValid_iff (addr len : Nat) : postValid addr len = true
    ↔ addr % 4096 = 0 ∧ len % 4096 = 0 ∧ 4096 ≤ len ∧ len ≤ 4194304 ∧ addr + len ≤ 2 ^ 64 := by
  unfold postValid
  simp only [Bool.and_eq_true, beq_iff_eq, Settings.within_iff, decide_eq_true_iff, and_assoc]

theorem post_invalid {e : Env} {c : Chan} {addr len : Nat} {p : Path} (h : postValid addr len = false) :
    post e c addr len p = (p, .badValue) := by unfold post; rw [h]; rfl

theorem post_valid {e : Env} {c : Chan} {addr len : Nat} {p : Path} (h : postValid addr len = true) :
    post e c addr len p = postInto e c addr len (judgeEnded e c p) := by unfold post; rw [h]; rfl

/-- The channel that takes a posted buffer as its current one (R142, R149). -/
def filledChan (addr len : Nat) (ch : Channel) : Channel :=
  { ch with current := some (freshBuffer ⟨addr, len⟩)
            state := if ch.state = .stalled .noBuffer then .run else ch.state }

theorem postInto_current {e : Env} {c : Chan} {addr len : Nat} {p : Path} (h : (p.chans[c]).current = none) :
    postInto e c addr len p = (serve e (modChan c (filledChan addr len) p), .done) := by
  unfold postInto; dsimp only; rw [h]; rfl

theorem postInto_next {e : Env} {c : Chan} {addr len : Nat} {p : Path} (h : (p.chans[c]).current ≠ none)
    (next : (p.chans[c]).next = none) :
    postInto e c addr len p = (modChan c (fun ch => { ch with next := some ⟨addr, len⟩ }) p, .done) := by
  obtain ⟨b, current⟩ := Option.ne_none_iff_exists'.mp h
  unfold postInto; dsimp only; rw [current, next]; rfl

theorem postInto_full {e : Env} {c : Chan} {addr len : Nat} {p : Path} (h : (p.chans[c]).current ≠ none)
    (next : (p.chans[c]).next ≠ none) : postInto e c addr len p = (p, .full) := by
  obtain ⟨b, current⟩ := Option.ne_none_iff_exists'.mp h
  obtain ⟨n, next⟩ := Option.ne_none_iff_exists'.mp next
  unfold postInto; dsimp only; rw [current, next]; rfl

theorem postInto_other {e : Env} {c k : Chan} {addr len : Nat} {p : Path} (h : k ≠ c) (ready : (p.chans[k]).Ready) :
    (postInto e c addr len p).1.chans[k] = p.chans[k] := by
  have same := fun f => modChan_other h f p
  unfold postInto; dsimp only
  split
  · rw [serve_other (by rw [same]; exact ready), same]
  · split
    · exact same _
    · rfl

/-! ## TAKE CLOSED (R144, R149, R153) -/

theorem waitedChan_owed {ch : Channel} {b : CurrentBuffer} (owed : ch.owed = true) (h : ch.current = some b) :
    waitedChan ch = { closedWith .error b ch with owed := false } := by
  unfold waitedChan; rw [owed, if_pos rfl, shut_some h]

theorem waitedChan_full {ch : Channel} {b : CurrentBuffer} (owed : ch.owed = false)
    (state : ch.state = .stalled .closedFull) (h : ch.current = some b) : waitedChan ch =
      if ch.next.isNone then stalledWith .noBuffer (closedWith .full b ch)
      else { closedWith .full b ch with state := .run } := by
  have current : (closedWith .full b ch).current = ch.next.map freshBuffer := rfl
  unfold waitedChan
  rw [owed, if_neg Bool.false_ne_true, if_pos state, shut_some h, current, Option.isNone_map]

theorem waitedChan_rest {ch : Channel} (owed : ch.owed = false) (state : ch.state ≠ .stalled .closedFull) :
    waitedChan ch = ch := by
  unfold waitedChan; rw [owed, if_neg Bool.false_ne_true, if_neg state]

theorem shut_ended (r : ClosureReason) (ch : Channel) : (shut r ch).ended = ch.ended := by
  unfold shut; split <;> rfl

theorem waitedChan_ended (ch : Channel) : (waitedChan ch).ended = ch.ended := by
  unfold waitedChan
  split
  · exact shut_ended .error ch
  · split
    · split <;> exact shut_ended .full ch
    · rfl

theorem judgedChan_of_noBuffer {w : Bool} {ch : Channel} (h : ch.current = none) :
    judgedChan w ch = ch ∨ judgedChan w ch = stalledWith .noBuffer ch := by
  unfold judgedChan
  split
  · rw [h]
    cases ch.queue with
    | nil => exact .inl rfl
    | cons r rest => exact .inr rfl
  · exact .inl rfl

theorem takeFrom_empty {e : Env} {c : Chan} {p : Path} (h : (p.chans[c]).closed = []) : takeFrom e c p = (p, none) := by
  unfold takeFrom; rw [h]

/-- The record path once the oldest entry of channel `c` is out. -/
def tookOldest (c : Chan) (p : Path) : Path := modChan c (fun ch => { ch with closed := ch.closed.tail }) p

theorem takeFrom_some {e : Env} {c : Chan} {p : Path} {x : ClosedEntry} {rest : List ClosedEntry}
    (h : (p.chans[c]).closed = x :: rest) :
    takeFrom e c p = (serve e (waitingClosure e c (tookOldest c p)), some x) := by
  unfold takeFrom; rw [h]; rfl

theorem tookOldest_self {c : Chan} {p : Path} {x : ClosedEntry} {rest : List ClosedEntry}
    (h : (p.chans[c]).closed = x :: rest) : (tookOldest c p).chans[c] = { p.chans[c] with closed := rest } := by
  unfold tookOldest; rw [modChan_self, h]; rfl

theorem takeFrom_other {e : Env} {c k : Chan} {p : Path} (h : k ≠ c) (ready : (p.chans[k]).Ready) :
    (takeFrom e c p).1.chans[k] = p.chans[k] := by
  have same : (waitingClosure e c (tookOldest c p)).chans[k] = p.chans[k] := by
    rw [waitingClosure_get, if_neg h]; exact modChan_other h _ p
  unfold takeFrom
  split
  · rfl
  · exact (serve_other (by rw [← same] at ready; exact ready)).trans same

/-- The closure that waited is made, with its cause. -/
theorem waitingClosure_closes {e : Env} {c : Chan} {p : Path} {b : CurrentBuffer} (h : (p.chans[c]).current = some b)
    (waits : (p.chans[c]).owed = true ∨ (p.chans[c]).state = .stalled .closedFull) :
    (waitingClosure e c p).att.causes.getLsbD 0 = true := by
  unfold waitingClosure; dsimp only
  split
  · exact close_sets h
  · rename_i owed
    rw [if_pos (waits.resolve_left owed)]
    split
    · exact stall_keepsCauses _ _ _ _ 0 (close_sets h)
    · exact close_sets h

theorem waitingClosure_stalls {e : Env} {c : Chan} {p : Path} {b : CurrentBuffer} (h : (p.chans[c]).current = some b)
    (owed : (p.chans[c]).owed = false) (state : (p.chans[c]).state = .stalled .closedFull)
    (next : (p.chans[c]).next = none) : (waitingClosure e c p).att.causes.getLsbD 1 = true := by
  have none : ((close e c .full p).chans[c]).current.isNone = true := by
    rw [close_self h]
    show ((p.chans[c]).next.map freshBuffer).isNone = true
    rw [next]; rfl
  unfold waitingClosure; dsimp only
  rw [owed, if_neg Bool.false_ne_true, if_pos state, if_pos none]
  exact setCause_sets e .channel _

end Path

/-! ## The channel commands on the state -/

namespace State

theorem chanCommand_eq {f : Env → Path → Path × ResultCode} {s : State} {q : Path} {r : ResultCode}
    (h : f s.env s.path = (q, r)) :
    chanCommand f s = { s with path := q, ctl := { s.ctl with result := r, resultIndex := 0 } } := by
  unfold chanCommand setResult; rw [h]

theorem chanCommand_path (f : Env → Path → Path × ResultCode) (s : State) :
    (chanCommand f s).path = (f s.env s.path).1 := rfl

theorem takeClosed_empty {c : Chan} {s : State} {q : Path} (h : Path.take s.env c s.path = (q, none)) :
    takeClosed c s = { s with path := q, ctl := { s.ctl with result := .empty, resultIndex := 0 } } := by
  unfold takeClosed; dsimp only; rw [h]; rfl

theorem takeClosed_some {c : Chan} {s : State} {q : Path} {x : ClosedEntry}
    (h : Path.take s.env c s.path = (q, some x)) : takeClosed c s =
      { s with path := q, ctl := { s.ctl with result := .done, resultIndex := 0, taken := takenOf c x } } := by
  unfold takeClosed; dsimp only; rw [h]; rfl

end State

open State Sys2Proof.Machine.Path in
/-- Settles O28: the entry to RUN, and the judging of it by `serve`. -/
theorem startChannelEntersRun : Obligations.StartChannelEntersRun := by
  intro c s takes
  refine ⟨fun refused => ?_, fun enters => ?_⟩
  · exact (answer_of_takes (startChannel c) takes).trans (congrArg _ (chanCommand_eq (startChan_refused refused)))
  obtain ⟨p0, eq, writer, others, self⟩ := startChan_enters (e := s.env) enters
  have attended := startChan_attended s.env c s.path
  rw [eq, enterRun_eq] at attended
  refine ⟨_, (answer_of_takes (startChannel c) takes).trans (congrArg _ (chanCommand_eq eq)), rfl, ?_, attended,
    fun k other ready => ?_, (entering s.env c p0).chans[c], ?_, fun on record => ?_, fun off => ?_, fun w => ?_,
    fun w => ?_⟩
  · exact (enterRun_writer s.env c p0).trans writer
  · have same : (entering s.env c p0).chans[k] = s.path.chans[k] := (entering_other other p0).trans (others k other)
    exact (serve_other (by rw [← same] at ready; exact ready)).trans same
  · rw [entering_self, self]; rfl
  · obtain ⟨b, current, records⟩ := record
    rw [entering_self, self]
    unfold enteredChan
    dsimp only
    rw [holdsRecord_of_some current records]
    exact if_neg on
  · rw [entering_self, self]
    unfold enteredChan
    dsimp only
    rcases off with off | empty
    · unfold idleFrom
      rw [if_pos (show s.env.cfg.idleTicks c = 0 from off), ite_self]
    · rw [holdsRecord_of_none empty]; rfl
  · have notEnded : ((entering s.env c p0).chans[c]).ended = false := by rw [entering_self]; rfl
    exact serve_judges notEnded ((writing_congr writer c).trans w)
  · exact serve_writing ((writing_congr writer c).trans w)

open State Sys2Proof.Machine.Path in
/-- Settles O29: `stopNow` by whether the buffer holds a record and the list has room, then `revoke`. -/
theorem stopChannelStops : Obligations.StopChannelStops := by
  intro c s takes
  refine ⟨fun refused => ?_, fun taken => ⟨fun w => ?_, fun w => ?_⟩⟩
  · exact (answer_of_takes (stopChannel c) takes).trans (congrArg _ (chanCommand_eq (stopChan_refused refused)))
  · have eq := stopChan_taken (e := s.env) taken
    rw [if_pos w] at eq
    exact ⟨_, (answer_of_takes (stopChannel c) takes).trans (congrArg _ (chanCommand_eq eq)), rfl, rfl,
      modChan_self _ _ _, fun k other => modChan_other other _ _⟩
  · have eq := stopChan_taken (e := s.env) taken
    rw [w, if_neg Bool.false_ne_true] at eq
    have kept := (stopChan_tends s.env c s.path).queues c
    rw [eq, revoke_chans] at kept
    obtain ⟨q, halts, _⟩ := stopNow_halts s.env c s.path
    have self : (stopNow s.env c s.path).chans[c] = haltedChan q.chans[c] := by rw [halts, modChan_self]
    refine ⟨_, (answer_of_takes (stopChannel c) takes).trans (congrArg _ (chanCommand_eq eq)), rfl, ?_⟩
    dsimp only
    rw [revoke_chans, revoke_att]
    refine ⟨by rw [self]; rfl, by rw [self]; rfl, by rw [self]; rfl, kept.1, kept.2, fun free => ?_,
      fun run granted => ?_, fun k other => stopNow_other other _, fun b current records room => ?_, fun rests => ?_⟩
    · rw [revoke_writer (by rw [stopNow_writer]; exact free), stopNow_writer]
    · exact revoke_grants (by rw [stopNow_writer]; exact granted)
    · rw [stopNow_of_record current records room, modChan_self, close_self current]
      exact ⟨rfl, rfl, rfl, close_causes current⟩
    · rw [stopNow_of_rest rests, modChan_self]; exact ⟨rfl, rfl, rfl, rfl⟩

open State Sys2Proof.Machine.Path in
/-- Settles O30: `flushNow` in its three cases, the judging by `serve`, then `revoke`. -/
theorem flushChannelFlushes : Obligations.FlushChannelFlushes := by
  intro c s takes
  refine ⟨fun refused => ?_, fun notIdle notError => ⟨fun w => ?_, fun w => ?_⟩⟩
  · exact (answer_of_takes (flushChannel c) takes).trans (congrArg _ (chanCommand_eq (flushChan_refused refused)))
  · have eq := flushChan_taken (e := s.env) notIdle notError
    rw [if_pos w] at eq
    exact ⟨_, (answer_of_takes (flushChannel c) takes).trans (congrArg _ (chanCommand_eq eq)), rfl, rfl,
      modChan_self _ _ _, fun k other => modChan_other other _ _⟩
  · have eq := flushChan_taken (e := s.env) notIdle notError
    rw [w, if_neg Bool.false_ne_true] at eq
    have attended := flushChan_attended s.env c s.path
    rw [eq] at attended
    have judged : ∀ {q : Path} {ch : Channel}, (flushNow s.env c s.path).1 = q → q.chans[c] = ch → ch.ended = false →
        ch.JudgedTo (serve s.env q).chans[c] := by
      rintro q ch now rfl ended
      exact serve_judges ended ((writing_congr (by rw [← now, flushNow_writer]) c).trans w)
    refine ⟨_, (answer_of_takes (flushChannel c) takes).trans (congrArg _ (chanCommand_eq eq)), rfl, attended, ?_⟩
    dsimp only
    rw [revoke_chans, revoke_att]
    refine ⟨fun free => ?_, fun run granted => ?_, fun k other ready => ?_, fun empty => ?_,
      fun b current records room => ?_, fun b current records full => ?_⟩
    · rw [revoke_writer (by rw [serve_writer, flushNow_writer]; exact free), serve_writer, flushNow_writer]
    · exact revoke_grants (by rw [serve_writer, flushNow_writer]; exact granted)
    · have same := flushNow_other (e := s.env) other s.path
      rw [serve_other (by rw [same]; exact ready), same]
    · have now := flushNow_empty (e := s.env) empty
      rw [now]
      exact ⟨rfl, judged (congrArg Prod.fst now) (modChan_self _ _ _) rfl⟩
    · have now := flushNow_done (e := s.env) current records room
      rw [now]
      exact ⟨rfl, serve_keepsCauses _ _ _ (close_sets (calm_current current)),
        judged (congrArg Prod.fst now) ((close_self (calm_current current)).trans (by rw [modChan_self]; rfl)) rfl⟩
    · have now := flushNow_full (e := s.env) current records full
      rw [now]
      exact ⟨rfl, judged (congrArg Prod.fst now) (modChan_self _ _ _) rfl⟩

open State Sys2Proof.Machine.Path in
/-- Settles O31: the slots are those that `judgeEnded` leaves. -/
theorem postBufferFillsTheSlots : Obligations.PostBufferFillsTheSlots := by
  intro c s takes
  have answers : ∀ {q : Path} {r : ResultCode}, post s.env c s.ctl.arg0.toNat s.ctl.arg1.toNat s.path = (q, r) →
      exec (.postBuffer c) s
        = .next { s with path := q, ctl := { s.ctl with result := r, resultIndex := 0 } } := fun eq =>
    (answer_of_takes (postBuffer c) takes).trans (congrArg _ (chanCommand_eq eq))
  refine ⟨fun invalid => ?_, fun valid => ?_⟩
  · rw [← postValid_iff, Bool.not_eq_true] at invalid
    exact answers (post_invalid invalid)
  have eq := post_valid (e := s.env) (c := c) (p := s.path) ((postValid_iff _ _).mpr valid)
  have attended := post_attended s.env c s.ctl.arg0.toNat s.ctl.arg1.toNat s.path
  have found := judgeEnded_finds s.env c s.path
  have others : ∀ k : Chan, k ≠ c → (s.path.chans[k]).Ready →
      (post s.env c s.ctl.arg0.toNat s.ctl.arg1.toNat s.path).1.chans[k] = s.path.chans[k] := fun k other ready => by
    have same := judgeEnded_other (e := s.env) other s.path
    rw [eq, postInto_other other (by rw [same]; exact ready), same]
  refine ⟨_, (judgeEnded s.env c s.path).chans[c], answers (q := (post s.env c _ _ s.path).1)
    (r := (post s.env c _ _ s.path).2) rfl, found, attended, others, fun current next => ?_,
    fun current next => ?_, fun current => ?_⟩
  · dsimp only
    rw [eq, postInto_full current next]
    exact ⟨rfl, rfl, judgeEnded_of_same⟩
  · dsimp only
    rw [eq, postInto_next current next]
    refine ⟨rfl, modChan_self _ _ _, fun same => ?_⟩
    rw [judgeEnded_of_same same]; rfl
  · have writer : (modChan c (filledChan s.ctl.arg0.toNat s.ctl.arg1.toNat) (judgeEnded s.env c s.path)).writing c
        = s.path.writing c := writing_congr (judgeEnded_writer s.env c s.path) c
    have self := modChan_self c (filledChan s.ctl.arg0.toNat s.ctl.arg1.toNat) (judgeEnded s.env c s.path)
    dsimp only
    rw [eq, postInto_current current]
    refine ⟨rfl, fun w => ?_, fun w => ?_⟩
    · exact (serve_writing (writer.trans w)).trans self
    · have judged := serve_judges (e := s.env) (by rw [self]; exact judgeEnded_ended s.env c s.path) (writer.trans w)
      rw [self] at judged
      exact judged

open State Sys2Proof.Machine.Path in
/-- Settles O32: the closed list is that which `judgeEnded` leaves, and `waitedChan` is what the freed entry makes of
the channel. -/
theorem takeClosedReturnsTheOldest : Obligations.TakeClosedReturnsTheOldest := by
  intro c s takes
  have answers : exec (.takeClosed c) s = .next (takeClosed c s) := answer_of_takes (takeClosed c) takes
  have attended := take_attended s.env c s.path
  have path := takeClosed_path c s
  rw [← path] at attended
  have eq : take s.env c s.path = takeFrom s.env c (judgeEnded s.env c s.path) := rfl
  generalize judged : judgeEnded s.env c s.path = q at eq
  have ended : (q.chans[c]).ended = false := by rw [← judged]; exact judgeEnded_ended s.env c s.path
  have finds : s.path.FindsChannel c q.chans[c] := by rw [← judged]; exact judgeEnded_finds s.env c s.path
  refine ⟨takeClosed c s, q.chans[c], answers, finds, attended, fun k other ready => ?_, fun empty => ?_,
    fun x rest closed => ?_⟩
  · have same : q.chans[k] = s.path.chans[k] := by rw [← judged]; exact judgeEnded_other other s.path
    rw [path, eq, takeFrom_other other (by rw [same]; exact ready), same]
  · rw [takeFrom_empty empty] at eq
    rw [takeClosed_empty eq]
    exact ⟨rfl, rfl, fun same => by rw [← judged] at same ⊢; exact judgeEnded_of_same same⟩
  · rw [takeFrom_some closed] at eq
    have old := tookOldest_self closed
    generalize before : tookOldest c q = p at eq old
    have writing : (waitingClosure s.env c p).writing c = s.path.writing c :=
      writing_congr (by rw [waitingClosure_writer, ← before, ← judged]; exact judgeEnded_writer s.env c s.path) c
    have self : (waitingClosure s.env c p).chans[c] = waitedChan { q.chans[c] with closed := rest } := by
      rw [waitingClosure_get, if_pos rfl, old]
    have chan : (serve s.env (waitingClosure s.env c p)).chans[c]
        = judgedChan (s.path.writing c) (waitedChan { q.chans[c] with closed := rest }) := by
      rw [serve_chan (by rw [self, waitedChan_ended]; exact ended), writing, self]
    have calm : ∀ ch : Channel, waitedChan { q.chans[c] with closed := rest } = ch →
        (s.path.writing c = true → (serve s.env (waitingClosure s.env c p)).chans[c] = ch)
        ∧ (s.path.writing c = false → ch.JudgedTo (serve s.env (waitingClosure s.env c p)).chans[c]) := by
      rintro ch rfl
      refine ⟨fun w => ?_, fun w => ?_⟩
      · rw [chan, w, judgedChan_busy]
      · rw [chan, w]; exact judgedTo_judgedChan _
    rw [takeClosed_some eq]
    refine ⟨rfl, fun b owed current => ?_, fun b owed state current => ⟨?_, fun next => ?_, fun n next => ?_⟩,
      fun owed state => calm _ (waitedChan_rest owed state)⟩
    · rw [waitedChan_owed (ch := { q.chans[c] with closed := rest }) owed current] at chan
      refine ⟨?_, ?_, ?_, ?_, serve_keepsCauses _ _ 0 (waitingClosure_closes (by rw [old]; exact current)
        (.inl (by rw [old]; exact owed)))⟩
      all_goals
        dsimp only
        rw [chan]
        rcases judgedChan_of_noBuffer (w := s.path.writing c)
          (ch := { closedWith .error b { q.chans[c] with closed := rest } with owed := false }) rfl with h | h
          <;> rw [h] <;> rfl
    · exact serve_keepsCauses _ _ 0 (waitingClosure_closes (by rw [old]; exact current)
        (.inr (by rw [old]; exact state)))
    · have stalls := waitedChan_full (ch := { q.chans[c] with closed := rest }) owed state current
      rw [show ({ q.chans[c] with closed := rest } : Channel).next = none from next, Option.isNone_none,
        if_pos rfl] at stalls
      rw [stalls, judgedChan_of_ne_run (by unfold stalledWith; exact fun h => nomatch h)] at chan
      dsimp only
      rw [chan]
      refine ⟨rfl, ?_, rfl, serve_keepsCauses _ _ 1 (waitingClosure_stalls (by rw [old]; exact current)
        (by rw [old]; exact owed) (by rw [old]; exact state) (by rw [old]; exact next))⟩
      show (q.chans[c]).next.map freshBuffer = none
      rw [next]; rfl
    · refine calm _ ?_
      rw [waitedChan_full (ch := { q.chans[c] with closed := rest }) owed state current,
        show ({ q.chans[c] with closed := rest } : Channel).next = some n from next, Option.isNone_some,
        if_neg Bool.false_ne_true]
      unfold closedWith
      rw [show ({ q.chans[c] with closed := rest } : Channel).next = some n from next]
      rfl

end Sys2Proof.Machine
end

section
/-!
SUPPORT. The completions of a write, good, failed and abandoned, and the expiry of the idle timer.
-/
namespace Sys2Proof.Machine

namespace Path

/-! ## A pending STOP or FLUSH (R150, R151) -/

theorem pendingNow_of_none {e : Env} {c : Chan} {p : Path} (h : (p.chans[c]).pendingCmd = none) :
    pendingNow e c p = (p, none) := by unfold pendingNow; rw [h]

theorem pendingNow_of_stop {e : Env} {c : Chan} {p : Path} (h : (p.chans[c]).pendingCmd = some .stop) :
    pendingNow e c p = (stopNow e c p, some .done) := by unfold pendingNow; rw [h]

theorem pendingNow_of_flush {e : Env} {c : Chan} {p : Path} (h : (p.chans[c]).pendingCmd = some .flush) :
    pendingNow e c p = ((flushNow e c p).1, some (flushNow e c p).2) := by unfold pendingNow; rw [h]

theorem pendingNow_writer (e : Env) (c : Chan) (p : Path) : (pendingNow e c p).1.writer = p.writer := by
  unfold pendingNow
  split
  · rfl
  · exact stopNow_writer e c p
  · exact flushNow_writer e c p

theorem pendingNow_store (e : Env) (c : Chan) (p : Path) : (pendingNow e c p).1.store = p.store := by
  unfold pendingNow
  split
  · rfl
  · exact (stopNow_tends e c p).store
  · exact (flushNow_tends e c p).store

theorem pendingNow_other {e : Env} {c k : Chan} (h : k ≠ c) (p : Path) :
    (pendingNow e c p).1.chans[k] = p.chans[k] := by
  unfold pendingNow
  split
  · rfl
  · exact stopNow_other h p
  · exact flushNow_other h p

theorem stopNow_closes {e : Env} {c : Chan} {p : Path} {b : CurrentBuffer} (h : (p.chans[c]).current = some b)
    (records : 0 < b.records) (room : (p.chans[c]).closed.length < 4) :
    (stopNow e c p).att.causes.getLsbD 0 = true := by
  rw [stopNow_of_record h records room]; exact close_sets h

theorem flushNow_closes {e : Env} {c : Chan} {p : Path} {b : CurrentBuffer} (h : (p.chans[c]).current = some b)
    (records : 0 < b.records) (room : (p.chans[c]).closed.length < 4) :
    (flushNow e c p).1.att.causes.getLsbD 0 = true := by
  rw [flushNow_done h records room]; exact close_sets (calm_current h)

/-! ## A good completion (R147) -/

theorem wrote_eq {r : Record} {rest : List Record} {b : CurrentBuffer} {ch : Channel} (expiry : Option Nat)
    (queue : ch.queue = r :: rest) (current : ch.current = some b) : wrote r expiry ch =
      { ch with queue := rest, current := some (filled r.size r.tick b), idleExpiry := expiry
                counters := { ch.counters with written := countUp ch.counters.written
                                               bytes := addSat ch.counters.bytes r.size }
                ended := ch.pendingCmd.isNone } := by
  unfold wrote; rw [queue, current]; rfl

/-- The record path once the record `r` of channel `c`, written by `w`, is out: steps 1 to 4 of R147. -/
def writtenPath (e : Env) (c : Chan) (r : Record) (w : LinkWrite) (p : Path) : Path :=
  returnBlocks r.blocks (modChan c (wrote r (idleFrom e.cfg c e.now)) (land w { p with writer := .free }))

theorem completeGood_eq {e : Env} {c : Chan} {run : Nat} {w : LinkWrite} {r : Record} {rest : List Record} {p : Path}
    (writer : p.writer = .holding c run w) (queue : (p.chans[c]).queue = r :: rest) : completeGood e p =
      (choose e c run (p.chans[c]).pendingCmd.isSome (serve e (pendingNow e c (writtenPath e c r w p)).1),
        (pendingNow e c (writtenPath e c r w p)).2) := by
  unfold completeGood; rw [writer]; dsimp only; rw [queue]; rfl

theorem writtenPath_self (e : Env) (c : Chan) (r : Record) (w : LinkWrite) (p : Path) :
    (writtenPath e c r w p).chans[c] = wrote r (idleFrom e.cfg c e.now) p.chans[c] := modChan_self c _ _

theorem writtenPath_other {e : Env} {c k : Chan} (h : k ≠ c) (r : Record) (w : LinkWrite) (p : Path) :
    (writtenPath e c r w p).chans[k] = p.chans[k] := modChan_other h _ _

theorem writtenPath_read {e : Env} {c : Chan} {r : Record} {w : LinkWrite} {p q : Path} {a : Nat}
    (later : Blurs (writtenPath e c r w p) q) (clear : Clear a q.inFlightWrites) : Memory.read q.mem a =
      if w.addr ≤ a ∧ a < w.addr + w.bytes.length then w.bytes[a - w.addr]? else Memory.read p.mem a := by
  rw [later.reads a clear]
  exact land_read w { p with writer := .free } a fun x hx => clear x (later.flight x hx)

/-- Only the holder has something asked: nothing else is judged. -/
theorem serve_of_written {e : Env} {c : Chan} {p : Path} (ended : (p.chans[c]).ended = true)
    (others : ∀ k : Chan, k ≠ c → (p.chans[k]).Ready) : serve e p = p := by
  refine serve_of_still e p fun k => ?_
  by_cases same : k = c
  · subst same; left; unfold busy; rw [ended, Bool.or_true]
  · exact .inr (others k same)

end Path

namespace State

theorem complete_path (f : Env → Path → Path × Option ResultCode) (s : State) :
    (complete f s).path = (f s.env s.path).1 := by unfold complete; dsimp only; split <;> rfl

theorem complete_ctl_some {f : Env → Path → Path × Option ResultCode} {s : State} {r : ResultCode}
    (h : (f s.env s.path).2 = some r) : (complete f s).ctl = { s.ctl with result := r, resultIndex := 0 } := by
  unfold complete; dsimp only; rw [h]; rfl

theorem complete_ctl_none {f : Env → Path → Path × Option ResultCode} {s : State}
    (h : (f s.env s.path).2 = none) : (complete f s).ctl = s.ctl := by unfold complete; dsimp only; rw [h]

end State

namespace Path

theorem completeGood_freed {e : Env} {c : Chan} {r : Record} {w : LinkWrite} {p : Path} :
    (serve e (pendingNow e c (writtenPath e c r w p)).1).writer = .free := by
  rw [serve_writer, pendingNow_writer]; rfl

theorem writtenPath_buffer {e : Env} {c : Chan} {w : LinkWrite} {r : Record} {rest : List Record} {b : CurrentBuffer}
    {p : Path} (queue : (p.chans[c]).queue = r :: rest) (current : (p.chans[c]).current = some b) :
    ((writtenPath e c r w p).chans[c]).current = some (filled r.size r.tick b) := by
  rw [writtenPath_self, wrote_eq _ queue current]

theorem judgedChan_of_halted (w : Bool) (ch : Channel) : judgedChan w (haltedChan ch) = haltedChan ch :=
  judgedChan_of_ne_run (by unfold haltedChan; exact fun h => nomatch h)

theorem judgedChan_of_error {w : Bool} {ch : Channel} (h : ch.state = .error) : judgedChan w ch = ch :=
  judgedChan_of_ne_run (by rw [h]; exact fun h => nomatch h)

section
variable {e : Env} {c : Chan} {run : Nat} {w : LinkWrite} {r : Record} {rest : List Record} {b : CurrentBuffer}
  {p : Path} (writer : p.writer = .holding c run w) (queue : (p.chans[c]).queue = r :: rest)
include writer queue

theorem completeGood_chans :
    (completeGood e p).1.chans = (serve e (pendingNow e c (writtenPath e c r w p)).1).chans := by
  rw [completeGood_eq writer queue, choose_chans]

theorem completeGood_att :
    (completeGood e p).1.att = (serve e (pendingNow e c (writtenPath e c r w p)).1).att := by
  rw [completeGood_eq writer queue, choose_att]

theorem completeGood_store :
    (completeGood e p).1.store = { p.store with free := p.store.free + r.blocks } := by
  rw [completeGood_eq writer queue, choose_store, serve_store, pendingNow_store]; rfl

theorem completeGood_blurs : Blurs (writtenPath e c r w p) (completeGood e p).1 := by
  rw [completeGood_eq writer queue]
  exact ((pendingNow_blurs e c _).trans (serve_blurs e _)).trans
    (choose_blurs e c run _ completeGood_freed)

theorem completeGood_other {k : Chan} (other : k ≠ c) (ready : (p.chans[k]).Ready) :
    (completeGood e p).1.chans[k] = p.chans[k] := by
  have same : (pendingNow e c (writtenPath e c r w p)).1.chans[k] = p.chans[k] :=
    (pendingNow_other other _).trans (writtenPath_other other r w p)
  rw [completeGood_chans writer queue, serve_other (by rw [same]; exact ready), same]

/-- The choice after a good completion (R155, R156), told of the path that it leaves. -/
theorem completeGood_choice :
    (Keeps e c run (p.chans[c]).pendingCmd.isSome (completeGood e p).1 → (completeGood e p).1.FallsTo c (run + 1))
      ∧ (¬ Keeps e c run (p.chans[c]).pendingCmd.isSome (completeGood e p).1 →
          (completeGood e p).1.Grants e.cfg.urgent (if (p.chans[c]).pendingCmd.isSome then some c else none)) := by
  have rule := choose_rule e c run (p.chans[c]).pendingCmd.isSome _
    (completeGood_freed (e := e) (c := c) (r := r) (w := w) (p := p))
  have same : Keeps e c run (p.chans[c]).pendingCmd.isSome (completeGood e p).1
      ↔ Keeps e c run (p.chans[c]).pendingCmd.isSome (serve e (pendingNow e c (writtenPath e c r w p)).1) := by
    unfold Keeps; rw [completeGood_chans writer queue]
  rw [same, completeGood_eq writer queue]
  exact rule

/-- With nothing pending the channel is judged when the instant ends. -/
theorem completeGood_none (current : (p.chans[c]).current = some b) (none : (p.chans[c]).pendingCmd = none) :
    (completeGood e p).2 = Option.none
      ∧ (completeGood e p).1.chans[c] = wrote r (idleFrom e.cfg c e.now) p.chans[c]
      ∧ ((∀ k : Chan, k ≠ c → (p.chans[k]).Ready) → (completeGood e p).1.att = p.att) := by
  have now := pendingNow_of_none (e := e) (p := writtenPath e c r w p) (c := c)
    (by rw [writtenPath_self]; exact none)
  have ended : ((writtenPath e c r w p).chans[c]).ended = true := by
    rw [writtenPath_self, wrote_eq _ queue current, none]; rfl
  refine ⟨by rw [completeGood_eq writer queue, now], ?_, fun ready => ?_⟩
  · rw [completeGood_chans writer queue, now, serve_chan_of_ended ended, writtenPath_self]
  · rw [completeGood_att writer queue, now, serve_of_written ended fun k other => by
      rw [writtenPath_other other]; exact ready k other]
    rfl

/-- A pending STOP takes effect. -/
theorem completeGood_stop (current : (p.chans[c]).current = some b) (stop : (p.chans[c]).pendingCmd = some .stop) :
    (completeGood e p).2 = some .done
      ∧ (completeGood e p).1.chans[c] = haltedChan (if (p.chans[c]).closed.length < 4
          then closedWith .stop (filled r.size r.tick b) (wrote r (idleFrom e.cfg c e.now) p.chans[c])
          else wrote r (idleFrom e.cfg c e.now) p.chans[c]) := by
  have now := pendingNow_of_stop (e := e) (p := writtenPath e c r w p) (c := c)
    (by rw [writtenPath_self]; exact stop)
  have buffer := writtenPath_buffer (e := e) (w := w) queue current
  have closed : ((writtenPath e c r w p).chans[c]).closed = (p.chans[c]).closed := by rw [writtenPath_self]; rfl
  refine ⟨by rw [completeGood_eq writer queue, now], ?_⟩
  rw [completeGood_chans writer queue, now, serve_get]
  by_cases room : (p.chans[c]).closed.length < 4
  · rw [stopNow_of_record buffer (Nat.succ_pos _) (by rw [closed]; exact room), modChan_self, close_self buffer,
      writtenPath_self, if_pos room, judgedChan_of_halted]
  · rw [stopNow_of_rest fun _ _ => .inr (by rw [closed]; exact Nat.not_lt.mp room), modChan_self, writtenPath_self,
      if_neg room, judgedChan_of_halted]

/-- A pending FLUSH takes effect, and the channel is judged. -/
theorem completeGood_flush (current : (p.chans[c]).current = some b) (flush : (p.chans[c]).pendingCmd = some .flush) :
    (completeGood e p).2 = some (if (p.chans[c]).closed.length < 4 then .done else .full)
      ∧ Channel.JudgedTo (if (p.chans[c]).closed.length < 4
          then closedWith .flush (filled r.size r.tick b) (calmChan (wrote r (idleFrom e.cfg c e.now) p.chans[c]))
          else calmChan (wrote r (idleFrom e.cfg c e.now) p.chans[c])) (completeGood e p).1.chans[c] := by
  have now := pendingNow_of_flush (e := e) (p := writtenPath e c r w p) (c := c)
    (by rw [writtenPath_self]; exact flush)
  have buffer := writtenPath_buffer (e := e) (w := w) queue current
  have closed : ((writtenPath e c r w p).chans[c]).closed = (p.chans[c]).closed := by rw [writtenPath_self]; rfl
  have judged : ∀ {q : Path} {ch : Channel}, (flushNow e c (writtenPath e c r w p)).1 = q → q.chans[c] = ch →
      ch.ended = false → ch.JudgedTo (completeGood e p).1.chans[c] := by
    rintro q ch rfl rfl ended
    rw [completeGood_chans writer queue, now]
    exact serve_judges ended (by rw [writing_congr (flushNow_writer e c _) c]; rfl)
  by_cases room : (p.chans[c]).closed.length < 4
  · have done := flushNow_done (e := e) buffer (Nat.succ_pos _) (by rw [closed]; exact room)
    rw [if_pos room, if_pos room]
    exact ⟨by rw [completeGood_eq writer queue, now, done], judged (congrArg Prod.fst done)
      ((close_self (calm_current buffer)).trans (by rw [modChan_self, writtenPath_self])) rfl⟩
  · have full := flushNow_full (e := e) buffer (Nat.succ_pos _) (by rw [closed]; exact Nat.not_lt.mp room)
    rw [if_neg room, if_neg room]
    exact ⟨by rw [completeGood_eq writer queue, now, full], judged (congrArg Prod.fst full)
      ((modChan_self _ _ _).trans (by rw [writtenPath_self])) rfl⟩

theorem completeGood_closes (current : (p.chans[c]).current = some b) (some : (p.chans[c]).pendingCmd ≠ none)
    (room : (p.chans[c]).closed.length < 4) : (completeGood e p).1.att.causes.getLsbD 0 = true := by
  have buffer := writtenPath_buffer (e := e) (w := w) queue current
  have closed : ((writtenPath e c r w p).chans[c]).closed.length < 4 := by rw [writtenPath_self]; exact room
  have command : ((writtenPath e c r w p).chans[c]).pendingCmd = (p.chans[c]).pendingCmd := by rw [writtenPath_self]; rfl
  rw [completeGood_att writer queue]
  refine serve_keepsCauses _ _ 0 ?_
  rw [← command] at some
  cases cmd : ((writtenPath e c r w p).chans[c]).pendingCmd with
  | none => exact absurd cmd some
  | some x =>
    cases x with
    | stop => rw [pendingNow_of_stop cmd]; exact stopNow_closes buffer (Nat.succ_pos _) closed
    | flush => rw [pendingNow_of_flush cmd]; exact flushNow_closes buffer (Nat.succ_pos _) closed

end

end Path

open State Sys2Proof.Machine.Path in
/-- Settles O33: `writtenPath`, then the pending command, the judging and the choice. -/
theorem goodCompletionMovesTheRecordOut : Obligations.GoodCompletionMovesTheRecordOut := by
  intro c run w r rest b s running writer queue current
  have path := complete_path completeGood s
  have attended := completeGood_attended s.env s.path
  have choice := completeGood_choice (e := s.env) writer queue
  have reads := fun a => writtenPath_read (a := a) (completeGood_blurs (e := s.env) writer queue)
  have wrote := wrote_eq (idleFrom s.env.cfg c s.env.now) queue current
  refine ⟨complete completeGood s, answer_of_running (complete completeGood s) running, ?_, ?_, fun none => ?_,
    fun stop => ?_, fun flush => ?_, ?_, ?_, ?_, ?_, ?_, ?_⟩
  · rw [path]
    cases cmd : (s.path.chans[c]).pendingCmd with
    | none =>
      rw [cmd] at choice
      exact ⟨fun keeps => choice.1 ⟨rfl, keeps.2⟩, fun not => choice.2 fun keeps => not ⟨rfl, keeps.2⟩⟩
    | some x =>
      rw [cmd] at choice
      exact ⟨fun keeps => (nomatch keeps.1), fun _ => choice.2 fun keeps => (nomatch keeps.1)⟩
  · rw [path]; exact completeGood_store writer queue
  · obtain ⟨result, chan, _⟩ := completeGood_none (e := s.env) writer queue current none
    exact ⟨complete_ctl_none result, by rw [path, chan, wrote, none]; rfl⟩
  · obtain ⟨result, chan⟩ := completeGood_stop (e := s.env) writer queue current stop
    refine ⟨complete_ctl_some result, fun room => ?_, fun full => ?_⟩
    · rw [path, chan, if_pos room, wrote]; rfl
    · rw [path, chan, if_neg (Nat.not_lt.mpr full), wrote]; rfl
  · obtain ⟨result, judged⟩ := completeGood_flush (e := s.env) writer queue current flush
    rw [wrote] at judged
    refine ⟨complete_ctl_some result, fun room => ?_, fun full => ?_⟩
    · rw [if_pos room] at judged; rw [path]; exact judged
    · rw [if_neg (Nat.not_lt.mpr full)] at judged; rw [path]; exact judged
  · rw [path]; exact fun k other => completeGood_other writer queue other
  · rw [path]; exact attended
  · rw [path]; exact completeGood_closes writer queue current
  · rw [path]; exact fun none => (completeGood_none writer queue current none).2.2
  · rw [path]
    intro k inside clear
    rw [reads _ clear, if_pos (by omega), Nat.add_sub_cancel_left]
  · rw [path]
    intro a out clear
    rw [reads a clear, if_neg (by omega)]

/-! ## A failed completion (R153) -/

namespace Path

/-- The record path once the write `w` of channel `c` has failed: steps 1 and 4 of R153. -/
def failedPath (c : Chan) (r : Record) (w : LinkWrite) (p : Path) : Path :=
  returnBlocks r.blocks (modChan c failed { p with writer := .free, mem := forgetWrite w p.mem })

/-- The ERROR closure, made or owed (R153). -/
def erredPath (e : Env) (c : Chan) (room : Bool) (p : Path) : Path :=
  setCause e .channel (if room then close e c .error p else modChan c (fun ch => { ch with owed := true }) p)

theorem completeFailed_eq {e : Env} {c : Chan} {run : Nat} {w : LinkWrite} {r : Record} {rest : List Record} {p : Path}
    (writer : p.writer = .holding c run w) (queue : (p.chans[c]).queue = r :: rest) : completeFailed e p =
      (choose e c run true (serve e (erredPath e c (hasClosedRoom p.chans[c]) (failedPath c r w p))),
        if (p.chans[c]).pendingCmd.isSome then some .refusedState else none) := by
  unfold completeFailed; rw [writer]; dsimp only; rw [queue]; rfl

theorem failedPath_self (c : Chan) (r : Record) (w : LinkWrite) (p : Path) :
    (failedPath c r w p).chans[c] = failed p.chans[c] := modChan_self c _ _

theorem failedPath_other {c k : Chan} (h : k ≠ c) (r : Record) (w : LinkWrite) (p : Path) :
    (failedPath c r w p).chans[k] = p.chans[k] := modChan_other h _ _

theorem erredPath_writer (e : Env) (c : Chan) (room : Bool) (p : Path) : (erredPath e c room p).writer = p.writer := by
  unfold erredPath; rw [setCause_writer]
  split
  · exact close_writer e c .error p
  · rfl

theorem erredPath_store (e : Env) (c : Chan) (room : Bool) (p : Path) : (erredPath e c room p).store = p.store := by
  unfold erredPath; rw [setCause_store]
  split
  · exact close_store e c .error p
  · rfl

theorem erredPath_other {e : Env} {c k : Chan} (h : k ≠ c) (room : Bool) (p : Path) :
    (erredPath e c room p).chans[k] = p.chans[k] := by
  unfold erredPath; rw [setCause_chans]
  split
  · exact close_other h
  · exact modChan_other h _ p

theorem erredPath_blurs (e : Env) (c : Chan) (room : Bool) (p : Path) : Blurs p (erredPath e c room p) := by
  unfold erredPath
  split
  · exact (close_blurs e c .error p).trans (setCause_blurs e .channel _)
  · exact (modChan_blurs c _ p).trans (setCause_blurs e .channel _)

theorem erredPath_self_of_room {e : Env} {c : Chan} {p : Path} {b : CurrentBuffer} (h : (p.chans[c]).current = some b) :
    (erredPath e c true p).chans[c] = closedWith .error b p.chans[c] := by
  unfold erredPath; rw [setCause_chans]; exact close_self h

theorem erredPath_self_of_full (e : Env) (c : Chan) (p : Path) :
    (erredPath e c false p).chans[c] = { p.chans[c] with owed := true } := by
  unfold erredPath; rw [setCause_chans]; exact modChan_self c _ p

end Path

namespace Path

/-- A holder that has stopped is passed over (R156). -/
theorem choose_grants (e : Env) (c : Chan) (run : Nat) {p : Path} (free : p.writer = .free) :
    (choose e c run true p).Grants e.cfg.urgent (some c) :=
  (choose_rule e c run true p free).2 fun keeps => absurd keeps.1 (by decide)

theorem completeFailed_freed {e : Env} {c : Chan} {r : Record} {w : LinkWrite} {p : Path} :
    (serve e (erredPath e c (hasClosedRoom p.chans[c]) (failedPath c r w p))).writer = .free := by
  rw [serve_writer, erredPath_writer]; rfl

section
variable {e : Env} {c : Chan} {run : Nat} {w : LinkWrite} {r : Record} {rest : List Record} {b : CurrentBuffer}
  {p : Path} (writer : p.writer = .holding c run w) (queue : (p.chans[c]).queue = r :: rest)
include writer queue

theorem completeFailed_chans : (completeFailed e p).1.chans
    = (serve e (erredPath e c (hasClosedRoom p.chans[c]) (failedPath c r w p))).chans := by
  rw [completeFailed_eq writer queue, choose_chans]

theorem completeFailed_att : (completeFailed e p).1.att
    = (serve e (erredPath e c (hasClosedRoom p.chans[c]) (failedPath c r w p))).att := by
  rw [completeFailed_eq writer queue, choose_att]

theorem completeFailed_free : (completeFailed e p).1.store.free = p.store.free + r.blocks := by
  rw [completeFailed_eq writer queue, choose_store, serve_store, erredPath_store]; rfl

theorem completeFailed_grants : (completeFailed e p).1.Grants e.cfg.urgent (some c) := by
  have free := completeFailed_freed (e := e) (c := c) (r := r) (w := w) (p := p)
  rw [completeFailed_eq writer queue]
  dsimp only
  exact choose_grants e c run free

theorem completeFailed_blurs : Blurs (failedPath c r w p) (completeFailed e p).1 := by
  have free := completeFailed_freed (e := e) (c := c) (r := r) (w := w) (p := p)
  have judged := (erredPath_blurs e c (hasClosedRoom p.chans[c]) (failedPath c r w p)).trans (serve_blurs e _)
  rw [completeFailed_eq writer queue]
  dsimp only
  exact judged.trans (choose_blurs e c run true free)

theorem completeFailed_other {k : Chan} (other : k ≠ c) (ready : (p.chans[k]).Ready) :
    (completeFailed e p).1.chans[k] = p.chans[k] := by
  have same : (erredPath e c (hasClosedRoom p.chans[c]) (failedPath c r w p)).chans[k] = p.chans[k] :=
    (erredPath_other other _ _).trans (failedPath_other other r w p)
  rw [completeFailed_chans writer queue, serve_other (by rw [same]; exact ready), same]

/-- The channel stands in ERROR, with its ERROR closure made or owed (R153). -/
theorem completeFailed_self (current : (p.chans[c]).current = some b) : (completeFailed e p).1.chans[c] =
    if (p.chans[c]).closed.length < 4 then closedWith .error b (failed p.chans[c])
    else { failed p.chans[c] with owed := true } := by
  have buffer : ((failedPath c r w p).chans[c]).current = some b := by rw [failedPath_self]; exact current
  rw [completeFailed_chans writer queue, serve_get]
  by_cases room : (p.chans[c]).closed.length < 4
  · rw [hasClosedRoom_iff.mpr room, erredPath_self_of_room buffer, failedPath_self, if_pos room,
      judgedChan_of_error rfl]
  · rw [hasClosedRoom_eq_false (Nat.not_lt.mp room), erredPath_self_of_full, failedPath_self, if_neg room,
      judgedChan_of_error rfl]

theorem completeFailed_causes (current : (p.chans[c]).current = some b) :
    (completeFailed e p).1.att.causes.getLsbD 1 = true
      ∧ ((p.chans[c]).closed.length < 4 → (completeFailed e p).1.att.causes.getLsbD 0 = true) := by
  have buffer : ((failedPath c r w p).chans[c]).current = some b := by rw [failedPath_self]; exact current
  rw [completeFailed_att writer queue]
  refine ⟨serve_keepsCauses _ _ 1 (setCause_sets e .channel _), fun room => serve_keepsCauses _ _ 0 ?_⟩
  rw [hasClosedRoom_iff.mpr room]
  exact setCause_keepsCauses _ _ _ 0 (close_sets buffer)

theorem completeFailed_result : (completeFailed e p).2
    = if (p.chans[c]).pendingCmd.isSome then some .refusedState else none := by
  rw [completeFailed_eq writer queue]

end

end Path

open State Sys2Proof.Machine.Path in
/-- Settles O34: `failedPath`, the closure made or owed, then the judging and the choice. -/
theorem failedCompletionStopsInError : Obligations.FailedCompletionStopsInError := by
  intro c run w r rest b s running writer queue current
  have path := complete_path completeFailed s
  have attended := completeFailed_attended s.env s.path
  have self := completeFailed_self (e := s.env) writer queue current
  have result := completeFailed_result (e := s.env) writer queue
  obtain ⟨channel, closed⟩ := completeFailed_causes (e := s.env) writer queue current
  have tail : (failed s.path.chans[c]).queue = rest := by unfold failed; rw [queue]; rfl
  refine ⟨complete completeFailed s, answer_of_running (complete completeFailed s) running, ?_⟩
  rw [path, self]
  refine ⟨completeFailed_grants writer queue, ?_, ?_, ?_, ?_, ?_, ?_, ?_, completeFailed_free writer queue, channel,
    attended, fun room => ⟨closed room, ?_⟩, fun full => ?_, fun none => complete_ctl_none (by rw [result, none]; rfl),
    fun some => ?_, fun k other => completeFailed_other writer queue other, fun a out clear => ?_⟩
  · split <;> exact tail
  · split <;> rfl
  · split <;> rfl
  · split <;> rfl
  · split <;> rfl
  · split <;> rfl
  · split <;> rfl
  · rw [if_pos room]; exact ⟨rfl, rfl, rfl, rfl⟩
  · rw [if_neg (Nat.not_lt.mpr full)]; exact ⟨rfl, current, rfl⟩
  · obtain ⟨x, cmd⟩ := Option.ne_none_iff_exists'.mp some
    exact complete_ctl_some (by rw [result, cmd]; rfl)
  · rw [(completeFailed_blurs writer queue).reads a clear]
    exact forgetWrite_read w s.path.mem a out

/-! ## An abandoned write (R156) -/

open State Sys2Proof.Machine.Path in
/-- Settles O35: the writer is free, and `serve` judges. -/
theorem abandonedCompletionFreesTheWriter : Obligations.AbandonedCompletionFreesTheWriter := by
  intro w s running writer
  have attended := completeAbandoned_attended s.env s.path
  have eq : completeAbandoned s.env s.path
      = serve s.env { s.path with writer := .free, mem := forgetWrite w s.path.mem } := by
    unfold completeAbandoned; rw [writer]
  have path : (modPath completeAbandoned s).path = completeAbandoned s.env s.path := modPath_path _ s
  refine ⟨modPath completeAbandoned s, answer_of_running _ running, ?_, by rw [path]; exact attended, fun c ready => ?_,
    fun ready => ?_, fun a out clear => ?_⟩
  · have same := eq_of_delivery (p := s.path) (q := completeAbandoned s.env s.path)
      (by rw [eq, serve_store]) (by rw [eq, serve_merge]) (by rw [eq, serve_arb]) (by rw [eq, serve_draws])
    have free : (completeAbandoned s.env s.path).writer = .free := by rw [eq, serve_writer]
    rw [free] at same
    rw [path, ← same]; rfl
  · rw [path, eq]; exact serve_other ready
  · have still := serve_of_still s.env { s.path with writer := .free, mem := forgetWrite w s.path.mem }
      fun c => .inr (ready c)
    rw [path, eq, still]
  · rw [path, eq] at clear ⊢
    rw [(serve_blurs s.env _).reads a clear]
    exact forgetWrite_read w s.path.mem a out

/-! ## The idle timer (R152) -/

namespace Path

theorem idleDue_of_reached {now x : Nat} {ch : Channel} (h : ch.idleExpiry = some x) (due : ticksSince now x < 2 ^ 63) :
    idleDue now ch = true := by unfold idleDue; rw [h]; exact decide_eq_true due

theorem idleExpire_writing {e : Env} {c : Chan} {p : Path} (due : idleDue e.now p.chans[c] = true)
    (w : p.writing c = true) : idleExpire e c p = modChan c (fun ch => { ch with idleExpiry := none }) p := by
  unfold idleExpire; dsimp only; rw [due, if_neg (by simp), if_pos w]

theorem idleExpire_room {e : Env} {c : Chan} {p : Path} (due : idleDue e.now p.chans[c] = true)
    (w : p.writing c = false) (room : (p.chans[c]).closed.length < 4) :
    idleExpire e c p = serve e (close e c .idle p) := by
  unfold idleExpire; dsimp only
  rw [due, if_neg (by simp), w, if_neg Bool.false_ne_true, if_pos (hasClosedRoom_iff.mpr room)]

theorem idleExpire_full {e : Env} {c : Chan} {p : Path} (due : idleDue e.now p.chans[c] = true)
    (w : p.writing c = false) (full : 4 ≤ (p.chans[c]).closed.length) :
    idleExpire e c p = modChan c (fun ch => { ch with idleExpiry := ch.idleExpiry.bind (idleFrom e.cfg c) }) p := by
  unfold idleExpire; dsimp only
  rw [due, if_neg (by simp), w, if_neg Bool.false_ne_true, hasClosedRoom_eq_false full, if_neg Bool.false_ne_true]

end Path

open State Sys2Proof.Machine.Path in
/-- Settles O37: by whether the channel's write is in flight, and whether the closed list has room. -/
theorem idleFlushExpiryCloses : Obligations.IdleFlushExpiryCloses := by
  intro c x s running expiry reached
  have due : idleDue s.env.now s.path.chans[c] = true := idleDue_of_reached expiry reached
  have attended := idleExpire_attended s.env c s.path
  have path : (modPath (fun e => idleExpire e c) s).path = idleExpire s.env c s.path := modPath_path _ s
  have eq : modPath (fun e => idleExpire e c) s = { s with path := idleExpire s.env c s.path } := rfl
  refine ⟨_, answer_of_running _ running, by rw [path]; exact attended, fun w => ?_, fun b w current room => ?_,
    fun w full => ?_⟩
  · rw [eq, idleExpire_writing due w]
    exact ⟨rfl, modChan_self _ _ _⟩
  · have self := close_self (e := s.env) (r := .idle) current
    have writer := close_writer s.env c .idle s.path
    rw [path, idleExpire_room due w room]
    refine ⟨serve_keepsCauses _ _ 0 (close_sets current), by rw [serve_writer, writer], fun calm => ?_, fun ended => ?_⟩
    · have judged := serve_judges (e := s.env) (p := close s.env c .idle s.path) (by rw [self]; exact calm)
        ((writing_congr writer c).trans w)
      rw [self] at judged
      exact judged
    · rw [serve_chan_of_ended (by rw [self]; exact ended), self]; rfl
  · rw [eq, idleExpire_full due w full]
    refine ⟨rfl, ?_⟩
    dsimp only
    rw [modChan_self, expiry]; rfl

end Sys2Proof.Machine
end

section
/-!
SUPPORT. A STOP or FLUSH and a completion of the channel's write at one instant, in either order (R150, R151; log 18).
What the writer's choice after the completion does to the path is an operation that commutes with the command on another
channel; the command takes the choice back where it fell to the channel itself.
-/
namespace Sys2Proof.Machine

/-! ## The canonical form of the sparse lists -/

namespace Sparse

theorem ext_of_rising {α : Type} {l m : List (Nat × α)} (hl : Rising l) (hm : Rising m)
    (h : ∀ k, get? k l = get? k m) : l = m := by
  induction l generalizing m with
  | nil =>
    cases m with
    | nil => rfl
    | cons q m =>
      have := h q.1
      rw [get?, get?, if_pos rfl] at this
      cases this
  | cons p l ih =>
    obtain ⟨j, v⟩ := p
    obtain ⟨hj, hl⟩ := List.pairwise_cons.mp hl
    cases m with
    | nil =>
      have := h j
      rw [get?, get?, if_pos rfl] at this
      cases this
    | cons q m =>
      obtain ⟨i, w⟩ := q
      obtain ⟨hi, hTail⟩ := List.pairwise_cons.mp hm
      have keys : j = i := by
        rcases lt_trichotomy j i with lt | same | gt
        · have at_j := h j
          rw [get?, if_pos rfl, get?, if_neg (by omega), get?_none_of_lt fun p hp => lt.trans (hi p hp)] at at_j
          cases at_j
        · exact same
        · have at_i := h i
          rw [get?, if_neg (by omega), get?_none_of_lt fun p hp => gt.trans (hj p hp), get?, if_pos rfl] at at_i
          cases at_i
      subst keys
      have at_j := h j
      rw [get?, get?, if_pos rfl, if_pos rfl] at at_j
      cases at_j
      refine congrArg ((j, v) :: ·) (ih hl hTail fun k => ?_)
      by_cases same : k = j
      · subst same; rw [get?_none_of_lt hj, get?_none_of_lt hi]
      · have at_k := h k
        rw [get?, get?, if_neg (Ne.symm same), if_neg (Ne.symm same)] at at_k
        exact at_k

end Sparse

namespace Memory

theorem read_eq (m : List Host.Cell) (a : Nat) : read m a = Sparse.get? a m := by
  unfold read unlisted; cases Sparse.get? a m <;> rfl

theorem ext_of_wf {l m : List Host.Cell} (hl : wf l) (hm : wf m) (h : ∀ a, read l a = read m a) : l = m :=
  Sparse.ext_of_rising hl hm fun a => by rw [← read_eq, ← read_eq, h a]

theorem read_forget (a n x : Nat) {m : List Host.Cell} (h : wf m) :
    read (forget a n m) x = if a ≤ x ∧ x < a + n then none else read m x := by
  induction n generalizing a m with
  | zero => rw [if_neg (by omega)]; rfl
  | succ n ih =>
    rw [forget, ih (a + 1) (Sparse.erase_rising a h)]
    by_cases later : a + 1 ≤ x ∧ x < a + 1 + n
    · rw [if_pos later, if_pos (by omega)]
    · rw [if_neg later, read_eq, Sparse.get?_erase a x h]
      by_cases same : x = a
      · rw [if_pos same, if_pos (by omega)]
      · rw [if_neg same, if_neg (by omega), read_eq]

end Memory

namespace Path

/-- Every byte under one of the writes is forgotten. -/
def forgetAll (ws : List LinkWrite) (m : List Host.Cell) : List Host.Cell := ws.foldl (fun m w => forgetWrite w m) m

theorem forgetAll_wf (ws : List LinkWrite) {m : List Host.Cell} (h : Memory.wf m) : Memory.wf (forgetAll ws m) :=
  foldl_keeps Memory.wf _ ws m (fun _ w _ h => forgetWrite_wf w h) h

theorem forgetAll_read_inside (ws : List LinkWrite) {m : List Host.Cell} (h : Memory.wf m) (a : Nat)
    (under : Memory.read m a = none ∨ ¬ Clear a ws) : Memory.read (forgetAll ws m) a = none := by
  induction ws generalizing m with
  | nil => exact under.resolve_right fun no => no fun _ hx => nomatch hx
  | cons w ws ih =>
    refine ih (forgetWrite_wf w h) ?_
    unfold forgetWrite
    rw [Memory.read_forget _ _ _ h]
    by_cases inside : w.addr ≤ a ∧ a < w.addr + w.bytes.length
    · rw [if_pos inside]; exact .inl rfl
    · rw [if_neg inside]
      refine under.imp id fun no clear => no fun x hx => ?_
      rcases List.mem_cons.mp hx with rfl | hx
      · omega
      · exact clear x hx

/-- What is known once some writes are forgotten depends on the bytes under them alone. -/
theorem forgetAll_eq {ws vs : List LinkWrite} {m : List Host.Cell} (h : Memory.wf m)
    (same : ∀ a, Clear a ws ↔ Clear a vs) : forgetAll ws m = forgetAll vs m := by
  refine Memory.ext_of_wf (forgetAll_wf ws h) (forgetAll_wf vs h) fun a => ?_
  by_cases clear : Clear a ws
  · exact (read_forgetWrites ws m a clear).trans (read_forgetWrites vs m a ((same a).mp clear)).symm
  · rw [forgetAll_read_inside ws h a (.inr clear),
      forgetAll_read_inside vs h a (.inr fun no => clear ((same a).mpr no))]

theorem forgetAll_append (ws vs : List LinkWrite) (m : List Host.Cell) :
    forgetAll (ws ++ vs) m = forgetAll vs (forgetAll ws m) := List.foldl_append

/-! ## The writer's choice beside an operation on another channel -/

/-- The writer issues `w` for `k`. -/
def lend (k : Chan) (run : Nat) (w : LinkWrite) (p : Path) : Path := blur { p with writer := .holding k run w }

theorem issueMessage_lend (e : Env) (k : Chan) (run : Nat) (w : LinkWrite) {p : Path} (free : p.writer = .free)
    (none : p.att.message = none) (canon : Memory.wf p.mem) :
    issueMessage e (lend k run w p) = lend k run w (issueMessage e p) := by
  obtain ⟨store, merge, arb, chans, writer, ⟨causes, enables, armed, message, waiting⟩, mem, draws⟩ := p
  obtain rfl : writer = .free := free
  obtain rfl : message = Option.none := none
  have both : forgetAll [w, messageOf e.cfg] (forgetAll [w] mem)
      = forgetAll [w, messageOf e.cfg] (forgetAll [messageOf e.cfg] mem) := by
    rw [← forgetAll_append, ← forgetAll_append]
    refine forgetAll_eq canon fun a => ?_
    unfold Clear
    simp only [List.cons_append, List.nil_append, List.forall_mem_cons]
    tauto
  exact congrArg (fun mem => Path.mk store merge arb chans (.holding k run w)
    ⟨causes, enables, armed, some (messageOf e.cfg), waiting⟩ mem draws) both

theorem trySend_of_free {e : Env} {p : Path} (due : p.sendDue = true) (none : p.att.message = none) :
    trySend e p = issueMessage e { p with att := { p.att with armed := false } } := by
  unfold trySend; dsimp only; rw [if_pos due, none]

theorem trySend_of_busy {e : Env} {p : Path} (due : p.sendDue = true) (some : p.att.message ≠ none) :
    trySend e p = { p with att := { p.att with armed := false, waiting := true } } := by
  obtain ⟨w, h⟩ := Option.ne_none_iff_exists'.mp some
  unfold trySend; dsimp only; rw [if_pos due, h]

theorem trySend_lend (e : Env) (k : Chan) (run : Nat) (w : LinkWrite) {p : Path} (free : p.writer = .free)
    (canon : Memory.wf p.mem) : trySend e (lend k run w p) = lend k run w (trySend e p) := by
  have same : (lend k run w p).sendDue = p.sendDue := rfl
  by_cases due : p.sendDue = true
  · by_cases none : p.att.message = none
    · rw [trySend_of_free due none, trySend_of_free (same.trans due) none]
      exact issueMessage_lend e k run w (p := { p with att := { p.att with armed := false } }) free none canon
    · rw [trySend_of_busy due none, trySend_of_busy (same.trans due) none]; rfl
  · rw [Bool.not_eq_true] at due
    rw [trySend_of_calm due, trySend_of_calm (same.trans due)]

theorem lend_setCause (e : Env) (x : Cause) (k : Chan) (run : Nat) (w : LinkWrite) {p : Path} (free : p.writer = .free)
    (canon : Memory.wf p.mem) : lend k run w (setCause e x p) = setCause e x (lend k run w p) :=
  (trySend_lend e k run w (p := { p with att := { p.att with causes := p.att.causes ||| x.mask } }) free canon).symm

/-- The writer is marked as fallen to `k`, whose write is issued when the instant ends. -/
def mark (k : Chan) (run : Nat) (p : Path) : Path := { p with writer := .granted k run }

theorem mark_setCause (e : Env) (x : Cause) (k : Chan) (run : Nat) {p : Path} (free : p.writer = .free) :
    mark k run (setCause e x p) = setCause e x (mark k run p) := by
  obtain ⟨store, merge, arb, chans, writer, ⟨causes, enables, armed, message, waiting⟩, mem, draws⟩ := p
  obtain rfl : writer = .free := free
  unfold setCause trySend mark
  dsimp only
  unfold sendDue
  dsimp only
  split
  · cases message <;> rfl
  · rfl

/-- An operation on the writer that commutes with what a command makes of channel `c`. -/
structure Lends (e : Env) (c : Chan) (g : Path → Path) : Prop where
  chans : ∀ p, (g p).chans = p.chans
  writing : ∀ p, p.writer = .free → (g p).writing c = false
  modChan : ∀ f p, g (modChan c f p) = modChan c f (g p)
  setCause : ∀ x p, p.writer = .free → Memory.wf p.mem → g (setCause e x p) = setCause e x (g p)

theorem Lends.same (e : Env) (c : Chan) : Lends e c id :=
  ⟨fun _ => rfl, fun p free => by unfold Path.writing; rw [id, free], fun _ _ => rfl, fun _ _ _ _ => rfl⟩

theorem Lends.mark (e : Env) (c k : Chan) (run : Nat) : Lends e c (mark k run) :=
  ⟨fun _ => rfl, fun _ _ => rfl, fun _ _ => rfl, fun x _ free _ => mark_setCause e x k run free⟩

/-- The writer issues the write `o`, if there is one. -/
def issuing (k : Chan) (run : Nat) (o : Option LinkWrite) (p : Path) : Path :=
  match o with
  | some w => lend k run w p
  | none => p

theorem issue_eq_issuing (k : Chan) (run : Nat) (p : Path) : issue k run p = issuing k run (writeOf p.chans[k]) p := by
  unfold issue issuing
  cases writeOf p.chans[k] <;> rfl

theorem give_congr {k : Chan} {run : Nat} {p : Path} (ch : Channel) (h : p.chans[k] = ch) :
    give k run p = if ch.ended then mark k run p else issuing k run (writeOf ch) p := by
  subst h
  unfold give
  rw [issue_eq_issuing]
  rfl

theorem Lends.issuing (e : Env) {c k : Chan} (h : k ≠ c) (run : Nat) (o : Option LinkWrite) :
    Lends e c (issuing k run o) := by
  cases o with
  | none => exact .same e c
  | some w =>
    exact ⟨fun _ => rfl, fun _ _ => beq_eq_false_iff_ne.mpr h, fun _ _ => rfl,
      fun x _ free canon => lend_setCause e x k run w free canon⟩

/-- A choice that falls to another channel. -/
theorem Lends.give (e : Env) {c k : Chan} (h : k ≠ c) (run : Nat) : Lends e c (give k run) where
  chans := give_chans k run
  writing p free := by
    rw [give_congr p.chans[k] rfl]
    split
    · rfl
    · exact (Lends.issuing e h run _).writing p free
  modChan f p := by
    rw [give_congr p.chans[k] (modChan_other h f p), give_congr (p := p) p.chans[k] rfl]
    split
    · rfl
    · exact (Lends.issuing e h run _).modChan f p
  setCause x p free canon := by
    rw [give_congr p.chans[k] (by rw [setCause_chans]), give_congr (p := p) p.chans[k] rfl]
    split
    · exact mark_setCause e x k run free
    · exact (Lends.issuing e h run _).setCause x p free canon

namespace Lends

section
variable {e : Env} {c : Chan} {g : Path → Path} (lends : Lends e c g) {p : Path} (free : p.writer = .free)
  (canon : Memory.wf p.mem)
include lends free canon

theorem close (r : ClosureReason) : g (close e c r p) = Path.close e c r (g p) := by
  unfold Path.close
  rw [lends.chans]
  split
  · rfl
  · rw [← lends.modChan]; exact lends.setCause _ _ free canon

theorem stall (r : StallReason) : g (stall e c r p) = Path.stall e c r (g p) := by
  unfold Path.stall
  rw [← lends.modChan]; exact lends.setCause _ _ free canon

theorem stallIfNoBuffer : g (stallIfNoBuffer e c p) = Path.stallIfNoBuffer e c (g p) := by
  unfold Path.stallIfNoBuffer
  rw [lends.chans]
  split
  · exact lends.stall free canon _
  · rfl

theorem judge : g (judge e c p) = Path.judge e c (g p) := by
  have writing : (g p).writing c = p.writing c := by
    rw [lends.writing p free]; unfold Path.writing; rw [free]
  have busy : (g p).busy c = p.busy c := by unfold Path.busy; rw [writing, lends.chans]
  unfold Path.judge
  dsimp only
  rw [busy, lends.chans]
  split
  · split
    · rfl
    · exact lends.stall free canon _
    · split
      · rfl
      · split
        · rw [← lends.close free canon]
          exact lends.stallIfNoBuffer (by rw [close_writer]; exact free) (close_wf e c .full canon)
        · exact lends.stall free canon _
  · rfl

theorem stopNow : g (stopNow e c p) = Path.stopNow e c (g p) := by
  unfold Path.stopNow
  dsimp only
  rw [lends.chans, lends.modChan]
  split
  · rw [lends.close free canon]
  · rfl

theorem flushNow : Path.flushNow e c (g p) = (g (flushNow e c p).1, (flushNow e c p).2) := by
  unfold Path.flushNow
  dsimp only
  rw [lends.chans]
  split
  · rw [lends.modChan]
  · split
    · rw [← lends.modChan, ← lends.close (p := Path.modChan c _ p) free canon]
    · rw [lends.modChan]

end

end Lends

/-! ## Judging one channel -/

theorem foldl_judge {e : Env} {c : Chan} (l : List Chan) (nodup : l.Nodup) (p : Path)
    (others : ∀ k : Chan, k ≠ c → (p.chans[k]).Ready) :
    l.foldl (fun p k => judge e k p) p = if c ∈ l then judge e c p else p := by
  induction l generalizing p with
  | nil => rfl
  | cons k l ih =>
    obtain ⟨notIn, nodup⟩ := List.nodup_cons.mp nodup
    rw [List.foldl_cons]
    by_cases same : k = c
    · subst same
      rw [ih nodup _ fun j other => by rw [judge_get, if_neg other]; exact others j other, if_neg notIn,
        if_pos List.mem_cons_self]
    · rw [judge_of_still e k p (.inr (others k same)), ih nodup p others]
      simp only [List.mem_cons, Ne.symm same, false_or]

/-- Where R148 asks nothing of the other channels, one channel is judged. -/
theorem serve_eq_judge {e : Env} {c : Chan} {p : Path} (others : ∀ k : Chan, k ≠ c → (p.chans[k]).Ready) :
    serve e p = judge e c p := (foldl_judge allChans allChans_nodup p others).trans (if_pos (mem_allChans c))

theorem Lends.serve {e : Env} {c : Chan} {g : Path → Path} (lends : Lends e c g) {p : Path} (free : p.writer = .free)
    (canon : Memory.wf p.mem) (others : ∀ k : Chan, k ≠ c → (p.chans[k]).Ready) :
    g (serve e p) = Path.serve e (g p) := by
  rw [serve_eq_judge others, serve_eq_judge (by rw [lends.chans]; exact others), lends.judge free canon]

/-! ## A command before or after the completion -/

theorem modChan_modChan (c : Chan) (f g : Channel → Channel) (p : Path) :
    modChan c f (modChan c g p) = modChan c (fun ch => f (g ch)) p := by
  unfold modChan
  refine congrArg (fun chans => { p with chans := chans }) (Vector.ext fun i hi => ?_)
  have both := updAt_get (updAt p.chans c g) c ⟨i, hi⟩ f
  have one := updAt_get p.chans c ⟨i, hi⟩ fun ch => f (g ch)
  rw [updAt_self] at both
  refine both.trans (Eq.trans ?_ one.symm)
  split
  · rfl
  · rename_i other; exact updAt_ne _ _ other

theorem setCause_modChan (e : Env) (x : Cause) (c : Chan) (f : Channel → Channel) (p : Path) :
    setCause e x (modChan c f p) = modChan c f (setCause e x p) := by
  obtain ⟨store, merge, arb, chans, writer, ⟨causes, enables, armed, message, waiting⟩, mem, draws⟩ := p
  unfold setCause trySend modChan
  dsimp only
  unfold sendDue
  dsimp only
  split
  · cases message <;> rfl
  · rfl

theorem close_calm (e : Env) (c : Chan) (r : ClosureReason) (p : Path) :
    close e c r (modChan c calmChan p) = modChan c calmChan (close e c r p) := by
  have current : ((modChan c calmChan p).chans[c]).current = (p.chans[c]).current := by rw [modChan_self]; rfl
  unfold close
  rw [current]
  cases (p.chans[c]).current with
  | none => rfl
  | some b =>
    dsimp only
    rw [← setCause_modChan, modChan_modChan, modChan_modChan]; rfl

/-- What waits at the channel and what is left of its completion make no difference to a STOP that takes effect. -/
theorem stopNow_calm (e : Env) (c : Chan) (p : Path) : stopNow e c (modChan c calmChan p) = stopNow e c p := by
  have self : (modChan c calmChan p).chans[c] = calmChan p.chans[c] := modChan_self _ _ _
  have holds : holdsRecord (calmChan p.chans[c]) = holdsRecord p.chans[c] := rfl
  have room : hasClosedRoom (calmChan p.chans[c]) = hasClosedRoom p.chans[c] := rfl
  unfold stopNow
  dsimp only
  rw [self, holds, room]
  split
  · rw [close_calm, modChan_modChan]; rfl
  · rw [modChan_modChan]; rfl

theorem flushNow_calm (e : Env) (c : Chan) (p : Path) : flushNow e c (modChan c calmChan p) = flushNow e c p := by
  have self : (modChan c calmChan p).chans[c] = calmChan p.chans[c] := modChan_self _ _ _
  have holds : holdsRecord (calmChan p.chans[c]) = holdsRecord p.chans[c] := rfl
  have room : hasClosedRoom (calmChan p.chans[c]) = hasClosedRoom p.chans[c] := rfl
  have calm : modChan c (fun ch => { ch with pendingCmd := none, ended := false }) (modChan c calmChan p)
      = modChan c (fun ch => { ch with pendingCmd := none, ended := false }) p := modChan_modChan c _ _ p
  unfold flushNow
  dsimp only
  rw [self, holds, room, calm]

/-- What STOP or FLUSH does when it takes effect, with its result (R150, R151). -/
def effectNow (e : Env) (c : Chan) (x : ChanCommand) (p : Path) : Path × ResultCode :=
  match x with
  | .stop => (stopNow e c p, .done)
  | .flush => flushNow e c p

theorem effectNow_calm (e : Env) (c : Chan) (x : ChanCommand) (p : Path) :
    effectNow e c x (modChan c calmChan p) = effectNow e c x p := by
  cases x with
  | stop => exact congrArg (·, ResultCode.done) (stopNow_calm e c p)
  | flush => exact flushNow_calm e c p

theorem pendingNow_of_some {e : Env} {c : Chan} {x : ChanCommand} {p : Path} (h : (p.chans[c]).pendingCmd = some x) :
    pendingNow e c p = ((effectNow e c x p).1, some (effectNow e c x p).2) := by
  cases x with
  | stop => exact pendingNow_of_stop h
  | flush => exact pendingNow_of_flush h

theorem effectNow_writer (e : Env) (c : Chan) (x : ChanCommand) (p : Path) :
    (effectNow e c x p).1.writer = p.writer := by
  cases x with
  | stop => exact stopNow_writer e c p
  | flush => exact flushNow_writer e c p

theorem effectNow_tends (e : Env) (c : Chan) (x : ChanCommand) (p : Path) : Tends p (effectNow e c x p).1 := by
  cases x with
  | stop => exact stopNow_tends e c p
  | flush => exact flushNow_tends e c p

theorem effectNow_wf (e : Env) (c : Chan) (x : ChanCommand) {p : Path} (h : Memory.wf p.mem) :
    Memory.wf (effectNow e c x p).1.mem := by
  cases x with
  | stop => exact (stopNow_moves e c p).canon h
  | flush => exact (flushNow_moves e c p).canon h

theorem effectNow_other {e : Env} {c k : Chan} (h : k ≠ c) (x : ChanCommand) (p : Path) :
    (effectNow e c x p).1.chans[k] = p.chans[k] := by
  cases x with
  | stop => exact stopNow_other h p
  | flush => exact flushNow_other h p

theorem Lends.effectNow {e : Env} {c : Chan} {g : Path → Path} (lends : Lends e c g) (x : ChanCommand) {p : Path}
    (free : p.writer = .free) (canon : Memory.wf p.mem) :
    effectNow e c x (g p) = (g (Path.effectNow e c x p).1, (Path.effectNow e c x p).2) := by
  cases x with
  | stop => exact congrArg (·, ResultCode.done) (lends.stopNow free canon).symm
  | flush => exact lends.flushNow free canon

/-- The channel with a STOP or FLUSH pending. -/
def pended (c : Chan) (x : ChanCommand) (p : Path) : Path := modChan c (fun ch => { ch with pendingCmd := some x }) p

theorem writtenPath_calm (e : Env) (c : Chan) (r : Record) (w : LinkWrite) (x : ChanCommand) (p : Path) :
    modChan c calmChan (writtenPath e c r w (pended c x p)) = modChan c calmChan (writtenPath e c r w p) := by
  have form : ∀ q, writtenPath e c r w q = modChan c (wrote r (idleFrom e.cfg c e.now))
      (returnBlocks r.blocks (land w { q with writer := .free })) := fun _ => rfl
  have pend : returnBlocks r.blocks (land w { pended c x p with writer := .free }) = modChan c
      (fun ch => { ch with pendingCmd := some x }) (returnBlocks r.blocks (land w { p with writer := .free })) := rfl
  rw [form, form, pend, modChan_modChan, modChan_modChan, modChan_modChan]; rfl

theorem choose_stopped (e : Env) (c : Chan) (run : Nat) (p : Path) : choose e c run true p = grant e (some c) p := by
  unfold choose
  rw [Bool.not_true, Bool.false_and, Bool.false_and, Bool.false_and]; rfl

/-- The completion after the command: the pending command takes effect. -/
theorem completeGood_pended {e : Env} {c : Chan} {run : Nat} {w : LinkWrite} {r : Record} {rest : List Record} {p : Path}
    (x : ChanCommand) (writer : p.writer = .holding c run w) (queue : (p.chans[c]).queue = r :: rest) :
    completeGood e (pended c x p) = (grant e (some c) (serve e (effectNow e c x (writtenPath e c r w p)).1),
      some (effectNow e c x (writtenPath e c r w p)).2) := by
  have pend : ((pended c x p).chans[c]).pendingCmd = some x := by unfold pended; rw [modChan_self]
  have command : ((writtenPath e c r w (pended c x p)).chans[c]).pendingCmd = some x := by
    rw [writtenPath_self]; exact pend
  have eq := completeGood_eq (e := e) (p := pended c x p) writer
    (show ((pended c x p).chans[c]).queue = r :: rest by unfold pended; rw [modChan_self]; exact queue)
  have effect : effectNow e c x (writtenPath e c r w (pended c x p)) = effectNow e c x (writtenPath e c r w p) := by
    rw [← effectNow_calm, writtenPath_calm, effectNow_calm]
  rw [pend, Option.isSome_some, choose_stopped, pendingNow_of_some command, effect] at eq
  exact eq

/-! ### The choice that the command takes back or leaves -/

theorem grant_of_some {e : Env} {passed : Option Chan} {p : Path} {k : Chan}
    (h : (requester e passed true p).or (requester e passed false p) = some k) : grant e passed p = give k 1 p := by
  unfold grant; rw [h]

theorem grant_of_none {e : Env} {passed : Option Chan} {p : Path}
    (h : (requester e passed true p).or (requester e passed false p) = none) : grant e passed p = p := by
  unfold grant; rw [h]

theorem find?_without {α : Type} {p q : α → Bool} {l : List α} (sub : ∀ j, q j = true → p j = true) {o : Option α}
    (h : l.find? p = o) (keep : ∀ k, o = some k → q k = true) : l.find? q = o := by
  cases o with
  | none =>
    rw [List.find?_eq_none] at h ⊢
    exact fun j hj hq => h j hj (sub j hq)
  | some k =>
    rw [List.find?_eq_some_iff_append] at h ⊢
    obtain ⟨_, as, bs, split, before⟩ := h
    refine ⟨keep k rfl, as, bs, split, fun a ha => ?_⟩
    have no := before a ha
    rw [Bool.not_eq_true'] at no ⊢
    exact Bool.eq_false_iff.mpr fun hq => absurd (sub a hq) (by rw [no]; decide)

/-- Passing over a channel that a class does not choose leaves that class's choice. -/
theorem requester_without {e : Env} {c : Chan} {u : Bool} {p q : Path} (same : ∀ k : Chan, k ≠ c → q.chans[k] = p.chans[k])
    (other : requester e none u p ≠ some c) : requester e (some c) u q = requester e none u p := by
  refine find?_without (l := allChans) (fun j hj => ?_) rfl fun k hk => ?_
  · simp only [Bool.and_eq_true, bne_iff_ne, ne_eq, Option.some.injEq] at hj
    obtain ⟨⟨wants, urgent⟩, differs⟩ := hj
    rw [same j (Ne.symm differs)] at wants
    simp only [wants, urgent, Bool.true_and]
    rfl
  · have found := List.find?_some hk
    have differs : k ≠ c := fun h => other (h ▸ hk)
    simp only [Bool.and_eq_true] at found
    obtain ⟨⟨wants, urgent⟩, _⟩ := found
    rw [← same k differs] at wants
    simp only [wants, urgent, Bool.true_and, bne_iff_ne, ne_eq, Option.some.injEq]
    exact Ne.symm differs

theorem requesters_without {e : Env} {c : Chan} {p q : Path} (same : ∀ k : Chan, k ≠ c → q.chans[k] = p.chans[k])
    (other : (requester e none true p).or (requester e none false p) ≠ some c) :
    (requester e (some c) true q).or (requester e (some c) false q)
      = (requester e none true p).or (requester e none false p) := by
  cases urgent : requester e none true p with
  | some k =>
    rw [urgent] at other
    rw [requester_without same (by rw [urgent]; exact other), urgent]; rfl
  | none =>
    rw [urgent] at other
    rw [requester_without same (by rw [urgent]; exact fun h => nomatch h), requester_without same other, urgent]

theorem revoke_mark {e : Env} {c : Chan} {run : Nat} {p : Path} (free : p.writer = .free) :
    revoke e c (mark c run p) = grant e (some c) p := by
  obtain ⟨store, merge, arb, chans, writer, att, mem, draws⟩ := p
  obtain rfl : writer = .free := free
  exact if_pos rfl

theorem revoke_of_kept {e : Env} {c : Chan} {p : Path} (h : ∀ run, p.writer ≠ .granted c run) : revoke e c p = p := by
  unfold revoke
  split
  · rename_i d run writer
    exact if_neg fun same : d = c => h run (same ▸ writer)
  all_goals rfl

theorem give_kept {k c : Chan} (h : k ≠ c) {run : Nat} {p : Path} (free : p.writer = .free) (n : Nat) :
    (give k run p).writer ≠ .granted c n := by
  rw [give_congr p.chans[k] rfl]
  split
  · exact fun same => h (Writer.granted.inj same).1
  · cases writeOf p.chans[k] with
    | none => exact fun same => nomatch free.symm.trans same
    | some w => exact fun same => nomatch (show Writer.holding k run w = .granted c n from same)

/-- What the choice does after a good completion with nothing pending: it falls to the channel itself, to another, or to
none. -/
theorem choose_falls {e : Env} {c : Chan} (run : Nat) {p : Path} (ended : (p.chans[c]).ended = true) :
    (∃ n, choose e c run false p = mark c n p)
      ∨ (∃ k, k ≠ c ∧ choose e c run false p = give k 1 p
          ∧ (requester e none true p).or (requester e none false p) = some k)
      ∨ (choose e c run false p = p ∧ (requester e none true p).or (requester e none false p) = none) := by
  have falls : ∀ n, give c n p = mark c n p := fun n => (give_congr p.chans[c] rfl).trans (if_pos ended)
  unfold choose
  split
  · exact .inl ⟨run + 1, falls _⟩
  · rw [if_neg Bool.false_ne_true]
    cases asks : (requester e none true p).or (requester e none false p) with
    | none => exact .inr (.inr ⟨grant_of_none asks, rfl⟩)
    | some k =>
      rw [grant_of_some asks]
      by_cases same : k = c
      · subst same; exact .inl ⟨1, falls 1⟩
      · exact .inr (.inl ⟨k, same, rfl, rfl⟩)

/-- The command after the choice leads where the choice after the command leads. -/
theorem effect_after_choice {e : Env} {c : Chan} (run : Nat) (x : ChanCommand) {p : Path} (free : p.writer = .free)
    (canon : Memory.wf p.mem) (ended : (p.chans[c]).ended = true) (others : ∀ k : Chan, k ≠ c → (p.chans[k]).Ready) :
    (choose e c run false p).writing c = false
      ∧ revoke e c (serve e (effectNow e c x (choose e c run false p)).1)
          = grant e (some c) (serve e (effectNow e c x p).1)
      ∧ (effectNow e c x (choose e c run false p)).2 = (effectNow e c x p).2 := by
  generalize after : serve e (effectNow e c x p).1 = r
  have freeAfter : r.writer = .free := by rw [← after, serve_writer, effectNow_writer, free]
  have same : ∀ k : Chan, k ≠ c → r.chans[k] = p.chans[k] := fun k other => by
    have kept := effectNow_other (e := e) other x p
    rw [← after, serve_other (by rw [kept]; exact others k other), kept]
  have commutes : ∀ {g : Path → Path}, Lends e c g → (g p).writing c = false
      ∧ serve e (effectNow e c x (g p)).1 = g r ∧ (effectNow e c x (g p)).2 = (effectNow e c x p).2 := by
    intro g lends
    have eq := lends.effectNow x free canon
    refine ⟨lends.writing p free, ?_, by rw [eq]⟩
    rw [eq, ← after, lends.serve (by rw [effectNow_writer, free]) (effectNow_wf e c x canon) fun k other => by
      rw [effectNow_other other]; exact others k other]
  rcases choose_falls (e := e) run ended with ⟨n, eq⟩ | ⟨k, other, eq, asks⟩ | ⟨eq, asks⟩
  · obtain ⟨writing, served, result⟩ := commutes (Lends.mark e c c n)
    rw [eq, served]
    exact ⟨writing, revoke_mark freeAfter, result⟩
  · obtain ⟨writing, served, result⟩ := commutes (Lends.give e other 1)
    have asked := requesters_without (e := e) same (by rw [asks]; exact fun h => other (Option.some.inj h))
    rw [eq, served, revoke_of_kept (give_kept other freeAfter), grant_of_some (asked.trans asks)]
    exact ⟨writing, rfl, result⟩
  · obtain ⟨writing, served, result⟩ := commutes (Lends.same e c)
    have asked := requesters_without (e := e) same (by rw [asks]; exact fun h => nomatch h)
    rw [id, id] at served
    rw [eq, served, revoke_of_kept (fun run h => nomatch freeAfter.symm.trans h), grant_of_none (asked.trans asks)]
    exact ⟨writing, rfl, rfl⟩

end Path

namespace State

/-- The command register's command for `x`. -/
def commandOf (c : Chan) : ChanCommand → Instr
  | .stop => .stopChannel c
  | .flush => .flushChannel c

end State

namespace Path

/-- STOP or FLUSH of a channel in RUN. -/
def commandChan (e : Env) (c : Chan) : ChanCommand → Path → Path × ResultCode
  | .stop => stopChan e c
  | .flush => flushChan e c

theorem commandChan_writing {e : Env} {c : Chan} (x : ChanCommand) {p : Path} (run : (p.chans[c]).state = .run)
    (w : p.writing c = true) : commandChan e c x p = (pended c x p, .pending) := by
  cases x with
  | stop => exact (stopChan_taken (.inl run)).trans (if_pos w)
  | flush =>
    exact (flushChan_taken (by rw [run]; exact fun h => nomatch h) (by rw [run]; exact fun h => nomatch h)).trans
      (if_pos w)

theorem commandChan_now {e : Env} {c : Chan} (x : ChanCommand) {p : Path} (run : (p.chans[c]).state = .run)
    (w : p.writing c = false) (others : ∀ k : Chan, k ≠ c → (p.chans[k]).Ready) : commandChan e c x p =
      (revoke e c (serve e (effectNow e c x p).1), (effectNow e c x p).2) := by
  cases x with
  | stop =>
    have still : serve e (stopNow e c p) = stopNow e c p := by
      refine serve_of_still e _ fun k => .inr ?_
      by_cases same : k = c
      · subst same
        obtain ⟨q, halts, _⟩ := stopNow_halts e k p
        rw [halts, modChan_self]
        exact fun running => nomatch (show ChanState.stopped = .run from running)
      · rw [stopNow_other same]; exact others k same
    refine (stopChan_taken (.inl run)).trans ((if_neg (by rw [w]; decide)).trans ?_)
    unfold effectNow
    rw [still]
  | flush =>
    exact (flushChan_taken (by rw [run]; exact fun h => nomatch h) (by rw [run]; exact fun h => nomatch h)).trans
      (if_neg (by rw [w]; decide))

theorem commandChan_error {e : Env} {c : Chan} (x : ChanCommand) {p : Path} (error : (p.chans[c]).state = .error) :
    commandChan e c x p = (p, .refusedState) := by
  cases x with
  | stop => exact stopChan_refused (.inr (.inr error))
  | flush => exact flushChan_refused (.inr error)

theorem failedPath_pended (c : Chan) (r : Record) (w : LinkWrite) (x : ChanCommand) (p : Path) :
    failedPath c r w (pended c x p) = failedPath c r w p := by
  have form : ∀ q : Path, failedPath c r w q = modChan c failed
      (returnBlocks r.blocks { q with writer := .free, mem := forgetWrite w q.mem }) := fun _ => rfl
  have pend : returnBlocks r.blocks { pended c x p with writer := .free, mem := forgetWrite w (pended c x p).mem }
      = modChan c (fun ch => { ch with pendingCmd := some x })
        (returnBlocks r.blocks { p with writer := .free, mem := forgetWrite w p.mem }) := rfl
  rw [form, form, pend, modChan_modChan]; rfl

/-- A failed completion ends in one path, whatever waited for it. -/
theorem completeFailed_pended {e : Env} {c : Chan} {run : Nat} {w : LinkWrite} {r : Record} {rest : List Record}
    {p : Path} (x : ChanCommand) (writer : p.writer = .holding c run w) (queue : (p.chans[c]).queue = r :: rest) :
    completeFailed e (pended c x p) = ((completeFailed e p).1, some .refusedState) := by
  have self : (pended c x p).chans[c] = { p.chans[c] with pendingCmd := some x } := modChan_self _ _ _
  have room : hasClosedRoom { p.chans[c] with pendingCmd := some x } = hasClosedRoom p.chans[c] := rfl
  rw [completeFailed_eq (p := pended c x p) writer (by rw [self]; exact queue), completeFailed_eq writer queue,
    failedPath_pended, self, room]
  simp only [Option.isSome_some, if_true]

end Path

namespace State

theorem exec_command (c : Chan) (x : ChanCommand) {s : State} (takes : s.Takes) {q : Path} {r : ResultCode}
    (h : Path.commandChan s.env c x s.path = (q, r)) : exec (commandOf c x) s
      = .next { s with path := q, ctl := { s.ctl with result := r, resultIndex := 0 } } := by
  cases x with
  | stop => exact (answer_of_takes (stopChannel c) takes).trans (congrArg _ (chanCommand_eq h))
  | flush => exact (answer_of_takes (flushChannel c) takes).trans (congrArg _ (chanCommand_eq h))

/-- The command `x` waits for the write of channel `c` (R150, R151). -/
def awaiting (c : Chan) (x : ChanCommand) (s : State) : State :=
  { s with path := Path.pended c x s.path, ctl := { s.ctl with result := .pending, resultIndex := 0 } }

theorem complete_some {f : Env → Path → Path × Option ResultCode} {s : State} {q : Path} {r : ResultCode}
    (h : f s.env s.path = (q, some r)) :
    complete f s = { s with path := q, ctl := { s.ctl with result := r, resultIndex := 0 } } := by
  unfold complete; dsimp only; rw [h]; rfl

theorem complete_none {f : Env → Path → Path × Option ResultCode} {s : State} {q : Path}
    (h : f s.env s.path = (q, none)) : complete f s = { s with path := q } := by
  unfold complete; dsimp only; rw [h]

end State

section
open State Sys2Proof.Machine.Path
variable {c : Chan} {run : Nat} {w : LinkWrite} {r : Record} {rest : List Record} {b : CurrentBuffer} {s : State}
  (x : ChanCommand) (takes : s.Takes) (writer : s.path.writer = .holding c run w)
  (queue : s.path.chans[c].queue = r :: rest) (current : s.path.chans[c].current = some b)
  (running : s.path.chans[c].state = .run) (none : s.path.chans[c].pendingCmd = none)

include takes writer running in
/-- The command finds the write in flight. -/
theorem exec_command_first : exec (commandOf c x) s = .next (awaiting c x s) :=
  exec_command c x takes (commandChan_writing x running ((writing_iff _ _).mpr ⟨run, w, writer⟩))

include takes writer queue current running none

/-- Both orders of a good completion and the command, with what they end in. -/
theorem good_and_command_agree (others : ∀ k : Chan, k ≠ c → (s.path.chans[k]).Ready) (canon : Memory.wf s.path.mem) :
    ∃ v : State, (∃ t u, exec (commandOf c x) s = .next t ∧ exec .writeCompleteGood t = .next v
        ∧ exec .writeCompleteGood s = .next u ∧ exec (commandOf c x) u = .next v
        ∧ v.path.Grants s.settings.urgent (some c))
      ∧ v.ctl = { s.ctl with
          result := (effectNow s.env c x (writtenPath s.env c r w s.path)).2, resultIndex := 0 }
      ∧ v.path.chans = (serve s.env (effectNow s.env c x (writtenPath s.env c r w s.path)).1).chans := by
  generalize written : writtenPath s.env c r w s.path = p
  have free : p.writer = .free := by rw [← written]; rfl
  have canonical : Memory.wf p.mem := by rw [← written]; exact land_wf w (p := { s.path with writer := .free }) canon
  have self : p.chans[c] = wrote r (idleFrom s.env.cfg c s.env.now) s.path.chans[c] := by
    rw [← written]; exact writtenPath_self _ _ _ _ _
  have ended : (p.chans[c]).ended = true := by rw [self, wrote_eq _ queue current, none]; rfl
  have state : (p.chans[c]).state = .run := by rw [self, wrote_eq _ queue current]; exact running
  have ready : ∀ k : Chan, k ≠ c → (p.chans[k]).Ready := fun k other => by
    rw [← written, writtenPath_other other]; exact others k other
  obtain ⟨notWriting, revoked, result⟩ := effect_after_choice (e := s.env) run x free canonical ended ready
  have first := completeGood_pended (e := s.env) x writer queue
  have second : completeGood s.env s.path = (choose s.env c run false p, Option.none) := by
    have eq := completeGood_eq (e := s.env) writer queue
    rw [written, none, Option.isSome_none, pendingNow_of_none (by rw [self]; exact none),
      serve_of_written ended ready] at eq
    exact eq
  rw [written] at first
  have now := commandChan_now (e := s.env) x (p := choose s.env c run false p) (by rw [choose_chans]; exact state)
    notWriting (by rw [choose_chans]; exact ready)
  rw [revoked, result] at now
  refine ⟨{ s with path := grant s.env (some c) (serve s.env (effectNow s.env c x p).1)
                   ctl := { s.ctl with result := (effectNow s.env c x p).2, resultIndex := 0 } },
    ⟨_, { s with path := choose s.env c run false p }, exec_command_first x takes writer running,
      ?_, ?_, ?_, ?_⟩, rfl, grant_chans _ _ _⟩
  · exact (answer_of_running (s := awaiting c x s) (complete completeGood (awaiting c x s)) takes.1).trans
      (congrArg _ (complete_some (s := awaiting c x s) first))
  · exact (answer_of_running (complete completeGood s) takes.1).trans (congrArg _ (complete_none second))
  · exact exec_command c x (s := { s with path := choose s.env c run false p }) takes now
  · exact grant_grants s.env (some c) _ (by rw [serve_writer, effectNow_writer, free])

/-- Both orders of a failed completion and the command: the completion's own outcome stands. -/
theorem failed_and_command_agree :
    ∃ v : State, (∃ t u, exec (commandOf c x) s = .next t ∧ exec .writeCompleteFailed t = .next v
        ∧ exec .writeCompleteFailed s = .next u ∧ exec (commandOf c x) u = .next v
        ∧ v.path.Grants s.settings.urgent (some c))
      ∧ v.ctl = { s.ctl with result := .refusedState, resultIndex := 0 } ∧ v.path.chans[c].state = .error := by
  have first := completeFailed_pended (e := s.env) x writer queue
  have grants := completeFailed_grants (e := s.env) writer queue
  have result := completeFailed_result (e := s.env) writer queue
  have self := completeFailed_self (e := s.env) writer queue current
  have error : ((completeFailed s.env s.path).1.chans[c]).state = .error := by rw [self]; split <;> rfl
  rw [none, Option.isSome_none, if_neg Bool.false_ne_true] at result
  have second : completeFailed s.env s.path = ((completeFailed s.env s.path).1, Option.none) :=
    Prod.ext rfl result
  refine ⟨{ s with path := (completeFailed s.env s.path).1
                   ctl := { s.ctl with result := .refusedState, resultIndex := 0 } },
    ⟨_, { s with path := (completeFailed s.env s.path).1 },
      exec_command_first x takes writer running, ?_, ?_, ?_, grants⟩, rfl, error⟩
  · exact (answer_of_running (s := awaiting c x s) (complete completeFailed (awaiting c x s)) takes.1).trans
      (congrArg _ (complete_some (s := awaiting c x s) first))
  · exact (answer_of_running (complete completeFailed s) takes.1).trans (congrArg _ (complete_none second))
  · exact exec_command c x (s := { s with path := (completeFailed s.env s.path).1 }) takes (commandChan_error x error)

end

open State Sys2Proof.Machine.Path in
/-- Settles O36: both orders, for each command and each completion. -/
theorem stopAndCompletionAgree : Obligations.StopAndCompletionAgree := by
  intro c run w r rest b s takes writer queue current running none others canon
  have kept : ∀ x : ChanCommand,
      (serve s.env (effectNow s.env c x (writtenPath s.env c r w s.path)).1).chans[c].queue = rest := fun x => by
    rw [((serve_tends s.env _).queues c).1, ((effectNow_tends s.env c x _).queues c).1, writtenPath_self,
      wrote_eq _ queue current]
  have buffer := writtenPath_buffer (e := s.env) (w := w) queue current
  have closed : ((writtenPath s.env c r w s.path).chans[c]).closed = (s.path.chans[c]).closed := by
    rw [writtenPath_self]; rfl
  refine ⟨?_, ?_, failed_and_command_agree .stop takes writer queue current running none,
    failed_and_command_agree .flush takes writer queue current running none⟩
  · obtain ⟨v, agree, ctl, chans⟩ := good_and_command_agree .stop takes writer queue current running none others canon
    refine ⟨v, agree, ctl, ?_, ?_⟩
    · obtain ⟨q, halts, _⟩ := stopNow_halts s.env c (writtenPath s.env c r w s.path)
      rw [chans, serve_get]
      show (judgedChan _ ((stopNow s.env c (writtenPath s.env c r w s.path)).chans[c])).state = _
      rw [halts, modChan_self, judgedChan_of_halted]; rfl
    · rw [chans]; exact kept .stop
  · obtain ⟨v, agree, ctl, chans⟩ := good_and_command_agree .flush takes writer queue current running none others canon
    refine ⟨v, agree, ?_, by rw [chans]; exact kept .flush⟩
    rw [ctl]
    by_cases room : (s.path.chans[c]).closed.length < 4
    · have done := flushNow_done (e := s.env) buffer (Nat.succ_pos _) (by rw [closed]; exact room)
      rw [if_pos room]
      unfold effectNow
      rw [done]
    · have full := flushNow_full (e := s.env) buffer (Nat.succ_pos _) (by rw [closed]; exact Nat.not_lt.mp room)
      rw [if_neg room]
      unfold effectNow
      rw [full]

end Sys2Proof.Machine
end

section
/-!
SUPPORT. JOIN CAGE and LEAVE CAGE (R40, R57): what the release of the drive and the move of the Scale Controller do to
the port.
-/
namespace Sys2Proof.Machine

/-! ## The release of the drive, field by field (R18, R19, R20) -/

namespace CageBus

theorem fallInWindow_releasedSinceClose (now : Nat) (b : CageBus) :
    (fallInWindow now b).releasedSinceClose = b.releasedSinceClose := by
  unfold fallInWindow
  split
  · split <;> rfl
  · rfl

theorem fallInWindow_pull (now : Nat) (b : CageBus) :
    (fallInWindow now b).asserting = b.asserting ∧ (fallInWindow now b).pullFails = b.pullFails := by
  unfold fallInWindow
  split
  · split <;> exact ⟨rfl, rfl⟩
  · exact ⟨rfl, rfl⟩

theorem fallInWindow_of_none {b : CageBus} (now : Nat) (closed : b.window = none) : fallInWindow now b = b := by
  unfold fallInWindow; rw [closed]

/-- The line falls with a drive exactly when it read asserted and no other station pulls (R18). -/
theorem releaseDrive_releasedSinceClose (now : Nat) (b : CageBus) :
    (b.releaseDrive now).releasedSinceClose = (b.releasedSinceClose || (b.markLine && !b.cagePull)) := by
  cases driven : b.drive with
  | none =>
    rw [State.releaseDrive_of_none now driven]
    unfold markLine; rw [driven]
    cases b.cagePull <;> simp
  | some t =>
    unfold releaseDrive; rw [driven]
    have line : CageBus.markLine { b with
        drive := none, asserting := none, pullFails := b.pullFails && b.asserting.isSome } = b.cagePull :=
      Bool.or_false _
    dsimp only
    rw [line]
    split
    · next falls => rw [falls, lineFell, fallInWindow_releasedSinceClose]; simp
    · next stays => rw [Bool.not_eq_true] at stays; rw [stays, Bool.or_false]

/-- A release at the instant of the expiry leaves a station that does not drive there (R19; log 38). -/
theorem releaseDrive_pull {b : CageBus} (now : Nat) (driven : b.drive ≠ none) :
    (b.releaseDrive now).asserting = none
      ∧ (b.releaseDrive now).pullFails = (b.pullFails && b.asserting.isSome) := by
  cases drive : b.drive with
  | none => exact absurd drive driven
  | some t =>
    unfold releaseDrive; rw [drive]
    dsimp only
    split
    · exact fallInWindow_pull now _
    · exact ⟨rfl, rfl⟩

/-- With no window open the fall reference stays. -/
theorem releaseDrive_of_closed {b : CageBus} (now : Nat) (closed : b.window = none) :
    (b.releaseDrive now).window = none ∧ (b.releaseDrive now).fallRef = b.fallRef := by
  cases driven : b.drive with
  | none => rw [State.releaseDrive_of_none now driven]; exact ⟨closed, rfl⟩
  | some t =>
    unfold releaseDrive; rw [driven]
    dsimp only
    split
    · rw [lineFell, fallInWindow_of_none now (by exact closed)]; exact ⟨closed, rfl⟩
    · exact ⟨closed, rfl⟩

end CageBus

namespace State

theorem emitTime_cause (old new : ScaleState) (r : TimeReason) (peer : Nat) (prev : BitVec 48) (s : State) :
    (emitTime old new r peer prev s).path.att.causes.getLsbD 3 = true := Path.setCause_sets s.env .time _

/-- A move of the Scale Controller sets TIME (R58). -/
theorem moveTo_cause (new : ScaleState) (r : TimeReason) (peer : Nat) (prev : BitVec 48) (s : State) :
    (moveTo new r peer prev s).path.att.causes.getLsbD 3 = true := emitTime_cause _ _ _ _ _ _

theorem served_cause {s : State} {i : Nat} (h : s.path.att.causes.getLsbD i = true) :
    s.served.path.att.causes.getLsbD i = true := served_causes s i h

theorem EventQueueTakes.congr {s t u : State} {records : List Record} (h : s.EventQueueTakes t records)
    (path : u.path = t.path) : s.EventQueueTakes u records := fun tally room => by
  rw [path]; exact h tally room

/-! ## JOIN and LEAVE (R40, R57) -/

/-- The port after JOIN: the window, the fall reference and the last offset cleared, the drive released. -/
def joinedBus (s : State) : CageBus := (joinBus s).bus.releaseDrive s.now

/-- JOIN in QUIET: the counts and the roster cleared, LISTEN, the drive released. -/
theorem joinNow_eq (s : State) : joinNow s = { s with
    sc := { joinCounts s.sc with state := .listen }, roster := Vector.replicate 16 {}, bus := joinedBus s,
    path := (joinNow s).path } := by
  unfold joinNow; rw [moveTo_eq]
  rw [show ({ (joinBus { s with sc := joinCounts s.sc, roster := Vector.replicate 16 {} }).sc with
    state := .listen } : ScaleController).mayDrive = false from rfl]
  rfl

theorem joinNow_told (s : State) (quiet : s.sc.state = .quiet) :
    Told s (joinNow s) [.time .quiet .listen .joined s.sc.mutedProfile s.sc.mutedClash 0 0 0
      ⟨s.now, s.tb.epoch, s.tb.readCount, .unscaled⟩] := by
  have told := moveTo_told .listen .joined 0 0
    (joinBus { s with sc := joinCounts s.sc, roster := Vector.replicate 16 {} })
  have state : (joinBus { s with sc := joinCounts s.sc, roster := Vector.replicate 16 {} }).sc.state = .quiet := quiet
  rw [state] at told
  exact told.from rfl rfl

/-- LEAVE: QUIET, the muting cleared, the port silent. -/
theorem leaveNow_eq (s : State) : leaveNow s = { s with
    sc := { s.sc with state := .quiet, mutedProfile := false, mutedClash := false },
    bus := (quietBus s).bus, path := (leaveNow s).path } := by
  have released : (quietBus s).bus.drive = none := releaseDrive_drive s.now s.bus
  have same := releaseDrive_of_none s.now released
  unfold leaveNow; rw [moveTo_eq]
  show { s with sc := _, bus := (quietBus s).bus.releaseDrive s.now, path := _ } = _
  rw [same]
  rfl

theorem leaveNow_told (s : State) :
    Told s (leaveNow s) [.time s.sc.state .quiet .left false false s.bus.lastOffset 0 0
      ⟨s.now, s.tb.epoch, s.tb.readCount, .unscaled⟩] := by
  have told := moveTo_told .quiet .left 0 0
    (quietBus { s with sc := { s.sc with mutedProfile := false, mutedClash := false } })
  have offset : (quietBus { s with sc := { s.sc with mutedProfile := false, mutedClash := false } }).bus.lastOffset
      = s.bus.lastOffset := releaseDrive_lastOffset s.now s.bus
  rw [offset] at told
  exact told.from rfl rfl

theorem joinCage_locked {s : State} (locked : s.ctl.locked = true) (quiet : s.sc.state = .quiet) :
    joinCage s = setResult .done 0 (served (joinNow s)) := by
  unfold joinCage; rw [if_neg (by rw [locked]; simp), if_neg (fun h => h quiet)]

theorem leaveCage_joined {s : State} (joined : s.sc.state ≠ .quiet) :
    leaveCage s = setResult .done 0 (served (leaveNow s)) := if_neg joined

end State

open State

theorem joinedBus_fields (s : State) :
    (joinedBus s).window = none ∧ (joinedBus s).fallRef = none ∧ (joinedBus s).drive = none
      ∧ (joinedBus s).releasedSinceClose = (s.bus.releasedSinceClose || (s.bus.markLine && !s.bus.cagePull))
      ∧ (joinedBus s).markLine = s.bus.cagePull := by
  obtain ⟨window, fallRef⟩ := CageBus.releaseDrive_of_closed (b := (joinBus s).bus) s.now rfl
  exact ⟨window, fallRef, releaseDrive_drive _ _, CageBus.releaseDrive_releasedSinceClose _ _,
    releaseDrive_markLine _ _⟩

theorem joinedBus_rest (s : State) :
    (joinedBus s).transmitter = .idle ∧ (joinedBus s).receiver = none ∧ (joinedBus s).lastOffset = 0
      ∧ (joinedBus s).watch = .armed ∧ (joinedBus s).station = s.bus.station
      ∧ (joinedBus s).profileCode = s.bus.profileCode ∧ (joinedBus s).cagePull = s.bus.cagePull := by
  unfold joinedBus; rw [releaseDrive_eq]; exact ⟨rfl, rfl, rfl, rfl, rfl, rfl, rfl⟩

theorem quietBus_rest (s : State) :
    (quietBus s).bus.drive = none ∧ (quietBus s).bus.lastOffset = s.bus.lastOffset
      ∧ (quietBus s).bus.station = s.bus.station ∧ (quietBus s).bus.profileCode = s.bus.profileCode
      ∧ (quietBus s).bus.faultReported = s.bus.faultReported ∧ (quietBus s).bus.cagePull = s.bus.cagePull := by
  unfold quietBus; rw [releaseDrive_eq]; exact ⟨rfl, rfl, rfl, rfl, rfl, rfl⟩

theorem quietBus_markLine (s : State) : (quietBus s).bus.markLine = s.bus.cagePull :=
  releaseDrive_markLine s.now s.bus

/-- Settles O39: JOIN and LEAVE are one move of the Scale Controller after the port has been cleared. -/
theorem joinListensAndLeaveGoesQuiet : Obligations.JoinListensAndLeaveGoesQuiet := by
  intro s takes
  have joins : exec .joinCage s = .next (joinCage s) := answer_of_takes joinCage takes
  have leaves : exec .leaveCage s = .next (leaveCage s) := answer_of_takes leaveCage takes
  refine ⟨fun unlocked => ?_, fun locked joined => ?_, fun locked quiet => ?_, fun quiet => ?_, fun joined => ?_⟩
  · rw [joins, joinCage, if_pos unlocked]; rfl
  · rw [joins, joinCage, if_neg (by rw [locked]; simp), if_pos joined]; rfl
  · refine ⟨_, joins, ?_⟩
    rw [joinCage_locked locked quiet]
    have told := (joinNow_told s quiet).served.takes
    have cause : (joinNow s).served.path.att.causes.getLsbD 3 = true :=
      served_cause (moveTo_cause .listen .joined 0 0 _)
    have path := served_eq (joinNow s)
    generalize (joinNow s).served = u at told cause path ⊢
    obtain ⟨window, fallRef, drive, released, line⟩ := joinedBus_fields s
    obtain ⟨idle, receiver, offset, watch, station, code, pull⟩ := joinedBus_rest s
    have eq : u = { s with
        sc := { joinCounts s.sc with state := .listen }, roster := Vector.replicate 16 {}, bus := joinedBus s,
        path := u.path } := by rw [path, joinNow_eq]
    clear path
    generalize u.path = p at eq
    subst eq
    exact ⟨rfl, rfl, fun j => by simp [setResult], window, fallRef, idle, receiver, offset, watch, drive, released,
      station, code, pull, line, rfl, rfl, rfl, rfl, cause, told⟩
  · rw [leaves, leaveCage, if_pos quiet]; rfl
  · refine ⟨_, leaves, ?_⟩
    rw [leaveCage_joined joined]
    have told := (leaveNow_told s).served.takes
    have cause : (leaveNow s).served.path.att.causes.getLsbD 3 = true :=
      served_cause (moveTo_cause .quiet .left 0 0 _)
    have path := served_eq (leaveNow s)
    generalize (leaveNow s).served = u at told cause path ⊢
    obtain ⟨drive, offset, station, code, reported, pull⟩ := quietBus_rest s
    have eq : u = { s with
        sc := { s.sc with state := .quiet, mutedProfile := false, mutedClash := false },
        bus := (quietBus s).bus, path := u.path } := by rw [path, leaveNow_eq]
    clear path
    generalize u.path = p at eq
    subst eq
    exact ⟨rfl, rfl, drive, rfl, rfl, rfl, rfl, rfl, rfl, CageBus.releaseDrive_pull s.now, reported, offset, station,
      code, CageBus.releaseDrive_releasedSinceClose s.now s.bus, pull, quietBus_markLine s, rfl, rfl, rfl, rfl, rfl,
      cause, told⟩

end Sys2Proof.Machine
end

section
/-!
SUPPORT. The own boundary (R5): the work of the blocks in any order, and what it makes of the Time Base and the lines.
-/
namespace Sys2Proof.Machine

namespace State

/-! ## The work of the blocks at a boundary, one after another -/

/-- A block's work at a boundary: the Scale Controller's, or the code-error test of a line. -/
def blockWork : Option Line → State → State
  | none => scaleWork
  | some l => errorTest l

/-- The blocks with work at a boundary. -/
def workingBlocks (s : State) : List (Option Line) :=
  (if s.sc.state = .quiet then [] else [none])
    ++ (allLines.filter fun l => (errorVerdict (s.settings.errorLimit l) s.lines[l]).isSome).map some

theorem boundaryWork_eq (s : State) : boundaryWork s = (workingBlocks s).map blockWork := by
  unfold boundaryWork workingBlocks
  rw [List.map_append, List.map_map]
  refine congrArg₂ _ ?_ rfl
  split <;> rfl

theorem some_mem_workingBlocks (l : Line) (s : State) :
    some l ∈ workingBlocks s ↔ (errorVerdict (s.settings.errorLimit l) s.lines[l]).isSome = true := by
  unfold workingBlocks
  constructor
  · intro member
    rcases List.mem_append.1 member with scale | tested
    · split at scale
      · cases scale
      · cases List.mem_singleton.1 scale
    · obtain ⟨k, hk, same⟩ := List.mem_map.1 tested
      cases same
      exact (List.mem_filter.1 hk).2
  · intro verdict
    exact List.mem_append.2 (.inr (List.mem_map.2 ⟨l, List.mem_filter.2 ⟨mem_allLines l, verdict⟩, rfl⟩))

theorem none_mem_workingBlocks (s : State) : none ∈ workingBlocks s ↔ s.sc.state ≠ .quiet := by
  unfold workingBlocks
  constructor
  · intro member quiet
    rw [if_pos quiet] at member
    obtain ⟨k, _, same⟩ := List.mem_map.1 member
    cases same
  · intro awake
    rw [if_neg awake]
    exact List.mem_cons_self

theorem workingBlocks_nodup (s : State) : (workingBlocks s).Nodup := by
  have lines : ((allLines.filter fun l => (errorVerdict (s.settings.errorLimit l) s.lines[l]).isSome).map
      some).Nodup := (List.Nodup.filter _ (by decide)).map (Option.some_injective _)
  unfold workingBlocks
  split
  · exact lines
  · refine List.nodup_cons.2 ⟨fun member => ?_, lines⟩
    obtain ⟨k, _, same⟩ := List.mem_map.1 member
    cases same

/-- The blocks' work, one after another. -/
def workBlocks (blocks : List (Option Line)) (s : State) : State := blocks.foldl (fun s b => blockWork b s) s

/-- The state of the boundary when the blocks come to work: the Time Base has begun the new epoch, and the tick of the
expiry is recorded (R5, R22). -/
def boundaryBegun (s : State) : State :=
  { s with tb := s.tb.boundary s.settings,
           bus := { s.bus with window := s.bus.window.map fun w => { w with expiry := some s.now } },
           path := { s.path with draws := s.path.draws + 1 } }

theorem ownBoundary_blocks (s : State) : ∃ blocks, blocks.Perm (workingBlocks s)
    ∧ ownBoundary s = clearEpochErrors (workBlocks blocks (boundaryBegun s)) := by
  refine ⟨freeOrder s.path.draws (workingBlocks s), freeOrder_perm _ _, ?_⟩
  unfold ownBoundary
  dsimp only
  rw [boundaryWork_eq, freeOrder_map, List.foldl_map]
  rfl

/-! ## The lines (R72) -/

/-- One port after the code-error test. -/
def testedPort (limit : Nat) (p : LinePort) : LinePort :=
  match errorVerdict limit p with
  | some v => { p with state := v.1, settle := none }
  | none => p

theorem testedPort_of_none {limit : Nat} {p : LinePort} (calm : errorVerdict limit p = none) :
    testedPort limit p = p := by unfold testedPort; rw [calm]

theorem errorTest_tested (l k : Line) (s : State) : (errorTest l s).lines[k] =
    if k = l then testedPort (s.settings.errorLimit l) s.lines[l] else s.lines[k] := by
  rw [errorTest_get]; rfl

theorem blockWork_settings (b : Option Line) (s : State) : (blockWork b s).settings = s.settings := by
  cases b with
  | none => exact (scaleWork_rest s).2.2.1
  | some l => exact errorTest_settings l s

theorem blockWork_lines (b : Option Line) (k : Line) (s : State) : (blockWork b s).lines[k] =
    if b = some k then testedPort (s.settings.errorLimit k) s.lines[k] else s.lines[k] := by
  cases b with
  | none =>
    have lines : (blockWork none s).lines = s.lines := (scaleWork_rest s).2.1
    rw [lines, if_neg (fun h => nomatch h)]
  | some l =>
    have tested := errorTest_tested l k s
    show (errorTest l s).lines[k] = _
    rw [tested]
    by_cases same : k = l
    · subst same; rw [if_pos rfl, if_pos rfl]
    · rw [if_neg same, if_neg (fun h => same (Option.some.inj h).symm)]

theorem workBlocks_lines (k : Line) (blocks : List (Option Line)) (nodup : blocks.Nodup) (s : State) :
    (workBlocks blocks s).lines[k] =
      if some k ∈ blocks then testedPort (s.settings.errorLimit k) s.lines[k] else s.lines[k] := by
  induction blocks generalizing s with
  | nil => rfl
  | cons b blocks ih =>
    obtain ⟨fresh, rest⟩ := List.nodup_cons.1 nodup
    show (workBlocks blocks (blockWork b s)).lines[k] = _
    rw [ih rest, blockWork_settings, blockWork_lines]
    by_cases first : b = some k
    · subst first
      rw [if_neg fresh, if_pos rfl, if_pos List.mem_cons_self]
    · rw [if_neg first]
      simp only [List.mem_cons, Ne.symm first, false_or]

/-- One port after an own boundary. -/
def boundaryPort (limit : Nat) (p : LinePort) : LinePort :=
  if (testedPort limit p).state = .off then testedPort limit p else { testedPort limit p with epochErrors := 0 }

/-- Every port is tested once, in whatever order the blocks work. -/
theorem ownBoundary_lines (l : Line) (s : State) :
    (ownBoundary s).lines[l] = boundaryPort (s.settings.errorLimit l) s.lines[l] := by
  obtain ⟨blocks, perm, eq⟩ := ownBoundary_blocks s
  rw [eq]
  unfold clearEpochErrors
  rw [mapLines_get, workBlocks_lines l blocks (perm.nodup_iff.2 (workingBlocks_nodup s))]
  have port : (if some l ∈ blocks then
      testedPort ((boundaryBegun s).settings.errorLimit l) (boundaryBegun s).lines[l] else (boundaryBegun s).lines[l])
      = testedPort (s.settings.errorLimit l) s.lines[l] := by
    split
    · rfl
    · next calm =>
      rw [perm.mem_iff, some_mem_workingBlocks, Option.not_isSome_iff_eq_none] at calm
      exact (testedPort_of_none calm).symm
  rw [port]
  rfl

/-- What the code-error test of a boundary makes of one port (R72). -/
theorem boundaryPort_fields (limit : Nat) (p : LinePort) :
    (p.state ≠ .off → (boundaryPort limit p).epochErrors = 0)
      ∧ (p.state = .up →
          (boundaryPort limit p).state = if limit < p.epochErrors then .degraded else .up)
      ∧ (p.state = .degraded →
          (boundaryPort limit p).state = if p.epochErrors ≤ limit then .up else .degraded)
      ∧ (p.state ≠ .up → p.state ≠ .degraded → (boundaryPort limit p).state = p.state)
      ∧ (boundaryPort limit p).reception = p.reception ∧ (boundaryPort limit p).los = p.los
      ∧ (boundaryPort limit p).counters = p.counters ∧ (boundaryPort limit p).legB = p.legB := by
  have unchanged : p.state ≠ .up → p.state ≠ .degraded → testedPort limit p = p := by
    intro up degraded
    refine testedPort_of_none ?_
    unfold errorVerdict
    split <;> first | contradiction | rfl
  have rest : (testedPort limit p).reception = p.reception ∧ (testedPort limit p).los = p.los
      ∧ (testedPort limit p).counters = p.counters ∧ (testedPort limit p).legB = p.legB := by
    unfold testedPort; split <;> exact ⟨rfl, rfl, rfl, rfl⟩
  have state : (boundaryPort limit p).state = (testedPort limit p).state := by
    unfold boundaryPort; split <;> rfl
  have kept : (boundaryPort limit p).reception = (testedPort limit p).reception
      ∧ (boundaryPort limit p).los = (testedPort limit p).los
      ∧ (boundaryPort limit p).counters = (testedPort limit p).counters
      ∧ (boundaryPort limit p).legB = (testedPort limit p).legB := by
    unfold boundaryPort; split <;> exact ⟨rfl, rfl, rfl, rfl⟩
  have up : p.state = .up → (testedPort limit p).state = if limit < p.epochErrors then .degraded else .up := by
    intro h
    unfold testedPort errorVerdict
    rw [h]
    dsimp only
    split
    · next v eq => split at eq <;> cases eq; rw [if_pos ‹_›]
    · next eq =>
      split at eq
      · cases eq
      · rw [if_neg ‹_›]; exact h
  have degraded : p.state = .degraded →
      (testedPort limit p).state = if p.epochErrors ≤ limit then .up else .degraded := by
    intro h
    unfold testedPort errorVerdict
    rw [h]
    dsimp only
    split
    · next v eq => split at eq <;> cases eq; rw [if_pos ‹_›]
    · next eq =>
      split at eq
      · cases eq
      · rw [if_neg ‹_›]; exact h
  have enabled : p.state ≠ .off → (testedPort limit p).state ≠ .off := by
    intro on
    by_cases hu : p.state = .up
    · rw [up hu]; split <;> exact fun h => nomatch h
    · by_cases hd : p.state = .degraded
      · rw [degraded hd]; split <;> exact fun h => nomatch h
      · rw [unchanged hu hd]; exact on
  refine ⟨fun on => ?_, fun h => by rw [state, up h], fun h => by rw [state, degraded h],
    fun hu hd => by rw [state, unchanged hu hd], kept.1.trans rest.1, kept.2.1.trans rest.2.1,
    kept.2.2.1.trans rest.2.2.1, kept.2.2.2.trans rest.2.2.2⟩
  unfold boundaryPort; rw [if_neg (enabled on)]

theorem exec_ownBoundary {s : State} (running : s.resetLow = false) (date : s.tb.running = true)
    (due : s.tb.eCur ≤ s.tb.count) : exec .ownBoundary s = .next (ownBoundary s).served := by
  have reached : s.tb.boundaryDue = true := by unfold TimeBase.boundaryDue; rw [date, decide_eq_true due]; rfl
  show answer s (if s.tb.boundaryDue then (s.ownBoundary).served else s) = _
  rw [if_pos reached, answer_of_running _ running]

end State

open State

/-- Settles O40: the Time Base restarts first, and every port is tested once. -/
theorem ownBoundaryRestartsTheDateAndTestsTheLines : Obligations.OwnBoundaryRestartsTheDateAndTestsTheLines := by
  intro s running date due
  refine ⟨_, exec_ownBoundary running date due, ?_⟩
  have tb : (ownBoundary s).served.tb = s.tb.boundary s.settings := ownBoundary_tb s
  have lines : ∀ l : Line, (ownBoundary s).served.lines[l]
      = boundaryPort (s.settings.errorLimit l) s.lines[l] := fun l => ownBoundary_lines l s
  rw [tb]
  refine ⟨rfl, rfl, BitVec.toNat_add _ _, rfl, rfl, rfl, rfl, date, rfl, rfl, rfl, rfl, fun l => ?_⟩
  rw [lines]
  exact boundaryPort_fields _ _

end Sys2Proof.Machine
end

section
/-!
SUPPORT. The work of an own boundary on the roster, the Scale Controller and the drive (R19, R41, R52, R54, R55, R61):
what each part of it makes of the cage side, and how the lines' tests, done before it or after, leave that alone.
-/
namespace Sys2Proof.Machine

namespace State

/-! ## The lines' tests beside the Scale Controller's work -/

theorem errorTest_keepsCage (l : Line) (s : State) : KeepsCage s (errorTest l s) := by
  unfold errorTest
  split
  · exact changeLine_keepsCage l _ _ _ s
  · exact .refl s

theorem lineBlocks_keepsCage (blocks : List (Option Line)) (lines : none ∉ blocks) (s : State) :
    KeepsCage s (workBlocks blocks s) ∧ CausesStay s (workBlocks blocks s) := by
  induction blocks generalizing s with
  | nil => exact ⟨.refl s, .refl s⟩
  | cons b blocks ih =>
    rw [List.mem_cons, not_or] at lines
    cases b with
    | none => exact absurd rfl lines.1
    | some l =>
      obtain ⟨cage, causes⟩ := ih lines.2 (errorTest l s)
      exact ⟨(errorTest_keepsCage l s).trans cage, (errorTest_causes l s).trans causes⟩

/-- In QUIET the boundary leaves the cage side as it was begun. -/
theorem ownBoundary_of_quiet {s : State} (quiet : s.sc.state = .quiet) :
    KeepsCage (boundaryBegun s) (ownBoundary s) := by
  obtain ⟨blocks, perm, eq⟩ := ownBoundary_blocks s
  have lines : none ∉ blocks := by
    rw [perm.mem_iff, none_mem_workingBlocks]
    exact fun awake => awake quiet
  have kept := (lineBlocks_keepsCage blocks lines (boundaryBegun s)).1
  rw [eq]
  exact ⟨kept.tb, kept.bus, kept.sc, kept.roster, kept.cage, kept.settings, kept.resetLow, kept.ctl, kept.enables⟩

/-- Outside QUIET the boundary makes of the cage side what the Scale Controller's work makes of it, and keeps the causes
that work has set. -/
theorem ownBoundary_of_awake {s : State} (awake : s.sc.state ≠ .quiet) : ∃ u, KeepsCage (boundaryBegun s) u
    ∧ KeepsCage (scaleWork u) (ownBoundary s) ∧ CausesStay (scaleWork u) (ownBoundary s) := by
  obtain ⟨blocks, perm, eq⟩ := ownBoundary_blocks s
  have scale : none ∈ blocks := by rw [perm.mem_iff, none_mem_workingBlocks]; exact awake
  have nodup : blocks.Nodup := perm.nodup_iff.2 (workingBlocks_nodup s)
  obtain ⟨before, after, split⟩ := List.append_of_mem scale
  rw [split] at nodup
  have alone : none ∉ before ∧ none ∉ after := by
    obtain ⟨_, tail, apart⟩ := List.nodup_append.1 nodup
    exact ⟨fun h => apart none h none List.mem_cons_self rfl, (List.nodup_cons.1 tail).1⟩
  refine ⟨workBlocks before (boundaryBegun s), (lineBlocks_keepsCage before alone.1 _).1, ?_⟩
  obtain ⟨kept, causes⟩ := lineBlocks_keepsCage after alone.2 (scaleWork (workBlocks before (boundaryBegun s)))
  have run : ownBoundary s
      = clearEpochErrors (workBlocks after (scaleWork (workBlocks before (boundaryBegun s)))) := by
    rw [eq, split]
    unfold workBlocks
    rw [List.foldl_append, List.foldl_cons]
    rfl
  rw [run]
  exact ⟨⟨kept.tb, kept.bus, kept.sc, kept.roster, kept.cage, kept.settings, kept.resetLow, kept.ctl,
    kept.enables⟩, causes⟩

/-! ## The roster and the muting (R54, R55, R61) -/

/-- What is left of the port by the tests that precede the drive decision: a report of a fault stays, and a station that
does not drive has its line and its window as they were. -/
structure Steered (b c : CageBus) : Prop where
  reported : c.faultReported = b.faultReported
  idle : b.drive = none → c = { b with releasedSinceClose := c.releasedSinceClose, watch := c.watch }

theorem Steered.refl (b : CageBus) : Steered b b := ⟨rfl, fun _ => rfl⟩

theorem Steered.drive {b c : CageBus} (h : Steered b c) (idle : b.drive = none) : c.drive = none := by
  rw [h.idle idle]; exact idle

theorem Steered.trans {a b c : CageBus} (h : Steered a b) (k : Steered b c) : Steered a c where
  reported := k.reported.trans h.reported
  idle idle :=
    calc c = { b with releasedSinceClose := c.releasedSinceClose, watch := c.watch } := k.idle (h.drive idle)
      _ = { a with releasedSinceClose := c.releasedSinceClose, watch := c.watch } := by rw [h.idle idle]

theorem Steered.release (now : Nat) (b : CageBus) : Steered b (b.releaseDrive now) :=
  ⟨by rw [releaseDrive_eq], fun idle => by rw [releaseDrive_of_none now idle]⟩

theorem Freed.steered {s : State} {b : CageBus} (h : Freed s b) : Steered s.bus b := by
  rcases h with rfl | rfl
  · exact .refl _
  · exact .release _ _

/-- The Scale Controller after the clash test and the profile test of a boundary. -/
def mutedAtBoundary (s : State) (outvoted : Bool) : ScaleController :=
  { s.sc with clashCount := if s.sc.clashThisEpoch then s.sc.clashCount else 0, clashThisEpoch := false,
              mutedProfile := outvoted }

/-- The tests that precede the state's work. -/
def testedAtBoundary (s : State) : State := profileTest (silenceAccounting (clashTest s))

theorem testedAtBoundary_form (s : State) : ∃ r b p, testedAtBoundary s = { s with
      sc := mutedAtBoundary s
        (decide ((testedAtBoundary s).presentWith true + 1 < (testedAtBoundary s).presentWith false)),
      roster := r, bus := b, path := p }
    ∧ Steered s.bus b ∧ ∀ j : Station, r[j] = ageEntry s.settings.silenceLimit s.roster[j] := by
  obtain ⟨r, p, aged, entries⟩ := silenceAccounting_form (clashTest s)
  obtain ⟨b, q, tested, freed⟩ := profileTest_form (silenceAccounting (clashTest s))
  have roster : (testedAtBoundary s).roster = (silenceAccounting (clashTest s)).roster := by
    unfold testedAtBoundary; rw [tested]
  have bus : (silenceAccounting (clashTest s)).bus = s.bus := by rw [aged]; rfl
  rw [presentWith_congr roster, presentWith_congr roster]
  refine ⟨r, b, q, ?_, bus ▸ freed.steered, entries⟩
  unfold testedAtBoundary
  rw [tested]
  generalize decide ((silenceAccounting (clashTest s)).presentWith true + 1
    < (silenceAccounting (clashTest s)).presentWith false) = outvoted
  rw [aged]
  rfl

/-! ## The state's work (R41, R44, R52) -/

theorem moveTo_steered (new : ScaleState) (r : TimeReason) (s : State) :
    Steered s.bus (moveTo new r 0 0 s).bus := by
  rw [moveTo_eq]
  dsimp only
  split
  · exact .refl _
  · exact .release _ _

theorem found_steered (s : State) : Steered s.bus (found s).bus :=
  Steered.trans (b := (leaveListen { s with sc := s.sc.clearRuns }).bus) ⟨rfl, fun _ => rfl⟩
    (moveTo_steered .align .founded _)

theorem stateWork_steered (s : State) : Steered s.bus (stateWork s).bus := by
  unfold stateWork
  split
  · unfold listenWork; dsimp only
    split
    · exact found_steered { s with sc := { s.sc with listen := s.sc.listen + 1 } }
    · exact .refl _
  · unfold heldWork
    split
    · split
      · exact moveTo_steered .align .remeasured { s with sc := s.sc.clearRuns }
      · exact .refl _
    · split
      · exact .refl _
      · exact moveTo_steered .align .resumed { s with sc := s.sc.clearRuns }
  all_goals exact .refl _

theorem moveTo_sc (new : ScaleState) (r : TimeReason) (peer : Nat) (prev : BitVec 48) (s : State) :
    (moveTo new r peer prev s).sc = { s.sc with state := new } := by rw [moveTo_eq]

/-- In LISTEN the count goes on, and its limit founds (R41, R44). -/
theorem stateWork_listen {s : State} (listens : s.sc.state = .listen) :
    (stateWork s).sc.listen = s.sc.listen + 1
      ∧ (stateWork s).sc.state = if s.settings.listenLimit ≤ s.sc.listen + 1 then .align else .listen := by
  unfold stateWork; rw [listens]
  dsimp only
  unfold listenWork; dsimp only
  split
  · unfold found; rw [moveTo_sc]; exact ⟨rfl, rfl⟩
  · exact ⟨rfl, listens⟩

/-- In HELD the exit test is on the measurement when muted and on the line when unmuted (R52). -/
theorem stateWork_held {s : State} (held : s.sc.state = .held) : (stateWork s).sc.state =
    if s.sc.muted then (if s.sc.measuredHeld then .align else .held)
    else (if s.bus.markLine then .held else .align) := by
  unfold stateWork; rw [held]
  dsimp only
  unfold heldWork
  split
  · split
    · rw [moveTo_sc]
    · exact held
  · split
    · exact held
    · rw [moveTo_sc]

theorem stateWork_inScale {s : State} (inScale : s.sc.state = .align ∨ s.sc.state = .locked) : stateWork s = s := by
  unfold stateWork
  rcases inScale with h | h <;> rw [h]

/-! ## The drive decision (R19) -/

/-- The window of a drive at the expiry, where the line rises with it (R18, R24). -/
def riseOfDrive (s : State) : Option MarkWindow :=
  if !s.bus.cagePull && !s.bus.pullFails && !s.afterFall then
    s.bus.window.map fun w => if w.r.isNone then { w with r := some s.now } else w
  else s.bus.window

/-- A rise with no fall in the window so far is r or nothing: never a SPLIT (R24, R27). -/
theorem riseInWindow_beforeFall {s : State} (before : s.afterFall = false) : riseInWindow s = { s with
    bus := { s.bus with
      window := s.bus.window.map fun w => if w.r.isNone then { w with r := some s.now } else w } } := by
  unfold riseInWindow
  unfold afterFall at before
  cases window : s.bus.window with
  | none =>
    have same : s.bus = { s.bus with window := none } := by rw [← window]
    show s = { s with bus := { s.bus with window := none } }
    rw [← same]
  | some w =>
    rw [window] at before
    dsimp only [Option.map_some] at before ⊢
    have noFall : w.f = none := Option.not_isSome_iff_eq_none.1 (by rw [before]; exact Bool.false_ne_true)
    rw [noFall]
    split
    · rfl
    · have same : s.bus = { s.bus with window := some w } := by rw [← window]
      show s = { s with bus := { s.bus with window := some w } }
      rw [← same]

theorem driveAtExpiry_of_not {s : State} (silent : s.sc.mayDrive = false) : driveAtExpiry s = s := by
  unfold driveAtExpiry; rw [silent]; rfl

/-- The drive of a station that did not drive before: the window takes the rise it makes. -/
theorem driveAtExpiry_of_may {s : State} (may : s.sc.mayDrive = true) (idle : s.bus.drive = none) :
    driveAtExpiry s = { s with bus := { s.bus with
      drive := some s.now, asserting := some s.afterFall, window := riseOfDrive s } } := by
  have low : s.bus.markLine = s.bus.cagePull := by unfold CageBus.markLine; rw [idle]; exact Bool.or_false _
  have high : CageBus.markLine { s.bus with drive := some s.now, asserting := some s.afterFall }
      = (s.bus.cagePull || !s.bus.pullFails) := rfl
  have rises : (!s.bus.markLine && CageBus.markLine { s.bus with
      drive := some s.now, asserting := some s.afterFall } && !s.afterFall)
      = (!s.bus.cagePull && !s.bus.pullFails && !s.afterFall) := by
    rw [low, high]; cases s.bus.cagePull <;> rfl
  unfold driveAtExpiry riseOfDrive
  rw [if_pos may]
  dsimp only
  rw [rises]
  split
  · next rise =>
    have before : s.afterFall = false := by
      rw [Bool.and_eq_true, Bool.not_eq_true'] at rise
      exact rise.2
    exact riseInWindow_beforeFall
      (s := { s with bus := { s.bus with drive := some s.now, asserting := some s.afterFall } }) before
  · rfl

/-- A drive that reaches the line makes it read asserted (R18). -/
theorem driveAtExpiry_markLine {s : State} (may : s.sc.mayDrive = true) (reaches : s.bus.pullFails = false) :
    (driveAtExpiry s).bus.markLine = true := by
  obtain ⟨_, _, e⟩ := driveAtExpiry_form s
  rw [e, if_pos may]
  show (s.bus.cagePull || (true && !s.bus.pullFails)) = true
  rw [reaches]
  exact Bool.or_true _

theorem driveAtExpiry_sc (s : State) : (driveAtExpiry s).sc = s.sc := by
  obtain ⟨_, _, e⟩ := driveAtExpiry_form s
  rw [e]

/-- Neither a report of a fault nor a SPLIT comes of the drive decision (R21, R27). -/
theorem driveAtExpiry_quietly (s : State) :
    (driveAtExpiry s).bus.faultReported = s.bus.faultReported ∧ (driveAtExpiry s).cage = s.cage := by
  have reported : (driveAtExpiry s).bus.faultReported = s.bus.faultReported := by
    obtain ⟨_, _, e⟩ := driveAtExpiry_form s
    rw [e]
  refine ⟨reported, ?_⟩
  unfold driveAtExpiry
  split
  · dsimp only
    split
    · next rise =>
      have before : s.afterFall = false := by
        rw [Bool.and_eq_true, Bool.not_eq_true'] at rise
        exact rise.2
      rw [riseInWindow_beforeFall
        (s := { s with bus := { s.bus with drive := some s.now, asserting := some s.afterFall } }) before]
    · rfl
  · rfl

theorem driveAtExpiry_drives {s : State} (may : s.sc.mayDrive = true) :
    (driveAtExpiry s).bus.drive = some s.now ∧ (driveAtExpiry s).bus.asserting = some s.afterFall := by
  obtain ⟨_, _, e⟩ := driveAtExpiry_form s
  rw [e, if_pos may, if_pos may]
  exact ⟨rfl, rfl⟩

end State

end Sys2Proof.Machine
end

section
/-!
SUPPORT. The whole of the Scale Controller's work at an own boundary, by what it makes of the roster, of the controller
and of the drive (R19, R41, R52, R54, R55, R61).
-/
namespace Sys2Proof.Machine

namespace State

/-- The state in which the drive is decided. -/
def decidesDrive (s : State) : State := clearPhaseSet (stateWork (testedAtBoundary s))

theorem scaleWork_of_awake {s : State} (awake : s.sc.state ≠ .quiet) : scaleWork s = driveAtExpiry (decidesDrive s) :=
  if_neg awake

theorem testedAtBoundary_settings (s : State) : (testedAtBoundary s).settings = s.settings := by
  obtain ⟨_, _, _, form, _⟩ := testedAtBoundary_form s
  rw [form]

theorem testedAtBoundary_tb (s : State) : (testedAtBoundary s).tb = s.tb := by
  obtain ⟨_, _, _, form, _⟩ := testedAtBoundary_form s
  rw [form]

theorem testedAtBoundary_sc (s : State) : (testedAtBoundary s).sc = mutedAtBoundary s
    (decide ((testedAtBoundary s).presentWith true + 1 < (testedAtBoundary s).presentWith false)) := by
  obtain ⟨_, _, _, form, _⟩ := testedAtBoundary_form s
  exact congrArg (·.sc) form

theorem testedAtBoundary_steered (s : State) : Steered s.bus (testedAtBoundary s).bus := by
  obtain ⟨_, b, _, form, steered, _⟩ := testedAtBoundary_form s
  rw [form]; exact steered

theorem testedAtBoundary_cage (s : State) : (testedAtBoundary s).cage = s.cage := by
  obtain ⟨_, _, _, form, _⟩ := testedAtBoundary_form s
  rw [form]

theorem testedAtBoundary_roster (s : State) (j : Station) :
    (testedAtBoundary s).roster[j] = ageEntry s.settings.silenceLimit s.roster[j] := by
  obtain ⟨r, b, p, form, _, aged⟩ := testedAtBoundary_form s
  rw [form]; exact aged j

/-- The state's work and the end of the phase set change neither the roster nor the muting. -/
theorem worked_kept (s : State) : (clearPhaseSet (stateWork s)).roster = s.roster
    ∧ (clearPhaseSet (stateWork s)).cage = s.cage ∧ (clearPhaseSet (stateWork s)).tb = s.tb
    ∧ (clearPhaseSet (stateWork s)).sc.mutedProfile = s.sc.mutedProfile
    ∧ (clearPhaseSet (stateWork s)).sc.mutedClash = s.sc.mutedClash
    ∧ (clearPhaseSet (stateWork s)).sc.clashThisEpoch = s.sc.clashThisEpoch
    ∧ (clearPhaseSet (stateWork s)).sc.clashCount = s.sc.clashCount := by
  obtain ⟨sc, b, p, form, profile, clash, epoch, count, _⟩ := stateWork_form s
  rw [form]
  exact ⟨rfl, rfl, rfl, profile, clash, epoch, count⟩

theorem clearPhaseSet_fields (s : State) : (clearPhaseSet s).sc.phaseSet = false
    ∧ (clearPhaseSet s).sc.state = s.sc.state ∧ (clearPhaseSet s).sc.listen = s.sc.listen
    ∧ (clearPhaseSet s).bus = s.bus := ⟨rfl, rfl, rfl, rfl⟩

theorem decidesDrive_kept (s : State) : (decidesDrive s).roster = (testedAtBoundary s).roster
    ∧ (decidesDrive s).cage = s.cage ∧ (decidesDrive s).tb = s.tb
    ∧ (decidesDrive s).sc.mutedProfile = (testedAtBoundary s).sc.mutedProfile
    ∧ (decidesDrive s).sc.mutedClash = (testedAtBoundary s).sc.mutedClash
    ∧ (decidesDrive s).sc.clashThisEpoch = (testedAtBoundary s).sc.clashThisEpoch
    ∧ (decidesDrive s).sc.clashCount = (testedAtBoundary s).sc.clashCount := by
  have cage := testedAtBoundary_cage s
  have tb := testedAtBoundary_tb s
  unfold decidesDrive
  generalize testedAtBoundary s = a at cage tb ⊢
  obtain ⟨roster, cageKept, tbKept, rest⟩ := worked_kept a
  exact ⟨roster, cageKept.trans cage, tbKept.trans tb, rest⟩

theorem decidesDrive_steered (s : State) : Steered s.bus (decidesDrive s).bus := by
  have tested := testedAtBoundary_steered s
  unfold decidesDrive
  generalize testedAtBoundary s = a at tested ⊢
  rw [(clearPhaseSet_fields _).2.2.2]
  exact tested.trans (stateWork_steered a)

theorem scaleWork_sc {s : State} (awake : s.sc.state ≠ .quiet) : (scaleWork s).sc = (decidesDrive s).sc := by
  rw [scaleWork_of_awake awake, driveAtExpiry_sc]

theorem scaleWork_roster {s : State} (awake : s.sc.state ≠ .quiet) :
    (scaleWork s).roster = (testedAtBoundary s).roster := by
  rw [scaleWork_of_awake awake]
  obtain ⟨_, _, form⟩ := driveAtExpiry_form (decidesDrive s)
  have kept := (decidesDrive_kept s).1
  generalize decidesDrive s = a at form kept ⊢
  rw [form]
  exact kept

theorem ageEntry_eq (limit : Nat) (x : RosterEntry) : ageEntry limit x =
    if x.present = true ∧ x.heard = false then
      { x with heard := false, silence := min (x.silence + 1) 255,
               present := decide (min (x.silence + 1) 255 < limit) }
    else { x with heard := false } := by
  unfold ageEntry
  simp only [Bool.and_eq_true, Bool.not_eq_true']

/-- The clash count and the flags of an epoch, and the profile test on the aged roster (R41, R54, R55). -/
theorem scaleWork_flags {s : State} (awake : s.sc.state ≠ .quiet) :
    (scaleWork s).sc.clashThisEpoch = false ∧ (scaleWork s).sc.phaseSet = false
      ∧ (scaleWork s).sc.clashCount = (if s.sc.clashThisEpoch then s.sc.clashCount else 0)
      ∧ (scaleWork s).sc.mutedClash = s.sc.mutedClash
      ∧ ((scaleWork s).sc.mutedProfile = true ↔
          (scaleWork s).presentWith true + 1 < (scaleWork s).presentWith false) := by
  obtain ⟨_, _, _, profile, clash, epoch, count⟩ := decidesDrive_kept s
  have muted := testedAtBoundary_sc s
  have cleared : (decidesDrive s).sc.phaseSet = false := (clearPhaseSet_fields _).1
  rw [presentWith_congr (scaleWork_roster awake), presentWith_congr (scaleWork_roster awake), scaleWork_sc awake]
  rw [epoch, clash, count, profile]
  generalize testedAtBoundary s = a at muted ⊢
  rw [muted]
  exact ⟨rfl, cleared, rfl, rfl, decide_eq_true_iff⟩

theorem scaleWork_state {s : State} (awake : s.sc.state ≠ .quiet) :
    (scaleWork s).sc.state = (stateWork (testedAtBoundary s)).sc.state
      ∧ (scaleWork s).sc.listen = (stateWork (testedAtBoundary s)).sc.listen := by
  obtain ⟨_, state, listen, _⟩ := clearPhaseSet_fields (stateWork (testedAtBoundary s))
  rw [scaleWork_sc awake]; exact ⟨state, listen⟩

theorem testedAtBoundary_state (s : State) : (testedAtBoundary s).sc.state = s.sc.state
    ∧ (testedAtBoundary s).sc.listen = s.sc.listen ∧ (testedAtBoundary s).sc.measuredHeld = s.sc.measuredHeld := by
  have muted := testedAtBoundary_sc s
  generalize testedAtBoundary s = a at muted ⊢
  rw [muted]; exact ⟨rfl, rfl, rfl⟩

theorem scaleWork_listen {s : State} (listens : s.sc.state = .listen) :
    (scaleWork s).sc.listen = s.sc.listen + 1
      ∧ (scaleWork s).sc.state = if s.settings.listenLimit ≤ s.sc.listen + 1 then .align else .listen := by
  obtain ⟨state, listen, _⟩ := testedAtBoundary_state s
  obtain ⟨moves, counts⟩ := scaleWork_state (s := s) (by rw [listens]; exact fun h => nomatch h)
  obtain ⟨count, founded⟩ := stateWork_listen (state.trans listens)
  rw [moves, counts, count, founded, listen, testedAtBoundary_settings]
  exact ⟨rfl, rfl⟩

theorem scaleWork_held {s : State} (held : s.sc.state = .held) (idle : s.bus.drive = none) :
    (scaleWork s).sc.state =
      if (scaleWork s).sc.mutedProfile || (scaleWork s).sc.mutedClash then (if s.sc.measuredHeld then .align else .held)
      else (if s.bus.markLine then .held else .align) := by
  have awake : s.sc.state ≠ .quiet := by rw [held]; exact fun h => nomatch h
  obtain ⟨state, _, measured⟩ := testedAtBoundary_state s
  obtain ⟨_, _, _, profile, clash, _⟩ := decidesDrive_kept s
  have line : (testedAtBoundary s).bus.markLine = s.bus.markLine := by
    have steered := (testedAtBoundary_steered s).idle idle
    generalize (testedAtBoundary s).bus = b at steered ⊢
    rw [steered]; rfl
  rw [(scaleWork_state awake).1, stateWork_held (state.trans held), scaleWork_sc awake, profile, clash, measured, line]
  rfl

theorem scaleWork_inScale {s : State} (inScale : s.sc.state = .align ∨ s.sc.state = .locked) :
    (scaleWork s).sc.state = s.sc.state := by
  have awake : s.sc.state ≠ .quiet := by rcases inScale with h | h <;> rw [h] <;> exact fun h => nomatch h
  have state := (testedAtBoundary_state s).1
  rw [(scaleWork_state awake).1, stateWork_inScale (by rw [state]; exact inScale), state]

/-! ## The drive -/

theorem scaleWork_now {s : State} : (decidesDrive s).now = s.now := by
  unfold State.now; rw [(decidesDrive_kept s).2.2.1]

theorem scaleWork_quietly {s : State} (awake : s.sc.state ≠ .quiet) :
    (scaleWork s).bus.faultReported = s.bus.faultReported ∧ (scaleWork s).cage = s.cage := by
  obtain ⟨reported, cage⟩ := driveAtExpiry_quietly (decidesDrive s)
  rw [scaleWork_of_awake awake, reported, cage]
  exact ⟨(decidesDrive_steered s).reported, (decidesDrive_kept s).2.1⟩

/-- An idle port whose station does not drive keeps its window (R19). -/
theorem scaleWork_silent {s : State} (awake : s.sc.state ≠ .quiet) (idle : s.bus.drive = none)
    (silent : (scaleWork s).sc.mayDrive = false) :
    (scaleWork s).bus.drive = none ∧ (scaleWork s).bus.window = s.bus.window := by
  rw [scaleWork_sc awake] at silent
  rw [scaleWork_of_awake awake, driveAtExpiry_of_not silent, (decidesDrive_steered s).idle idle]
  exact ⟨idle, rfl⟩

theorem scaleWork_drives {s : State} (awake : s.sc.state ≠ .quiet) (may : (scaleWork s).sc.mayDrive = true) :
    (scaleWork s).bus.drive = some s.now ∧ (scaleWork s).bus.asserting ≠ none := by
  rw [scaleWork_sc awake] at may
  obtain ⟨drive, asserting⟩ := driveAtExpiry_drives may
  rw [scaleWork_of_awake awake, drive, asserting, scaleWork_now]
  exact ⟨rfl, fun h => nomatch h⟩

/-- The drive of an idle port: what it notes of the window, and the rise it makes (R18, R19, R24, R27). -/
theorem scaleWork_asserts {s : State} (awake : s.sc.state ≠ .quiet) (idle : s.bus.drive = none)
    (may : (scaleWork s).sc.mayDrive = true) :
    (scaleWork s).bus.asserting = some s.afterFall ∧ (scaleWork s).bus.window = riseOfDrive s
      ∧ (s.bus.pullFails = false → (scaleWork s).bus.markLine = true) := by
  rw [scaleWork_sc awake] at may
  have steered := (decidesDrive_steered s).idle idle
  have undriven : (decidesDrive s).bus.drive = none := by rw [steered]; exact idle
  have fall : (decidesDrive s).afterFall = s.afterFall := by unfold afterFall; rw [steered]
  have rise : riseOfDrive (decidesDrive s) = riseOfDrive s := by
    unfold riseOfDrive; rw [fall, scaleWork_now, steered]
  have pull : (decidesDrive s).bus.pullFails = s.bus.pullFails := by rw [steered]
  rw [scaleWork_of_awake awake, ← fall, ← rise, ← pull]
  generalize decidesDrive s = a at may undriven ⊢
  refine ⟨(driveAtExpiry_drives may).2, ?_, driveAtExpiry_markLine may⟩
  rw [driveAtExpiry_of_may may undriven]

end State

end Sys2Proof.Machine
end

section
/-!
SUPPORT. The statement about an own boundary, assembled from the work of the Scale Controller on the state that the
boundary has begun (R5, R19, R41, R52, R54, R55, R58, R61).
-/
namespace Sys2Proof.Machine

namespace State

/-! ## The TIME records of a boundary at which no line changes (R58) -/

/-- The TIME records of a boundary from `s`, by the controller it leaves. -/
def boundaryRecords (s : State) (sc : ScaleController) : List Record :=
  let record := fun (x : ScaleState) (new : ScaleState) (reason : TimeReason) =>
    Record.time x new reason sc.mutedProfile s.sc.mutedClash s.bus.lastOffset 0 0
      ⟨s.now, s.tb.epoch + 1, 0, new.quality⟩
  (if sc.mutedProfile = s.sc.mutedProfile then []
      else [record s.sc.state s.sc.state (if sc.mutedProfile then .muted else .unmuted)])
    ++ (if sc.state = s.sc.state then []
      else if s.sc.state = .listen then [record .listen .align .founded]
      else [record .held .align (if sc.mutedProfile || sc.mutedClash then .remeasured else .resumed)])

/-- Only LISTEN and HELD are left by the work of a boundary (R41, R52). -/
theorem scaleWork_moves {s : State} (awake : s.sc.state ≠ .quiet) (moved : (scaleWork s).sc.state ≠ s.sc.state) :
    s.sc.state = .listen ∨ s.sc.state = .held := by
  cases state : s.sc.state with
  | quiet => exact absurd state awake
  | listen => exact .inl rfl
  | held => exact .inr rfl
  | align => exact absurd (scaleWork_inScale (.inl state)) moved
  | locked => exact absurd (scaleWork_inScale (.inr state)) moved

/-- A new epoch reads 0 (R5). -/
theorem boundary_readCount (c : Settings) (tb : TimeBase) : (tb.boundary c).readCount = 0 := by
  unfold TimeBase.readCount
  split
  · exact Nat.zero_min _
  · rfl

theorem scaleWork_records {s b : State} (tb : b.tb = s.tb.boundary s.settings) (sc : b.sc = s.sc)
    (offset : b.bus.lastOffset = s.bus.lastOffset) (awake : s.sc.state ≠ .quiet) :
    Told b (scaleWork b) (boundaryRecords s (scaleWork b).sc) := by
  have awakeB : b.sc.state ≠ .quiet := by rw [sc]; exact awake
  have told := scaleWork_told b awakeB
  have moves := scaleWork_moves awakeB
  have stamp : b.stamp = ⟨s.now, s.tb.epoch + 1, 0, s.sc.state.quality⟩ := by
    unfold State.stamp State.now; rw [tb, sc, boundary_readCount]; rfl
  have now : b.now = s.now := by unfold State.now; rw [tb]; rfl
  have epoch : b.tb.epoch = s.tb.epoch + 1 := by rw [tb]; rfl
  have read : b.tb.readCount = 0 := by rw [tb, boundary_readCount]
  rw [sc, offset, stamp, now, epoch, read] at told
  rw [sc] at moves
  generalize scaleWork b = t at told moves ⊢
  have same : boundaryRecords s t.sc = (if t.sc.mutedProfile = s.sc.mutedProfile then [] else
        [Record.time s.sc.state s.sc.state (if t.sc.mutedProfile then .muted else .unmuted)
          t.sc.mutedProfile s.sc.mutedClash s.bus.lastOffset 0 0 ⟨s.now, s.tb.epoch + 1, 0, s.sc.state.quality⟩])
      ++ (if t.sc.state = s.sc.state then []
        else [Record.time s.sc.state .align
          (if s.sc.state = .listen then .founded
            else if t.sc.mutedProfile || t.sc.mutedClash then .remeasured else .resumed)
          t.sc.mutedProfile s.sc.mutedClash s.bus.lastOffset 0 0 ⟨s.now, s.tb.epoch + 1, 0, .aligning⟩]) := by
    unfold boundaryRecords
    refine congrArg₂ _ rfl ?_
    by_cases stays : t.sc.state = s.sc.state
    · rw [if_pos stays, if_pos stays]
    · rw [if_neg stays, if_neg stays]
      rcases moves stays with state | state
      · rw [if_pos state, if_pos state, state]; rfl
      · have notListen : ¬ s.sc.state = .listen := by rw [state]; exact fun h => nomatch h
        rw [if_neg notListen, if_neg notListen, state]; rfl
  rw [same]
  exact told

theorem errorVerdict_eq_none {limit : Nat} {p : LinePort} (up : p.state = .up → p.epochErrors ≤ limit)
    (degraded : p.state = .degraded → limit < p.epochErrors) : errorVerdict limit p = none := by
  unfold errorVerdict
  split
  · next h => rw [if_neg (Nat.not_lt.2 (up h))]
  · next h => rw [if_neg (Nat.not_le.2 (degraded h))]
  all_goals rfl

/-- A boundary at which no line changes tells what the Scale Controller's work tells (R58). -/
theorem ownBoundary_told {s : State} (calm : ∀ l : Line, errorVerdict (s.settings.errorLimit l) s.lines[l] = none) :
    Told s (ownBoundary s) (boundaryRecords s (ownBoundary s).sc) := by
  obtain ⟨b, tb, sc, offset, begun, eq⟩ := ownBoundary_calm s calm
  by_cases quiet : s.sc.state = .quiet
  · rw [if_pos quiet] at eq
    have kept : (ownBoundary s).sc = s.sc := by rw [eq]; exact sc
    have none : boundaryRecords s s.sc = [] := by
      unfold boundaryRecords; dsimp only; rw [if_pos rfl, if_pos rfl]; rfl
    rw [kept, none, eq]
    exact begun
  · rw [if_neg quiet] at eq
    have kept : (ownBoundary s).sc = (scaleWork b).sc := by rw [eq]; rfl
    rw [kept, eq]
    exact begun.trans (scaleWork_records tb sc offset quiet)

end State

open State

/-! ## The cage side after a boundary -/

/-- What the statement says of the drive, of the controller and the port that a boundary leaves. -/
def DriveDecided (s : State) (sc : ScaleController) (b : CageBus) (split : Nat) : Prop :=
  let drives := (sc.state = .align ∨ sc.state = .locked) ∧ sc.mutedProfile = false ∧ sc.mutedClash = false
  (drives → s.sc.state ≠ .quiet → b.drive = some s.now ∧ b.asserting ≠ none)
    ∧ (drives → s.sc.state ≠ .quiet → s.bus.drive = none →
        b.asserting = some (s.bus.window.any fun w => w.f.isSome))
    ∧ (¬ drives → s.sc.state ≠ .quiet → s.bus.drive = none → b.drive = none)
    ∧ (s.sc.state ≠ .quiet → b.faultReported = s.bus.faultReported ∧ split = s.cage.split)
    ∧ (drives → s.sc.state ≠ .quiet → s.bus.drive = none → s.bus.pullFails = false → b.markLine = true)
    ∧ ∀ w : MarkWindow, s.bus.window = some w → s.bus.drive = none →
        (¬ drives → b.window = some { w with expiry := some s.now })
        ∧ (drives → w.r = none → w.f = none →
            b.window = some { w with
              expiry := some s.now
              r := (if s.bus.cagePull = false ∧ s.bus.pullFails = false then some s.now else none) })
        ∧ (drives → w.r ≠ none ∨ w.f ≠ none → b.window = some { w with expiry := some s.now })

/-- The port at the expiry, the tick recorded in its window (R22). -/
def expiredBus (s : State) : CageBus :=
  { s.bus with window := s.bus.window.map fun w => { w with expiry := some s.now } }

theorem afterFall_of_expired {s u : State} (bus : u.bus = expiredBus s) :
    u.afterFall = s.bus.window.any fun w => w.f.isSome := by
  unfold State.afterFall
  rw [bus]
  unfold expiredBus
  cases s.bus.window <;> rfl

/-- The rise of a drive in the window of the expiry. -/
theorem riseOfDrive_of_expired {s u : State} {w : MarkWindow} (bus : u.bus = expiredBus s) (now : u.now = s.now)
    (window : s.bus.window = some w) :
    (w.r = none → w.f = none → riseOfDrive u = some { w with
        expiry := some s.now
        r := (if s.bus.cagePull = false ∧ s.bus.pullFails = false then some s.now else none) })
      ∧ (w.r ≠ none ∨ w.f ≠ none → riseOfDrive u = some { w with expiry := some s.now }) := by
  have fall := afterFall_of_expired bus
  rw [window] at fall
  have eq : riseOfDrive u = if !s.bus.cagePull && !s.bus.pullFails && !w.f.isSome then
      some (if w.r.isNone then { w with expiry := some s.now, r := some s.now } else { w with expiry := some s.now })
      else some { w with expiry := some s.now } := by
    unfold riseOfDrive
    rw [fall, bus, now]
    unfold expiredBus
    rw [window]
    rfl
  rw [eq]
  refine ⟨fun noRise noFall => ?_, fun taken => ?_⟩
  · rw [noRise, noFall]
    cases s.bus.cagePull <;> cases s.bus.pullFails <;> rfl
  · rcases taken with rise | fell
    · rw [if_neg (fun h => rise (Option.isNone_iff_eq_none.1 h)), ite_self]
    · rw [Option.isSome_iff_ne_none.2 fell, Bool.not_true, Bool.and_false, if_neg Bool.false_ne_true]

/-- The drive decision of a boundary, from the state the boundary has begun. -/
theorem scaleWork_decides {s u : State} (begun : KeepsCage (boundaryBegun s) u) (awake : s.sc.state ≠ .quiet) :
    DriveDecided s (scaleWork u).sc (scaleWork u).bus (scaleWork u).cage.split := by
  have sc : u.sc = s.sc := begun.sc
  have bus : u.bus = expiredBus s := begun.bus
  have now : u.now = s.now := by unfold State.now; rw [begun.tb]; rfl
  have cage : u.cage = s.cage := begun.cage
  have awakeU : u.sc.state ≠ .quiet := by rw [sc]; exact awake
  have idle : s.bus.drive = none → u.bus.drive = none := fun h => by rw [bus]; exact h
  have silent : ¬ (scaleWork u).sc.mayDrive = true → (scaleWork u).sc.mayDrive = false := fun h =>
    Bool.not_eq_true _ ▸ h
  unfold DriveDecided
  dsimp only
  rw [← mayDrive_iff]
  refine ⟨fun may _ => ?_, fun may _ none => ?_, fun may _ none => ?_, fun _ => ?_, fun may _ none reaches => ?_,
    fun w window none => ⟨fun may => ?_, fun may noRise noFall => ?_, fun may taken => ?_⟩⟩
  · rw [← now]; exact scaleWork_drives awakeU may
  · rw [(scaleWork_asserts awakeU (idle none) may).1, afterFall_of_expired bus]
  · exact (scaleWork_silent awakeU (idle none) (silent may)).1
  · obtain ⟨reported, counted⟩ := scaleWork_quietly awakeU
    rw [reported, counted, bus, cage]
    exact ⟨rfl, rfl⟩
  · exact (scaleWork_asserts awakeU (idle none) may).2.2 (by rw [bus]; exact reaches)
  · rw [(scaleWork_silent awakeU (idle none) (silent may)).2, bus]
    unfold expiredBus
    rw [window]
    rfl
  · rw [(scaleWork_asserts awakeU (idle none) may).2.1]
    exact (riseOfDrive_of_expired bus now window).1 noRise noFall
  · rw [(scaleWork_asserts awakeU (idle none) may).2.1]
    exact (riseOfDrive_of_expired bus now window).2 taken

/-- In QUIET there is neither a drive decision nor a rise. -/
theorem quiet_decides {s : State} (quiet : s.sc.state = .quiet) (split : Nat) :
    DriveDecided s s.sc (expiredBus s) split := by
  have silent : ¬ ((s.sc.state = .align ∨ s.sc.state = .locked)
      ∧ s.sc.mutedProfile = false ∧ s.sc.mutedClash = false) := by
    rw [quiet]; rintro ⟨h | h, _⟩ <;> cases h
  have asleep : ∀ {P : Prop}, s.sc.state ≠ .quiet → P := fun h => absurd quiet h
  have awakes : ∀ {P : Prop}, ((s.sc.state = .align ∨ s.sc.state = .locked)
      ∧ s.sc.mutedProfile = false ∧ s.sc.mutedClash = false) → P := fun h => absurd h silent
  refine ⟨awakes, awakes, fun _ => asleep, asleep, awakes, fun w window _ => ⟨fun _ => ?_, awakes, awakes⟩⟩
  unfold expiredBus
  rw [window]
  rfl

/-- The roster and the controller outside QUIET, with the PEER cause (R41, R54, R55, R61, R62). -/
theorem scaleWork_awake {s u t : State} (begun : KeepsCage (boundaryBegun s) u) (awake : s.sc.state ≠ .quiet)
    (kept : KeepsCage (scaleWork u) t) (causes : CausesStay (scaleWork u) t) :
    (∀ j : Station, t.roster[j] =
        if (s.roster[j]).present = true ∧ (s.roster[j]).heard = false then
          { s.roster[j] with
            heard := false, silence := min ((s.roster[j]).silence + 1) 255,
            present := decide (min ((s.roster[j]).silence + 1) 255 < s.settings.silenceLimit) }
        else { s.roster[j] with heard := false })
      ∧ ((∃ j : Station, (s.roster[j]).present = true ∧ (t.roster[j]).present = false) →
          t.path.att.causes.getLsbD 4 = true)
      ∧ t.sc.clashThisEpoch = false ∧ t.sc.phaseSet = false
      ∧ t.sc.clashCount = (if s.sc.clashThisEpoch then s.sc.clashCount else 0)
      ∧ t.sc.mutedClash = s.sc.mutedClash
      ∧ (t.sc.mutedProfile = true ↔ t.presentWith true + 1 < t.presentWith false) := by
  have sc : u.sc = s.sc := begun.sc
  have roster : u.roster = s.roster := begun.roster
  have settings : u.settings = s.settings := begun.settings
  have awakeU : u.sc.state ≠ .quiet := by rw [sc]; exact awake
  refine ⟨fun j => ?_, fun ⟨j, present, absent⟩ => causes 4 ?_, ?_⟩
  · have aged := testedAtBoundary_roster u j
    rw [← scaleWork_roster awakeU, ← kept.roster, settings, roster, ageEntry_eq] at aged
    exact aged
  · rw [kept.roster] at absent
    rw [← roster] at present
    exact (scaleWork_causes u).2 awakeU j present absent
  · have flags := scaleWork_flags awakeU
    rw [presentWith_congr kept.roster, presentWith_congr kept.roster, kept.sc, ← sc]
    exact flags

/-- Settles O41: outside QUIET the cage side is what the Scale Controller's work makes of it, before or after the lines'
tests. -/
theorem ownBoundaryWorksTheCage : Obligations.OwnBoundaryWorksTheCage := by
  intro s running date due
  refine ⟨_, exec_ownBoundary running date due, ?_⟩
  have told : (∀ l : Line, ((s.lines[l]).state = .up → (s.lines[l]).epochErrors ≤ s.settings.errorLimit l)
      ∧ ((s.lines[l]).state = .degraded → s.settings.errorLimit l < (s.lines[l]).epochErrors)) →
      s.EventQueueTakes (ownBoundary s).served (boundaryRecords s (ownBoundary s).served.sc) := fun calm =>
    (ownBoundary_told fun l => errorVerdict_eq_none (calm l).1 (calm l).2).served.takes
  have work : (s.sc.state = .quiet → KeepsCage (boundaryBegun s) (ownBoundary s).served)
      ∧ (s.sc.state ≠ .quiet → ∃ u, KeepsCage (boundaryBegun s) u ∧ KeepsCage (scaleWork u) (ownBoundary s).served
        ∧ CausesStay (scaleWork u) (ownBoundary s).served) := by
    refine ⟨fun quiet => (ownBoundary_of_quiet quiet).trans (served_keepsCage _), fun awake => ?_⟩
    obtain ⟨u, begun, kept, causes⟩ := ownBoundary_of_awake awake
    exact ⟨u, begun, kept.trans (served_keepsCage _), causes.trans (served_causes _)⟩
  generalize (ownBoundary s).served = t at told work ⊢
  obtain ⟨asleep, works⟩ := work
  refine ⟨fun quiet => ⟨(asleep quiet).sc, (asleep quiet).roster⟩, fun awake => ?_, fun listens => ?_,
    fun held idle => ?_, fun inScale => ?_, ?_, told⟩
  · obtain ⟨u, begun, kept, causes⟩ := works awake
    exact scaleWork_awake begun awake kept causes
  · obtain ⟨u, begun, kept, _⟩ := works (by rw [listens]; exact fun h => nomatch h)
    have sc : u.sc = s.sc := begun.sc
    have settings : u.settings = s.settings := begun.settings
    have worked := scaleWork_listen (s := u) (by rw [sc]; exact listens)
    rw [← kept.sc, sc, settings] at worked
    exact worked
  · obtain ⟨u, begun, kept, _⟩ := works (by rw [held]; exact fun h => nomatch h)
    have sc : u.sc = s.sc := begun.sc
    have bus : u.bus = expiredBus s := begun.bus
    have worked := scaleWork_held (s := u) (by rw [sc]; exact held) (by rw [bus]; exact idle)
    rw [← kept.sc, sc, bus] at worked
    exact worked
  · obtain ⟨u, begun, kept, _⟩ := works (by rcases inScale with h | h <;> rw [h] <;> exact fun h => nomatch h)
    have sc : u.sc = s.sc := begun.sc
    rw [kept.sc, scaleWork_inScale (s := u) (by rw [sc]; exact inScale), sc]
  · show DriveDecided s t.sc t.bus t.cage.split
    by_cases quiet : s.sc.state = .quiet
    · rw [(asleep quiet).sc, (asleep quiet).bus]
      exact quiet_decides quiet _
    · obtain ⟨u, begun, kept, _⟩ := works quiet
      rw [kept.sc, kept.bus, kept.cage]
      exact scaleWork_decides begun quiet

end Sys2Proof.Machine
end

section
/-!
SUPPORT. The events of the clockwork, each whole (R7, R16, R19, R22, R28), and the outcome of a mark window (R23, R26).
-/
namespace Sys2Proof.Machine

open State

/-! ## The end of the hold (R18, R19, R24, R25) -/

namespace CageBus

/-- The port once its own drive is gone, before the line's fall is taken. -/
def undriven (b : CageBus) : CageBus :=
  { b with drive := none, asserting := none, pullFails := b.pullFails && b.asserting.isSome }

theorem markLine_of_drive {b : CageBus} {start : Nat} (driven : b.drive = some start) :
    b.markLine = (b.cagePull || !b.pullFails) := by
  unfold markLine; rw [driven, Option.isSome_some, Bool.true_and]

theorem releaseDrive_of_some {b : CageBus} {start : Nat} (now : Nat) (driven : b.drive = some start) :
    b.releaseDrive now = if !b.cagePull && !b.pullFails then lineFell now b.undriven else b.undriven := by
  have line : b.undriven.markLine = b.cagePull := Bool.or_false _
  have falls : (b.markLine && !b.undriven.markLine) = (!b.cagePull && !b.pullFails) := by
    rw [line, markLine_of_drive driven]; cases b.cagePull <;> cases b.pullFails <;> rfl
  rw [← falls]
  unfold releaseDrive
  rw [driven]
  rfl

/-- A window that has r and not yet f takes the fall (R24). -/
theorem lineFell_of_rise {b : CageBus} {w : MarkWindow} {r : Nat} (now : Nat) (window : b.window = some w)
    (rise : w.r = some r) (fall : w.f = none) : lineFell now b = { b with
      releasedSinceClose := true, window := some { w with f := some now }, fallRef := some ⟨now, .window⟩ } := by
  have opens : (w.r.isSome && w.f.isNone) = true := by rw [rise, fall]; rfl
  unfold lineFell fallInWindow
  dsimp only
  rw [window]
  dsimp only
  rw [if_pos opens]

/-- Any other window does not. -/
theorem lineFell_of_noRise {b : CageBus} (now : Nat)
    (taken : ∀ w, b.window = some w → w.r = none ∨ w.f ≠ none) :
    lineFell now b = { b with releasedSinceClose := true } := by
  unfold lineFell fallInWindow
  dsimp only
  cases window : b.window with
  | none => rfl
  | some w =>
    have closed : ¬ (w.r.isSome && w.f.isNone) = true := by
      rcases taken w window with noRise | fell
      · rw [noRise]; exact Bool.false_ne_true
      · rw [Bool.and_eq_true, Option.isNone_iff_eq_none]; exact fun h => fell h.2
    dsimp only
    rw [if_neg closed]

end CageBus

namespace State

theorem markHoldEnd_of_due {s : State} {start : Nat} (driven : s.bus.drive = some start)
    (due : s.settings.hold ≤ ticksSince s.now start) : markHoldEnd s = releaseDrive s := by
  have ends : s.holdDue = true := by unfold holdDue; rw [driven]; exact decide_eq_true due
  exact if_pos ends

theorem windowOpening_of_due {s : State} (due : s.tb.openingDue s.settings = true) : windowOpening s =
    if s.sc.inCage then openWindow { s with tb := { s.tb with openAnnounced := true } }
    else { s with tb := { s.tb with openAnnounced := true } } := if_pos due

theorem inCage_iff (sc : ScaleController) :
    sc.inCage = true ↔ sc.state = .align ∨ sc.state = .locked ∨ sc.state = .held := by
  unfold ScaleController.inCage ScaleController.inScale
  rw [Bool.or_eq_true, Bool.or_eq_true, beq_iff_eq, beq_iff_eq, beq_iff_eq, or_assoc]

end State

section
variable {s : State} (running : s.resetLow = false)
include running

theorem epoHalfPoint_falls (date : s.tb.running = true) (epo : s.tb.epo = true)
    (half : (s.tb.eCur + 1) / 2 ≤ s.tb.count) :
    exec .epoHalfPoint s = .next { s with tb := { s.tb with epo := false } } := by
  have due : s.tb.halfDue = true := by
    unfold TimeBase.halfDue; rw [date, epo]; exact decide_eq_true half
  show answer s (if s.tb.halfDue then { s with tb := { s.tb with epo := false } } else s) = _
  rw [if_pos due, answer_of_running _ running]

theorem markHoldEnd_releases {start : Nat} (driven : s.bus.drive = some start)
    (due : s.settings.hold ≤ ticksSince s.now start) :
    (s.bus.cagePull = true ∨ s.bus.pullFails = true →
        exec .markHoldEnd s = .next { s with bus := s.bus.undriven })
      ∧ (s.bus.cagePull = false → s.bus.pullFails = false →
        (∀ w r, s.bus.window = some w → w.r = some r → w.f = none →
          exec .markHoldEnd s = .next { s with bus := { s.bus.undriven with
            releasedSinceClose := true, window := some { w with f := some s.now },
            fallRef := some ⟨s.now, .window⟩ } })
        ∧ ((∀ w, s.bus.window = some w → w.r = none ∨ w.f ≠ none) →
          exec .markHoldEnd s = .next { s with bus := { s.bus.undriven with releasedSinceClose := true } })) := by
  have ends : exec .markHoldEnd s = .next { s with bus := s.bus.releaseDrive s.now } := by
    show answer s s.markHoldEnd = _
    rw [answer_of_running _ running, markHoldEnd_of_due driven due]
    rfl
  rw [ends, CageBus.releaseDrive_of_some s.now driven]
  refine ⟨fun stays => ?_, fun pull reaches => ⟨fun w r window rise fall => ?_, fun taken => ?_⟩⟩
  · have up : ¬ (!s.bus.cagePull && !s.bus.pullFails) = true := by
      rcases stays with h | h <;> rw [h] <;> simp
    rw [if_neg up]
  · rw [pull, reaches, Bool.not_false, Bool.and_self, if_pos rfl,
      CageBus.lineFell_of_rise (b := s.bus.undriven) s.now window rise fall]
  · rw [pull, reaches, Bool.not_false, Bool.and_self, if_pos rfl,
      CageBus.lineFell_of_noRise (b := s.bus.undriven) s.now taken]

theorem pulseWatchRearm_arms {f : Nat} (watch : s.bus.watch = .ignoring f) (area : 42000 ≤ ticksSince s.now f) :
    exec .pulseWatchRearm s = .next { s with bus := { s.bus with watch := .armed } } := by
  have due : s.rearmDue = true := by unfold rearmDue; rw [watch]; exact decide_eq_true area
  show answer s (if s.rearmDue then { s with bus := { s.bus with watch := .armed } } else s) = _
  rw [if_pos due, answer_of_running _ running]

theorem windowOpening_opens (date : s.tb.running = true) (fresh : s.tb.openAnnounced = false)
    (position : s.tb.eCur ≤ s.tb.count + s.settings.halfWidth) :
    ∃ t, exec .windowOpening s = .next t
      ∧ t = { s with tb := { s.tb with openAnnounced := true }, bus := t.bus }
      ∧ (s.sc.state = .align ∨ s.sc.state = .locked ∨ s.sc.state = .held →
          t.bus.window = some { openAsserted := s.bus.markLine, releasedBefore := s.bus.releasedSinceClose,
                                expiry := none, r := none, f := none, split := false }
          ∧ t.bus.fallRef = none
          ∧ t.bus = { s.bus with
              window := t.bus.window, fallRef := none, noticeSent := false, lane := BitVec.allOnes 112 })
      ∧ (s.sc.state = .quiet ∨ s.sc.state = .listen → t.bus = s.bus) := by
  have reached : s.tb.eCur - s.settings.halfWidth ≤ s.tb.count := by omega
  have due : s.tb.openingDue s.settings = true := by
    unfold TimeBase.openingDue; rw [date, fresh]; exact decide_eq_true reached
  have opens : exec .windowOpening s = .next (windowOpening s) := answer_of_running _ running
  rw [windowOpening_of_due due] at opens
  by_cases inCage : s.sc.inCage = true
  · rw [if_pos inCage] at opens
    refine ⟨_, opens, rfl, fun _ => ⟨rfl, rfl, rfl⟩, fun out => ?_⟩
    obtain ⟨awake, notListen⟩ := inCage_awake inCage
    rcases out with h | h
    · exact absurd h awake
    · exact absurd h notListen
  · rw [if_neg inCage] at opens
    refine ⟨_, opens, rfl, fun inside => absurd ((inCage_iff _).2 inside) inCage, fun _ => rfl⟩

end

/-- Settles O42: one event of the clockwork each, at the position that makes it due. -/
theorem clockworkEventsAndTheWindowOpening : Obligations.ClockworkEventsAndTheWindowOpening := fun _ running =>
  ⟨epoHalfPoint_falls running, fun _ driven due => markHoldEnd_releases running driven due,
    fun _ watch area => pulseWatchRearm_arms running watch area, windowOpening_opens running⟩

/-! ## The outcome of a window (R26) -/

/-- Settles O43: the tests of R26 one after another; the ticks of r and f stand at their signed distance from the
expiry. -/
theorem outcomeIsTheFirstThatHolds : Obligations.OutcomeIsTheFirstThatHolds := by
  intro halfWidth hold x w expiry
  unfold MarkWindow.outcome
  refine ⟨fun asserted released => ?_, fun asserted released => ?_, fun asserted noRise => ?_,
    fun r asserted rise noFall => ?_, fun r f asserted rise fall => ?_⟩
  · rw [asserted, released]; rfl
  · rw [asserted, released]; rfl
  · rw [asserted, noRise]; rfl
  · rw [asserted, rise, noFall]; rfl
  · rw [asserted, rise, fall]
    show Outcome.complete (w.offset halfWidth hold r f) = _
    unfold MarkWindow.offset MarkWindow.windowTime
    rw [expiry]
    rfl

end Sys2Proof.Machine
end

section
/-!
SUPPORT. The close of a mark window (R7, R25, R26): what the taking of its outcome leaves of the port that the close has
made (R45 to R51).
-/
namespace Sys2Proof.Machine

namespace State

/-! ## What is left of the ended window -/

/-- From `s`, a port with no window, to `t`: no window, the last offset and the mark counts as they were; the flag is
taken from the line, and a port that did not drive drives at the end only where it may. -/
structure Outlasts (s t : State) : Prop where
  window : t.bus.window = none
  flag : s.bus.drive = none →
    t.bus.releasedSinceClose = s.bus.releasedSinceClose ∧ (t.bus.drive = none ∨ t.sc.mayDrive = true)
  released : s.bus.releasedSinceClose = true → t.bus.releasedSinceClose = true
  offset : t.bus.lastOffset = s.bus.lastOffset
  counts : t.cage = { s.cage with heldEntries := t.cage.heldEntries }
  settings : t.settings = s.settings
  ctl : t.ctl = s.ctl

theorem Outlasts.refl {s : State} (closed : s.bus.window = none) : Outlasts s s :=
  ⟨closed, fun idle => ⟨rfl, .inl idle⟩, id, rfl, rfl, rfl, rfl⟩

/-- The release of the drive with no window open. -/
theorem Freed.of_closed {s : State} {b : CageBus} (freed : Freed s b) (closed : s.bus.window = none) :
    b.window = none ∧ (s.bus.releasedSinceClose = true → b.releasedSinceClose = true)
      ∧ b.lastOffset = s.bus.lastOffset := by
  rcases freed with rfl | rfl
  · exact ⟨closed, id, rfl⟩
  · refine ⟨(CageBus.releaseDrive_of_closed s.now closed).1, fun flag => ?_, releaseDrive_lastOffset _ _⟩
    rw [CageBus.releaseDrive_releasedSinceClose, flag, Bool.true_or]

/-- An operation that at most releases the drive and counts an entry to HELD. -/
theorem Outlasts.of_freed {s : State} (closed : s.bus.window = none) {b : CageBus} (freed : Freed s b)
    (sc : ScaleController) (entries : Nat) (p : Path) :
    Outlasts s { s with sc := sc, bus := b, cage := { s.cage with heldEntries := entries }, path := p } := by
  obtain ⟨window, released, offset⟩ := freed.of_closed closed
  refine ⟨window, fun idle => ?_, released, offset, rfl, rfl, rfl⟩
  have same : b = s.bus := freed.of_none idle
  exact ⟨by rw [same], .inl (by rw [same]; exact idle)⟩

theorem takeStuck_outlasts {s : State} (closed : s.bus.window = none) : Outlasts s (takeStuck s) := by
  obtain ⟨sc, b, entries, p, form, freed⟩ := takeStuck_form s
  rw [form]; exact .of_freed closed freed sc entries p

theorem takeVoid_outlasts (noMark : Bool) {s : State} (closed : s.bus.window = none) :
    Outlasts s (takeVoid noMark s) := by
  obtain ⟨sc, b, entries, p, form, freed⟩ := takeVoid_form noMark s
  rw [form]; exact .of_freed closed freed sc entries p

/-! ## A boundary that the steering brings (R6) -/

/-- With no window open the drive decision leaves none. -/
theorem driveAtExpiry_closed {s : State} (closed : s.bus.window = none) : driveAtExpiry s =
    if s.sc.mayDrive then { s with bus := { s.bus with drive := some s.now, asserting := some s.afterFall } }
    else s := by
  have none : ∀ t : State, t.bus.window = none → riseInWindow t = t := by
    intro t h; unfold riseInWindow; rw [h]
  unfold driveAtExpiry
  split
  · dsimp only
    split
    · rw [none _ (by exact closed)]
    · rfl
  · rfl

/-- In ALIGN and LOCKED the tests before the drive decision at most release the drive. -/
theorem decidesDrive_freed {s : State} (inScale : s.sc.state = .align ∨ s.sc.state = .locked) :
    Freed s (decidesDrive s).bus := by
  obtain ⟨r, p, aged, _⟩ := silenceAccounting_form (clashTest s)
  obtain ⟨b, q, tested, freed⟩ := profileTest_form (silenceAccounting (clashTest s))
  have state := (testedAtBoundary_state s).1
  have bus : (decidesDrive s).bus = b := by
    unfold decidesDrive
    rw [(clearPhaseSet_fields _).2.2.2, stateWork_inScale (by rw [state]; exact inScale)]
    exact congrArg (·.bus) tested
  rw [bus]
  rw [aged] at freed
  exact freed

theorem scaleWork_outlasts {s : State} (closed : s.bus.window = none)
    (inScale : s.sc.state = .align ∨ s.sc.state = .locked) :
    (scaleWork s).bus.window = none
      ∧ (s.bus.drive = none → (scaleWork s).bus.releasedSinceClose = s.bus.releasedSinceClose
          ∧ ((scaleWork s).bus.drive = none ∨ (scaleWork s).sc.mayDrive = true))
      ∧ (s.bus.releasedSinceClose = true → (scaleWork s).bus.releasedSinceClose = true)
      ∧ (scaleWork s).bus.lastOffset = s.bus.lastOffset := by
  have awake : s.sc.state ≠ .quiet := by rcases inScale with h | h <;> rw [h] <;> exact fun h => nomatch h
  have freed := decidesDrive_freed inScale
  rw [scaleWork_of_awake awake]
  generalize decidesDrive s = a at freed ⊢
  obtain ⟨window, released, offset⟩ := freed.of_closed closed
  rw [driveAtExpiry_closed window]
  split
  · next may =>
    exact ⟨window, fun idle => ⟨by dsimp only; rw [freed.of_none idle], .inr may⟩, released, offset⟩
  · exact ⟨window, fun idle => ⟨by rw [freed.of_none idle], .inl (by rw [freed.of_none idle]; exact idle)⟩,
      released, offset⟩

theorem ownBoundary_outlasts {s : State} (closed : s.bus.window = none)
    (inScale : s.sc.state = .align ∨ s.sc.state = .locked) :
    Outlasts s (ownBoundary s) ∧ (ownBoundary s).sc.state = s.sc.state := by
  have awake : s.sc.state ≠ .quiet := by rcases inScale with h | h <;> rw [h] <;> exact fun h => nomatch h
  obtain ⟨u, begun, kept, _⟩ := ownBoundary_of_awake awake
  have sc : u.sc = s.sc := begun.sc
  have bus : u.bus = s.bus := by
    rw [begun.bus]
    show expiredBus s = s.bus
    have same : s.bus = { s.bus with window := none } := by rw [← closed]
    rw [expiredBus, closed, Option.map_none, ← same]
  have awakeU : u.sc.state ≠ .quiet := by rw [sc]; exact awake
  have inScaleU : u.sc.state = .align ∨ u.sc.state = .locked := by rw [sc]; exact inScale
  obtain ⟨window, flag, released, offset⟩ := scaleWork_outlasts (s := u) (by rw [bus]; exact closed) inScaleU
  have counted : (ownBoundary s).cage = s.cage := by
    rw [kept.cage, (scaleWork_quietly awakeU).2]; exact begun.cage
  rw [bus] at flag released offset
  refine ⟨⟨by rw [kept.bus]; exact window, fun idle => by rw [kept.bus, kept.sc]; exact flag idle,
    fun h => by rw [kept.bus]; exact released h, by rw [kept.bus]; exact offset, by rw [counted], ?_, ?_⟩, ?_⟩
  · rw [kept.settings, (scaleWork_rest u).2.2.1]; exact begun.settings
  · rw [kept.ctl, (scaleWork_rest u).2.2.2]; exact begun.ctl
  · rw [kept.sc, scaleWork_inScale inScaleU, sc]

/-! ## The taking of a complete outcome (R45, R46, R47, R51) -/

/-- From a state that differs in nothing of the port or the counts. -/
theorem Outlasts.from {s u t : State} (h : Outlasts u t) (bus : u.bus = s.bus) (cage : u.cage = s.cage)
    (settings : u.settings = s.settings) (ctl : u.ctl = s.ctl) : Outlasts s t :=
  ⟨h.window, by rw [← bus]; exact h.flag, by rw [← bus]; exact h.released, by rw [← bus]; exact h.offset,
    by rw [← cage]; exact h.counts, h.settings.trans settings, h.ctl.trans ctl⟩

/-- To a state that differs in nothing of the port, the muting or the counts. -/
theorem Outlasts.to {s u t : State} (h : Outlasts s u) (bus : t.bus = u.bus) (may : t.sc.mayDrive = u.sc.mayDrive)
    (cage : t.cage = u.cage) (settings : t.settings = u.settings) (ctl : t.ctl = u.ctl) : Outlasts s t :=
  ⟨by rw [bus]; exact h.window, by rw [bus, may]; exact h.flag, by rw [bus]; exact h.released,
    by rw [bus]; exact h.offset, by rw [cage]; exact h.counts, settings.trans h.settings, ctl.trans h.ctl⟩

/-- A move between ALIGN and LOCKED keeps the drive of a station that may drive (R20). -/
theorem Outlasts.move {s t : State} (h : Outlasts s t) (inScale : t.sc.state = .align ∨ t.sc.state = .locked)
    {new : ScaleState} (stays : new = .align ∨ new = .locked) (r : TimeReason) (good : Nat) :
    Outlasts s (moveTo new r 0 0 { t with sc := { t.sc with good := good } }) := by
  have may : ({ t.sc with good := good, state := new } : ScaleController).mayDrive = t.sc.mayDrive := by
    unfold ScaleController.mayDrive
    rcases inScale with h | h <;> rcases stays with k | k <;> rw [h, k] <;> rfl
  rw [moveTo_eq]
  dsimp only
  rw [may]
  split
  · next allowed => exact h.to rfl (may.trans rfl) rfl rfl rfl
  · next barred =>
    obtain ⟨window, released, offset⟩ := Freed.of_closed (s := t) (.inr rfl) h.window
    refine ⟨window, fun idle => ?_, fun flag => released (h.released flag), offset.trans h.offset, h.counts,
      h.settings, h.ctl⟩
    have undriven : t.bus.drive = none := (h.flag idle).2.resolve_right barred
    dsimp only
    rw [releaseDrive_of_none _ undriven]
    exact ⟨(h.flag idle).1, .inl undriven⟩

theorem programLength_outlasts (len : Int) {s : State} (closed : s.bus.window = none)
    (inScale : s.sc.state = .align ∨ s.sc.state = .locked) :
    Outlasts s (programLength len s) ∧ (programLength len s).sc.state = s.sc.state := by
  unfold programLength
  dsimp only
  split
  · obtain ⟨outlasts, state⟩ := ownBoundary_outlasts
      (s := { s with tb := { s.tb with eCur := TimeBase.limitedLength s.settings len } }) closed inScale
    exact ⟨outlasts.from rfl rfl rfl rfl, state⟩
  · exact ⟨(Outlasts.refl closed).to rfl rfl rfl rfl rfl, rfl⟩

theorem steer_outlasts (d : Int) {s : State} (closed : s.bus.window = none)
    (inScale : s.sc.state = .align ∨ s.sc.state = .locked) :
    Outlasts s (steer d s) ∧ (steer d s).sc.state = s.sc.state := by
  obtain ⟨outlasts, state⟩ := programLength_outlasts
    (s.settings.epochLen - clampInt (-(s.settings.slew : Int)) s.settings.slew d) closed inScale
  exact ⟨outlasts.to rfl rfl rfl rfl rfl, state⟩

theorem countGood_outlasts (d : Int) {s t : State} (h : Outlasts s t)
    (inScale : t.sc.state = .align ∨ t.sc.state = .locked) : Outlasts s (countGood d t) := by
  unfold countGood
  split
  · dsimp only
    split
    · exact h.move inScale (.inr rfl) .gained _
    · exact h.to rfl rfl rfl rfl rfl
  · exact h.to rfl rfl rfl rfl rfl

theorem testOffset_outlasts (d : Int) {s t : State} (h : Outlasts s t)
    (inScale : t.sc.state = .align ∨ t.sc.state = .locked) : Outlasts s (testOffset d t) := by
  unfold testOffset
  split
  · exact h.move inScale (.inl rfl) .offset _
  · exact h

theorem takeComplete_outlasts (d : Int) {s : State} (closed : s.bus.window = none) :
    Outlasts s (takeComplete d s) := by
  have steered : s.sc.state = .align ∨ s.sc.state = .locked →
      Outlasts s (steer d { s with sc := { s.sc with voids := 0, noMarkRun := 0 } })
        ∧ (steer d { s with sc := { s.sc with voids := 0, noMarkRun := 0 } }).sc.state = s.sc.state := by
    intro inScale
    obtain ⟨outlasts, state⟩ := steer_outlasts d (s := { s with sc := { s.sc with voids := 0, noMarkRun := 0 } })
      closed inScale
    exact ⟨outlasts.from rfl rfl rfl rfl, state⟩
  unfold takeComplete
  dsimp only
  split
  · next align =>
    obtain ⟨outlasts, state⟩ := steered (.inl align)
    exact countGood_outlasts d outlasts (.inl (state.trans align))
  · next locked =>
    obtain ⟨outlasts, state⟩ := steered (.inr locked)
    exact testOffset_outlasts d outlasts (.inr (state.trans locked))
  · exact (Outlasts.refl closed).to rfl rfl rfl rfl rfl
  all_goals exact .refl closed

theorem takeOutcome_outlasts (o : Outcome) {s : State} (closed : s.bus.window = none) :
    Outlasts s (takeOutcome o s) := by
  cases o with
  | stuck => exact takeStuck_outlasts closed
  | early => exact takeVoid_outlasts false closed
  | noMark => exact takeVoid_outlasts true closed
  | long => exact takeVoid_outlasts false closed
  | complete d => exact takeComplete_outlasts d closed

/-! ## The close -/

/-- The port and the Time Base once the close has ended the window, before the outcome is taken. -/
def closedWindow (o : Outcome) (s : State) : State :=
  endWindow o { s with tb := { s.tb with closeAnnounced := true } }

theorem exec_windowClose {s : State} {w : MarkWindow} (running : s.resetLow = false) (date : s.tb.running = true)
    (own : s.tb.ownStart = true) (fresh : s.tb.closeAnnounced = false)
    (position : s.settings.halfWidth ≤ s.tb.count) (window : s.bus.window = some w) :
    exec .windowClose s = .next (takeOutcome (w.outcome s.settings.halfWidth s.settings.hold)
      (closedWindow (w.outcome s.settings.halfWidth s.settings.hold) s)).served := by
  have due : s.tb.closeDue s.settings = true := by
    unfold TimeBase.closeDue; rw [date, own, fresh]; exact decide_eq_true position
  show answer s s.windowClose = _
  rw [answer_of_running _ running]
  unfold windowClose
  rw [if_pos due]
  dsimp only
  rw [window]
  rfl

/-- Whether the mark has been measured in HELD once outcome `o` is taken. -/
def measuredAfter (o : Outcome) (before : Bool) : Bool :=
  match o with
  | .complete _ => true
  | _ => before

/-- In HELD a complete outcome is noted, and no other does anything (R51). -/
theorem takeOutcome_held (o : Outcome) {s : State} (held : s.sc.state = .held) :
    takeOutcome o s = { s with sc := { s.sc with measuredHeld := measuredAfter o s.sc.measuredHeld } } := by
  have out : ¬ s.sc.inScale = true := by unfold ScaleController.inScale; rw [held]; exact Bool.false_ne_true
  cases o with
  | stuck => exact if_neg out
  | early => exact if_neg out
  | noMark => exact if_neg out
  | long => exact if_neg out
  | complete d =>
    show takeComplete d s = _
    unfold takeComplete
    rw [held]
    rfl

end State

open State

/-- What the close itself makes of the port and the counts (R25, R26). -/
theorem closedWindow_fields (o : Outcome) (s : State) :
    (closedWindow o s).bus.window = none ∧ (closedWindow o s).bus.drive = s.bus.drive
      ∧ (closedWindow o s).bus.releasedSinceClose = !s.bus.markLine
      ∧ (closedWindow o s).bus.lastOffset = (match o with
          | .complete d => max (-32767) (min 32767 d)
          | _ => s.bus.lastOffset)
      ∧ (closedWindow o s).cage = countOutcome o s.cage ∧ (closedWindow o s).settings = s.settings
      ∧ (closedWindow o s).ctl = s.ctl := by
  refine ⟨rfl, rfl, rfl, ?_, rfl, rfl, rfl⟩
  show offsetAfter o s.bus.lastOffset = _
  cases o <;> rfl

theorem countOutcome_marks (o : Outcome) (k : CageCounters) :
    (countOutcome o k).marks = (match o with
        | .complete _ => countUp k.marks
        | _ => k.marks)
      ∧ (countOutcome o k).voidEarly = (if o = .early then countUp k.voidEarly else k.voidEarly)
      ∧ (countOutcome o k).voidNoMark = (if o = .noMark then countUp k.voidNoMark else k.voidNoMark)
      ∧ (countOutcome o k).voidLong = (if o = .long then countUp k.voidLong else k.voidLong) := by
  cases o <;> exact ⟨rfl, rfl, rfl, rfl⟩

/-- Settles O44: the close ends the window, and the taking of its outcome outlasts it. -/
theorem windowCloseEndsTheWindow : Obligations.WindowCloseEndsTheWindow := by
  intro w s running date own fresh position window o
  have closes : exec .windowClose s = .next (takeOutcome o (closedWindow o s)).served :=
    exec_windowClose running date own fresh position window
  clear_value o
  refine ⟨_, closes, ?_⟩
  have fields := closedWindow_fields o s
  have held : s.sc.state = .held → (takeOutcome o (closedWindow o s)).served.tb = { s.tb with closeAnnounced := true }
      ∧ (takeOutcome o (closedWindow o s)).served.roster = s.roster
      ∧ (takeOutcome o (closedWindow o s)).served.sc
          = { s.sc with measuredHeld := measuredAfter o s.sc.measuredHeld } := by
    intro h
    rw [takeOutcome_held o (s := closedWindow o s) h]
    exact ⟨rfl, rfl, rfl⟩
  have outlasts : Outlasts (closedWindow o s) (takeOutcome o (closedWindow o s)).served :=
    (takeOutcome_outlasts o fields.1).to rfl rfl rfl rfl rfl
  generalize (takeOutcome o (closedWindow o s)).served = t at held outlasts ⊢
  obtain ⟨_, drive, flag, offset, cage, settings, ctl⟩ := fields
  obtain ⟨marks, early, noMark, long⟩ := countOutcome_marks o s.cage
  have counted : t.cage.marks = (countOutcome o s.cage).marks ∧ t.cage.voidEarly = (countOutcome o s.cage).voidEarly
      ∧ t.cage.voidNoMark = (countOutcome o s.cage).voidNoMark
      ∧ t.cage.voidLong = (countOutcome o s.cage).voidLong := by
    have counts := outlasts.counts
    rw [cage] at counts
    generalize t.cage = k at counts ⊢
    rw [counts]
    exact ⟨rfl, rfl, rfl, rfl⟩
  obtain ⟨countsMarks, countsEarly, countsNoMark, countsLong⟩ := counted
  refine ⟨outlasts.window, fun idle => ?_, fun low => outlasts.released ?_, outlasts.offset.trans offset,
    countsMarks.trans marks, countsEarly.trans early, countsNoMark.trans noMark, countsLong.trans long,
    outlasts.settings.trans settings, outlasts.ctl.trans ctl, ?_⟩
  · rw [(outlasts.flag (drive.trans idle)).1, flag]
  · rw [flag, low]; rfl
  · cases o <;> exact held

end Sys2Proof.Machine
end

section
/-!
SUPPORT. What the Scale Controller makes of the outcome of a window in ALIGN and LOCKED: the steering of a complete one
(R45 to R47), and the counts and the moves of a void or STUCK one (R48 to R50).
-/
namespace Sys2Proof.Machine

namespace State

/-! ## Steering (R45, R6, R17) -/

/-- The Time Base after the requests of a complete outcome that do not end the epoch. -/
def steeredBase (d : Int) (s : State) : TimeBase :=
  (TimeBase.followEpo { s.tb with
      eCur := TimeBase.limitedLength s.settings
        (s.settings.epochLen - clampInt (-(s.settings.slew : Int)) s.settings.slew d) }).setTrim
    (s.tb.trim + trimStep s.settings d)

/-- The length asked for lies within the limits, so the request takes it (R6). -/
theorem steeredLength (c : Settings) (d : Int) (slew : c.slew ≤ c.epochLen) :
    (TimeBase.limitedLength c (c.epochLen - clampInt (-(c.slew : Int)) c.slew d) : Int)
      = c.epochLen - max (-(c.slew : Int)) (min c.slew d) := by
  unfold TimeBase.limitedLength clampInt
  omega

/-- Steering below the shortest length leaves the epoch to run on. -/
theorem steer_eq (d : Int) {s : State} (below : s.tb.count < s.settings.epochLen - s.settings.slew) :
    steer d s = { s with tb := steeredBase d s } := by
  have bound := (limitedLength_bounds s.settings
    (s.settings.epochLen - clampInt (-(s.settings.slew : Int)) s.settings.slew d)).1
  have runs : ¬ TimeBase.limitedLength s.settings
      (s.settings.epochLen - clampInt (-(s.settings.slew : Int)) s.settings.slew d) ≤ s.tb.count := by omega
  unfold steer programLength
  dsimp only
  rw [if_neg runs]
  rfl

theorem steeredBase_fields (d : Int) {s : State} (date : s.tb.running = true)
    (slew : s.settings.slew ≤ s.settings.epochLen) (below : s.tb.count < s.settings.epochLen - s.settings.slew) :
    ((steeredBase d s).eCur : Int) = s.settings.epochLen - max (-(s.settings.slew : Int)) (min s.settings.slew d)
      ∧ (steeredBase d s).trim = max (-858993) (min 858993
          (s.tb.trim + Int.tdiv (d * 4294967296) (s.settings.epochLen * 2 ^ s.settings.gain)))
      ∧ (steeredBase d s).count = s.tb.count ∧ (steeredBase d s).frac = s.tb.frac
      ∧ (steeredBase d s).epoch = s.tb.epoch ∧ (steeredBase d s).tick = s.tb.tick
      ∧ (steeredBase d s).readCount = s.tb.count
      ∧ (steeredBase d s).epo = decide (s.tb.count < ((steeredBase d s).eCur + 1) / 2) := by
  have length : ((steeredBase d s).eCur : Int)
      = s.settings.epochLen - max (-(s.settings.slew : Int)) (min s.settings.slew d) :=
    steeredLength s.settings d slew
  refine ⟨length, rfl, rfl, rfl, rfl, rfl, ?_, ?_⟩
  · have runs : s.tb.count ≤ (steeredBase d s).eCur - 1 := by omega
    have read : (steeredBase d s).readCount
        = if s.tb.running then min s.tb.count ((steeredBase d s).eCur - 1) else s.tb.count := rfl
    rw [read, date, if_pos rfl, Nat.min_eq_left runs]
  · have level : (steeredBase d s).epo
        = (s.tb.running && decide (s.tb.count < ((steeredBase d s).eCur + 1) / 2)) := rfl
    rw [level, date, Bool.true_and]

/-! ## The good count and the offset test (R46, R47) -/

theorem countGood_tb (d : Int) (s : State) : (countGood d s).tb = s.tb := by
  unfold countGood
  split
  · dsimp only
    split
    · rw [moveTo_eq]
    · rfl
  · rfl

theorem countGood_sc (d : Int) (s : State) :
    (countGood d s).sc = if d.natAbs ≤ s.settings.threshold then
        { s.sc with good := min (s.sc.good + 1) 255,
                    state := if s.settings.lockCount ≤ min (s.sc.good + 1) 255 then .locked else s.sc.state }
      else { s.sc with good := 0 } := by
  unfold countGood
  split
  · dsimp only
    split
    · next reached => rw [moveTo_sc]
    · next short => rfl
  · rfl

theorem testOffset_tb (d : Int) (s : State) : (testOffset d s).tb = s.tb := by
  unfold testOffset
  split
  · rw [moveTo_eq]
  · rfl

theorem testOffset_sc (d : Int) (s : State) :
    (testOffset d s).sc = if 2 * s.settings.threshold < d.natAbs then { s.sc with good := 0, state := .align }
      else s.sc := by
  unfold testOffset
  split
  · rw [moveTo_sc]
  · rfl

/-- GAINED is told where the count of good marks reaches C (R46, R58). -/
theorem countGood_told (d : Int) {s : State} (align : s.sc.state = .align) :
    Told s (countGood d s) (if (countGood d s).sc.state = s.sc.state then [] else
      [.time s.sc.state .locked .gained s.sc.mutedProfile s.sc.mutedClash s.bus.lastOffset 0 0
        ⟨s.now, s.tb.epoch, s.tb.readCount, .locked⟩]) := by
  unfold countGood
  split
  · dsimp only
    split
    · rw [moveTo_sc, if_neg (by rw [align]; exact fun h => nomatch h)]
      exact (moveTo_told .locked .gained 0 0 { s with sc := { s.sc with good := min (s.sc.good + 1) 255 } }).from
        (s := s) rfl rfl
    · rw [if_pos rfl]; exact .none rfl rfl
  · rw [if_pos rfl]; exact .none rfl rfl

/-- OFFSET is told where an offset beyond 2T ends LOCKED (R47, R58). -/
theorem testOffset_told (d : Int) {s : State} (locked : s.sc.state = .locked) :
    Told s (testOffset d s) (if (testOffset d s).sc.state = s.sc.state then [] else
      [.time s.sc.state .align .offset s.sc.mutedProfile s.sc.mutedClash s.bus.lastOffset 0 0
        ⟨s.now, s.tb.epoch, s.tb.readCount, .aligning⟩]) := by
  unfold testOffset
  split
  · rw [moveTo_sc, if_neg (by rw [locked]; exact fun h => nomatch h)]
    exact (moveTo_told .align .offset 0 0 { s with sc := { s.sc with good := 0 } }).from (s := s) rfl rfl
  · rw [if_pos rfl]; exact .none rfl rfl

/-! ## Void and STUCK outcomes (R48, R49, R50) -/

theorem enterHeld_sc (r : TimeReason) (s : State) : (enterHeld r s).sc
    = { s.sc with state := .held, good := 0, voids := 0, noMarkRun := 0, measuredHeld := false } := by
  rw [enterHeld_eq]

theorem enterHeld_rest (r : TimeReason) (s : State) : (enterHeld r s).tb = s.tb ∧ (enterHeld r s).bus.drive = none
    ∧ (enterHeld r s).cage = { s.cage with heldEntries := countUp s.cage.heldEntries } := by
  rw [enterHeld_eq]; exact ⟨rfl, releaseDrive_drive _ _, rfl⟩

theorem inScale_iff (sc : ScaleController) : sc.inScale = true ↔ sc.state = .align ∨ sc.state = .locked := by
  unfold ScaleController.inScale
  rw [Bool.or_eq_true, beq_iff_eq, beq_iff_eq]

theorem takeStuck_of_inScale {s : State} (inScale : s.sc.state = .align ∨ s.sc.state = .locked) :
    takeStuck s = enterHeld .stuck s := if_pos ((inScale_iff _).2 inScale)

/-- The second NO MARK in a row of a muted station (R49, R50). -/
theorem takeVoid_silent {s : State} (inScale : s.sc.state = .align ∨ s.sc.state = .locked)
    (muted : s.sc.muted = true) (run : 1 ≤ s.sc.noMarkRun) : takeVoid true s = enterHeld .silent { s with
      sc := { s.sc with good := 0, voids := min (s.sc.voids + 1) 255, noMarkRun := s.sc.noMarkRun + 1 } } := by
  have second : 2 ≤ s.sc.noMarkRun + 1 := by omega
  unfold takeVoid
  rw [if_pos ((inScale_iff _).2 inScale), muted]
  dsimp only
  rw [if_pos (show (true && true) = true from rfl), if_pos second]

/-- The counts of a void that does not lead to HELD. -/
def voidCounts (noMark : Bool) (sc : ScaleController) : ScaleController :=
  { sc with good := 0, voids := min (sc.voids + 1) 255, noMarkRun := if noMark && sc.muted then 1 else 0 }

/-- A void leads LOCKED to ALIGN at the second in a row (R48). -/
theorem takeVoid_counts (noMark : Bool) {s : State} (inScale : s.sc.state = .align ∨ s.sc.state = .locked)
    (first : noMark = true → s.sc.muted = true → s.sc.noMarkRun = 0) : takeVoid noMark s =
      if s.sc.state = .locked ∧ 1 ≤ s.sc.voids then moveTo .align .voids 0 0 { s with sc := voidCounts noMark s.sc }
      else { s with sc := voidCounts noMark s.sc } := by
  have run : (if (noMark && s.sc.muted) = true then s.sc.noMarkRun + 1 else 0)
      = if (noMark && s.sc.muted) = true then 1 else 0 := by
    split
    · next both =>
      rw [Bool.and_eq_true] at both
      rw [first both.1 both.2]
    · rfl
  have short : ¬ 2 ≤ (if (noMark && s.sc.muted) = true then 1 else 0) := by split <;> omega
  have again : (s.sc.state = .locked ∧ 2 ≤ min (s.sc.voids + 1) 255) ↔ (s.sc.state = .locked ∧ 1 ≤ s.sc.voids) :=
    and_congr_right fun _ => by omega
  unfold takeVoid
  rw [if_pos ((inScale_iff _).2 inScale)]
  dsimp only
  rw [run, if_neg short]
  simp only [again]
  rfl

/-- VOIDS is told where the second void in a row ends LOCKED (R48, R58). -/
theorem takeVoid_told (noMark : Bool) {s : State} (inScale : s.sc.state = .align ∨ s.sc.state = .locked)
    (first : noMark = true → s.sc.muted = true → s.sc.noMarkRun = 0) :
    Told s (takeVoid noMark s) (if s.sc.state = .locked ∧ 1 ≤ s.sc.voids then
      [.time s.sc.state .align .voids s.sc.mutedProfile s.sc.mutedClash s.bus.lastOffset 0 0
        ⟨s.now, s.tb.epoch, s.tb.readCount, .aligning⟩] else []) := by
  rw [takeVoid_counts noMark inScale first]
  split
  · exact (moveTo_told .align .voids 0 0 { s with sc := voidCounts noMark s.sc }).from (s := s) rfl rfl
  · exact .none rfl rfl

theorem takeVoid_fields (noMark : Bool) {s : State} (inScale : s.sc.state = .align ∨ s.sc.state = .locked)
    (first : noMark = true → s.sc.muted = true → s.sc.noMarkRun = 0) :
    (takeVoid noMark s).sc = { voidCounts noMark s.sc with
        state := if s.sc.state = .locked ∧ 1 ≤ s.sc.voids then .align else s.sc.state }
      ∧ (takeVoid noMark s).cage = s.cage ∧ (takeVoid noMark s).tb = s.tb := by
  rw [takeVoid_counts noMark inScale first]
  split
  · rw [moveTo_eq]; exact ⟨rfl, rfl, rfl⟩
  · exact ⟨rfl, rfl, rfl⟩

end State

end Sys2Proof.Machine
end

section
/-!
SUPPORT. The two statements about the close of a window in ALIGN and LOCKED, assembled from the taking of its outcome.
-/
namespace Sys2Proof.Machine

open State

/-! ## A complete outcome -/

/-- The state once a complete outcome has been steered by, before its counting (R45). -/
def steeredClose (d : Int) (s : State) : State :=
  { closedWindow (.complete d) s with
    tb := steeredBase d (closedWindow (.complete d) s), sc := { s.sc with voids := 0, noMarkRun := 0 } }

theorem takeComplete_closed (d : Int) {s : State} (below : s.tb.count < s.settings.epochLen - s.settings.slew)
    (inScale : s.sc.state = .align ∨ s.sc.state = .locked) : takeComplete d (closedWindow (.complete d) s) =
      if s.sc.state = .align then countGood d (steeredClose d s) else testOffset d (steeredClose d s) := by
  have steered : steer d { closedWindow (.complete d) s with
      sc := { (closedWindow (.complete d) s).sc with voids := 0, noMarkRun := 0 } } = steeredClose d s :=
    steer_eq d below
  unfold takeComplete
  dsimp only
  rw [steered]
  have state : (closedWindow (.complete d) s).sc.state = s.sc.state := rfl
  rw [state]
  rcases inScale with h | h
  · rw [h]; rfl
  · rw [h]; rfl

/-- What is told of a complete outcome: GAINED from ALIGN, OFFSET from LOCKED (R46, R47, R58). -/
theorem takeComplete_told (d : Int) {s : State} (date : s.tb.running = true)
    (slew : s.settings.slew ≤ s.settings.epochLen) (below : s.tb.count < s.settings.epochLen - s.settings.slew)
    (inScale : s.sc.state = .align ∨ s.sc.state = .locked) :
    Told s (takeComplete d (closedWindow (.complete d) s))
      (if (takeComplete d (closedWindow (.complete d) s)).sc.state = s.sc.state then []
        else if s.sc.state = .align then
          [.time s.sc.state .locked .gained s.sc.mutedProfile s.sc.mutedClash (max (-32767) (min 32767 d)) 0 0
            ⟨s.now, s.tb.epoch, s.tb.count, .locked⟩]
        else
          [.time s.sc.state .align .offset s.sc.mutedProfile s.sc.mutedClash (max (-32767) (min 32767 d)) 0 0
            ⟨s.now, s.tb.epoch, s.tb.count, .aligning⟩]) := by
  obtain ⟨_, _, _, _, epoch, tick, read, _⟩ :=
    steeredBase_fields d (s := closedWindow (.complete d) s) date slew below
  have now : (steeredClose d s).now = s.now := congrArg BitVec.toNat tick
  have offset : (steeredClose d s).bus.lastOffset = max (-32767) (min 32767 d) := rfl
  have epochKept : (steeredClose d s).tb.epoch = s.tb.epoch := epoch
  have reads : (steeredClose d s).tb.readCount = s.tb.count := read
  have state : (steeredClose d s).sc.state = s.sc.state := rfl
  have muting : (steeredClose d s).sc.mutedProfile = s.sc.mutedProfile
      ∧ (steeredClose d s).sc.mutedClash = s.sc.mutedClash := ⟨rfl, rfl⟩
  have from_s : ∀ {t : State} {records : List Record}, Told (steeredClose d s) t records → Told s t records :=
    fun told => told.from rfl rfl
  rw [takeComplete_closed d below inScale]
  generalize steeredClose d s = a at now offset epochKept reads state muting from_s ⊢
  rcases inScale with h | h
  · rw [if_pos h, if_pos h]
    have told := countGood_told d (s := a) (state.trans h)
    rw [now, offset, epochKept, reads, state, muting.1, muting.2] at told
    exact from_s told
  · have notAlign : ¬ s.sc.state = .align := by rw [h]; exact fun h => nomatch h
    rw [if_neg notAlign, if_neg notAlign]
    have told := testOffset_told d (s := a) (state.trans h)
    rw [now, offset, epochKept, reads, state, muting.1, muting.2] at told
    exact from_s told

theorem takeComplete_tb (d : Int) {s : State} (below : s.tb.count < s.settings.epochLen - s.settings.slew)
    (inScale : s.sc.state = .align ∨ s.sc.state = .locked) :
    (takeComplete d (closedWindow (.complete d) s)).tb = steeredBase d (closedWindow (.complete d) s) := by
  rw [takeComplete_closed d below inScale]
  split
  · exact countGood_tb _ _
  · exact testOffset_tb _ _

/-- The controller after a complete outcome (R46, R47). -/
theorem takeComplete_sc (d : Int) {s : State} (below : s.tb.count < s.settings.epochLen - s.settings.slew)
    (inScale : s.sc.state = .align ∨ s.sc.state = .locked) :
    (takeComplete d (closedWindow (.complete d) s)).sc = if s.sc.state = .align then
        (if d.natAbs ≤ s.settings.threshold then
          { s.sc with voids := 0, noMarkRun := 0, good := min (s.sc.good + 1) 255,
                      state := if s.settings.lockCount ≤ min (s.sc.good + 1) 255 then .locked else s.sc.state }
        else { s.sc with voids := 0, noMarkRun := 0, good := 0 })
      else if 2 * s.settings.threshold < d.natAbs then
        { s.sc with voids := 0, noMarkRun := 0, good := 0, state := .align }
      else { s.sc with voids := 0, noMarkRun := 0 } := by
  rw [takeComplete_closed d below inScale]
  split
  · rw [countGood_sc]; rfl
  · rw [testOffset_sc]; rfl

/-- Settles O45: below the shortest length the epoch runs on, and the outcome is counted after the steering. -/
theorem completeCloseSteers : Obligations.CompleteCloseSteers := by
  intro w d s running date own fresh position window complete slew below inScale
  have closes : exec .windowClose s = .next (takeComplete d (closedWindow (.complete d) s)).served := by
    have closes := exec_windowClose running date own fresh position window
    rw [complete] at closes
    exact closes
  have tb : (takeComplete d (closedWindow (.complete d) s)).served.tb = _ := takeComplete_tb d below inScale
  have sc : (takeComplete d (closedWindow (.complete d) s)).served.sc = _ := takeComplete_sc d below inScale
  have told := (takeComplete_told d date slew below inScale).served.takes
  change s.EventQueueTakes _ (if (takeComplete d (closedWindow (.complete d) s)).served.sc.state = _ then _ else _)
    at told
  refine ⟨_, closes, ?_⟩
  generalize (takeComplete d (closedWindow (.complete d) s)).served = t at tb sc told ⊢
  obtain ⟨length, trim, count, frac, epoch, tick, _, epo⟩ :=
    steeredBase_fields d (s := closedWindow (.complete d) s) date slew below
  have locked : s.sc.state = .locked → ¬ s.sc.state = .align := fun h => by rw [h]; exact fun h => nomatch h
  rw [tb]
  refine ⟨length, trim, count, frac, epoch, tick, ?_, ?_, fun h good => ?_, fun h bad => ?_, fun h good => ?_,
    fun h bad => ?_, epo, told⟩
  · rw [sc]; split <;> split <;> rfl
  · rw [sc]; split <;> split <;> rfl
  · rw [if_pos h, if_pos good, h] at sc
    rw [sc]; exact ⟨rfl, rfl⟩
  · rw [if_pos h, if_neg (Nat.not_le.2 bad)] at sc
    rw [sc]; exact ⟨rfl, h⟩
  · rw [if_neg (locked h), if_neg (Nat.not_lt.2 good)] at sc
    rw [sc]; exact ⟨rfl, h⟩
  · rw [if_neg (locked h), if_pos bad] at sc
    rw [sc]; exact ⟨rfl, rfl⟩

/-! ## Void and STUCK outcomes -/

/-- What the close itself leaves to an outcome that measures nothing. -/
theorem closedWindow_of_void {o : Outcome} (s : State) (void : ∀ d, o ≠ .complete d) :
    (closedWindow o s).bus.lastOffset = s.bus.lastOffset
      ∧ (closedWindow o s).cage.heldEntries = s.cage.heldEntries := by
  cases o with
  | complete d => exact absurd rfl (void d)
  | stuck | early | noMark | long => exact ⟨rfl, rfl⟩

/-- The outcomes that are taken as voids, with what R49 asks of them. -/
theorem takeOutcome_of_void {o : Outcome} (s : State) (void : ∀ d, o ≠ .complete d) (notStuck : o ≠ .stuck) :
    takeOutcome o s = takeVoid (decide (o = .noMark)) s := by
  cases o with
  | complete d => exact absurd rfl (void d)
  | stuck => exact absurd rfl notStuck
  | early | noMark | long => rfl

/-- The void that leaves a station in ALIGN or LOCKED as far as R49 goes. -/
def LeavesSilence (o : Outcome) (s : State) : Prop :=
  o = .noMark → (s.sc.mutedProfile || s.sc.mutedClash) = true → s.sc.noMarkRun = 0

section
variable {o : Outcome} {s t : State} (void : ∀ d, o ≠ .complete d)
include void

/-- An entry to HELD at the close (R50). -/
theorem closeEntersHeld (r : TimeReason) (counts : ScaleController) (sc : counts.state = s.sc.state
      ∧ counts.mutedProfile = s.sc.mutedProfile ∧ counts.mutedClash = s.sc.mutedClash)
    (enters : t = (enterHeld r { closedWindow o s with sc := counts }).served) :
    t.tb = { s.tb with closeAnnounced := true } ∧ t.sc.good = 0 ∧ t.sc.state = .held ∧ t.bus.drive = none
      ∧ t.sc.measuredHeld = false ∧ t.sc.voids = 0 ∧ t.sc.noMarkRun = 0
      ∧ t.cage.heldEntries = countUp s.cage.heldEntries
      ∧ s.EventQueueTakes t [.time s.sc.state .held r s.sc.mutedProfile s.sc.mutedClash s.bus.lastOffset 0 0
          ⟨s.now, s.tb.epoch, s.tb.readCount, .holdover⟩] := by
  obtain ⟨offset, entries⟩ := closedWindow_of_void s void
  have told := (enterHeld_told r { closedWindow o s with sc := counts }).served.from (s := s) rfl rfl
  change Told s _ [.time counts.state .held r counts.mutedProfile counts.mutedClash
    (closedWindow o s).bus.lastOffset 0 0 ⟨s.now, s.tb.epoch, s.tb.readCount, .holdover⟩] at told
  rw [sc.1, sc.2.1, sc.2.2, offset, ← enters] at told
  obtain ⟨tb, drive, cage⟩ := enterHeld_rest r { closedWindow o s with sc := counts }
  have held := enterHeld_sc r { closedWindow o s with sc := counts }
  have heldT : t.sc = (enterHeld r { closedWindow o s with sc := counts }).sc := by rw [enters]; rfl
  have cageT : t.cage = (enterHeld r { closedWindow o s with sc := counts }).cage := by rw [enters]; rfl
  have tbT : t.tb = (enterHeld r { closedWindow o s with sc := counts }).tb := by rw [enters]; rfl
  have driveT : t.bus.drive = (enterHeld r { closedWindow o s with sc := counts }).bus.drive := by rw [enters]; rfl
  rw [tbT, heldT, cageT, driveT, tb, held, cage]
  exact ⟨rfl, rfl, rfl, drive, rfl, rfl, rfl, congrArg countUp entries, told.takes⟩

/-- A void that does not lead to HELD (R48, R49). -/
theorem closeCountsVoid (inScale : s.sc.state = .align ∨ s.sc.state = .locked) (notStuck : o ≠ .stuck)
    (first : LeavesSilence o s) (takes : t = (takeOutcome o (closedWindow o s)).served) :
    t.tb = { s.tb with closeAnnounced := true } ∧ t.sc.good = 0 ∧ t.sc.voids = min (s.sc.voids + 1) 255
      ∧ t.sc.noMarkRun = (if o = .noMark ∧ (s.sc.mutedProfile || s.sc.mutedClash) = true then 1 else 0)
      ∧ t.sc.state = (if s.sc.state = .locked ∧ 1 ≤ s.sc.voids then .align else s.sc.state)
      ∧ t.cage.heldEntries = s.cage.heldEntries
      ∧ s.EventQueueTakes t (if s.sc.state = .locked ∧ 1 ≤ s.sc.voids then
          [.time s.sc.state .align .voids s.sc.mutedProfile s.sc.mutedClash s.bus.lastOffset 0 0
            ⟨s.now, s.tb.epoch, s.tb.readCount, .aligning⟩] else []) := by
  rw [takeOutcome_of_void _ void notStuck] at takes
  obtain ⟨offset, entries⟩ := closedWindow_of_void s void
  have firstRun : decide (o = .noMark) = true → (closedWindow o s).sc.muted = true →
      (closedWindow o s).sc.noMarkRun = 0 := fun noMark muted => first (decide_eq_true_iff.1 noMark) muted
  have told := (takeVoid_told (decide (o = .noMark)) (s := closedWindow o s) inScale firstRun).served.from (s := s)
    rfl rfl
  change Told s _ (if s.sc.state = .locked ∧ 1 ≤ s.sc.voids then
    [.time s.sc.state .align .voids s.sc.mutedProfile s.sc.mutedClash (closedWindow o s).bus.lastOffset 0 0
      ⟨s.now, s.tb.epoch, s.tb.readCount, .aligning⟩] else []) at told
  rw [offset, ← takes] at told
  obtain ⟨sc, cage, tb⟩ := takeVoid_fields (decide (o = .noMark)) (s := closedWindow o s) inScale firstRun
  have scT : t.sc = (takeVoid (decide (o = .noMark)) (closedWindow o s)).sc := by rw [takes]; rfl
  have cageT : t.cage = (takeVoid (decide (o = .noMark)) (closedWindow o s)).cage := by rw [takes]; rfl
  have tbT : t.tb = (takeVoid (decide (o = .noMark)) (closedWindow o s)).tb := by rw [takes]; rfl
  have run : (if (decide (o = .noMark) && s.sc.muted) = true then 1 else 0)
      = if o = .noMark ∧ (s.sc.mutedProfile || s.sc.mutedClash) = true then 1 else 0 := by
    simp only [Bool.and_eq_true, decide_eq_true_iff, ScaleController.muted]
  rw [tbT, scT, cageT, tb, sc, cage]
  exact ⟨rfl, rfl, rfl, run, rfl, entries, told.takes⟩

end

/-- Settles O46: each outcome that is not complete enters HELD or is counted as a void. -/
theorem voidAndStuckCloses : Obligations.VoidAndStuckCloses := by
  intro w s running date own fresh position window inScale o muted record void
  have closes : exec .windowClose s = .next (takeOutcome o (closedWindow o s)).served :=
    exec_windowClose running date own fresh position window
  clear_value o
  refine ⟨_, closes, ?_⟩
  generalize takes : (takeOutcome o (closedWindow o s)).served = t
  by_cases stuck : o = .stuck
  · subst stuck
    obtain ⟨tb, good, state, drive, measured, _, _, entries, told⟩ := closeEntersHeld void .stuck s.sc ⟨rfl, rfl, rfl⟩
      (takes.symm.trans (congrArg served (takeStuck_of_inScale (s := closedWindow .stuck s) inScale)))
    exact ⟨tb, good, fun _ => ⟨state, drive, measured, entries, told⟩, fun h => (nomatch h),
      fun h => absurd rfl h⟩
  by_cases silent : o = .noMark ∧ muted = true ∧ 1 ≤ s.sc.noMarkRun
  · obtain ⟨rfl, muting, run⟩ := silent
    have enters := takeVoid_silent (s := closedWindow .noMark s) inScale muting run
    obtain ⟨tb, good, state, drive, _, voids, silence, entries, told⟩ := closeEntersHeld void .silent
      { s.sc with good := 0, voids := min (s.sc.voids + 1) 255, noMarkRun := s.sc.noMarkRun + 1 } ⟨rfl, rfl, rfl⟩
      (takes.symm.trans (congrArg served enters))
    refine ⟨tb, good, fun h => absurd h stuck, fun _ _ _ => ⟨state, drive, voids, silence, entries, told⟩,
      fun _ first => ?_⟩
    have none := first rfl muting
    omega
  · have first : LeavesSilence o s := fun noMark muting => by
      by_contra some
      exact silent ⟨noMark, muting, Nat.pos_of_ne_zero some⟩
    obtain ⟨tb, good, counted⟩ := closeCountsVoid void inScale stuck first takes.symm
    exact ⟨tb, good, fun h => absurd h stuck, fun noMark muting run => absurd ⟨noMark, muting, run⟩ silent,
      fun _ _ => counted⟩

end Sys2Proof.Machine
end

section
/-!
SUPPORT. The edges of the mark line (R18, R24, R25, R27, R28, R42) and the DRIVE FAULT of a line that reads released
inside the hold (R21, R50).
-/
namespace Sys2Proof.Machine

/-! ## A line that reads released -/

namespace CageBus

/-- No other station pulls, the line reads released, and the flag says so (R18, R25). -/
structure Low (b : CageBus) : Prop where
  pull : b.cagePull = false
  line : b.markLine = false
  flag : b.releasedSinceClose = true

theorem releaseDrive_cagePull (now : Nat) (b : CageBus) : (b.releaseDrive now).cagePull = b.cagePull := by
  rw [State.releaseDrive_eq]

theorem Low.release {b : CageBus} (low : Low b) (now : Nat) : Low (b.releaseDrive now) where
  pull := (releaseDrive_cagePull now b).trans low.pull
  line := (State.releaseDrive_markLine now b).trans low.pull
  flag := by rw [releaseDrive_releasedSinceClose, low.flag, Bool.true_or]

/-- The fall changes the flag and at most the window with the fall reference (R24, R25). -/
theorem lineFell_form (now : Nat) (b : CageBus) : ∃ w f,
    lineFell now b = { b with releasedSinceClose := true, window := w, fallRef := f } := by
  unfold lineFell fallInWindow
  split
  · split
    · exact ⟨_, _, rfl⟩
    · exact ⟨b.window, b.fallRef, rfl⟩
  · exact ⟨b.window, b.fallRef, rfl⟩

theorem lineFell_low {b : CageBus} (now : Nat) (pull : b.cagePull = false) (line : b.markLine = false) :
    Low (lineFell now b) := by
  obtain ⟨w, f, form⟩ := lineFell_form now b
  rw [form]
  exact ⟨pull, line, rfl⟩

theorem markLine_of_cagePull {b : CageBus} (pull : b.cagePull = true) : b.markLine = true := by
  unfold markLine; rw [pull]; rfl

theorem markLine_of_undriven {b : CageBus} (pull : b.cagePull = false) (own : b.drive = none ∨ b.pullFails = true) :
    b.markLine = false := by
  unfold markLine
  rcases own with h | h
  · rw [pull, h]; rfl
  · rw [pull, h, Bool.not_true, Bool.and_false]; rfl

/-- The pull that ceases leaves the line released when it was the only one to reach it. -/
theorem ceasePull_line {b : CageBus} (alone : b.cagePull = false ∨ b.drive = none ∨ b.pullFails = true) :
    (State.ceasePull b).cagePull = false ∧ (State.ceasePull b).markLine = false := by
  unfold State.ceasePull
  cases pull : b.cagePull with
  | true =>
    rw [if_pos rfl]
    refine ⟨rfl, markLine_of_undriven rfl ?_⟩
    rw [pull] at alone
    exact alone.resolve_left (fun h => nomatch h)
  | false =>
    rw [if_neg Bool.false_ne_true]
    exact ⟨rfl, markLine_of_undriven rfl (.inr rfl)⟩

theorem ceasePull_rest (b : CageBus) : (State.ceasePull b).drive = b.drive ∧ (State.ceasePull b).window = b.window
    ∧ (State.ceasePull b).watch = b.watch ∧ (State.ceasePull b).fallRef = b.fallRef
    ∧ (State.ceasePull b).faultReported = b.faultReported ∧ (State.ceasePull b).lastOffset = b.lastOffset := by
  unfold State.ceasePull
  split <;> exact ⟨rfl, rfl, rfl, rfl, rfl, rfl⟩

end CageBus

open CageBus (Low)

namespace State

theorem Freed.low {s : State} {b : CageBus} (freed : Freed s b) (low : Low s.bus) : Low b := by
  rcases freed with rfl | rfl
  · exact low
  · exact low.release _

/-! ## DRIVE FAULT (R21, R50) -/

theorem driveFault_of_inScale {s : State} (fresh : s.bus.faultReported = false)
    (inScale : s.sc.state = .align ∨ s.sc.state = .locked) :
    driveFault s = enterHeld .driveFault { s with bus := { s.bus with faultReported := true } } := by
  unfold driveFault takeDriveFault
  rw [fresh, if_neg Bool.false_ne_true]
  exact if_pos ((inScale_iff _).2 inScale)

theorem driveFault_of_outside {s : State} (fresh : s.bus.faultReported = false) (align : s.sc.state ≠ .align)
    (locked : s.sc.state ≠ .locked) : driveFault s = { s with bus := { s.bus with faultReported := true } } := by
  have outside : ¬ s.sc.inScale = true := fun h => ((inScale_iff _).1 h).elim align locked
  unfold driveFault takeDriveFault
  rw [fresh, if_neg Bool.false_ne_true]
  exact if_neg outside

/-- A fault on a released line takes the drive away and leaves the rest of the port. -/
theorem driveFault_low {s : State} (low : Low s.bus) : Low (driveFault s).bus
    ∧ (driveFault s).bus.window = s.bus.window ∧ (driveFault s).bus.fallRef = s.bus.fallRef
    ∧ (driveFault s).bus.watch = s.bus.watch := by
  obtain ⟨sc, b, entries, p, form, freed⟩ := driveFault_form s
  have reported : Low { s.bus with faultReported := true } := ⟨low.pull, low.line, low.flag⟩
  have lowB := freed.low reported
  rw [form]
  refine ⟨lowB, ?_⟩
  rcases freed with rfl | rfl
  · exact ⟨rfl, rfl, rfl⟩
  · cases driven : s.bus.drive with
    | none =>
      rw [releaseDrive_of_none _ (by exact driven)]
      exact ⟨rfl, rfl, rfl⟩
    | some start =>
      rw [releaseDrive_of_released _ (t := start) (by exact driven) (by exact low.line)]
      exact ⟨rfl, rfl, rfl⟩

theorem insideHold_of_drive {s : State} {start : Nat} (driven : s.bus.drive = some start)
    (begun : 0 < ticksSince s.now start) (inside : ticksSince s.now start < s.settings.hold) : s.insideHold = true := by
  unfold insideHold; rw [driven]; exact decide_eq_true ⟨begun, inside⟩

end State

open State

/-- Settles O48: the fault is reported, and in ALIGN and LOCKED the entry to HELD releases a drive that does not reach
the line. -/
theorem driveFaultEntersHeld : Obligations.DriveFaultEntersHeld := by
  intro start s running driven begun inside low fresh
  have due : s.faultDue = true := by
    unfold faultDue; rw [insideHold_of_drive driven begun inside, low, fresh]; rfl
  have faults : exec .markDriveFault s = .next (driveFault s).served := by
    show answer s s.markDriveFault = _
    rw [answer_of_running _ running]
    exact congrArg _ (if_pos due)
  refine ⟨_, faults, ?_⟩
  by_cases inScale : s.sc.state = .align ∨ s.sc.state = .locked
  · rw [driveFault_of_inScale fresh inScale]
    have told := (enterHeld_told .driveFault { s with bus := { s.bus with faultReported := true } }).served.takes
    have cause : (enterHeld .driveFault
        { s with bus := { s.bus with faultReported := true } }).served.path.att.causes.getLsbD 3 = true :=
      served_cause (moveTo_cause .held .driveFault 0 0 _)
    have form : (enterHeld .driveFault { s with bus := { s.bus with faultReported := true } }).served = { s with
        sc := { s.sc with state := .held, good := 0, voids := 0, noMarkRun := 0, measuredHeld := false },
        bus := CageBus.undriven { s.bus with faultReported := true },
        cage := { s.cage with heldEntries := countUp s.cage.heldEntries },
        path := (enterHeld .driveFault { s with bus := { s.bus with faultReported := true } }).served.path } := by
      rw [served_eq, enterHeld_eq]
      dsimp only
      rw [releaseDrive_of_released _ (t := start) (by exact driven) (by exact low)]
      rfl
    generalize (enterHeld .driveFault { s with bus := { s.bus with faultReported := true } }).served = t
      at told cause form ⊢
    generalize t.path = p at form
    subst form
    exact ⟨rfl, rfl, rfl, rfl, rfl, fun _ => ⟨rfl, rfl, rfl, cause, told⟩,
      fun align locked => absurd inScale (not_or.2 ⟨align, locked⟩)⟩
  · obtain ⟨align, locked⟩ := not_or.1 inScale
    rw [driveFault_of_outside fresh align locked]
    exact ⟨rfl, rfl, rfl, rfl, rfl, fun h => absurd h inScale, fun _ _ => ⟨rfl, rfl, driven⟩⟩

end Sys2Proof.Machine
end

section
/-!
SUPPORT. The rises and the falls that the other stations make on the mark line, with the phase set of the LISTEN watch
(R8, R18, R24, R25, R27, R28, R42).
-/
namespace Sys2Proof.Machine

open CageBus (Low)

namespace State

/-! ## The rise (R24, R27, R28) -/

/-- The watch after a rise (R28). -/
def watchRisen (now : Nat) (w : PulseWatch) : PulseWatch := if w = .armed then .rose now else w

theorem riseInWatch_eq (s : State) :
    riseInWatch s = { s with bus := { s.bus with watch := watchRisen s.now s.bus.watch } } := by
  unfold riseInWatch watchRisen
  have same : s = { s with bus := { s.bus with watch := s.bus.watch } } := rfl
  cases watch : s.bus.watch with
  | armed => rfl
  | off => rw [watch] at same; exact same
  | rose r => rw [watch] at same; exact same
  | ignoring f => rw [watch] at same; exact same

/-- The other stations begin to pull (R18). -/
def pulled (s : State) : State := { s with bus := { s.bus with cagePull := true } }

theorem markLineRise_of_high {s : State} (high : s.bus.markLine = true) :
    markLineRise s = pulled s := if_pos high

theorem markLineRise_of_low {s : State} (low : s.bus.markLine = false) :
    markLineRise s = riseInWatch (riseInWindow (pulled s)) :=
  if_neg (by rw [low]; exact Bool.false_ne_true)

theorem riseInWindow_first {s : State} {w : MarkWindow} (window : s.bus.window = some w) (first : w.r = none) :
    riseInWindow s = { s with bus := { s.bus with window := some { w with r := some s.now } } } := by
  unfold riseInWindow; rw [window]
  dsimp only
  rw [first]
  rfl

theorem inSlotBits_eq_false {k : Nat} (outside : k < 400 ∨ 42000 ≤ k ∨ 2240 ≤ (k - 400) % 2600) :
    inSlotBits k = false := by
  rw [Bool.eq_false_iff, ne_eq, inSlotBits_iff]
  omega

/-- A low line that another station pulls (R24, R27, R28). -/
theorem markLineRise_fields {s : State} (low : s.bus.markLine = false) :
    markLineRise s = { s with bus := (markLineRise s).bus, cage := (markLineRise s).cage }
      ∧ (markLineRise s).bus.cagePull = true ∧ (markLineRise s).bus.drive = s.bus.drive
      ∧ (markLineRise s).bus.releasedSinceClose = s.bus.releasedSinceClose
      ∧ (markLineRise s).bus.watch = watchRisen s.now s.bus.watch
      ∧ (markLineRise s).bus.window
          = (riseInWindow (pulled s)).bus.window
      ∧ (markLineRise s).cage = (riseInWindow (pulled s)).cage := by
  rw [markLineRise_of_low low, riseInWatch_eq]
  obtain ⟨w, k, form⟩ := riseInWindow_form (pulled s)
  rw [form]
  exact ⟨rfl, rfl, rfl, rfl, rfl, rfl, rfl⟩

/-! ## The phase set of a pulse (R8, R42) -/

theorem testedAtBoundary_freed (s : State) : Freed s (testedAtBoundary s).bus := by
  obtain ⟨r, p, aged, _⟩ := silenceAccounting_form (clashTest s)
  obtain ⟨b, q, tested, freed⟩ := profileTest_form (silenceAccounting (clashTest s))
  have bus : (testedAtBoundary s).bus = b := congrArg (·.bus) tested
  rw [bus]
  rw [aged] at freed
  exact freed

theorem moveTo_low (new : ScaleState) (r : TimeReason) (peer : Nat) (prev : BitVec 48) {s : State} (low : Low s.bus) :
    Low (moveTo new r peer prev s).bus := by
  rw [moveTo_eq]
  dsimp only
  split
  · exact low
  · exact low.release _

theorem found_low {s : State} (low : Low s.bus) : Low (found s).bus :=
  moveTo_low .align .founded 0 0 (s := leaveListen { s with sc := s.sc.clearRuns })
    ⟨low.pull, low.line, congrArg Bool.not low.line⟩

theorem listenWork_low {s : State} (low : Low s.bus) : Low (listenWork s).bus := by
  unfold listenWork
  dsimp only
  split
  · exact found_low (s := { s with sc := { s.sc with listen := s.sc.listen + 1 } }) low
  · exact low

/-- A boundary in LISTEN leaves a low line to a station that may found there: no other pull, and the flag. -/
theorem scaleWork_low {s : State} (listens : s.sc.state = .listen) (low : Low s.bus) :
    (scaleWork s).bus.cagePull = false ∧ (scaleWork s).bus.releasedSinceClose = true := by
  have awake : s.sc.state ≠ .quiet := by rw [listens]; exact fun h => nomatch h
  have lowTested := (testedAtBoundary_freed s).low low
  have state := (testedAtBoundary_state s).1
  have lowDecides : Low (decidesDrive s).bus := by
    have works : stateWork (testedAtBoundary s) = listenWork (testedAtBoundary s) := by
      unfold stateWork; rw [state, listens]
    unfold decidesDrive
    rw [(clearPhaseSet_fields _).2.2.2, works]
    exact listenWork_low lowTested
  rw [scaleWork_of_awake awake]
  generalize decidesDrive s = a at lowDecides ⊢
  obtain ⟨_, _, form⟩ := driveAtExpiry_form a
  rw [form]
  exact ⟨lowDecides.pull, lowDecides.flag⟩

/-- What a boundary in LISTEN leaves of the port and of the cage counters. -/
theorem ownBoundary_listen {s : State} (listens : s.sc.state = .listen) :
    (Low s.bus → (ownBoundary s).bus.cagePull = false ∧ (ownBoundary s).bus.releasedSinceClose = true)
      ∧ (s.bus.drive = none → (ownBoundary s).bus.fallRef = s.bus.fallRef)
      ∧ (ownBoundary s).cage = s.cage := by
  obtain ⟨u, begun, kept, _⟩ := ownBoundary_of_awake (s := s) (by rw [listens]; exact fun h => nomatch h)
  have listensU : u.sc.state = .listen := by rw [begun.sc]; exact listens
  have awakeU : u.sc.state ≠ .quiet := by rw [listensU]; exact fun h => nomatch h
  have bus : u.bus = expiredBus s := begun.bus
  refine ⟨fun low => ?_, fun idle => ?_, ?_⟩
  · rw [kept.bus]
    exact scaleWork_low listensU (by rw [bus]; exact ⟨low.pull, low.line, low.flag⟩)
  · have steered := (decidesDrive_steered u).idle (by rw [bus]; exact idle)
    have ref : (decidesDrive u).bus.fallRef = s.bus.fallRef := by rw [steered, bus]; rfl
    rw [kept.bus, scaleWork_of_awake awakeU]
    generalize decidesDrive u = a at ref ⊢
    obtain ⟨_, _, form⟩ := driveAtExpiry_form a
    rw [form]
    exact ref
  · rw [kept.cage, (scaleWork_quietly awakeU).2]
    exact begun.cage

theorem setCount_of_listen {s : State} (v : Nat) (listens : s.sc.state = .listen) : setCount v s =
    if s.tb.eCur ≤ v then ownBoundary s else { s with tb := s.tb.placeCount s.settings v } := if_pos listens

theorem setCount_low (v : Nat) {s : State} (low : Low s.bus) :
    (setCount v s).bus.cagePull = false ∧ (setCount v s).bus.releasedSinceClose = true := by
  by_cases listens : s.sc.state = .listen
  · rw [setCount_of_listen v listens]
    split
    · exact (ownBoundary_listen listens).1 low
    · exact ⟨low.pull, low.flag⟩
  · have same : setCount v s = s := if_neg listens
    rw [same]
    exact ⟨low.pull, low.flag⟩

/-! ## The fall -/

/-- The port once the pull has ceased and the line's fall is taken (R24, R25). -/
def fallenBus (s : State) : CageBus := (ceasePull s.bus).lineFell s.now

/-- The state once a DRIVE FAULT inside the hold is taken too (R21). -/
def faultedFall (s : State) : State :=
  if ({ s with bus := fallenBus s } : State).insideHold then driveFault { s with bus := fallenBus s }
  else { s with bus := fallenBus s }

theorem markLineFall_of_high {s : State} (high : s.bus.markLine = true)
    (alone : s.bus.cagePull = false ∨ s.bus.drive = none ∨ s.bus.pullFails = true) :
    markLineFall s = (fallInWatch (faultedFall s)).served := by
  have falls : (s.bus.markLine && !(ceasePull s.bus).markLine) = true := by
    rw [high, (CageBus.ceasePull_line alone).2]; rfl
  exact if_pos falls

theorem fallenBus_low {s : State} (alone : s.bus.cagePull = false ∨ s.bus.drive = none ∨ s.bus.pullFails = true) :
    Low (fallenBus s) := by
  obtain ⟨pull, line⟩ := CageBus.ceasePull_line alone
  exact CageBus.lineFell_low s.now pull line

theorem fallenBus_rest (s : State) : (fallenBus s).drive = s.bus.drive ∧ (fallenBus s).watch = s.bus.watch
    ∧ (fallenBus s).faultReported = s.bus.faultReported ∧ (fallenBus s).lastOffset = s.bus.lastOffset := by
  obtain ⟨drive, _, watch, _, reported, offset⟩ := CageBus.ceasePull_rest s.bus
  obtain ⟨w, f, form⟩ := CageBus.lineFell_form s.now (ceasePull s.bus)
  unfold fallenBus
  rw [form]
  exact ⟨drive, watch, reported, offset⟩

/-- The window and the fall reference after the fall (R24). -/
theorem fallenBus_window {s : State} {w : MarkWindow} (window : s.bus.window = some w) :
    (∀ r, w.r = some r → w.f = none → (fallenBus s).window = some { w with f := some s.now }
        ∧ (fallenBus s).fallRef = some ⟨s.now, .window⟩)
      ∧ (w.r = none ∨ w.f ≠ none → (fallenBus s).window = some w ∧ (fallenBus s).fallRef = s.bus.fallRef) := by
  obtain ⟨_, same, _, ref, _⟩ := CageBus.ceasePull_rest s.bus
  unfold fallenBus
  refine ⟨fun r rise noFall => ?_, fun taken => ?_⟩
  · rw [CageBus.lineFell_of_rise s.now (same.trans window) rise noFall]
    exact ⟨rfl, rfl⟩
  · rw [CageBus.lineFell_of_noRise s.now fun v hv => by
      rw [same, window] at hv; cases hv; exact taken]
    exact ⟨same.trans window, ref⟩

theorem faultedFall_low {s : State} (alone : s.bus.cagePull = false ∨ s.bus.drive = none ∨ s.bus.pullFails = true) :
    Low (faultedFall s).bus ∧ (faultedFall s).bus.window = (fallenBus s).window
      ∧ (faultedFall s).bus.fallRef = (fallenBus s).fallRef ∧ (faultedFall s).bus.watch = s.bus.watch := by
  have low := fallenBus_low alone
  have watch := (fallenBus_rest s).2.1
  unfold faultedFall
  split
  · obtain ⟨lowFault, window, ref, kept⟩ := driveFault_low (s := { s with bus := fallenBus s }) low
    exact ⟨lowFault, window, ref, kept.trans watch⟩
  · exact ⟨low, rfl, rfl, watch⟩

theorem faultedFall_of_idle {s : State} (idle : s.bus.drive = none) : faultedFall s = { s with bus := fallenBus s } := by
  have outside : ({ s with bus := fallenBus s } : State).insideHold = false := by
    have undriven : (fallenBus s).drive = none := (fallenBus_rest s).1.trans idle
    unfold insideHold
    dsimp only
    rw [undriven]
  exact if_neg (by rw [outside]; exact Bool.false_ne_true)

theorem fallInWatch_of_off {s : State} (off : s.bus.watch = .off) : fallInWatch s = s := by
  unfold fallInWatch; rw [off]

/-- The port when the watch has taken the end of its pulse (R28). -/
def watchFallen (s : State) : State :=
  { s with bus := { s.bus with
      watch := .ignoring s.now, fallRef := some ⟨s.now, .watch⟩, noticeSent := false, lane := BitVec.allOnes 112 } }

theorem fallInWatch_of_rose {s : State} {r : Nat} (rose : s.bus.watch = .rose r) :
    fallInWatch s = phaseSetFrom (ticksSince s.now r) (watchFallen s) := by
  unfold fallInWatch; rw [rose]; rfl

/-- The end of a pulse leaves a low line low, whatever boundary the phase set brings. -/
theorem fallInWatch_low {s : State} (low : Low s.bus) :
    (fallInWatch s).bus.cagePull = false ∧ (fallInWatch s).bus.releasedSinceClose = true := by
  cases watch : s.bus.watch with
  | rose r =>
    rw [fallInWatch_of_rose watch]
    exact setCount_low _ (s := watchFallen s) ⟨low.pull, low.line, low.flag⟩
  | off | armed | ignoring f =>
    unfold fallInWatch; rw [watch]
    exact ⟨low.pull, low.flag⟩

/-- The phase set of a complete pulse in LISTEN (R8, R42). -/
theorem phaseSetFrom_listen (pulse : Nat) {s : State} (listens : s.sc.state = .listen) (idle : s.bus.drive = none) :
    (phaseSetFrom pulse s).sc.phaseSet = true
      ∧ (phaseSetFrom pulse s).cage.scaleSteps = countUp s.cage.scaleSteps
      ∧ (phaseSetFrom pulse s).bus.fallRef = s.bus.fallRef
      ∧ ((pulse + s.settings.hold) / 2 < s.tb.eCur →
          (phaseSetFrom pulse s).tb = s.tb.placeCount s.settings ((pulse + s.settings.hold) / 2)
          ∧ (phaseSetFrom pulse s).bus = s.bus)
      ∧ (s.tb.eCur ≤ (pulse + s.settings.hold) / 2 → (phaseSetFrom pulse s).tb = s.tb.boundary s.settings) := by
  have counted := setCount_of_listen ((pulse + s.settings.hold) / 2) listens
  have bus : (phaseSetFrom pulse s).bus = (setCount ((pulse + s.settings.hold) / 2) s).bus := rfl
  have tb : (phaseSetFrom pulse s).tb = (setCount ((pulse + s.settings.hold) / 2) s).tb := rfl
  have steps : (phaseSetFrom pulse s).cage.scaleSteps
      = countUp (setCount ((pulse + s.settings.hold) / 2) s).cage.scaleSteps := rfl
  refine ⟨rfl, ?_, ?_, fun below => ?_, fun above => ?_⟩
  · rw [steps, counted]
    split
    · rw [(ownBoundary_listen listens).2.2]
    · rfl
  · rw [bus, counted]
    split
    · exact (ownBoundary_listen listens).2.1 idle
    · rfl
  · rw [bus, tb, counted, if_neg (Nat.not_le.2 below)]
    exact ⟨rfl, rfl⟩
  · rw [tb, counted, if_pos above]
    exact ownBoundary_tb s

end State

end Sys2Proof.Machine
end

section
/-!
SUPPORT. The statement about the edges of the mark line, assembled from the rise and the fall.
-/
namespace Sys2Proof.Machine

open State
open CageBus (Low)

section
variable {s : State} (running : s.resetLow = false)
include running

/-- A fall that leaves the level: the pull is noted alone (log 27). -/
theorem markLineFall_notes (stays : s.bus.markLine = false ∨ (ceasePull s.bus).markLine = true) :
    exec .markLineFall s = .next { s with bus := ceasePull s.bus } := by
  have still : ¬ (s.bus.markLine && !(ceasePull s.bus).markLine) = true := by
    rcases stays with h | h
    · rw [h]; exact Bool.false_ne_true
    · rw [h, Bool.not_true, Bool.and_false]; exact Bool.false_ne_true
  show answer s s.markLineFall = _
  rw [answer_of_running _ running]
  exact congrArg _ (if_neg still)

/-- The rise of a line that read released (R24, R27, R28). -/
theorem markLineRise_rises (low : s.bus.markLine = false) : ∃ t, exec .markLineRise s = .next t
    ∧ t = { s with bus := t.bus, cage := t.cage } ∧ t.bus.cagePull = true ∧ t.bus.markLine = true
    ∧ t.bus.drive = s.bus.drive ∧ t.bus.releasedSinceClose = s.bus.releasedSinceClose
    ∧ (∀ w, s.bus.window = some w → w.r = none →
        t.bus.window = some { w with r := some s.now } ∧ t.cage = s.cage)
    ∧ (∀ w r f, s.bus.window = some w → w.r = some r → w.f = some f → w.split = false →
        (ticksSince s.now f < 400 ∨ 42000 ≤ ticksSince s.now f
          ∨ 2240 ≤ (ticksSince s.now f - 400) % 2600) →
        t.bus.window = some { w with split := true } ∧ t.cage = { s.cage with split := countUp s.cage.split })
    ∧ (∀ w r f, s.bus.window = some w → w.r = some r → w.f = some f → 400 ≤ ticksSince s.now f →
        ticksSince s.now f < 42000 → (ticksSince s.now f - 400) % 2600 < 2240 →
        t.bus.window = s.bus.window ∧ t.cage = s.cage)
    ∧ (s.bus.watch = .armed → t.bus.watch = .rose s.now)
    ∧ (s.bus.watch ≠ .armed → t.bus.watch = s.bus.watch) := by
  have rises : exec .markLineRise s = .next (markLineRise s) := answer_of_running _ running
  obtain ⟨form, pull, drive, flag, watch, window, cage⟩ := markLineRise_fields low
  refine ⟨_, rises, form, pull, CageBus.markLine_of_cagePull pull, drive, flag, fun w hw first => ?_,
    fun w r f hw rise fall split outside => ?_, fun w r f hw rise fall past inArea inSlot => ?_, fun armed => ?_,
    fun other => ?_⟩
  · rw [window, cage, riseInWindow_first (s := pulled s) hw first]
    exact ⟨rfl, rfl⟩
  · have free : inSlotBits (ticksSince s.now f) = false := inSlotBits_eq_false outside
    have after := riseInWindow_after (s := pulled s) hw rise fall
    have bits : inSlotBits (ticksSince (pulled s).now f) = false := free
    rw [bits, if_neg Bool.false_ne_true, noteSplit_of_window (s := pulled s) hw, split] at after
    rw [window, cage, after]
    exact ⟨rfl, rfl⟩
  · have after := riseInWindow_after (s := pulled s) hw rise fall
    have bits : inSlotBits (ticksSince (pulled s).now f) = true :=
      (inSlotBits_iff _).2 ⟨past, inArea, inSlot⟩
    rw [bits, if_pos rfl] at after
    rw [window, cage, after]
    exact ⟨rfl, rfl⟩
  · rw [watch, watchRisen, if_pos armed]
  · rw [watch, watchRisen, if_neg other]

/-- The fall of the line with the last pull that reached it (R21, R24, R25, R28, R42). -/
theorem markLineFall_falls (high : s.bus.markLine = true)
    (alone : s.bus.cagePull = false ∨ s.bus.drive = none ∨ s.bus.pullFails = true) :
    ∃ t, exec .markLineFall s = .next t
    ∧ t.bus.cagePull = false ∧ t.bus.releasedSinceClose = true ∧ (s.bus.watch = .off → t.bus.markLine = false)
    ∧ (∀ w r, s.bus.watch = .off → s.bus.window = some w → w.r = some r → w.f = none →
        t.bus.window = some { w with f := some s.now } ∧ t.bus.fallRef = some ⟨s.now, .window⟩)
    ∧ (∀ w, s.bus.watch = .off → s.bus.window = some w → (w.r = none ∨ w.f ≠ none) →
        t.bus.window = some w ∧ t.bus.fallRef = s.bus.fallRef)
    ∧ (∀ r, s.bus.watch = .rose r → s.bus.drive = none → s.sc.state = .listen →
        let v := (ticksSince s.now r + s.settings.hold) / 2
        (t.sc.phaseSet = true ∧ t.cage.scaleSteps = countUp s.cage.scaleSteps
          ∧ t.bus.fallRef = some ⟨s.now, .watch⟩)
        ∧ (v < s.tb.eCur → t.tb.count = v ∧ t.tb.frac = 0 ∧ t.tb.epoch = s.tb.epoch
            ∧ t.tb.epo = (s.tb.running && decide (v < (s.tb.eCur + 1) / 2)) ∧ t.bus.watch = .ignoring s.now)
        ∧ (s.tb.eCur ≤ v → t.tb.count = 0 ∧ t.tb.epoch = s.tb.epoch + 1 ∧ t.tb.epo = true))
    ∧ (∀ start, s.bus.drive = some start → 0 < ticksSince s.now start →
        ticksSince s.now start < s.settings.hold → s.bus.faultReported = false → s.bus.watch = .off →
        s.sc.state = .align ∨ s.sc.state = .locked →
        t.sc.state = .held ∧ t.bus.drive = none ∧ t.bus.faultReported = true
          ∧ s.EventQueueTakes t [.time s.sc.state .held .driveFault s.sc.mutedProfile s.sc.mutedClash
              s.bus.lastOffset 0 0 ⟨s.now, s.tb.epoch, s.tb.readCount, .holdover⟩]) := by
  have falls : exec .markLineFall s = .next (fallInWatch (faultedFall s)).served := by
    show answer s s.markLineFall = _
    rw [answer_of_running _ running, markLineFall_of_high high alone]
  obtain ⟨low, windowKept, refKept, watchKept⟩ := faultedFall_low alone
  obtain ⟨pull, flag⟩ := fallInWatch_low low
  have unwatched : s.bus.watch = .off → fallInWatch (faultedFall s) = faultedFall s := fun off =>
    fallInWatch_of_off (watchKept.trans off)
  refine ⟨_, falls, pull, flag, fun off => ?_, fun w r off window rise noFall => ?_, fun w off window taken => ?_,
    fun r rose idle listens => ?_, fun start driven begun inside fresh off inScale => ?_⟩
  · rw [unwatched off]; exact low.line
  · rw [unwatched off]
    obtain ⟨fell, ref⟩ := (fallenBus_window window).1 r rise noFall
    exact ⟨windowKept.trans fell, refKept.trans ref⟩
  · rw [unwatched off]
    obtain ⟨kept, ref⟩ := (fallenBus_window window).2 taken
    exact ⟨windowKept.trans kept, refKept.trans ref⟩
  · have fallen := faultedFall_of_idle idle
    have rose' : (faultedFall s).bus.watch = .rose r := watchKept.trans rose
    rw [fallInWatch_of_rose rose', fallen]
    obtain ⟨set, steps, ref, below, above⟩ := phaseSetFrom_listen (ticksSince s.now r)
      (s := watchFallen { s with bus := fallenBus s }) listens ((fallenBus_rest s).1.trans idle)
    refine ⟨⟨set, steps, ref⟩, fun v => ?_, fun v => ?_⟩
    · obtain ⟨tb, bus⟩ := below v
      have place := placeCount_fields s.settings ((ticksSince s.now r + s.settings.hold) / 2) s.tb
      exact ⟨(congrArg (·.count) tb).trans place.1, (congrArg (·.frac) tb).trans place.2.1,
        (congrArg (·.epoch) tb).trans place.2.2, (congrArg (·.epo) tb).trans rfl,
        (congrArg (·.watch) bus).trans rfl⟩
    · have tb := above v
      exact ⟨(congrArg (·.count) tb).trans rfl, (congrArg (·.epoch) tb).trans rfl, (congrArg (·.epo) tb).trans rfl⟩
  · obtain ⟨drive, _, reported, offset⟩ := fallenBus_rest s
    have faulted : faultedFall s
        = enterHeld .driveFault { s with bus := { fallenBus s with faultReported := true } } := by
      have hold : ({ s with bus := fallenBus s } : State).insideHold = true :=
        insideHold_of_drive (s := { s with bus := fallenBus s }) (drive.trans driven) begun inside
      unfold faultedFall
      rw [if_pos hold]
      exact driveFault_of_inScale (s := { s with bus := fallenBus s }) (reported.trans fresh) inScale
    rw [unwatched off, faulted]
    have told := (enterHeld_told .driveFault
      { s with bus := { fallenBus s with faultReported := true } }).served.from (s := s) rfl rfl
    change Told s _ [.time s.sc.state .held .driveFault s.sc.mutedProfile s.sc.mutedClash (fallenBus s).lastOffset 0 0
      ⟨s.now, s.tb.epoch, s.tb.readCount, .holdover⟩] at told
    rw [offset] at told
    refine ⟨?_, ?_, ?_, told.takes⟩
    · exact congrArg (·.state) (enterHeld_sc .driveFault _)
    · exact (enterHeld_rest .driveFault _).2.1
    · show (enterHeld .driveFault { s with bus := { fallenBus s with faultReported := true } }).bus.faultReported = true
      rw [enterHeld_eq]
      show (CageBus.releaseDrive _ _).faultReported = true
      rw [releaseDrive_eq]

end

/-- Settles O47: the level by the pulls, and the edges by whether the level changes with them. -/
theorem markLineEdges : Obligations.MarkLineEdges := by
  intro s running
  refine ⟨CageBus.markLine_of_cagePull, fun start driven reaches => ?_, CageBus.markLine_of_undriven, fun high => ?_,
    fun low => ?_, fun start pull driven reaches => ?_, markLineRise_rises running, markLineFall_falls running⟩
  · rw [CageBus.markLine_of_drive driven, reaches]; exact Bool.or_true _
  · show answer s s.markLineRise = _
    rw [answer_of_running _ running, markLineRise_of_high high]
    rfl
  · have alone : s.bus.cagePull = false := by
      by_contra other
      rw [Bool.not_eq_false] at other
      rw [CageBus.markLine_of_cagePull other] at low
      exact nomatch low
    refine ⟨alone, ?_⟩
    rw [markLineFall_notes running (.inl low), ceasePull, if_neg (by rw [alone]; exact Bool.false_ne_true)]
  · have ceased : ceasePull s.bus = { s.bus with cagePull := false } := if_pos pull
    have stays : (ceasePull s.bus).markLine = true := by
      rw [ceased]
      exact (CageBus.markLine_of_drive (b := { s.bus with cagePull := false }) driven).trans (congrArg Bool.not reaches)
    rw [markLineFall_notes running (.inr stays), ceased]

end Sys2Proof.Machine
end

section
/-!
SUPPORT. Sending a notice and reading it back (R18, R30 to R33, R55).
-/
namespace Sys2Proof.Machine

namespace State

/-! ## The own pull on the lane (R18, R30) -/

theorem pullsLane_of_idle {s : State} (idle : s.bus.transmitter = .idle) : s.pullsLane = false := by
  unfold pullsLane; rw [idle]

theorem pullsLane_of_sending {s : State} {start k bit : Nat} {notice : BitVec 112}
    (sending : s.bus.transmitter = .sending start notice bit) (inside : k < 112)
    (begun : 20 * k ≤ ticksSince s.now start) (within : ticksSince s.now start < 20 * (k + 1)) :
    s.pullsLane = !notice.getMsbD k := by
  have position : ticksSince s.now start / Config.bitTicks = k := by unfold Config.bitTicks; omega
  unfold pullsLane
  rw [sending]
  dsimp only
  rw [position, decide_eq_true inside, Bool.true_and]

/-- The lane of an abandoned notice: its bits before, and released from there on (R33). -/
theorem laneUpTo_getMsbD (notice : BitVec 112) (k : Nat) {p : Nat} (inside : p < 112) :
    (laneUpTo notice k).getMsbD p = if p < k then notice.getMsbD p else true := by
  unfold laneUpTo
  rw [BitVec.getMsbD_or, BitVec.getMsbD_ushiftRight, BitVec.getMsbD_allOnes]
  by_cases before : p < k
  · rw [if_pos before]; simp [before]
  · rw [if_neg before]
    have rest : p - k < 112 := by omega
    simp [before, inside, rest]

/-! ## The start and the end of a notice (R32) -/

theorem noticeBegin_of_due {s : State} (due : s.sendDue = true) :
    noticeBegin s = { s with bus := { s.bus with transmitter := .sending s.now s.noticeNow 0 } } := if_pos due

theorem sendDue_of_slot {s : State} {f : Nat}
    (inCage : s.sc.state = .align ∨ s.sc.state = .locked ∨ s.sc.state = .held) (unmuted : s.sc.mutedClash = false)
    (idle : s.bus.transmitter = .idle) (unsent : s.bus.noticeSent = false) (ref : s.bus.fallRef = some ⟨f, .window⟩)
    (slot : ticksSince s.now f = 400 + 2600 * s.bus.station.val) : s.sendDue = true := by
  have cage : s.sc.inCage = true := (inCage_iff _).2 inCage
  unfold sendDue
  rw [cage, unmuted, idle, unsent, ref]
  show (true && _) = true
  rw [Bool.true_and]
  show (_ && (ticksSince s.now f == Config.slotLead + Config.slotPitch * s.bus.station.val)) = true
  rw [slot]
  exact beq_self_eq_true _

theorem noticeFinish_of_due {s : State} {start bit : Nat} {notice : BitVec 112}
    (sending : s.bus.transmitter = .sending start notice bit) (done : 2240 ≤ ticksSince s.now start) :
    noticeFinish s = { s with bus := { s.bus with transmitter := .idle, noticeSent := true, lane := notice } } := by
  have due : s.finishDue = true := by unfold finishDue; rw [sending]; exact decide_eq_true done
  have lane : s.bus.ownLane = notice := by unfold CageBus.ownLane; rw [sending]
  unfold noticeFinish
  rw [if_pos due, lane]

/-! ## The read-back of one bit (R33) -/

/-- The state in which a SLOT CLASH at position `k` is reported. -/
def clashedAt (notice : BitVec 112) (k : Nat) (s : State) : State :=
  { abandonNotice notice k s with cage := { s.cage with slotClash := countUp s.cage.slotClash } }

theorem noticeSample_eq {s : State} {start k : Nat} {notice : BitVec 112}
    (sending : s.bus.transmitter = .sending start notice k) (inside : k < 112)
    (middle : ticksSince s.now start = 20 * k + 10) (released : Bool) : noticeSample released s =
      if notice.getMsbD k = released then
        { s with bus := { s.bus with transmitter := .sending start notice (k + 1) } }
      else if released then served (takeDriveFault (abandonNotice notice k s))
      else served (takeClash (clashedAt notice k s)) := by
  have position : ticksSince s.now start / Config.bitTicks = k := by unfold Config.bitTicks; omega
  have here : (atBitMiddle s start k && decide (k ≤ k ∧ k < 112)) = true := by
    have at_middle : atBitMiddle s start k = true := by
      unfold atBitMiddle Config.bitTicks
      rw [middle]; exact beq_self_eq_true _
    rw [at_middle, decide_eq_true ⟨Nat.le_refl k, inside⟩]; rfl
  have pulls : s.pullsLane = !notice.getMsbD k :=
    pullsLane_of_sending sending inside (by omega) (by omega)
  unfold noticeSample
  rw [sending]
  dsimp only
  rw [position, if_pos here, pulls]
  cases notice.getMsbD k <;> cases released <;> rfl

theorem takeClash_bus (s : State) : (takeClash s).bus.transmitter = s.bus.transmitter
    ∧ (takeClash s).bus.lane = s.bus.lane ∧ (takeClash s).cage = s.cage := by
  obtain ⟨b, p, form, freed⟩ := takeClash_form s
  rw [form]
  rcases freed with rfl | rfl
  · exact ⟨rfl, rfl, rfl⟩
  · rw [releaseDrive_eq]; exact ⟨rfl, rfl, rfl⟩

theorem takeClash_sc (s : State) : (takeClash s).sc = { s.sc with
    clashThisEpoch := true, clashCount := min (s.sc.clashCount + 1) 3,
    mutedClash := s.sc.mutedClash || decide (2 ≤ s.sc.clashCount) } := by
  obtain ⟨b, p, form, _⟩ := takeClash_form s
  rw [form]

/-- The report of a SLOT CLASH at position `k` (R33, R55, R58). -/
theorem takeClash_clashed (notice : BitVec 112) (k : Nat) (s : State) :
    (takeClash (clashedAt notice k s)).bus.transmitter = .idle
      ∧ (takeClash (clashedAt notice k s)).bus.lane = laneUpTo notice k
      ∧ (takeClash (clashedAt notice k s)).cage = { s.cage with slotClash := countUp s.cage.slotClash }
      ∧ (takeClash (clashedAt notice k s)).sc = { s.sc with
          clashThisEpoch := true, clashCount := min (s.sc.clashCount + 1) 3,
          mutedClash := s.sc.mutedClash || decide (2 ≤ s.sc.clashCount) }
      ∧ Told s (takeClash (clashedAt notice k s))
          (if (takeClash (clashedAt notice k s)).sc.mutedClash = s.sc.mutedClash then [] else
            [.time s.sc.state s.sc.state .muted s.sc.mutedProfile true s.bus.lastOffset 0 0
              ⟨s.now, s.tb.epoch, s.tb.readCount, s.sc.state.quality⟩]) := by
  obtain ⟨transmitter, lane, cage⟩ := takeClash_bus (clashedAt notice k s)
  exact ⟨transmitter, lane, cage, takeClash_sc (clashedAt notice k s),
    (takeClash_told (clashedAt notice k s)).from (s := s) rfl rfl⟩

theorem takeDriveFault_bus (s : State) : (takeDriveFault s).bus.transmitter = s.bus.transmitter
    ∧ (takeDriveFault s).bus.lane = s.bus.lane := by
  obtain ⟨sc, b, entries, p, form, freed⟩ := takeDriveFault_form s
  rw [form]
  rcases freed with rfl | rfl
  · exact ⟨rfl, rfl⟩
  · rw [releaseDrive_eq]; exact ⟨rfl, rfl⟩

theorem takeDriveFault_of_inScale {s : State} (inScale : s.sc.state = .align ∨ s.sc.state = .locked) :
    takeDriveFault s = enterHeld .driveFault s := if_pos ((inScale_iff _).2 inScale)

theorem takeDriveFault_of_outside {s : State} (align : s.sc.state ≠ .align) (locked : s.sc.state ≠ .locked) :
    takeDriveFault s = s := if_neg fun h => ((inScale_iff _).1 h).elim align locked

end State

open State

section
variable {s : State}

/-- A released bit read asserted (R33, R55). -/
theorem noticeSample_clashes {k : Nat} {notice : BitVec 112}
    (sample : exec (.noticeSend (.sample false)) s = .next (takeClash (clashedAt notice k s)).served) :
    ∃ t, exec (.noticeSend (.sample false)) s = .next t
      ∧ t.bus.transmitter = .idle ∧ t.cage = { s.cage with slotClash := countUp s.cage.slotClash }
      ∧ (∀ p : Nat, p < 112 → t.bus.lane.getMsbD p = if p < k then notice.getMsbD p else true)
      ∧ t.sc.clashThisEpoch = true ∧ t.sc.clashCount = min (s.sc.clashCount + 1) 3
      ∧ (t.sc.mutedClash = true ↔ s.sc.mutedClash = true ∨ 2 ≤ s.sc.clashCount)
      ∧ t.sc.state = s.sc.state
      ∧ s.EventQueueTakes t (if t.sc.mutedClash = s.sc.mutedClash then []
          else [.time s.sc.state s.sc.state .muted s.sc.mutedProfile true s.bus.lastOffset 0 0
            ⟨s.now, s.tb.epoch, s.tb.readCount, s.sc.state.quality⟩]) := by
  refine ⟨_, sample, ?_⟩
  obtain ⟨transmitter, lane, cage, sc, told⟩ := takeClash_clashed notice k s
  generalize takeClash (clashedAt notice k s) = t at transmitter lane cage sc told ⊢
  refine ⟨transmitter, cage, fun p inside => ?_, congrArg (·.clashThisEpoch) sc, congrArg (·.clashCount) sc, ?_,
    congrArg (·.state) sc, told.served.takes⟩
  · show t.bus.lane.getMsbD p = _
    rw [lane]; exact laneUpTo_getMsbD notice k inside
  · show t.sc.mutedClash = true ↔ _
    rw [congrArg (·.mutedClash) sc]
    dsimp only
    rw [Bool.or_eq_true, decide_eq_true_iff]

/-- An asserted bit read released (R33, R50; log 6). -/
theorem noticeSample_faults {k : Nat} {notice : BitVec 112}
    (sample : exec (.noticeSend (.sample true)) s = .next (takeDriveFault (abandonNotice notice k s)).served) :
    ∃ t, exec (.noticeSend (.sample true)) s = .next t
      ∧ t.bus.transmitter = .idle
      ∧ (∀ p : Nat, p < 112 → t.bus.lane.getMsbD p = if p < k then notice.getMsbD p else true)
      ∧ (s.sc.state = .align ∨ s.sc.state = .locked → t.sc.state = .held ∧ t.bus.drive = none
          ∧ s.EventQueueTakes t [.time s.sc.state .held .driveFault s.sc.mutedProfile s.sc.mutedClash
              s.bus.lastOffset 0 0 ⟨s.now, s.tb.epoch, s.tb.readCount, .holdover⟩])
      ∧ (s.sc.state ≠ .align → s.sc.state ≠ .locked → t.sc = s.sc) := by
  refine ⟨_, sample, ?_⟩
  obtain ⟨transmitter, lane⟩ := takeDriveFault_bus (abandonNotice notice k s)
  refine ⟨transmitter, fun p inside => ?_, fun inScale => ?_, fun align locked => ?_⟩
  · show (takeDriveFault (abandonNotice notice k s)).bus.lane.getMsbD p = _
    rw [lane]; exact laneUpTo_getMsbD notice k inside
  · rw [takeDriveFault_of_inScale (s := abandonNotice notice k s) inScale]
    have told := (enterHeld_told .driveFault (abandonNotice notice k s)).served.from (s := s) rfl rfl
    exact ⟨congrArg (·.state) (enterHeld_sc .driveFault _), (enterHeld_rest .driveFault _).2.1, told.takes⟩
  · rw [takeDriveFault_of_outside (s := abandonNotice notice k s) align locked]
    rfl

end

/-- Settles O49: one bit's read-back compares the level read with the bit sent. -/
theorem noticeSendingAndReadBack : Obligations.NoticeSendingAndReadBack := by
  intro s running
  have sends : ∀ act, exec (.noticeSend act) s = .next (noticeSend act s) := fun act => answer_of_running _ running
  refine ⟨fun f inCage unmuted idle unsent ref slot => ?_, pullsLane_of_idle,
    fun start k bit notice sending inside low high => pullsLane_of_sending sending inside low high,
    fun start k notice sending inside middle => ?_, fun start k notice sending done => ?_⟩
  · exact (sends .begin).trans
      (congrArg _ (noticeBegin_of_due (sendDue_of_slot inCage unmuted idle unsent ref slot)))
  · have sample := fun released => (sends (.sample released)).trans
      (congrArg _ (noticeSample_eq sending inside middle released))
    refine ⟨fun high => ?_, fun low => ?_, fun high => ?_, fun low => ?_⟩
    · rw [sample true, if_pos high]
    · rw [sample false, if_pos low]
    · have clash := sample false
      rw [if_neg (by rw [high]; exact fun h => nomatch h), if_neg Bool.false_ne_true] at clash
      exact noticeSample_clashes clash
    · have fault := sample true
      rw [if_neg (by rw [low]; exact fun h => nomatch h), if_pos rfl] at fault
      exact noticeSample_faults fault
  · exact (sends .finish).trans (congrArg _ (noticeFinish_of_due sending done))

end Sys2Proof.Machine
end

section
/-!
SUPPORT. The classification of a slot and what the roster and the Scale Controller take of a valid notice (R34, R43,
R53, R60).
-/
namespace Sys2Proof.Machine

namespace State

/-! ## The slot that ends (R34) -/

/-- The port once the receiver has taken the slot. -/
def slotTaken (s : State) : State := { s with bus := { s.bus with receiver := none } }

theorem noticeReceive_of_end {s : State} {k : Station} {f : FallReference} (awake : s.sc.state ≠ .quiet)
    (receiver : s.bus.receiver = some k) (ref : s.bus.fallRef = some f)
    (ends : ticksSince s.now f.tick = 400 + 2600 * k.val + 2240) (others : BitVec 112) :
    noticeReceive others s = classifySlot k (s.slotLevels k others) (slotTaken s) := by
  have slot : s.slotEnds k = true := by
    unfold slotEnds
    rw [ref, bne_iff_ne.2 awake, Bool.true_and]
    dsimp only
    rw [ends]
    exact beq_self_eq_true _
  unfold noticeReceive
  rw [receiver]
  exact if_pos slot

/-- One more faulty slot is counted (R34). -/
def countError (s : State) : State := { s with cage := { s.cage with noticeError := countUp s.cage.noticeError } }

theorem classifySlot_released (k : Station) (s : State) : classifySlot k (BitVec.allOnes 112) s = s := by
  unfold classifySlot
  dsimp only
  exact if_pos rfl

section
variable {k : Station} {samples : BitVec 112} {s : State} (levels : samples ≠ BitVec.allOnes 112)
include levels

theorem classifySlot_of_none (invalid : readNotice samples = none) : classifySlot k samples s = countError s := by
  unfold classifySlot
  dsimp only
  rw [if_neg levels, invalid]
  rfl

theorem classifySlot_of_some {n : NoticeContent} (valid : readNotice samples = some n) : classifySlot k samples s =
    if n.station ≠ k then countError s
    else if n.station ≠ s.bus.station then served (scaleTake n (rosterTake n s))
    else if s.sentToEnd then s
    else { s with cage := { s.cage with numberSeen := countUp s.cage.numberSeen } } := by
  unfold classifySlot
  dsimp only
  rw [if_neg levels, valid]
  rfl

end

/-! ## The roster (R60, R62) -/

theorem rosterTake_form (n : NoticeContent) (s : State) : ∃ p, rosterTake n s = { s with
    roster := updAt s.roster n.station (heardEntry s.bus.profileCode n), path := p } := by
  unfold rosterTake
  dsimp only
  split <;> exact ⟨_, rfl⟩

/-- A station heard for the first time sets PEER. -/
theorem rosterTake_cause (n : NoticeContent) {s : State} (absent : (s.roster[n.station]).present = false) :
    (rosterTake n s).path.att.causes.getLsbD 4 = true := by
  unfold rosterTake
  dsimp only
  rw [if_neg (by rw [absent]; exact Bool.false_ne_true)]
  exact Path.setCause_sets s.env .peer _

/-! ## The Scale Controller (R43, R53) -/

theorem adopt_eq (peer : Station) (m : BitVec 48) (s : State) : ∃ b p, adopt peer m s = { s with
      sc := { s.sc with state := .align, good := 0, voids := 0, noMarkRun := 0 },
      tb := { s.tb with epoch := m }, bus := b, path := p }
    ∧ b.receiver = s.bus.receiver := by
  unfold adopt
  rw [moveTo_eq]
  refine ⟨_, _, rfl, ?_⟩
  split
  · rfl
  · rw [releaseDrive_eq]; rfl

theorem renumberTo_eq (peer : Station) (m : BitVec 48) {s : State}
    (ahead : 0 < modDist 48 s.tb.epoch.toNat m.toNat) : ∃ p, renumberTo peer m s = { s with
      tb := { s.tb with epoch := m }, cage := { s.cage with epochClash := countUp s.cage.epochClash }, path := p } := by
  have number : s.tb.renumber m = { s.tb with epoch := m } := by unfold TimeBase.renumber; rw [if_pos ahead]
  unfold renumberTo
  rw [number]
  exact ⟨_, rfl⟩

theorem renumberTo_rest (peer : Station) (m : BitVec 48) (s : State) :
    (renumberTo peer m s).roster = s.roster ∧ (renumberTo peer m s).bus = s.bus := by
  unfold renumberTo
  exact ⟨emitTime_roster _ _ _ _ _ _, emitTime_bus _ _ _ _ _ _⟩

theorem adopt_causes (peer : Station) (m : BitVec 48) (s : State) : CausesStay s (adopt peer m s) :=
  CausesStay.trans (t := leaveListen { s with sc := s.sc.clearRuns, tb := { s.tb with epoch := m } }) (.of_path rfl)
    (moveTo_causes .align .adopted peer.val s.tb.epoch _)

theorem renumberTo_causes (peer : Station) (m : BitVec 48) (s : State) : CausesStay s (renumberTo peer m s) :=
  CausesStay.trans (t := { s with
      tb := s.tb.renumber m, cage := { s.cage with epochClash := countUp s.cage.epochClash } }) (.of_path rfl)
    (emitTime_causes s.sc.state s.sc.state .renumbered peer.val s.tb.epoch _)

/-- A notice of a station in the scale is what the Scale Controller may take. -/
theorem scaleTake_of_scale {n : NoticeContent} (s : State) (scale : n.state = .align ∨ n.state = .locked) :
    scaleTake n s =
      if s.sc.state = .listen then (if s.sc.phaseSet then adopt n.station n.epoch s else s)
      else if s.sc.inScale ∧ 0 < modDist 48 s.tb.epoch.toNat n.epoch.toNat then renumberTo n.station n.epoch s
      else s := if_pos scale

theorem scaleTake_adopts {n : NoticeContent} {s : State} (scale : n.state = .align ∨ n.state = .locked)
    (listens : s.sc.state = .listen) (phase : s.sc.phaseSet = true) :
    scaleTake n s = adopt n.station n.epoch s := by
  rw [scaleTake_of_scale s scale, if_pos listens, if_pos phase]

theorem scaleTake_inScale {n : NoticeContent} {s : State} (scale : n.state = .align ∨ n.state = .locked)
    (inScale : s.sc.state = .align ∨ s.sc.state = .locked) : scaleTake n s =
      if 0 < modDist 48 s.tb.epoch.toNat n.epoch.toNat then renumberTo n.station n.epoch s else s := by
  have notListen : ¬ s.sc.state = .listen := by rcases inScale with h | h <;> rw [h] <;> exact fun h => nomatch h
  rw [scaleTake_of_scale s scale, if_neg notListen]
  by_cases ahead : 0 < modDist 48 s.tb.epoch.toNat n.epoch.toNat
  · rw [if_pos ahead, if_pos ⟨(inScale_iff _).2 inScale, ahead⟩]
  · rw [if_neg ahead, if_neg (fun h => ahead h.2)]

/-- Nothing is taken from a station in HELD, nor in HELD, nor before the phase is set. -/
theorem scaleTake_idle {n : NoticeContent} {s : State}
    (idle : n.state = .held ∨ s.sc.state = .held ∨ (s.sc.state = .listen ∧ s.sc.phaseSet = false)) :
    scaleTake n s = s := by
  by_cases scale : n.state = .align ∨ n.state = .locked
  · rw [scaleTake_of_scale s scale]
    rcases idle with held | held | ⟨listens, unset⟩
    · rw [held] at scale
      rcases scale with h | h <;> exact nomatch h
    · have outside : ¬ (s.sc.inScale = true ∧ 0 < modDist 48 s.tb.epoch.toNat n.epoch.toNat) := by
        rw [inScale_iff, held]
        rintro ⟨h | h, _⟩ <;> exact nomatch h
      rw [if_neg (by rw [held]; exact fun h => nomatch h), if_neg outside]
    · rw [if_pos listens, if_neg (by rw [unset]; exact Bool.false_ne_true)]
  · exact if_neg scale

/-- What the Scale Controller leaves of a notice's other effects. -/
theorem scaleTake_rest (n : NoticeContent) (s : State) : (scaleTake n s).roster = s.roster
    ∧ (scaleTake n s).bus.receiver = s.bus.receiver ∧ CausesStay s (scaleTake n s) := by
  have adopts : (adopt n.station n.epoch s).roster = s.roster
      ∧ (adopt n.station n.epoch s).bus.receiver = s.bus.receiver ∧ CausesStay s (adopt n.station n.epoch s) := by
    have causes := adopt_causes n.station n.epoch s
    obtain ⟨b, p, form, receiver⟩ := adopt_eq n.station n.epoch s
    rw [form] at causes ⊢
    exact ⟨rfl, receiver, causes⟩
  by_cases scale : n.state = .align ∨ n.state = .locked
  · rw [scaleTake_of_scale s scale]
    by_cases listens : s.sc.state = .listen
    · rw [if_pos listens]
      cases s.sc.phaseSet with
      | true => exact adopts
      | false => exact ⟨rfl, rfl, .refl s⟩
    · rw [if_neg listens]
      by_cases renumbers : s.sc.inScale = true ∧ 0 < modDist 48 s.tb.epoch.toNat n.epoch.toNat
      · obtain ⟨roster, bus⟩ := renumberTo_rest n.station n.epoch s
        rw [if_pos renumbers, roster, bus]
        exact ⟨rfl, rfl, renumberTo_causes n.station n.epoch s⟩
      · rw [if_neg renumbers]; exact ⟨rfl, rfl, .refl s⟩
  · rw [show scaleTake n s = s from if_neg scale]; exact ⟨rfl, rfl, .refl s⟩

/-- A renumbering is told, and nothing else (R53, R58). -/
theorem scaleTake_renumbers_told {n : NoticeContent} {s : State} (scale : n.state = .align ∨ n.state = .locked)
    (inScale : s.sc.state = .align ∨ s.sc.state = .locked) : Told s (scaleTake n s)
      (if 0 < modDist 48 s.tb.epoch.toNat n.epoch.toNat then
        [.time s.sc.state s.sc.state .renumbered s.sc.mutedProfile s.sc.mutedClash s.bus.lastOffset n.station.val
          s.tb.epoch ⟨s.now, n.epoch, s.tb.readCount, s.sc.state.quality⟩]
      else []) := by
  rw [scaleTake_inScale scale inScale]
  split
  · next ahead => exact renumberTo_told n.station n.epoch s ahead
  · exact .none rfl rfl

end State

open State

section
variable {n : NoticeContent} {s : State}

/-- The state once the roster has taken the notice of another station. -/
def heardNotice (n : NoticeContent) (s : State) : State := rosterTake n (slotTaken s)

theorem heardNotice_fields (n : NoticeContent) (s : State) : (heardNotice n s).sc = s.sc ∧ (heardNotice n s).tb = s.tb
    ∧ (heardNotice n s).cage = s.cage ∧ (heardNotice n s).bus = (slotTaken s).bus
    ∧ (heardNotice n s).roster = updAt s.roster n.station (heardEntry s.bus.profileCode n) := by
  obtain ⟨p, form⟩ := rosterTake_form n (slotTaken s)
  unfold heardNotice
  rw [form]
  exact ⟨rfl, rfl, rfl, rfl, rfl⟩

theorem heardNotice_told (n : NoticeContent) (s : State) : Told s (heardNotice n s) [] :=
  (rosterTake_told n (slotTaken s)).from rfl rfl

/-- An adoption in LISTEN (R43, R58). -/
theorem notice_adopts (scale : n.state = .align ∨ n.state = .locked) (listens : s.sc.state = .listen)
    (phase : s.sc.phaseSet = true) {t : State} (takes : t = (scaleTake n (heardNotice n s)).served) :
    t.sc.state = .align ∧ t.tb = { s.tb with epoch := n.epoch }
      ∧ t.sc.good = 0 ∧ t.sc.voids = 0 ∧ t.sc.noMarkRun = 0
      ∧ s.EventQueueTakes t [.time .listen .align .adopted s.sc.mutedProfile s.sc.mutedClash
          s.bus.lastOffset n.station.val s.tb.epoch ⟨s.now, n.epoch, s.tb.readCount, .aligning⟩] := by
  obtain ⟨sc, tb, _, bus, _⟩ := heardNotice_fields n s
  have heard := heardNotice_told n s
  generalize heardNotice n s = a at takes sc tb bus heard
  rw [scaleTake_adopts scale (by rw [sc]; exact listens) (by rw [sc]; exact phase)] at takes
  have told := adopt_told n.station n.epoch a
  have now : a.now = s.now := by unfold State.now; rw [tb]
  have offset : a.bus.lastOffset = s.bus.lastOffset := by rw [bus]; rfl
  rw [sc, tb, now, offset, listens] at told
  have all := (heard.trans told).served.takes
  rw [List.nil_append, ← takes] at all
  obtain ⟨b, p, form, _⟩ := adopt_eq n.station n.epoch a
  rw [form, tb] at takes
  rw [takes]
  rw [takes] at all
  exact ⟨rfl, rfl, rfl, rfl, rfl, all⟩

/-- A renumbering in ALIGN and LOCKED (R53, R58). -/
theorem notice_renumbers (scale : n.state = .align ∨ n.state = .locked)
    (inScale : s.sc.state = .align ∨ s.sc.state = .locked) {t : State}
    (takes : t = (scaleTake n (heardNotice n s)).served) :
    t.sc = s.sc
      ∧ t.tb = (if 0 < modDist 48 s.tb.epoch.toNat n.epoch.toNat then { s.tb with epoch := n.epoch } else s.tb)
      ∧ t.cage = (if 0 < modDist 48 s.tb.epoch.toNat n.epoch.toNat
          then { s.cage with epochClash := countUp s.cage.epochClash } else s.cage)
      ∧ s.EventQueueTakes t (if 0 < modDist 48 s.tb.epoch.toNat n.epoch.toNat
          then [.time s.sc.state s.sc.state .renumbered s.sc.mutedProfile s.sc.mutedClash
            s.bus.lastOffset n.station.val s.tb.epoch ⟨s.now, n.epoch, s.tb.readCount, s.sc.state.quality⟩]
          else []) := by
  obtain ⟨sc, tb, cage, bus, _⟩ := heardNotice_fields n s
  have heard := heardNotice_told n s
  generalize heardNotice n s = a at takes sc tb cage bus heard
  have inScaleA : a.sc.state = .align ∨ a.sc.state = .locked := by rw [sc]; exact inScale
  have told := scaleTake_renumbers_told (n := n) scale inScaleA
  have now : a.now = s.now := by unfold State.now; rw [tb]
  have offset : a.bus.lastOffset = s.bus.lastOffset := by rw [bus]; rfl
  rw [sc, tb, now, offset] at told
  have all := (heard.trans told).served.takes
  rw [List.nil_append, ← takes] at all
  rw [scaleTake_inScale scale inScaleA, tb] at takes
  by_cases ahead : 0 < modDist 48 s.tb.epoch.toNat n.epoch.toNat
  · rw [if_pos ahead] at takes
    obtain ⟨p, form⟩ := renumberTo_eq n.station n.epoch (s := a) (by rw [tb]; exact ahead)
    have fields : t.sc = a.sc ∧ t.tb = { a.tb with epoch := n.epoch }
        ∧ t.cage = { a.cage with epochClash := countUp a.cage.epochClash } := by
      rw [takes, form]; exact ⟨rfl, rfl, rfl⟩
    rw [if_pos ahead, if_pos ahead, fields.1, fields.2.1, fields.2.2, sc, tb, cage]
    exact ⟨rfl, rfl, rfl, all⟩
  · rw [if_neg ahead] at takes
    have fields : t.sc = a.sc ∧ t.tb = a.tb ∧ t.cage = a.cage := by rw [takes]; exact ⟨rfl, rfl, rfl⟩
    rw [if_neg ahead, if_neg ahead, fields.1, fields.2.1, fields.2.2, sc, tb, cage]
    exact ⟨rfl, rfl, rfl, all⟩

theorem notice_idles
    (idle : n.state = .held ∨ s.sc.state = .held ∨ (s.sc.state = .listen ∧ s.sc.phaseSet = false)) {t : State}
    (takes : t = (scaleTake n (heardNotice n s)).served) : t.sc = s.sc ∧ t.tb = s.tb ∧ t.cage = s.cage := by
  obtain ⟨sc, tb, cage, _, _⟩ := heardNotice_fields n s
  generalize heardNotice n s = a at takes sc tb cage
  rw [scaleTake_idle (n := n) (s := a) (by rw [sc]; exact idle)] at takes
  rw [takes]
  exact ⟨sc, tb, cage⟩

/-- What the roster and the receiver have after the notice of another station (R60, R62). -/
theorem notice_heard {t : State} (takes : t = (scaleTake n (heardNotice n s)).served) : t.bus.receiver = none
    ∧ t.roster[n.station] = heardEntry s.bus.profileCode n (s.roster[n.station])
    ∧ (∀ j : Station, j ≠ n.station → t.roster[j] = s.roster[j])
    ∧ ((s.roster[n.station]).present = false → t.path.att.causes.getLsbD 4 = true) := by
  obtain ⟨_, _, _, bus, roster⟩ := heardNotice_fields n s
  obtain ⟨kept, receiver, causes⟩ := scaleTake_rest n (heardNotice n s)
  have rosterT : t.roster = updAt s.roster n.station (heardEntry s.bus.profileCode n) := by
    rw [takes]; exact kept.trans roster
  have receiverT : t.bus.receiver = none := by
    rw [takes]
    exact receiver.trans (congrArg (·.receiver) bus)
  refine ⟨receiverT, ?_, fun j other => ?_, fun absent => ?_⟩
  · rw [rosterT, updAt_get, if_pos rfl]
  · rw [rosterT, updAt_get, if_neg other]
  · rw [takes]
    exact served_cause (causes 4 (rosterTake_cause n (s := slotTaken s) absent))

end

/-- Settles O50: the samples are classified, and a valid notice of another station goes to the roster and the Scale
Controller. -/
theorem noticesAreClassifiedAndTaken : Obligations.NoticesAreClassifiedAndTaken := by
  intro k f others s running awake receiver ref ends ownPull samples done error seen
  have levels : s.slotLevels k others = samples := rfl
  have receives : exec (.noticeReceive others) s = .next (classifySlot k samples (slotTaken s)) := by
    rw [← levels, ← noticeReceive_of_end awake receiver ref ends others]
    exact answer_of_running _ running
  clear_value samples
  refine ⟨fun released => ?_, fun low invalid => ?_, fun n low valid other => ?_, fun n low valid same own => ?_,
    fun n low valid same other => ?_⟩
  · rw [receives, released, classifySlot_released]; rfl
  · rw [receives, classifySlot_of_none low invalid]; rfl
  · rw [receives, classifySlot_of_some low valid, if_pos other]; rfl
  · rw [receives, classifySlot_of_some low valid, if_neg (fun h => h same), if_neg (fun h => h (same.trans own))]
    rfl
  · have takes : exec (.noticeReceive others) s = .next (scaleTake n (heardNotice n s)).served := by
      rw [receives, classifySlot_of_some low valid, if_neg (fun h => h same),
        if_pos (show n.station ≠ (slotTaken s).bus.station from fun h => other (same.symm.trans h))]
      rfl
    subst same
    obtain ⟨gone, entry, others, cause⟩ := notice_heard (n := n) (s := s) rfl
    exact ⟨_, takes, gone, entry, others, cause, fun scale listens phase => notice_adopts scale listens phase rfl,
      fun scale inScale => notice_renumbers scale inScale rfl, fun idle => notice_idles idle rfl⟩

end Sys2Proof.Machine
end

section
/-!
SUPPORT. The bits of a notice (R31, R34, R162): each field stands where it is read, and samples are a notice exactly when
their start, check and stop bits and the ranges of their fields are right.
-/
namespace Sys2Proof.Machine

/-! ## The fields of a notice that is sent -/

section
variable (fields : BitVec 101)

theorem noticeBits_start : noticeField (noticeBits fields) 0 1 = 0#1 := by
  have cut : BitVec.extractLsb' 111 1 (0#1 ++ fields ++ noticeCheck fields ++ 3#2) = 0#1 := by
    rw [BitVec.extractLsb'_append_eq_of_le (by decide), BitVec.extractLsb'_append_eq_of_le (by decide),
      BitVec.extractLsb'_append_eq_of_le (by decide)]
    exact BitVec.extractLsb'_eq_self
  exact cut

theorem noticeBits_check : noticeField (noticeBits fields) 102 8 = noticeCheck fields := by
  have cut : BitVec.extractLsb' 2 8 (0#1 ++ fields ++ noticeCheck fields ++ 3#2) = noticeCheck fields := by
    rw [BitVec.extractLsb'_append_eq_of_le (by decide), BitVec.extractLsb'_append_eq_of_add_le (by decide)]
    exact BitVec.extractLsb'_eq_self
  exact cut

theorem noticeBits_stop : noticeField (noticeBits fields) 110 2 = 3#2 := by
  have cut : BitVec.extractLsb' 0 2 (0#1 ++ fields ++ noticeCheck fields ++ 3#2) = 3#2 := by
    rw [BitVec.extractLsb'_append_eq_of_add_le (by decide)]
    exact BitVec.extractLsb'_eq_self
  exact cut

/-- A field of `w` bits from position `a`, in the bits between the start and the check. -/
theorem noticeBits_field {a w : Nat} (begins : 1 ≤ a) (ends : a + w ≤ 102) :
    noticeField (noticeBits fields) a w = fields.extractLsb' (102 - a - w) w := by
  have cut : BitVec.extractLsb' (112 - a - w) w (0#1 ++ fields ++ noticeCheck fields ++ 3#2)
      = fields.extractLsb' (112 - a - w - 2 - 8) w := by
    rw [BitVec.extractLsb'_append_eq_of_le (by omega), BitVec.extractLsb'_append_eq_of_le (by omega),
      BitVec.extractLsb'_append_eq_of_add_le (by omega)]
  have position : 112 - a - w - 2 - 8 = 102 - a - w := by omega
  rw [position] at cut
  exact cut

end

section
variable (station : Station) (state : ScaleState) (muted : Bool) (epoch : BitVec 48) (offset : Int)
  (profile : BitVec 16) (linesUp : BitVec 8) (peers : Nat)

/-- The fields stand one after another, the station number highest. -/
theorem noticeFields_cut :
    (noticeFields station state muted epoch offset profile linesUp peers).extractLsb' 97 4 = BitVec.ofNat 4 station.val
      ∧ (noticeFields station state muted epoch offset profile linesUp peers).extractLsb' 94 3
          = BitVec.ofNat 3 state.code
      ∧ (noticeFields station state muted epoch offset profile linesUp peers).extractLsb' 93 1 = BitVec.ofBool muted
      ∧ (noticeFields station state muted epoch offset profile linesUp peers).extractLsb' 45 48 = epoch
      ∧ (noticeFields station state muted epoch offset profile linesUp peers).extractLsb' 29 16
          = BitVec.ofInt 16 offset
      ∧ (noticeFields station state muted epoch offset profile linesUp peers).extractLsb' 13 16 = profile
      ∧ (noticeFields station state muted epoch offset profile linesUp peers).extractLsb' 5 8 = linesUp
      ∧ (noticeFields station state muted epoch offset profile linesUp peers).extractLsb' 0 5 = BitVec.ofNat 5 peers := by
  unfold noticeFields
  refine ⟨?_, ?_, ?_, ?_, ?_, ?_, ?_, ?_⟩
  · repeat rw [BitVec.extractLsb'_append_eq_of_le (by decide)]
    exact BitVec.extractLsb'_eq_self
  all_goals
    repeat rw [BitVec.extractLsb'_append_eq_of_le (by decide)]
    exact (BitVec.extractLsb'_append_eq_of_add_le (by decide)).trans BitVec.extractLsb'_eq_self

end

/-! ## Reading (R34, R162) -/

/-- The start, check and stop bits are right, and the offset and the peers heard lie in their ranges. -/
def NoticeSound (samples : BitVec 112) : Prop :=
  noticeField samples 0 1 = 0#1 ∧ noticeField samples 102 8 = noticeCheck (noticeField samples 1 101)
    ∧ noticeField samples 110 2 = 3#2 ∧ noticeField samples 57 16 ≠ 0x8000#16
    ∧ (noticeField samples 97 5).toNat ≤ 15

/-- What the fields of a sound notice say. -/
def noticeContent (samples : BitVec 112) (state : ScaleState) : State.NoticeContent :=
  { station := Fin.ofNat 16 (noticeField samples 1 4).toNat, state := state,
    muted := noticeField samples 8 1 == 1#1, epoch := noticeField samples 9 48,
    offset := (noticeField samples 57 16).toInt, profile := noticeField samples 73 16,
    linesUp := noticeField samples 89 8, peersHeard := (noticeField samples 97 5).toNat }

theorem readNotice_of_sound {samples : BitVec 112} {state : ScaleState}
    (code : scaleStateOfCode (noticeField samples 5 3).toNat = some state) (sound : NoticeSound samples) :
    readNotice samples = some (noticeContent samples state) := by
  unfold readNotice
  dsimp only
  rw [code]
  exact if_pos sound

theorem readNotice_of_state {samples : BitVec 112} (code : scaleStateOfCode (noticeField samples 5 3).toNat = none) :
    readNotice samples = none := by
  unfold readNotice
  dsimp only
  rw [code]

theorem readNotice_of_unsound {samples : BitVec 112} (unsound : ¬ NoticeSound samples) : readNotice samples = none := by
  unfold readNotice
  dsimp only
  split
  · exact if_neg unsound
  · rfl

theorem scaleStateOfCode_code {state : ScaleState} (cage : state = .align ∨ state = .locked ∨ state = .held) :
    scaleStateOfCode (BitVec.ofNat 3 state.code).toNat = some state := by
  rcases cage with rfl | rfl | rfl <;> rfl

/-- The offset is sent in 16 bits of two's complement, of which 8000h is never used (R31). -/
theorem offset_sent {offset : Int} (low : -32767 ≤ offset) (high : offset ≤ 32767) :
    (BitVec.ofInt 16 offset).toInt = offset ∧ BitVec.ofInt 16 offset ≠ 0x8000#16 := by
  have value : (BitVec.ofInt 16 offset).toInt = offset := by
    rw [BitVec.toInt_ofInt]
    exact Int.bmod_eq_of_le (by omega) (by omega)
  refine ⟨value, fun same => ?_⟩
  rw [same] at value
  have edge : (0x8000#16).toInt = -32768 := by decide
  omega

theorem noticeBits_sound (station : Station) (state : ScaleState) (muted : Bool) (epoch : BitVec 48) {offset : Int}
    (profile : BitVec 16) (linesUp : BitVec 8) {peers : Nat} (low : -32767 ≤ offset) (high : offset ≤ 32767)
    (few : peers ≤ 15) :
    NoticeSound (noticeBits (noticeFields station state muted epoch offset profile linesUp peers)) := by
  obtain ⟨_, _, _, _, offsetCut, _, _, peersCut⟩ :=
    noticeFields_cut station state muted epoch offset profile linesUp peers
  have all := noticeBits_field (noticeFields station state muted epoch offset profile linesUp peers)
    (a := 1) (w := 101) (by decide) (by decide)
  have offsetField := noticeBits_field (noticeFields station state muted epoch offset profile linesUp peers)
    (a := 57) (w := 16) (by decide) (by decide)
  have peersField := noticeBits_field (noticeFields station state muted epoch offset profile linesUp peers)
    (a := 97) (w := 5) (by decide) (by decide)
  refine ⟨noticeBits_start _, ?_, noticeBits_stop _, ?_, ?_⟩
  · rw [noticeBits_check, all]
    exact congrArg noticeCheck BitVec.extractLsb'_eq_self.symm
  · rw [offsetField]
    exact offsetCut ▸ (offset_sent low high).2
  · rw [peersField]
    show (BitVec.extractLsb' 0 5 _).toNat ≤ 15
    rw [peersCut, BitVec.toNat_ofNat]
    omega

/-- A notice that is sent reads as what was sent. -/
theorem noticeContent_sent (station : Station) (state : ScaleState) (muted : Bool) (epoch : BitVec 48) {offset : Int}
    (profile : BitVec 16) (linesUp : BitVec 8) {peers : Nat} (low : -32767 ≤ offset) (high : offset ≤ 32767)
    (few : peers ≤ 15) :
    noticeContent (noticeBits (noticeFields station state muted epoch offset profile linesUp peers)) state
      = { station := station, state := state, muted := muted, epoch := epoch, offset := offset,
          profile := profile, linesUp := linesUp, peersHeard := peers } := by
  have cut := noticeFields_cut station state muted epoch offset profile linesUp peers
  have field := fun a w (begins : 1 ≤ a) (ends : a + w ≤ 102) =>
    noticeBits_field (noticeFields station state muted epoch offset profile linesUp peers) (a := a) (w := w) begins ends
  generalize noticeFields station state muted epoch offset profile linesUp peers = fields at cut field ⊢
  obtain ⟨stationCut, _, mutedCut, epochCut, offsetCut, profileCut, linesCut, peersCut⟩ := cut
  have stationValue : Fin.ofNat 16 (BitVec.ofNat 4 station.val).toNat = station := by
    have inside := station.isLt
    refine Fin.ext ?_
    rw [Fin.val_ofNat, BitVec.toNat_ofNat]
    omega
  have mutedValue : (BitVec.ofBool muted == 1#1) = muted := by cases muted <;> rfl
  have peersValue : (BitVec.ofNat 5 peers).toNat = peers := by rw [BitVec.toNat_ofNat]; omega
  unfold noticeContent
  rw [field 1 4 (by decide) (by decide), field 8 1 (by decide) (by decide), field 9 48 (by decide) (by decide),
    field 57 16 (by decide) (by decide), field 73 16 (by decide) (by decide), field 89 8 (by decide) (by decide),
    field 97 5 (by decide) (by decide)]
  show State.NoticeContent.mk (Fin.ofNat 16 (fields.extractLsb' 97 4).toNat) state (fields.extractLsb' 93 1 == 1#1)
    (fields.extractLsb' 45 48) (fields.extractLsb' 29 16).toInt (fields.extractLsb' 13 16) (fields.extractLsb' 5 8)
    (fields.extractLsb' 0 5).toNat = _
  rw [stationCut, mutedCut, epochCut, offsetCut, profileCut, linesCut, peersCut, stationValue, mutedValue, peersValue,
    (offset_sent low high).1]

/-! ## The samples that are a notice -/

/-- One sample is a field of one bit. -/
theorem noticeField_bit (samples : BitVec 112) {p : Nat} (inside : p < 112) :
    noticeField samples p 1 = BitVec.ofBool (samples.getMsbD p) := by
  have position : 112 - p - 1 = 112 - 1 - p := by omega
  unfold noticeField
  ext i hi
  have first : i = 0 := by omega
  subst first
  rw [BitVec.getElem_extractLsb', position, BitVec.getMsbD_eq_getLsbD, decide_eq_true inside, Bool.true_and,
    Nat.add_zero]
  simp

/-- The two stop bits. -/
theorem noticeField_stop (samples : BitVec 112) :
    noticeField samples 110 2 = 3#2 ↔ samples.getMsbD 110 = true ∧ samples.getMsbD 111 = true := by
  have high : samples.getMsbD 110 = samples.getLsbD 1 := by rw [BitVec.getMsbD_eq_getLsbD]; rfl
  have low : samples.getMsbD 111 = samples.getLsbD 0 := by rw [BitVec.getMsbD_eq_getLsbD]; rfl
  have bits : ∀ i (hi : i < 2), (noticeField samples 110 2)[i] = samples.getLsbD i := fun i hi => by
    unfold noticeField
    rw [BitVec.getElem_extractLsb']
    exact congrArg _ (Nat.zero_add i)
  rw [high, low]
  constructor
  · intro stop
    have b0 := bits 0 (by decide)
    have b1 := bits 1 (by decide)
    rw [stop] at b0 b1
    exact ⟨b1.symm, b0.symm⟩
  · rintro ⟨one, zero⟩
    ext i hi
    rw [bits i hi]
    match i, hi with
    | 0, _ => exact zero.trans (by simp)
    | 1, _ => exact one.trans (by simp)

theorem scaleStateOfCode_cases (c : Nat) : (∃ state, scaleStateOfCode c = some state ∧ state.code = c
      ∧ (c = 2 ∨ c = 3 ∨ c = 4)) ∨ (scaleStateOfCode c = none ∧ ¬ (c = 2 ∨ c = 3 ∨ c = 4)) := by
  unfold scaleStateOfCode
  split
  · exact .inl ⟨_, rfl, rfl, .inl rfl⟩
  · exact .inl ⟨_, rfl, rfl, .inr (.inl rfl)⟩
  · exact .inl ⟨_, rfl, rfl, .inr (.inr rfl)⟩
  · next two three four => exact .inr ⟨rfl, by rintro (h | h | h) <;> contradiction⟩

/-- What the statement asks of the samples besides the state code. -/
theorem noticeSound_iff (samples : BitVec 112) : NoticeSound samples ↔
    samples.getMsbD 0 = false ∧ samples.extractLsb' 2 8 = noticeCheck (samples.extractLsb' 10 101)
      ∧ samples.getMsbD 110 = true ∧ samples.getMsbD 111 = true
      ∧ (noticeField samples 57 16).toNat ≠ 0x8000 ∧ (noticeField samples 97 5).toNat ≤ 15 := by
  have start : noticeField samples 0 1 = 0#1 ↔ samples.getMsbD 0 = false := by
    rw [noticeField_bit samples (by decide)]
    cases samples.getMsbD 0 <;> decide
  have offset : noticeField samples 57 16 ≠ 0x8000#16 ↔ (noticeField samples 57 16).toNat ≠ 0x8000 :=
    not_congr BitVec.toNat_inj.symm
  unfold NoticeSound
  rw [start, offset, noticeField_stop, and_assoc]
  rfl

/-- The two's complement of an offset that is not 8000h. -/
theorem offset_read {x : BitVec 16} (used : x.toNat ≠ 0x8000) :
    (x.toInt % 65536).toNat = x.toNat ∧ -32767 ≤ x.toInt ∧ x.toInt ≤ 32767 := by
  have bound : x.toNat < 65536 := x.isLt
  rw [BitVec.toInt_eq_toNat_cond]
  split <;> omega

/-- Settles O51: what is sent reads as sent, and the samples are read exactly when they are sound. -/
theorem noticeIsReadAsSent : Obligations.NoticeIsReadAsSent := by
  refine ⟨fun station state muted epoch offset profile linesUp peers cage low high few => ?_, fun samples => ?_⟩
  · have code : scaleStateOfCode (noticeField (noticeBits
        (noticeFields station state muted epoch offset profile linesUp peers)) 5 3).toNat = some state := by
      rw [noticeBits_field _ (by decide) (by decide)]
      show scaleStateOfCode (BitVec.extractLsb' 94 3 _).toNat = _
      rw [(noticeFields_cut station state muted epoch offset profile linesUp peers).2.1]
      exact scaleStateOfCode_code cage
    rw [readNotice_of_sound code (noticeBits_sound station state muted epoch profile linesUp low high few),
      noticeContent_sent station state muted epoch profile linesUp low high few]
  · intro field valid
    have split : valid ↔ NoticeSound samples ∧ (field 5 3 = 2 ∨ field 5 3 = 3 ∨ field 5 3 = 4) := by
      rw [noticeSound_iff]
      show (_ ∧ _ ∧ _ ∧ _ ∧ _ ∧ _ ∧ _) ↔ (_ ∧ _ ∧ _ ∧ _ ∧ _ ∧ _) ∧ _
      tauto
    refine ⟨fun invalid => ?_, fun holds => ?_⟩
    · by_cases sound : NoticeSound samples
      · rcases scaleStateOfCode_cases (field 5 3) with ⟨state, _, _, code⟩ | ⟨none, _⟩
        · exact absurd (split.2 ⟨sound, code⟩) invalid
        · exact readNotice_of_state none
      · exact readNotice_of_unsound sound
    · obtain ⟨sound, code⟩ := split.1 holds
      obtain ⟨_, _, _, _, used, few⟩ := (noticeSound_iff samples).1 sound
      rcases scaleStateOfCode_cases (field 5 3) with ⟨state, reads, coded, _⟩ | ⟨_, other⟩
      · refine ⟨_, readNotice_of_sound reads sound, ?_, coded, ?_, rfl, (offset_read used).1, (offset_read used).2.1,
          (offset_read used).2.2, rfl, rfl, rfl⟩
        · have bound : (noticeField samples 1 4).toNat < 16 := (noticeField samples 1 4).isLt
          show (Fin.ofNat 16 (noticeField samples 1 4).toNat).val = (noticeField samples 1 4).toNat
          rw [Fin.val_ofNat]
          omega
        · show (noticeField samples 8 1 == 1#1) = _
          rw [noticeField_bit samples (by decide)]
          cases samples.getMsbD 8 <;> rfl
      · exact absurd code other

end Sys2Proof.Machine
end

section
/-!
SUPPORT. The report of a line's state to the arbiter and its LINE record (R73, R117, R118, R127, R129): what the two do
to the windows, and that this does not depend on which comes first.
-/
namespace Sys2Proof.Machine

namespace Path

/-! ## The view and the timeouts of a report (R117, R118, R127) -/

/-- The window of a stream whose effective timeout is recomputed under a view. -/
def retimed (c : Settings) (view : Vector LineState 8) (st : Stream) (w : SeqWindow) : SeqWindow :=
  SeqWindow.followDeadline { w with timeout := effectiveTimeout c view st }

theorem foldl_retime (c : Settings) (view : Vector LineState 8) (l : List Stream) (p : Path) (hv : p.arb.view = view) :
    l.foldl (fun p x => retime c x p) p = l.foldl (fun p x => modWindow x (retimed c view x) p) p := by
  induction l generalizing p with
  | nil => rfl
  | cons x l ih =>
    rw [List.foldl_cons, List.foldl_cons]
    have first : retime c x p = modWindow x (retimed c view x) p := by unfold retime; rw [hv]; rfl
    rw [first]
    exact ih _ hv

/-- A report changes the view and the windows of the streams it concerns. -/
theorem viewReport_eq (c : Settings) (l : Line) (new : LineState) (p : Path) : viewReport c l new p =
    { p with arb := { p.arb with
        view := p.arb.view.set l new,
        windows := (streamsOfLeg c l).foldl (fun v x => updAt v x (retimed c (p.arb.view.set l new) x))
          p.arb.windows } } := by
  unfold viewReport
  rw [foldl_retime c (p.arb.view.set l new) _ _ rfl, foldl_modWindow]

theorem viewReport_arb (c : Settings) (l : Line) (new : LineState) {p q : Path} (same : p.arb = q.arb) :
    (viewReport c l new p).arb = (viewReport c l new q).arb := by
  rw [viewReport_eq, viewReport_eq, same]

theorem viewReport_chans (c : Settings) (l : Line) (new : LineState) (p : Path) :
    (viewReport c l new p).chans = p.chans := by rw [viewReport_eq]

theorem viewReport_rest (c : Settings) (l : Line) (new : LineState) (p : Path) :
    (viewReport c l new p).arb.time = p.arb.time ∧ (viewReport c l new p).arb.counters = p.arb.counters
      ∧ (viewReport c l new p).arb.view = p.arb.view.set l new := by
  rw [viewReport_eq]; exact ⟨rfl, rfl, rfl⟩

theorem viewReport_view (c : Settings) (l k : Line) (new : LineState) (p : Path) :
    (viewReport c l new p).arb.view[k] = if k = l then new else p.arb.view[k] := by
  rw [(viewReport_rest c l new p).2.2]
  have get := Vector.getElem_set (xs := p.arb.view) (x := new) (i := l.val) (j := k.val) l.isLt k.isLt
  refine get.trans ?_
  by_cases same : k = l
  · subst same; rw [if_pos rfl, if_pos rfl]
  · rw [if_neg (fun h => same (Fin.ext h.symm)), if_neg same]; rfl

theorem viewReport_window (c : Settings) (l : Line) (new : LineState) (p : Path) (st : Stream) :
    (viewReport c l new p).arb.windows[st] =
      if c.valid st = true ∧ c.isLeg st l = true then
        retimed c (viewReport c l new p).arb.view st p.arb.windows[st]
      else p.arb.windows[st] := by
  have get := foldl_updAt_get (fun x => retimed c (p.arb.view.set l new) x) (streamsOfLeg c l) p.arb.windows st
    (allStreams_nodup.filter _)
  have mem : st ∈ streamsOfLeg c l ↔ c.valid st = true ∧ c.isLeg st l = true := by
    unfold streamsOfLeg
    rw [List.mem_filter, Bool.and_eq_true]
    exact and_iff_right (mem_allStreams st)
  simp only [mem] at get
  rw [(viewReport_rest c l new p).2.2]
  refine Eq.trans ?_ get
  rw [viewReport_eq]

/-! ## The declarations of a report (R129) -/

/-- From `q` every passed deadline has been declared, in whatever order. -/
structure Declared (e : Env) (q r : Path) : Prop where
  time : r.arb.time = q.arb.time
  view : r.arb.view = q.arb.view
  windows : ∀ st : Stream, r.arb.windows[st] = (declareWindow e st q).arb.windows[st]
  counters : ∀ st : Stream, r.arb.counters[st] = (declareWindow e st q).arb.counters[st]

theorem declareAll_declared (e : Env) (p : Path) : Declared e p (declareAll e p) := by
  obtain ⟨time, view, windows⟩ := declareAll_window e p
  exact ⟨time, view, fun st => (windows st).1, fun st => (windows st).2⟩

/-- What is declared depends on the arbiter alone. -/
theorem Declared.congr {e : Env} {q q' r r' : Path} (h : Declared e q r) (before : q'.arb = q.arb)
    (after : r'.arb = r.arb) : Declared e q' r' := by
  have own : ∀ st : Stream, (declareWindow e st q).arb.windows[st] = (declareWindow e st q').arb.windows[st]
      ∧ (declareWindow e st q).arb.counters[st] = (declareWindow e st q').arb.counters[st] := fun st =>
    declareWhile_arb e st 128 (by rw [before]) (by rw [before]) (by rw [before])
  refine ⟨by rw [after, before]; exact h.time, by rw [after, before]; exact h.view, fun st => ?_, fun st => ?_⟩
  · rw [after]; exact (h.windows st).trans (own st).1
  · rw [after]; exact (h.counters st).trans (own st).2

theorem declareWindow_of_notPassed {e : Env} {st : Stream} {p : Path}
    (present : (p.arb.windows[st]).passed p.arb.time = false) : declareWindow e st p = p := by
  show declareWhile e st (127 + 1) p = p
  rw [declareWhile_succ, present, if_neg Bool.false_ne_true]

/-- A window whose deadline is not passed stays. -/
theorem Declared.stays {e : Env} {q r : Path} (h : Declared e q r) {st : Stream}
    (present : (q.arb.windows[st]).passed q.arb.time = false) :
    r.arb.windows[st] = q.arb.windows[st] ∧ r.arb.counters[st] = q.arb.counters[st] := by
  rw [h.windows, h.counters, declareWindow_of_notPassed present]
  exact ⟨rfl, rfl⟩

/-- Of a lawful window no passed deadline is left. -/
theorem Declared.ends {e : Env} {q r : Path} (h : Declared e q r) {st : Stream}
    (width : SeqWindow.Width (e.cfg.seqBits st))
    (law : (q.arb.windows[st]).tracking = true → (q.arb.windows[st]).Law (e.cfg.seqBits st)) :
    (r.arb.windows[st]).passed q.arb.time = false := by
  rw [h.windows]
  exact (declareWindow_again width rfl q law).2.2.1

/-- With no deadline passed a report declares nothing. -/
theorem declareAll_of_none (e : Env) {p : Path} (none : p.passedStreams = []) :
    declareAll e p = { p with draws := p.draws + 1 } := by
  unfold declareAll
  rw [none, List.Perm.eq_nil (freeOrder_perm _ [])]
  rfl

theorem passedStreams_arb {p q : Path} (same : p.arb = q.arb) : p.passedStreams = q.passedStreams := by
  unfold passedStreams; rw [same]

end Path

namespace State

/-! ## The two effects of a change (R73) -/

section
variable (l : Line) (old new : LineState) (r : LineReason) (n : Nat) (st : Stamp) (e : Env) (p : Path)

theorem lineRecord_arb : (lineRecord l old new r n st e p).arb = p.arb := by
  unfold lineRecord
  rw [Path.setCause_arb, Path.offer_arb]

theorem lineReport_declared : Path.Declared e (Path.viewReport e.cfg l new p) (Path.lineReport e l new p) :=
  Path.declareAll_declared e _

/-- The report acts on the arbiter as if it came alone. -/
theorem lineEffects_declared :
    Path.Declared e (Path.viewReport e.cfg l new p) (lineEffects l old new r n st e p) := by
  obtain ⟨p', start, order⟩ := lineEffects_cases l old new r n st e p
  have same : p'.arb = p.arb := by rcases start with rfl | rfl <;> rfl
  rcases order with eq | eq
  · rw [eq]
    exact (lineReport_declared l new e _).congr
      (Path.viewReport_arb e.cfg l new (same.symm.trans (lineRecord_arb l old new r n st e p').symm)) rfl
  · rw [eq]
    exact (lineReport_declared l new e p').congr (Path.viewReport_arb e.cfg l new same.symm)
      (lineRecord_arb l old new r n st e _)

/-- Either way the LINE cause is set. -/
theorem lineEffects_cause : (lineEffects l old new r n st e p).att.causes.getLsbD 2 = true := by
  obtain ⟨p', _, order⟩ := lineEffects_cases l old new r n st e p
  have record : ∀ q : Path, (lineRecord l old new r n st e q).att.causes.getLsbD 2 = true := fun q =>
    Path.setCause_sets e .line _
  rcases order with eq | eq
  · rw [eq]; exact (Path.lineReport_moves e l new _).causes 2 (record p')
  · rw [eq]; exact record _

theorem lineRecord_told :
    Path.Told e.cfg.eventChannel p (lineRecord l old new r n st e p) [.line l old new r n st] :=
  (Path.offer_told e _ _ p).trans (Path.setCause_told e .line _ _)

/-- A report that passes no deadline leaves the queue to the record. -/
theorem lineEffects_told (none : (Path.viewReport e.cfg l new p).passedStreams = []) :
    Path.Told e.cfg.eventChannel p (lineEffects l old new r n st e p) [.line l old new r n st] := by
  have after : (Path.viewReport e.cfg l new (lineRecord l old new r n st e p)).passedStreams = [] := by
    rw [Path.passedStreams_arb (Path.viewReport_arb e.cfg l new (lineRecord_arb l old new r n st e p))]
    exact none
  have record := lineRecord_told l old new r n st e p
  unfold lineEffects
  dsimp only
  rw [none, List.isEmpty_nil, if_pos rfl]
  unfold Path.lineReport
  rw [Path.declareAll_of_none e after]
  intro tally room
  have chans : ({ Path.viewReport e.cfg l new (lineRecord l old new r n st e p) with
      draws := (Path.viewReport e.cfg l new (lineRecord l old new r n st e p)).draws + 1 } : Path).chans
      = (lineRecord l old new r n st e p).chans := Path.viewReport_chans e.cfg l new _
  rw [chans]
  exact record tally room

end

/-! ## A change of a line's state (R73, R117, R129) -/

/-- What a change leaves on the record path, from the path it finds. -/
theorem changeLine_path (l : Line) (new : LineState) (r : LineReason) (n : Nat) (s : State) :
    (changeLine l new r n s).path = lineEffects l (s.lines[l]).state new r n s.stamp s.env s.path := rfl

/-- A change from `u`, which has the line's state, the clock and the settings of `s`, tells what the statement asks. -/
theorem lineChangeTold_of_effects {s t : State} {p : Path} {l : Line} {new : LineState} {r : LineReason} {n : Nat}
    (path : t.path = lineEffects l (s.lines[l]).state new r n s.stamp s.env p) :
    s.LineChangeTold t p l new r n := by
  have declared := lineEffects_declared l (s.lines[l]).state new r n s.stamp s.env p
  have told := lineEffects_told l (s.lines[l]).state new r n s.stamp s.env p
  obtain ⟨time, counters, _⟩ := Path.viewReport_rest s.settings l new p
  rw [← path] at declared told
  unfold LineChangeTold
  dsimp only
  refine ⟨fun none tally room => (told none tally room).1, declared.view, declared.time.trans time,
    fun st => ⟨fun present => ?_, declared.windows st, declared.counters st, fun width law => ?_⟩⟩
  · have timeE : (Path.viewReport s.env.cfg l new p).arb.time = p.arb.time := time
    have stays := declared.stays (st := st) (by rw [timeE]; exact present)
    exact ⟨stays.1, stays.2.trans (by show (Path.viewReport s.settings l new p).arb.counters[st] = _; rw [counters])⟩
  · have ends := declared.ends (st := st) (SeqWindow.width_of width) law
    rw [show (Path.viewReport s.env.cfg l new p).arb.time = p.arb.time from time] at ends
    exact ends

/-- What is told is left by what follows where the queue and the arbiter stay. -/
theorem LineChangeTold.congr {s t u : State} {p : Path} {l : Line} {new : LineState} {r : LineReason} {n : Nat}
    (h : s.LineChangeTold t p l new r n) (arb : u.path.arb = t.path.arb)
    (queue : (u.path.chans[s.settings.eventChannel]).queue = (t.path.chans[s.settings.eventChannel]).queue) :
    s.LineChangeTold u p l new r n := by
  obtain ⟨record, view, time, windows⟩ := h
  unfold LineChangeTold
  dsimp only
  rw [arb]
  exact ⟨fun none tally room => queue.trans (record none tally room), view, time, windows⟩

theorem LineChangeTold.served {s t : State} {p : Path} {l : Line} {new : LineState} {r : LineReason} {n : Nat}
    (h : s.LineChangeTold t p l new r n) : s.LineChangeTold t.served p l new r n := by
  refine h.congr (Path.serve_arb _ _) ?_
  show ((Path.serve t.env t.path).chans[s.settings.eventChannel]).queue = _
  rw [Path.serve_get, Path.judgedChan_queue]

theorem served_arb (s : State) : s.served.path.arb = s.path.arb := Path.serve_arb _ _

theorem served_merge (s : State) : s.served.path.merge = s.path.merge := Path.serve_merge _ _

/-- The arbiter's view after a change, and the LINE cause. -/
theorem changeLine_reported (l : Line) (new : LineState) (r : LineReason) (n : Nat) (s : State) :
    (changeLine l new r n s).path.arb.view[l] = new
      ∧ (changeLine l new r n s).path.att.causes.getLsbD 2 = true := by
  have declared := lineEffects_declared l (s.lines[l]).state new r n s.stamp s.env s.path
  rw [changeLine_path]
  refine ⟨?_, lineEffects_cause l _ new r n s.stamp s.env s.path⟩
  rw [declared.view]
  exact (Path.viewReport_view s.settings l l new s.path).trans (if_pos rfl)

end State

end Sys2Proof.Machine
end

section
/-!
SUPPORT. The legs of a stream (R118), and what a line's own operations make of its port and of the record path (R69 to
R73, R80, R81).
-/
namespace Sys2Proof.Machine

/-! ## Legs (R118) -/

theorem isLeg_iff (c : Settings) (e : Stream) (l : Line) : c.isLeg e l = true ↔
    (c.item (51 + 11 * e.val)).testBit l.val = true ∧ c.item (42 + l.val / 2) = 1 := by
  have position : 48 + 11 * e.val + 3 = 51 + 11 * e.val := by omega
  unfold Settings.isLeg Settings.inLineSet Settings.paired Settings.entry
  rw [position, Bool.and_eq_true, beq_iff_eq]

theorem valid_iff (c : Settings) (e : Stream) : c.valid e = true ↔ c.item (48 + 11 * e.val) = 1 := beq_iff_eq

theorem isUp_iff (x : LineState) : x.isUp = true ↔ x = .up ∨ x = .degraded := by cases x <;> decide

/-- A list without repetition has fewer than two members exactly when any two of them are the same. -/
theorem length_lt_two_iff {α : Type} {l : List α} (nodup : l.Nodup) : l.length < 2 ↔ ∀ a ∈ l, ∀ b ∈ l, a = b := by
  match l, nodup with
  | [], _ => exact ⟨fun _ a h => (nomatch h), fun _ => Nat.zero_lt_two⟩
  | [x], _ =>
    refine ⟨fun _ a ha b hb => ?_, fun _ => Nat.one_lt_two⟩
    rw [List.mem_singleton.1 ha, List.mem_singleton.1 hb]
  | x :: y :: l, nodup =>
    refine ⟨fun short => absurd short (by simp), fun same => ?_⟩
    have first := same x List.mem_cons_self y (List.mem_cons_of_mem _ List.mem_cons_self)
    exact absurd (first ▸ List.mem_cons_self) (List.nodup_cons.1 nodup).1

theorem legsUp_short (c : Settings) (view : Vector LineState 8) (e : Stream) : legsUp c view e < 2 ↔
    ∀ a b : Line, c.isLeg e a = true → (view[a]).isUp = true → c.isLeg e b = true → (view[b]).isUp = true → a = b := by
  unfold legsUp
  rw [length_lt_two_iff ((by decide : allLines.Nodup).filter _)]
  have mem : ∀ l : Line, l ∈ (allLines.filter fun l => c.isLeg e l && (view[l]).isUp)
      ↔ c.isLeg e l = true ∧ (view[l]).isUp = true := fun l => by
    rw [List.mem_filter, Bool.and_eq_true]
    exact and_iff_right (State.mem_allLines l)
  constructor
  · intro same a b legA upA legB upB
    exact same a ((mem a).2 ⟨legA, upA⟩) b ((mem b).2 ⟨legB, upB⟩)
  · intro same a ha b hb
    obtain ⟨legA, upA⟩ := (mem a).1 ha
    obtain ⟨legB, upB⟩ := (mem b).1 hb
    exact same a b legA upA legB upB

/-- A paired stream with fewer than two legs up. -/
theorem oneLegged_iff (c : Settings) (view : Vector LineState 8) (e : Stream) : oneLegged c view e = true ↔
    (∃ l : Line, c.isLeg e l = true) ∧ ∀ a b : Line, c.isLeg e a = true → (view[a]).isUp = true →
      c.isLeg e b = true → (view[b]).isUp = true → a = b := by
  unfold oneLegged Settings.pairedStream
  rw [Bool.and_eq_true, decide_eq_true_iff, legsUp_short, List.any_eq_true]
  exact and_congr_left fun _ => ⟨fun ⟨l, _, leg⟩ => ⟨l, leg⟩, fun ⟨l, leg⟩ => ⟨l, State.mem_allLines l, leg⟩⟩

theorem effectiveTimeout_of_oneLegged {c : Settings} {view : Vector LineState 8} {e : Stream}
    (short : oneLegged c view e = true) : effectiveTimeout c view e = 0 := if_pos short

theorem effectiveTimeout_of_not {c : Settings} {view : Vector LineState 8} {e : Stream}
    (long : oneLegged c view e = false) : effectiveTimeout c view e = c.item (58 + 11 * e.val) * 1000 := by
  have position : 48 + 11 * e.val + 10 = 58 + 11 * e.val := by omega
  unfold effectiveTimeout Settings.gapTicks Settings.entry
  rw [long, if_neg Bool.false_ne_true, position]
  rfl

namespace State

/-! ## The abort of a frame (R80, R81) -/

/-- A port whose frame is aborted. -/
def abortedPort (p : LinePort) : LinePort :=
  match p.reception with
  | .idle => p
  | .skipping => { p with reception := .idle }
  | .capturing _ => { p with reception := .idle, counters := { p.counters with aborts := countUp p.counters.aborts } }

theorem abortFrame_get (l k : Line) (s : State) :
    (abortFrame l s).lines[k] = if k = l then abortedPort s.lines[l] else s.lines[k] := by
  unfold abortFrame abortedPort
  cases reception : (s.lines[l]).reception with
  | idle =>
    dsimp only
    by_cases same : k = l
    · subst same; rw [if_pos rfl]
    · rw [if_neg same]
  | skipping => exact modLine_get l k _ s
  | capturing f =>
    dsimp only
    rw [modPath_get, modLineCounters_get, modLine_get, modLine_get]
    by_cases same : k = l
    · subst same; rw [if_pos rfl, if_pos rfl, if_pos rfl]
    · rw [if_neg same, if_neg same, if_neg same]

theorem abortFrame_path (l : Line) (s : State) : (abortFrame l s).path = s.afterAbort l := by
  unfold abortFrame afterAbort
  cases (s.lines[l]).reception <;> rfl

/-- The abort changes the ports and the record path alone. -/
theorem abortFrame_rest (l : Line) (s : State) : (abortFrame l s).tb = s.tb ∧ (abortFrame l s).sc = s.sc
    ∧ (abortFrame l s).settings = s.settings := by
  unfold abortFrame
  cases (s.lines[l]).reception <;> exact ⟨rfl, rfl, rfl⟩

theorem abortedPort_fields (p : LinePort) : (abortedPort p).reception = .idle ∧ (abortedPort p).state = p.state
    ∧ (abortedPort p).aligned = p.aligned ∧ (abortedPort p).los = p.los ∧ (abortedPort p).history = p.history
    ∧ ((∀ f, p.reception ≠ .capturing f) → (abortedPort p).counters = p.counters)
    ∧ (∀ f, p.reception = .capturing f →
        (abortedPort p).counters = { p.counters with aborts := countUp p.counters.aborts }) := by
  unfold abortedPort
  cases reception : p.reception with
  | idle => exact ⟨reception, rfl, rfl, rfl, rfl, fun _ => rfl, fun _ h => (nomatch h)⟩
  | skipping => exact ⟨rfl, rfl, rfl, rfl, rfl, fun _ => rfl, fun _ h => (nomatch h)⟩
  | capturing f => exact ⟨rfl, rfl, rfl, rfl, rfl, fun h => absurd rfl (h f), fun _ _ => rfl⟩

theorem afterAbort_inFlight {l : Line} {s : State} {f : PortFrame} (captured : (s.lines[l]).reception = .capturing f) :
    (s.afterAbort l).merge.inFlight[l] = none := by
  unfold afterAbort
  rw [captured]
  exact (Path.dropFrame_inFlight s.env l l f.blocks s.path).trans (if_pos rfl)

/-! ## A line that goes DOWN (R70, R73, R81) -/

/-- A line that is SETTLING, UP or DEGRADED. -/
def Alive (x : LineState) : Prop := x = .settling ∨ x = .up ∨ x = .degraded

theorem alive_iff (x : LineState) : Alive x ↔ x ≠ .off ∧ x ≠ .down := by
  unfold Alive; cases x <;> decide

/-- The state in which the line's change is made: the frame gone, the epoch's code errors forgotten. -/
def abortedState (l : Line) (s : State) : State := modLine l (fun p => { p with epochErrors := 0 }) (abortFrame l s)

theorem goDown_of_alive {l : Line} {s : State} (alive : Alive (s.lines[l]).state) (r : LineReason) :
    goDown l r s = changeLine l .down r 0 (abortedState l s) := by
  unfold goDown
  rcases alive with h | h | h <;> rw [h] <;> rfl

theorem goDown_of_dead {l : Line} {s : State} (dead : (s.lines[l]).state = .off ∨ (s.lines[l]).state = .down)
    (r : LineReason) : goDown l r s = s := by
  unfold goDown
  rcases dead with h | h <;> rw [h]

/-- The port of a line that has gone DOWN. -/
def downPort (p : LinePort) : LinePort := { abortedPort p with epochErrors := 0, state := .down, settle := none }

theorem goDown_get {l : Line} {s : State} (alive : Alive (s.lines[l]).state) (r : LineReason) (k : Line) :
    (goDown l r s).lines[k] = if k = l then downPort s.lines[l] else s.lines[k] := by
  rw [goDown_of_alive alive, changeLine_get]
  unfold abortedState
  rw [modLine_get, modLine_get, abortFrame_get, abortFrame_get]
  by_cases same : k = l
  · subst same; rw [if_pos rfl, if_pos rfl, if_pos rfl, if_pos rfl]; rfl
  · rw [if_neg same, if_neg same, if_neg same, if_neg same]

/-- The clock, the Scale Controller and the settings a record is told with. -/
structure SameStamp (s u : State) : Prop where
  tb : u.tb = s.tb
  sc : u.sc = s.sc
  settings : u.settings = s.settings

theorem SameStamp.stamp {s u : State} (h : SameStamp s u) : u.stamp = s.stamp := by
  unfold State.stamp State.now; rw [h.tb, h.sc]

theorem SameStamp.env {s u : State} (h : SameStamp s u) : u.env = s.env := by
  unfold State.env State.now; rw [h.tb, h.settings]

/-- A change made in a state with the stamp of `s` and the line's state as it was there. -/
theorem changeLine_told {l : Line} {s u : State} (same : SameStamp s u)
    (state : (u.lines[l]).state = (s.lines[l]).state) (new : LineState) (r : LineReason) (n : Nat) :
    s.LineChangeTold (changeLine l new r n u) u.path l new r n := by
  refine lineChangeTold_of_effects ?_
  rw [changeLine_path, state, same.stamp, same.env]

theorem abortedState_same (l : Line) (s : State) : SameStamp s (abortedState l s) := by
  obtain ⟨tb, sc, settings⟩ := abortFrame_rest l s
  exact ⟨tb, sc, settings⟩

theorem abortedState_get (l : Line) (s : State) : ((abortedState l s).lines[l]).state = (s.lines[l]).state := by
  unfold abortedState
  rw [modLine_get, if_pos rfl]
  exact abortFrame_state l l s

theorem goDown_told {l : Line} {s : State} (alive : Alive (s.lines[l]).state) (r : LineReason) :
    s.LineChangeTold (goDown l r s) (s.afterAbort l) l .down r 0 := by
  rw [goDown_of_alive alive, ← abortFrame_path]
  exact changeLine_told (abortedState_same l s) (abortedState_get l s) .down r 0

theorem goDown_reported {l : Line} {s : State} (alive : Alive (s.lines[l]).state) (r : LineReason) :
    (goDown l r s).path.arb.view[l] = .down ∧ (goDown l r s).path.att.causes.getLsbD 2 = true := by
  rw [goDown_of_alive alive]
  exact changeLine_reported l .down r 0 (abortedState l s)

theorem changeLine_merge (l : Line) (new : LineState) (r : LineReason) (n : Nat) (s : State) :
    (changeLine l new r n s).path.merge = s.path.merge := lineEffects_merge ..

theorem goDown_inFlight {l : Line} {s : State} {f : PortFrame} (alive : Alive (s.lines[l]).state) (r : LineReason)
    (captured : (s.lines[l]).reception = .capturing f) : (goDown l r s).path.merge.inFlight[l] = none := by
  rw [goDown_of_alive alive, changeLine_merge]
  show (abortFrame l s).path.merge.inFlight[l] = none
  rw [abortFrame_path]
  exact afterAbort_inFlight captured

/-! ## A line that begins to settle (R69, R73) -/

/-- The line may begin to settle. -/
def Settles (p : LinePort) : Prop := p.state = .down ∧ p.los = false ∧ p.aligned = true

theorem trySettle_of_not {l : Line} {s : State} (stays : ¬ Settles s.lines[l]) : trySettle l s = s := if_neg stays

theorem trySettle_of_zero {l : Line} {s : State} (settles : Settles s.lines[l]) (none : s.settings.settleTicks = 0) :
    trySettle l s = changeLine l .up .settled 0 s := (if_pos settles).trans (if_pos none)

theorem trySettle_of_pos {l : Line} {s : State} (settles : Settles s.lines[l]) (wait : 0 < s.settings.settleTicks) :
    trySettle l s = modLine l (fun p => { p with settle := some s.now }) (changeLine l .settling .signal 0 s) :=
  (if_pos settles).trans (if_neg (Nat.pos_iff_ne_zero.1 wait))

end State

end Sys2Proof.Machine
end

section
/-!
SUPPORT. The statement about the receiver's reports, the settle timer, code errors and the code-error test, assembled
from the changes of one line (R69 to R73).
-/
namespace Sys2Proof.Machine

open State

/-! ## The legs and the report (R117, R118, R127) -/

/-- What the statement says of a stream whose paired legs are not both up. -/
theorem short_timeout (c : Settings) (view : Vector LineState 8) (e : Stream) :
    (((∃ l : Line, (c.item (51 + 11 * e.val)).testBit l.val = true ∧ c.item (42 + l.val / 2) = 1)
        ∧ ∀ a b : Line, ((c.item (51 + 11 * e.val)).testBit a.val = true ∧ c.item (42 + a.val / 2) = 1) →
          (view[a] = .up ∨ view[a] = .degraded) →
          ((c.item (51 + 11 * e.val)).testBit b.val = true ∧ c.item (42 + b.val / 2) = 1) →
          (view[b] = .up ∨ view[b] = .degraded) → a = b) ↔ oneLegged c view e = true) := by
  rw [oneLegged_iff]
  simp only [isLeg_iff, isUp_iff]

/-- The window of a report, as the statement writes it. -/
theorem viewReport_concerned (c : Settings) (l : Line) (new : LineState) (p : Path) (e : Stream) :
    (c.item (48 + 11 * e.val) = 1 →
      ((c.item (51 + 11 * e.val)).testBit l.val = true ∧ c.item (42 + l.val / 2) = 1) →
      (Path.viewReport c l new p).arb.windows[e] = { p.arb.windows[e] with
        timeout := effectiveTimeout c (Path.viewReport c l new p).arb.view e,
        deadline := (p.arb.windows[e]).holeSince.map
          (· + effectiveTimeout c (Path.viewReport c l new p).arb.view e) })
    ∧ (c.item (48 + 11 * e.val) ≠ 1
        ∨ ¬ ((c.item (51 + 11 * e.val)).testBit l.val = true ∧ c.item (42 + l.val / 2) = 1) →
      (Path.viewReport c l new p).arb.windows[e] = p.arb.windows[e]) := by
  have window := Path.viewReport_window c l new p e
  rw [← valid_iff, ← isLeg_iff]
  refine ⟨fun valid leg => ?_, fun apart => ?_⟩
  · rw [window, if_pos ⟨valid, leg⟩]; rfl
  · rw [window, if_neg (fun h => apart.elim (fun k => k ((valid_iff c e).1 h.1)) (fun k => k h.2))]

section
variable {l : Line} {s : State} (running : s.resetLow = false)

/-! ## The receiver's reports (R69, R70) -/

/-- The receiver's report is kept. -/
def reportAligned (l : Line) (b : Bool) (s : State) : State := modLine l (fun p => { p with aligned := b }) s

theorem reportAligned_get (l k : Line) (b : Bool) (s : State) :
    (reportAligned l b s).lines[k] = if k = l then { s.lines[l] with aligned := b } else s.lines[k] :=
  modLine_get l k _ s

theorem reportAligned_self (l : Line) (b : Bool) (s : State) :
    (reportAligned l b s).lines[l] = { s.lines[l] with aligned := b } :=
  (reportAligned_get l l b s).trans (if_pos rfl)

theorem reportAligned_same (l : Line) (b : Bool) (s : State) : SameStamp s (reportAligned l b s) := ⟨rfl, rfl, rfl⟩

/-- The line begins to settle, or is UP at once (R69). -/
theorem aligned_settles (down : (s.lines[l]).state = .down) (clear : (s.lines[l]).los = false)
    (wait : 0 < s.settings.settleTicks) {t : State} (eq : t = (trySettle l (reportAligned l true s)).served) :
    (t.lines[l]).state = .settling ∧ (t.lines[l]).settle = some s.now ∧ t.path.arb.view[l] = .settling
      ∧ t.path.att.causes.getLsbD 2 = true ∧ s.LineChangeTold t s.path l .settling .signal 0
      ∧ (t.lines[l]).aligned = true ∧ ∀ k : Line, k ≠ l → t.lines[k] = s.lines[k] := by
  have port := reportAligned_self l true s
  have settles : Settles (reportAligned l true s).lines[l] := by rw [port]; exact ⟨down, clear, rfl⟩
  rw [trySettle_of_pos settles wait] at eq
  obtain ⟨view, cause⟩ := changeLine_reported l .settling .signal 0 (reportAligned l true s)
  have told := (changeLine_told (reportAligned_same l true s) (by rw [port]) .settling .signal 0).congr
    (u := modLine l (fun p => { p with settle := some (reportAligned l true s).now })
      (changeLine l .settling .signal 0 (reportAligned l true s))) rfl rfl
  have get : ∀ k : Line, t.lines[k] = if k = l then
      { s.lines[l] with aligned := true, state := .settling, settle := some s.now } else s.lines[k] := fun k => by
    rw [eq]
    show (modLine l _ (changeLine l .settling .signal 0 (reportAligned l true s))).lines[k] = _
    rw [modLine_get, changeLine_get, changeLine_get, reportAligned_get, reportAligned_get]
    by_cases same : k = l
    · subst same; rw [if_pos rfl, if_pos rfl, if_pos rfl, if_pos rfl]; rfl
    · rw [if_neg same, if_neg same, if_neg same, if_neg same]
  have self := get l
  rw [if_pos rfl] at self
  rw [self]
  refine ⟨rfl, rfl, ?_, ?_, ?_, rfl, fun k other => (get k).trans (if_neg other)⟩
  · rw [eq]
    rw [served_arb]; exact view
  · rw [eq]; exact served_cause cause
  · rw [eq]; exact told.served

theorem aligned_ups (down : (s.lines[l]).state = .down) (clear : (s.lines[l]).los = false)
    (none : s.settings.settleTicks = 0) {t : State} (eq : t = (trySettle l (reportAligned l true s)).served) :
    (t.lines[l]).state = .up ∧ t.path.arb.view[l] = .up ∧ t.path.att.causes.getLsbD 2 = true
      ∧ s.LineChangeTold t s.path l .up .settled 0
      ∧ (t.lines[l]).aligned = true ∧ ∀ k : Line, k ≠ l → t.lines[k] = s.lines[k] := by
  have port := reportAligned_self l true s
  have settles : Settles (reportAligned l true s).lines[l] := by rw [port]; exact ⟨down, clear, rfl⟩
  rw [trySettle_of_zero settles none] at eq
  obtain ⟨view, cause⟩ := changeLine_reported l .up .settled 0 (reportAligned l true s)
  have told := changeLine_told (reportAligned_same l true s) (by rw [port]) .up .settled 0
  have get : ∀ k : Line, t.lines[k] = if k = l then
      { s.lines[l] with aligned := true, state := .up, settle := Option.none } else s.lines[k] := fun k => by
    rw [eq]
    show (changeLine l .up .settled 0 (reportAligned l true s)).lines[k] = _
    rw [changeLine_get, reportAligned_get, reportAligned_get]
    by_cases same : k = l
    · subst same; rw [if_pos rfl, if_pos rfl, if_pos rfl]
    · rw [if_neg same, if_neg same, if_neg same]
  have self := get l
  rw [if_pos rfl] at self
  rw [self]
  refine ⟨rfl, ?_, ?_, ?_, rfl, fun k other => (get k).trans (if_neg other)⟩
  · rw [eq]
    rw [served_arb]; exact view
  · rw [eq]; exact served_cause cause
  · rw [eq]; exact told.served

theorem aligned_stays (stays : (s.lines[l]).state ≠ .down ∨ (s.lines[l]).los = true) {t : State}
    (eq : t = (trySettle l (reportAligned l true s)).served) :
    t.lines[l] = { s.lines[l] with aligned := true } ∧ ∀ k : Line, k ≠ l → t.lines[k] = s.lines[k] := by
  have not : ¬ Settles (reportAligned l true s).lines[l] := by
    rw [reportAligned_self]
    rintro ⟨down, clear, _⟩
    rcases stays with h | h
    · exact h down
    · rw [show (s.lines[l]).los = false from clear] at h; exact nomatch h
  rw [trySettle_of_not not] at eq
  rw [eq]
  exact ⟨reportAligned_self l true s, fun k other => (reportAligned_get l k true s).trans (if_neg other)⟩

include running in
theorem receiverAligned_reports : ∃ t, exec (.receiverAligned l) s = .next t ∧ (t.lines[l]).aligned = true
    ∧ ((s.lines[l]).state = .down → (s.lines[l]).los = false → 0 < s.settings.settleTicks →
        (t.lines[l]).state = .settling ∧ (t.lines[l]).settle = some s.now ∧ t.path.arb.view[l] = .settling
          ∧ t.path.att.causes.getLsbD 2 = true ∧ s.LineChangeTold t s.path l .settling .signal 0)
    ∧ ((s.lines[l]).state = .down → (s.lines[l]).los = false → s.settings.settleTicks = 0 →
        (t.lines[l]).state = .up ∧ t.path.arb.view[l] = .up ∧ t.path.att.causes.getLsbD 2 = true
          ∧ s.LineChangeTold t s.path l .up .settled 0)
    ∧ ((s.lines[l]).state ≠ .down ∨ (s.lines[l]).los = true → t.lines[l] = { s.lines[l] with aligned := true })
    ∧ ∀ k : Line, k ≠ l → t.lines[k] = s.lines[k] := by
  have reports : exec (.receiverAligned l) s = .next (trySettle l (reportAligned l true s)).served :=
    answer_of_running _ running
  refine ⟨_, reports, ?_⟩
  generalize eq : (trySettle l (reportAligned l true s)).served = t
  have kept : (t.lines[l]).aligned = true ∧ ∀ k : Line, k ≠ l → t.lines[k] = s.lines[k] := by
    by_cases stays : (s.lines[l]).state ≠ .down ∨ (s.lines[l]).los = true
    · obtain ⟨self, others⟩ := aligned_stays stays eq.symm
      exact ⟨by rw [self], others⟩
    · obtain ⟨down, clear⟩ := not_or.1 stays
      rw [not_not] at down
      rw [Bool.not_eq_true] at clear
      by_cases none : s.settings.settleTicks = 0
      · obtain ⟨_, _, _, _, self, others⟩ := aligned_ups down clear none eq.symm
        exact ⟨self, others⟩
      · obtain ⟨_, _, _, _, _, self, others⟩ := aligned_settles down clear (Nat.pos_of_ne_zero none) eq.symm
        exact ⟨self, others⟩
  refine ⟨kept.1, fun down clear wait => ?_, fun down clear none => ?_, fun stays => (aligned_stays stays eq.symm).1,
    kept.2⟩
  · obtain ⟨state, settle, view, cause, told, _⟩ := aligned_settles down clear wait eq.symm
    exact ⟨state, settle, view, cause, told⟩
  · obtain ⟨state, view, cause, told, _⟩ := aligned_ups down clear none eq.symm
    exact ⟨state, view, cause, told⟩

/-- A line in a live state loses its alignment (R70, R80, R81). -/
theorem notAligned_downs (alive : Alive (s.lines[l]).state) {t : State}
    (eq : t = (goDown l .alignLost (reportAligned l false s)).served) :
    (t.lines[l]).state = .down ∧ (t.lines[l]).settle = none ∧ (t.lines[l]).epochErrors = 0
      ∧ (t.lines[l]).reception = .idle ∧ t.path.arb.view[l] = .down ∧ t.path.att.causes.getLsbD 2 = true
      ∧ s.LineChangeTold t (s.afterAbort l) l .down .alignLost 0
      ∧ (∀ f, (s.lines[l]).reception = .capturing f →
          (t.lines[l]).counters = { (s.lines[l]).counters with aborts := countUp (s.lines[l]).counters.aborts }
            ∧ t.path.merge.inFlight[l] = none)
      ∧ ((∀ f, (s.lines[l]).reception ≠ .capturing f) → (t.lines[l]).counters = (s.lines[l]).counters)
      ∧ (t.lines[l]).aligned = false ∧ ∀ k : Line, k ≠ l → t.lines[k] = s.lines[k] := by
  have port := reportAligned_self l false s
  have aliveU : Alive ((reportAligned l false s).lines[l]).state := by rw [port]; exact alive
  have same : SameStamp s (abortedState l (reportAligned l false s)) := by
    obtain ⟨tb, sc, settings⟩ := abortedState_same l (reportAligned l false s)
    exact ⟨tb, sc, settings⟩
  have after : (abortedState l (reportAligned l false s)).path = s.afterAbort l := by
    show (abortFrame l (reportAligned l false s)).path = _
    rw [abortFrame_path]
    unfold afterAbort
    rw [port]
    rfl
  have told : s.LineChangeTold (goDown l .alignLost (reportAligned l false s)) (s.afterAbort l) l .down .alignLost 0 := by
    rw [goDown_of_alive aliveU, ← after]
    exact changeLine_told same (by rw [abortedState_get, port]) .down .alignLost 0
  obtain ⟨view, cause⟩ := goDown_reported aliveU .alignLost
  have get : ∀ k : Line, t.lines[k] =
      if k = l then downPort { s.lines[l] with aligned := false } else s.lines[k] := fun k => by
    rw [eq]
    show (goDown l .alignLost (reportAligned l false s)).lines[k] = _
    rw [goDown_get aliveU, port, reportAligned_get]
    by_cases same : k = l
    · rw [if_pos same, if_pos same]
    · rw [if_neg same, if_neg same, if_neg same]
  have self := get l
  rw [if_pos rfl] at self
  obtain ⟨reception, _, aligned, _, _, kept, aborted⟩ := abortedPort_fields { s.lines[l] with aligned := false }
  rw [self]
  refine ⟨rfl, rfl, rfl, reception, ?_, ?_, ?_, fun f captured => ⟨aborted f captured, ?_⟩, kept, aligned,
    fun k other => (get k).trans (if_neg other)⟩
  · rw [eq]
    rw [served_arb]; exact view
  · rw [eq]; exact served_cause cause
  · rw [eq]; exact told.served
  · rw [eq]
    rw [served_merge]
    exact goDown_inFlight aliveU .alignLost (f := f) (by rw [port]; exact captured)

theorem notAligned_stays (dead : (s.lines[l]).state = .off ∨ (s.lines[l]).state = .down) {t : State}
    (eq : t = (goDown l .alignLost (reportAligned l false s)).served) :
    t.lines[l] = { s.lines[l] with aligned := false } ∧ ∀ k : Line, k ≠ l → t.lines[k] = s.lines[k] := by
  rw [goDown_of_dead (s := reportAligned l false s) (by rw [reportAligned_self]; exact dead)] at eq
  rw [eq]
  exact ⟨reportAligned_self l false s, fun k other => (reportAligned_get l k false s).trans (if_neg other)⟩

include running in
theorem receiverNotAligned_reports : ∃ t, exec (.receiverNotAligned l) s = .next t ∧ (t.lines[l]).aligned = false
    ∧ ((s.lines[l]).state = .off ∨ (s.lines[l]).state = .down → t.lines[l] = { s.lines[l] with aligned := false })
    ∧ ((s.lines[l]).state = .settling ∨ (s.lines[l]).state = .up ∨ (s.lines[l]).state = .degraded →
        (t.lines[l]).state = .down ∧ (t.lines[l]).settle = none ∧ (t.lines[l]).epochErrors = 0
          ∧ (t.lines[l]).reception = .idle ∧ t.path.arb.view[l] = .down ∧ t.path.att.causes.getLsbD 2 = true
          ∧ s.LineChangeTold t (s.afterAbort l) l .down .alignLost 0
          ∧ (∀ f, (s.lines[l]).reception = .capturing f →
              (t.lines[l]).counters = { (s.lines[l]).counters with aborts := countUp (s.lines[l]).counters.aborts }
                ∧ t.path.merge.inFlight[l] = none)
          ∧ ((∀ f, (s.lines[l]).reception ≠ .capturing f) → (t.lines[l]).counters = (s.lines[l]).counters))
    ∧ ∀ k : Line, k ≠ l → t.lines[k] = s.lines[k] := by
  have reports : exec (.receiverNotAligned l) s = .next (goDown l .alignLost (reportAligned l false s)).served :=
    answer_of_running _ running
  refine ⟨_, reports, ?_⟩
  generalize eq : (goDown l .alignLost (reportAligned l false s)).served = t
  have kept : (t.lines[l]).aligned = false ∧ ∀ k : Line, k ≠ l → t.lines[k] = s.lines[k] := by
    by_cases dead : (s.lines[l]).state = .off ∨ (s.lines[l]).state = .down
    · obtain ⟨self, others⟩ := notAligned_stays dead eq.symm
      exact ⟨by rw [self], others⟩
    · have alive : Alive (s.lines[l]).state := (alive_iff _).2 (not_or.1 dead)
      obtain ⟨_, _, _, _, _, _, _, _, _, self, others⟩ := notAligned_downs alive eq.symm
      exact ⟨self, others⟩
  refine ⟨kept.1, fun dead => (notAligned_stays dead eq.symm).1, fun alive => ?_, kept.2⟩
  obtain ⟨state, settle, errors, reception, view, cause, told, captured, free, _⟩ := notAligned_downs alive eq.symm
  exact ⟨state, settle, errors, reception, view, cause, told, captured, free⟩

/-! ## The settle timer, code errors and the code-error test (R69, R71, R72) -/

include running in
theorem settleTimeout_ups {start : Nat} (settling : (s.lines[l]).state = .settling)
    (timer : (s.lines[l]).settle = some start) (passed : s.settings.settleTicks ≤ ticksSince s.now start) :
    ∃ t, exec (.settleTimeout l) s = .next t
      ∧ t.lines[l] = { s.lines[l] with state := .up, settle := none } ∧ t.path.arb.view[l] = .up
      ∧ t.path.att.causes.getLsbD 2 = true ∧ s.LineChangeTold t s.path l .up .settled 0
      ∧ ∀ k : Line, k ≠ l → t.lines[k] = s.lines[k] := by
  have due : s.settleDue l = true := by
    unfold settleDue; rw [settling, timer]; exact decide_eq_true passed
  have ups : exec (.settleTimeout l) s = .next (changeLine l .up .settled 0 s).served := by
    show answer s (if s.settleDue l then (changeLine l .up .settled 0 s).served else s) = _
    rw [if_pos due, answer_of_running _ running]
  obtain ⟨view, cause⟩ := changeLine_reported l .up .settled 0 s
  have told := changeLine_told (l := l) (s := s) (u := s) ⟨rfl, rfl, rfl⟩ rfl .up .settled 0
  refine ⟨_, ups, (changeLine_get l l .up .settled 0 s).trans (if_pos rfl), ?_, served_cause cause, told.served,
    fun k other => (changeLine_get l k .up .settled 0 s).trans (if_neg other)⟩
  rw [served_arb]; exact view

theorem errorTest_told (new : LineState) (r : LineReason)
    (verdict : errorVerdict (s.settings.errorLimit l) s.lines[l] = some (new, r)) :
    s.LineChangeTold (errorTest l s) s.path l new r (s.lines[l]).epochErrors := by
  have changes : errorTest l s = changeLine l new r (s.lines[l]).epochErrors s := by
    unfold errorTest; rw [verdict]
  rw [changes]
  exact changeLine_told (u := s) ⟨rfl, rfl, rfl⟩ rfl new r _

theorem codeError_off (off : (s.lines[l]).state = .off) : exec (.codeError l) s = .next s := by
  have none : codeErrorAt l s = s := if_pos off
  show answer s (codeErrorAt l s) = _
  rw [none, answer_self]

include running in
theorem codeError_counts (on : (s.lines[l]).state ≠ .off) : ∃ t, exec (.codeError l) s = .next t
    ∧ t = { s with lines := t.lines }
    ∧ t.lines[l] = { s.lines[l] with
        counters := { (s.lines[l]).counters with codeErrors := countUp (s.lines[l]).counters.codeErrors },
        epochErrors := if (s.lines[l]).state = .up ∨ (s.lines[l]).state = .degraded then
            min ((s.lines[l]).epochErrors + 1) 65535 else (s.lines[l]).epochErrors }
    ∧ ∀ k : Line, k ≠ l → t.lines[k] = s.lines[k] := by
  have counts : codeErrorAt l s = modLine l (fun p =>
      { p with counters := { p.counters with codeErrors := countUp p.counters.codeErrors },
               epochErrors := if p.state.isUp then min (p.epochErrors + 1) 65535 else p.epochErrors }) s := if_neg on
  refine ⟨codeErrorAt l s, answer_of_running _ running, ?_⟩
  rw [counts]
  refine ⟨rfl, ?_, fun k other => (modLine_get l k _ s).trans (if_neg other)⟩
  rw [modLine_get, if_pos rfl]
  simp only [isUp_iff]

end

/-- Settles O53: each report is one change of the line, told in a record and reported to the arbiter. -/
theorem lineReportsMoveTheLine : Obligations.LineReportsMoveTheLine := by
  refine ⟨fun c view e => ?_, fun c l new p => ?_, fun l s running => ?_⟩
  · have short := short_timeout c view e
    refine ⟨fun h => ?_, fun h => ?_⟩
    · have one := short.1 h
      exact ⟨one, effectiveTimeout_of_oneLegged one⟩
    · have two : oneLegged c view e = false := Bool.not_eq_true _ ▸ fun one => h (short.2 one)
      exact ⟨two, effectiveTimeout_of_not two⟩
  · obtain ⟨time, counters, _⟩ := Path.viewReport_rest c l new p
    exact ⟨time, counters, fun k => Path.viewReport_view c l k new p, viewReport_concerned c l new p⟩
  · refine ⟨receiverAligned_reports running, receiverNotAligned_reports running,
      fun start settling timer passed => settleTimeout_ups running settling timer passed,
      fun up errors => errorTest_told _ _ ?_, fun degraded clean => errorTest_told _ _ ?_, codeError_off,
      codeError_counts running⟩
    · unfold errorVerdict; rw [up]; exact if_pos errors
    · unfold errorVerdict; rw [degraded]; exact if_pos clean

end Sys2Proof.Machine
end

section
/-!
SUPPORT. What the change of one line leaves of another at a LOS sample point (R66, R69, R70): the port, the arbiter's
view of the line, its place in the in-flight table and the causes that are set.
-/
namespace Sys2Proof.Machine

/-! ## The arbiter's view belongs to the reports (R117) -/

namespace Path

theorem modStream_view (st : Stream) (f : StreamCounters → StreamCounters) (p : Path) :
    (modStream st f p).arb.view = p.arb.view := rfl

theorem handOn_view (e : Env) (f : Classified) (n : Naming) (p : Path) : (handOn e f n p).arb.view = p.arb.view := by
  unfold handOn
  dsimp only
  cases n with
  | first => rw [offer_arb]; rfl
  | shadow lag b =>
    dsimp only
    split
    · rfl
    · rw [offer_arb]; rfl
  | late lag => rw [offer_arb]; rfl
  | reseed old =>
    dsimp only
    rw [offer_arb, modStream_view, offer_arb, modStream_view]

theorem nameAndHandOn_view (e : Env) (f : Classified) (p : Path) : (nameAndHandOn e f p).arb.view = p.arb.view := by
  unfold nameAndHandOn
  dsimp only
  split
  · rw [handOn_view]; rfl
  · split
    · rw [offer_arb]; rfl
    · exact handOn_view e f .first p

theorem takeRecord_view (e : Env) (f : Classified) (p : Path) : (takeRecord e f p).arb.view = p.arb.view := by
  unfold takeRecord
  rw [nameAndHandOn_view, (declareAll_window e _).2.1]
  rfl

theorem release_view (e : Env) (p : Path) : (release e p).arb.view = p.arb.view := by
  unfold release
  exact foldl_same (fun q : Path => q.arb.view) _ _ _ fun q f _ => takeRecord_view e f q

theorem dropFrame_view (e : Env) (l : Line) (n : Nat) (p : Path) : (dropFrame e l n p).arb.view = p.arb.view := by
  unfold dropFrame releaseAndOffer offerHorizon
  rw [(declareAll_window e _).2.1]
  exact release_view e _

end Path

namespace State

/-! ## What a change of another line spares -/

theorem SameStamp.refl (s : State) : SameStamp s s := ⟨rfl, rfl, rfl⟩

theorem SameStamp.trans {s t u : State} (h : SameStamp s t) (k : SameStamp t u) : SameStamp s u :=
  ⟨k.tb.trans h.tb, k.sc.trans h.sc, k.settings.trans h.settings⟩

/-- What concerns line `l` is the same in both states, and no cause has left the set. -/
structure Spares (l : Line) (s t : State) : Prop where
  port : t.lines[l] = s.lines[l]
  view : t.path.arb.view[l] = s.path.arb.view[l]
  inFlight : t.path.merge.inFlight[l] = s.path.merge.inFlight[l]
  causes : CausesStay s t
  stamp : SameStamp s t
  phase : t.losPhase = s.losPhase

theorem Spares.refl (l : Line) (s : State) : Spares l s s := ⟨rfl, rfl, rfl, .refl s, .refl s, rfl⟩

theorem Spares.trans {l : Line} {s t u : State} (h : Spares l s t) (k : Spares l t u) : Spares l s u :=
  ⟨k.port.trans h.port, k.view.trans h.view, k.inFlight.trans h.inFlight, h.causes.trans k.causes,
    h.stamp.trans k.stamp, k.phase.trans h.phase⟩

section
variable {l k : Line} (other : l ≠ k)
include other

theorem modLine_spares (f : LinePort → LinePort) (s : State) : Spares l s (modLine k f s) :=
  ⟨(modLine_get k l f s).trans (if_neg other), rfl, rfl, .refl s, ⟨rfl, rfl, rfl⟩, rfl⟩

theorem modLineCounters_spares (f : LineCounters → LineCounters) (s : State) : Spares l s (modLineCounters k f s) :=
  modLine_spares other _ s

theorem changeLine_spares (new : LineState) (r : LineReason) (n : Nat) (s : State) :
    Spares l s (changeLine k new r n s) where
  port := (changeLine_get k l new r n s).trans (if_neg other)
  view := by
    rw [changeLine_path, (lineEffects_declared k (s.lines[k]).state new r n s.stamp s.env s.path).view]
    exact (Path.viewReport_view s.settings k l new s.path).trans (if_neg other)
  inFlight := by rw [changeLine_merge]
  causes i h := (lineEffects_moves k (s.lines[k]).state new r n s.stamp s.env s.path).causes i h
  stamp := ⟨rfl, rfl, rfl⟩
  phase := rfl

theorem dropFrame_spares (n : Nat) (s : State) : Spares l s (modPath (fun e => Path.dropFrame e k n) s) where
  port := rfl
  view := by
    show (Path.dropFrame s.env k n s.path).arb.view[l] = _
    rw [Path.dropFrame_view]
  inFlight := (Path.dropFrame_inFlight s.env k l n s.path).trans (if_neg other)
  causes i h := (Path.dropFrame_moves s.env k n s.path).causes i h
  stamp := ⟨rfl, rfl, rfl⟩
  phase := rfl

theorem abortFrame_spares (s : State) : Spares l s (abortFrame k s) := by
  unfold abortFrame
  split
  · exact .refl l s
  · exact modLine_spares other _ s
  · exact ((modLine_spares other _ s).trans (modLineCounters_spares other _ _)).trans (dropFrame_spares other _ _)

theorem goDown_spares (r : LineReason) (s : State) : Spares l s (goDown k r s) := by
  by_cases alive : Alive (s.lines[k]).state
  · rw [goDown_of_alive alive]
    exact ((abortFrame_spares other s).trans (modLine_spares other _ _)).trans (changeLine_spares other _ _ _ _)
  · have dead : (s.lines[k]).state = .off ∨ (s.lines[k]).state = .down := by
      rw [alive_iff, ← not_or, not_not] at alive; exact alive
    rw [goDown_of_dead dead]
    exact .refl l s

theorem trySettle_spares (s : State) : Spares l s (trySettle k s) := by
  by_cases settles : Settles s.lines[k]
  · by_cases none : s.settings.settleTicks = 0
    · rw [trySettle_of_zero settles none]
      exact changeLine_spares other _ _ _ s
    · rw [trySettle_of_pos settles (Nat.pos_of_ne_zero none)]
      exact (changeLine_spares other _ _ _ s).trans (modLine_spares other _ _)
  · rw [trySettle_of_not settles]
    exact .refl l s

theorem losChanged_spares (s : State) : Spares l s (losChanged k s) := by
  unfold losChanged
  split
  · exact goDown_spares other .los s
  · exact trySettle_spares other s

end

theorem losChanges_spare {l : Line} {ls : List Line} (absent : l ∉ ls) (s : State) :
    Spares l s (ls.foldl (fun s k => losChanged k s) s) := by
  induction ls generalizing s with
  | nil => exact .refl l s
  | cons k ls ih =>
    rw [List.mem_cons, not_or] at absent
    exact (losChanged_spares absent.1 s).trans (ih absent.2 _)

/-! ## The ports at a sample point (R66, R67) -/

/-- The lines whose qualified LOS changes at the sample point. -/
def losChanges (levels : BitVec 8) (s : State) : List Line :=
  allLines.filter fun l => qualify (levels.getLsbD l.val) s.lines[l] != s.lines[l].los && s.lines[l].state != .off

theorem mem_losChanges (levels : BitVec 8) (s : State) (l : Line) : l ∈ losChanges levels s ↔
    (s.lines[l]).state ≠ .off ∧ qualify (levels.getLsbD l.val) s.lines[l] ≠ (s.lines[l]).los := by
  unfold losChanges
  rw [List.mem_filter, Bool.and_eq_true, bne_iff_ne, bne_iff_ne, and_comm (a := qualify _ _ ≠ _)]
  exact and_iff_right (mem_allLines l)

/-- The state in which the lines act on their changes: every port has taken its sample. -/
def losSampled (levels : BitVec 8) (s : State) : State :=
  { mapLines (fun l => sampleLos (levels.getLsbD l.val)) { s with losPhase := some 0 } with
    path := { s.path with draws := s.path.draws + 1 } }

theorem losSample_eq (levels : BitVec 8) (s : State) : losSample levels s =
    (freeOrder s.path.draws (losChanges levels s)).foldl (fun s k => losChanged k s) (losSampled levels s) := rfl

theorem losSampled_get (levels : BitVec 8) (s : State) (l : Line) :
    (losSampled levels s).lines[l] = sampleLos (levels.getLsbD l.val) s.lines[l] :=
  mapLines_get (fun l => sampleLos (levels.getLsbD l.val)) l { s with losPhase := some 0 }

theorem sampleLos_off {p : LinePort} (raw : Bool) (off : p.state = .off) : sampleLos raw p = p := if_pos off

theorem sampleLos_on {p : LinePort} (raw : Bool) (on : p.state ≠ .off) : sampleLos raw p =
    { p with los := qualify raw p, history := some raw,
             counters := countAssertion (qualify raw p && !p.los) p.counters } := if_neg on

/-- A line that does not change at the sample point keeps what its sample made of it. -/
theorem losSample_quiet {levels : BitVec 8} {s : State} {l : Line} (quiet : l ∉ losChanges levels s) :
    Spares l (losSampled levels s) (losSample levels s) := by
  rw [losSample_eq]
  exact losChanges_spare (fun h => quiet (mem_freeOrder.1 h)) _

/-- A line that changes acts once, between the others; alone it acts on the sampled state. -/
theorem losSample_acts {levels : BitVec 8} {s : State} {l : Line} (acts : l ∈ losChanges levels s) :
    ∃ u, Spares l (losSampled levels s) u ∧ Spares l (losChanged l u) (losSample levels s)
      ∧ ((∀ k : Line, k ≠ l → k ∉ losChanges levels s) →
          u = losSampled levels s ∧ losSample levels s = losChanged l u) := by
  have perm := freeOrder_perm s.path.draws (losChanges levels s)
  have nodup : (freeOrder s.path.draws (losChanges levels s)).Nodup :=
    perm.nodup_iff.2 ((by decide : allLines.Nodup).filter _)
  have eq := losSample_eq levels s
  obtain ⟨before, after, split⟩ := List.append_of_mem (perm.mem_iff.2 acts)
  have members : ∀ k : Line, k ∈ before ++ l :: after → k ∈ losChanges levels s := fun k h =>
    perm.mem_iff.1 (by rw [split]; exact h)
  rw [split] at eq nodup
  obtain ⟨_, tail, apart⟩ := List.nodup_append.1 nodup
  have notBefore : l ∉ before := fun h => apart l h l List.mem_cons_self rfl
  have notAfter : l ∉ after := (List.nodup_cons.1 tail).1
  rw [List.foldl_append, List.foldl_cons] at eq
  refine ⟨before.foldl (fun s k => losChanged k s) (losSampled levels s), losChanges_spare notBefore _, ?_,
    fun alone => ?_⟩
  · rw [eq]; exact losChanges_spare notAfter _
  · have noBefore : before = [] := List.eq_nil_iff_forall_not_mem.2 fun k h =>
      alone k (fun same => notBefore (same ▸ h)) (members k (List.mem_append_left _ h))
    have noAfter : after = [] := List.eq_nil_iff_forall_not_mem.2 fun k h =>
      alone k (fun same => notAfter (same ▸ h)) (members k (List.mem_append_right _ (List.mem_cons_of_mem _ h)))
    rw [noBefore, noAfter] at eq
    rw [noBefore]
    exact ⟨rfl, eq⟩

end State

end Sys2Proof.Machine
end

section
/-!
SUPPORT. A LOS sample point (R66, R67, R69, R70, R73, R80, R81): what every port takes from its sample, and what a line
whose qualified LOS changes does.
-/
namespace Sys2Proof.Machine

namespace State

/-! ## What the sample makes of a port (R66, R67) -/

theorem countAssertion_aborts (b : Bool) (k : LineCounters) : (countAssertion b k).aborts = k.aborts := by
  cases b <;> rfl

theorem countAssertion_losAssertions (q los : Bool) (k : LineCounters) :
    (countAssertion (q && !los) k).losAssertions =
      if q = true ∧ los = false then countUp k.losAssertions else k.losAssertions := by
  cases q <;> cases los <;> rfl

section
variable {levels : BitVec 8} {s : State} {l : Line} (on : (s.lines[l]).state ≠ .off)

theorem losSample_off (off : (s.lines[l]).state = .off) : (losSample levels s).lines[l] = s.lines[l] := by
  have quiet : l ∉ losChanges levels s := fun changes => ((mem_losChanges levels s l).1 changes).1 off
  rw [(losSample_quiet quiet).port, losSampled_get, sampleLos_off _ off]

/-- What the sampled port has: the new filter state, and the rest as before. -/
structure Sampled (raw : Bool) (p x : LinePort) : Prop where
  state : x.state = p.state
  aligned : x.aligned = p.aligned
  reception : x.reception = p.reception
  los : x.los = qualify raw p
  history : x.history = some raw
  aborts : x.counters.aborts = p.counters.aborts
  losAssertions : x.counters.losAssertions =
    if qualify raw p = true ∧ p.los = false then countUp p.counters.losAssertions else p.counters.losAssertions

include on in
theorem losSampled_sampled : Sampled (levels.getLsbD l.val) s.lines[l] (losSampled levels s).lines[l] := by
  rw [losSampled_get, sampleLos_on _ on]
  exact ⟨rfl, rfl, rfl, rfl, rfl, countAssertion_aborts _ _, countAssertion_losAssertions _ _ _⟩

include on in
/-- The filter and the state of every enabled port after the sample point. -/
theorem losSample_port :
    ((losSample levels s).lines[l]).history = some (levels.getLsbD l.val)
      ∧ ((losSample levels s).lines[l]).los = qualify (levels.getLsbD l.val) s.lines[l]
      ∧ ((losSample levels s).lines[l]).counters.losAssertions =
          (if qualify (levels.getLsbD l.val) s.lines[l] = true ∧ (s.lines[l]).los = false then
            countUp (s.lines[l]).counters.losAssertions else (s.lines[l]).counters.losAssertions)
      ∧ (qualify (levels.getLsbD l.val) s.lines[l] = (s.lines[l]).los →
          ((losSample levels s).lines[l]).state = (s.lines[l]).state
            ∧ ((losSample levels s).lines[l]).reception = (s.lines[l]).reception)
      ∧ (qualify (levels.getLsbD l.val) s.lines[l] = true → (s.lines[l]).los = false →
          ((losSample levels s).lines[l]).state = .down)
      ∧ (qualify (levels.getLsbD l.val) s.lines[l] = false → (s.lines[l]).los = true →
          ((losSample levels s).lines[l]).state =
            if (s.lines[l]).state = .down ∧ (s.lines[l]).aligned = true then
              (if s.settings.settleTicks = 0 then .up else .settling)
            else (s.lines[l]).state) := by
  have sampled := losSampled_sampled (levels := levels) on
  by_cases acts : l ∈ losChanges levels s
  · have moved := ((mem_losChanges levels s l).1 acts).2
    obtain ⟨u, before, after, _⟩ := losSample_acts acts
    have port := before.port
    have settings : u.settings = s.settings := before.stamp.settings
    obtain ⟨history, los, assertions, downs, settles⟩ := losChanged_self l u (by rw [port, sampled.state]; exact on)
    rw [after.port, history, los, assertions, port, sampled.history, sampled.los, sampled.losAssertions]
    rw [port, sampled.los] at downs settles
    rw [sampled.state, sampled.aligned, settings] at settles
    exact ⟨rfl, rfl, rfl, fun same => absurd same moved, fun asserted _ => downs asserted, fun clear _ => settles clear⟩
  · have stays : qualify (levels.getLsbD l.val) s.lines[l] = (s.lines[l]).los := not_not.1 fun moved =>
      acts ((mem_losChanges levels s l).2 ⟨on, moved⟩)
    rw [(losSample_quiet acts).port, sampled.history, sampled.los, sampled.losAssertions, sampled.state,
      sampled.reception]
    exact ⟨rfl, rfl, rfl, fun _ => ⟨rfl, rfl⟩,
      fun asserted clear => (by rw [stays, clear] at asserted; cases asserted),
      fun clear asserted => (by rw [stays, asserted] at clear; cases clear)⟩

/-! ## What the lines tell (R69, R70, R73, R80, R81) -/

/-- The state before the sample point with its free value used up. -/
def drawn (s : State) : State := { s with path := { s.path with draws := s.path.draws + 1 } }

theorem drawn_same (levels : BitVec 8) (s : State) : SameStamp s.drawn (losSampled levels s) := ⟨rfl, rfl, rfl⟩

include on in
theorem losSampled_afterAbort : (losSampled levels s).afterAbort l = s.drawn.afterAbort l := by
  have reception := (losSampled_sampled (levels := levels) on).reception
  unfold afterAbort
  rw [reception]
  rfl

include on in
/-- A line that LOS takes DOWN (R70, R80, R81). -/
theorem losSample_downs (asserted : qualify (levels.getLsbD l.val) s.lines[l] = true) (clear : (s.lines[l]).los = false)
    (up : (s.lines[l]).state ≠ .down) :
    ((losSample levels s).lines[l]).reception = .idle ∧ ((losSample levels s).lines[l]).settle = none
      ∧ ((losSample levels s).lines[l]).epochErrors = 0 ∧ (losSample levels s).path.arb.view[l] = .down
      ∧ (losSample levels s).path.att.causes.getLsbD 2 = true
      ∧ (∀ f, (s.lines[l]).reception = .capturing f → (losSample levels s).path.merge.inFlight[l] = none
          ∧ ((losSample levels s).lines[l]).counters.aborts = countUp (s.lines[l]).counters.aborts)
      ∧ ((∀ f, (s.lines[l]).reception ≠ .capturing f) →
          ((losSample levels s).lines[l]).counters.aborts = (s.lines[l]).counters.aborts)
      ∧ ((∀ k : Line, k ≠ l → k ∉ losChanges levels s) →
          s.drawn.LineChangeTold (losSample levels s) (s.drawn.afterAbort l) l .down .los 0) := by
  have sampled := losSampled_sampled (levels := levels) on
  have acts : l ∈ losChanges levels s := (mem_losChanges levels s l).2 ⟨on, by rw [asserted, clear]; decide⟩
  obtain ⟨u, before, after, alone⟩ := losSample_acts acts
  have port := before.port
  have alive : Alive (u.lines[l]).state := (alive_iff _).2 (by rw [port, sampled.state]; exact ⟨on, up⟩)
  have goes : losChanged l u = goDown l .los u := if_pos (by rw [port, sampled.los]; exact asserted)
  rw [goes] at after alone
  obtain ⟨view, cause⟩ := goDown_reported alive .los
  obtain ⟨reception, _, _, _, _, kept, aborted⟩ := abortedPort_fields (u.lines[l])
  have down : (losSample levels s).lines[l] = downPort u.lines[l] :=
    after.port.trans ((goDown_get alive .los l).trans (if_pos rfl))
  have frame : (u.lines[l]).reception = (s.lines[l]).reception := by rw [port, sampled.reception]
  have aborts : (u.lines[l]).counters.aborts = (s.lines[l]).counters.aborts := by rw [port, sampled.aborts]
  rw [down]
  refine ⟨reception, rfl, rfl, after.view.trans view, after.causes 2 cause, fun f captured => ⟨?_, ?_⟩,
    fun free => ?_, fun others => ?_⟩
  · exact after.inFlight.trans (goDown_inFlight alive .los (f := f) (frame.trans captured))
  · show (abortedPort u.lines[l]).counters.aborts = _
    rw [aborted f (frame.trans captured), ← aborts]
  · show (abortedPort u.lines[l]).counters.aborts = _
    rw [kept (by rw [frame]; exact free), aborts]
  · obtain ⟨rfl, all⟩ := alone others
    rw [all, goDown_of_alive alive, ← losSampled_afterAbort on, ← abortFrame_path]
    obtain ⟨tb, sc, settings⟩ := abortedState_same l (losSampled levels s)
    exact changeLine_told (s := s.drawn) (u := abortedState l (losSampled levels s)) ⟨tb, sc, settings⟩
      ((abortedState_get l _).trans sampled.state) .down .los 0

include on in
/-- A DOWN line with an aligned receiver whose LOS clears (R69). -/
theorem losSample_settles (clear : qualify (levels.getLsbD l.val) s.lines[l] = false)
    (asserted : (s.lines[l]).los = true) (down : (s.lines[l]).state = .down) (aligned : (s.lines[l]).aligned = true) :
    (losSample levels s).path.arb.view[l] = ((losSample levels s).lines[l]).state
      ∧ (losSample levels s).path.att.causes.getLsbD 2 = true
      ∧ (0 < s.settings.settleTicks → ((losSample levels s).lines[l]).settle = some s.now)
      ∧ ((∀ k : Line, k ≠ l → k ∉ losChanges levels s) →
          (s.settings.settleTicks = 0 →
            s.drawn.LineChangeTold (losSample levels s) s.drawn.path l .up .settled 0)
          ∧ (0 < s.settings.settleTicks →
            s.drawn.LineChangeTold (losSample levels s) s.drawn.path l .settling .signal 0)) := by
  have sampled := losSampled_sampled (levels := levels) on
  have acts : l ∈ losChanges levels s := (mem_losChanges levels s l).2 ⟨on, by rw [asserted, clear]; decide⟩
  obtain ⟨u, before, after, alone⟩ := losSample_acts acts
  have port := before.port
  have settings : u.settings = s.settings := before.stamp.settings
  have settles : Settles u.lines[l] := by
    rw [port]; exact ⟨sampled.state.trans down, sampled.los.trans clear, sampled.aligned.trans aligned⟩
  have tries : losChanged l u = trySettle l u := if_neg (by rw [settles.2.1]; decide)
  rw [tries] at after alone
  rw [after.view, after.port]
  have sameState := sampled.state
  by_cases none : s.settings.settleTicks = 0
  · rw [trySettle_of_zero settles (by rw [settings]; exact none)] at after alone ⊢
    obtain ⟨view, cause⟩ := changeLine_reported l .up .settled 0 u
    refine ⟨?_, after.causes 2 cause, fun wait => absurd none (Nat.pos_iff_ne_zero.1 wait), fun others =>
      ⟨fun _ => ?_, fun wait => absurd none (Nat.pos_iff_ne_zero.1 wait)⟩⟩
    · rw [view, changeLine_get, if_pos rfl]
    · obtain ⟨rfl, all⟩ := alone others
      rw [all]
      exact changeLine_told (drawn_same levels s) sameState .up .settled 0
  · have wait := Nat.pos_of_ne_zero none
    rw [trySettle_of_pos settles (by rw [settings]; exact wait)] at after alone ⊢
    obtain ⟨view, cause⟩ := changeLine_reported l .settling .signal 0 u
    have now : u.now = s.now := by unfold State.now; rw [before.stamp.tb]; rfl
    refine ⟨?_, after.causes 2 cause, fun _ => ?_, fun others => ⟨fun zero => absurd zero none, fun _ => ?_⟩⟩
    · rw [modLine_get, if_pos rfl, changeLine_get, if_pos rfl]
      exact view
    · rw [modLine_get, if_pos rfl, ← now]
    · obtain ⟨rfl, all⟩ := alone others
      rw [all]
      have told := changeLine_told (l := l) (drawn_same levels s) sameState .settling .signal 0
      exact told.congr rfl rfl

theorem losSample_phase (levels : BitVec 8) (s : State) : (losSample levels s).losPhase = some 0 := by
  rw [losSample_eq]
  refine foldl_same (fun s : State => s.losPhase) _ _ _ fun u k _ => ?_
  obtain ⟨m, other⟩ : ∃ m : Line, m ≠ k := ⟨if k = 0 then 1 else 0, by split <;> simp_all [eq_comm]⟩
  exact (losChanged_spares other u).phase

end

end State

open State

/-- Settles O52: the ports take their samples at once, and each line that changes acts alone between the others. -/
theorem losSampleFilters : Obligations.LosSampleFilters := by
  unfold Obligations.LosSampleFilters
  intro levels s running phase qualified changes s1
  have due : s.losDue = true := by unfold losDue; rw [phase]; exact beq_self_eq_true _
  have samples : exec (.losSample levels) s = .next (losSample levels s).served := by
    show answer s (if s.losDue then (losSample levels s).served else s) = _
    rw [if_pos due, answer_of_running _ running]
  refine ⟨_, samples, (served_losPhase _).trans (losSample_phase levels s), fun l => ?_⟩
  intro p q moves
  rw [served_lines]
  refine ⟨fun off => losSample_off off, fun on => ?_⟩
  obtain ⟨history, los, assertions, quiet, downs, settles⟩ := losSample_port (levels := levels) on
  have others : (∀ k : Line, k ≠ l → ¬ changes k) → ∀ k : Line, k ≠ l → k ∉ losChanges levels s := fun h k other acts =>
    h k other ((mem_losChanges levels s k).1 acts)
  refine ⟨history, los, assertions, quiet, downs, fun asserted clear up => ?_, settles, fun clear asserted moves => ?_⟩
  · obtain ⟨reception, settle, errors, view, cause, captured, free, told⟩ := losSample_downs on asserted clear up
    refine ⟨reception, settle, errors, ?_, served_cause cause, fun f frame => ⟨?_, (captured f frame).2⟩, free,
      fun alone => (told (others alone)).served⟩
    · rw [served_arb]; exact view
    · rw [served_merge]; exact (captured f frame).1
  · obtain ⟨view, cause, settle, told⟩ := losSample_settles on clear asserted moves.1 moves.2
    refine ⟨?_, served_cause cause, settle, fun alone => ⟨fun none => ((told (others alone)).1 none).served,
      fun wait => ((told (others alone)).2 wait).served⟩⟩
    rw [served_arb]; exact view

end Sys2Proof.Machine
end

section
/-!
SUPPORT. A frame start (R74, R75, R84, R88, R102): captured with a first block, dropped STORE FULL, or ignored.
-/
namespace Sys2Proof.Machine

namespace State

/-! ## A frame that is skipped (R74, R75) -/

/-- The frame is skipped to its end, and a counter tells why. -/
def skipCounted (l : Line) (f : LineCounters → LineCounters) (s : State) : State :=
  modLine l (fun p => { p with reception := .skipping }) (modLineCounters l f s)

theorem skipCounted_lines (l : Line) (f : LineCounters → LineCounters) (s : State) :
    skipCounted l f s = { s with lines := (skipCounted l f s).lines } := rfl

theorem skipCounted_get (l k : Line) (f : LineCounters → LineCounters) (s : State) : (skipCounted l f s).lines[k] =
    if k = l then { s.lines[l] with reception := .skipping, counters := f (s.lines[l]).counters } else s.lines[k] := by
  unfold skipCounted
  rw [modLine_get, modLineCounters_get, modLineCounters_get]
  by_cases same : k = l
  · rw [if_pos same, if_pos same, if_pos rfl]
  · rw [if_neg same, if_neg same, if_neg same]

/-! ## A frame that is captured (R75, R84, R102) -/

/-- The frame is stamped, and has its first block and its place in the in-flight table. -/
def captureStarted (l : Line) (s : State) : State :=
  modPath (fun e p => Path.enterInFlight l e.now (Path.grantBlock p))
    (modLine l (fun q => { q with reception := .capturing (newFrame s.stamp (q.state == .degraded)) }) s)

theorem captureStarted_get (l k : Line) (s : State) : (captureStarted l s).lines[k] =
    if k = l then
      { s.lines[l] with reception := .capturing (newFrame s.stamp ((s.lines[l]).state == .degraded)) }
    else s.lines[k] := modLine_get l k _ s

theorem captureStarted_inFlight (l k : Line) (s : State) : (captureStarted l s).path.merge.inFlight[k] =
    if k = l then some s.now else s.path.merge.inFlight[k] :=
  Path.enterInFlight_get l k s.now (Path.grantBlock s.path)

/-! ## The cases of a frame start (R74, R75) -/

section
variable {l : Line} {s : State} (idle : (s.lines[l]).reception = .idle)
include idle

theorem frameStartAt_off (off : (s.lines[l]).state = .off) : frameStartAt l s = s := by
  unfold frameStartAt; dsimp only; rw [idle, off]

theorem frameStartAt_ignored (closed : (s.lines[l]).state = .down ∨ (s.lines[l]).state = .settling) :
    frameStartAt l s = skipCounted l (fun k => { k with ignored := countUp k.ignored }) s := by
  unfold frameStartAt
  rcases closed with h | h <;> (dsimp only; rw [idle, h]; rfl)

theorem frameStartAt_up (up : (s.lines[l]).state = .up ∨ (s.lines[l]).state = .degraded) :
    frameStartAt l s =
      if s.path.hasBlock then captureStarted l s
      else skipCounted l (fun k => { k with storeFull := countUp k.storeFull }) s := by
  unfold frameStartAt
  rcases up with h | h <;> (dsimp only; rw [idle, h]; rfl)

theorem frameStartAt_full (up : (s.lines[l]).state = .up ∨ (s.lines[l]).state = .degraded)
    (full : s.path.store.free = 0) :
    frameStartAt l s = skipCounted l (fun k => { k with storeFull := countUp k.storeFull }) s := by
  have none : s.path.hasBlock = false := decide_eq_false (by omega)
  rw [frameStartAt_up idle up, none]; rfl

theorem frameStartAt_captures (up : (s.lines[l]).state = .up ∨ (s.lines[l]).state = .degraded)
    (room : 0 < s.path.store.free) : frameStartAt l s = captureStarted l s := by
  have granted : s.path.hasBlock = true := decide_eq_true room
  rw [frameStartAt_up idle up, granted, if_pos rfl]

end

end State

open State

/-- Settles O54, by the state of the line and the store. -/
theorem frameStartCapturesOrSkips : Obligations.FrameStartCapturesOrSkips := by
  unfold Obligations.FrameStartCapturesOrSkips
  intro l s running idle p
  have starts : exec (.frameStart l) s = .next (frameStartAt l s) := answer_of_running _ running
  refine ⟨fun off => ?_, fun closed => ⟨_, starts, ?_⟩, fun up full => ⟨_, starts, ?_⟩, fun up room => ⟨_, starts, ?_⟩⟩
  · rw [starts, frameStartAt_off idle off]
  · rw [frameStartAt_ignored idle closed]
    exact ⟨skipCounted_lines .., fun k other => (skipCounted_get ..).trans (if_neg other),
      (skipCounted_get ..).trans (if_pos rfl)⟩
  · rw [frameStartAt_full idle up full]
    exact ⟨skipCounted_lines .., fun k other => (skipCounted_get ..).trans (if_neg other),
      (skipCounted_get ..).trans (if_pos rfl)⟩
  · rw [frameStartAt_captures idle up room]
    exact ⟨rfl, fun k other => (captureStarted_get ..).trans (if_neg other), (captureStarted_get ..).trans (if_pos rfl),
      rfl, (captureStarted_inFlight ..).trans (if_pos rfl),
      fun k other => (captureStarted_inFlight ..).trans (if_neg other), rfl⟩

end Sys2Proof.Machine
end

section
/-!
SUPPORT. The bytes of a frame that ask for a block and that pass the ceiling (R76, R77, R84, R86).
-/
namespace Sys2Proof.Machine

namespace State

theorem served_store (s : State) : s.served.path.store = s.path.store := Path.serve_store _ _

/-! ## A byte that asks for a block (R76, R84) -/

/-- The byte asks: the frame is not CUT, every block held is full, and the capture length is not reached. -/
def Asks (cap : Nat) (f : PortFrame) : Prop := f.cut = false ∧ f.stored = 128 * f.blocks ∧ f.stored < cap

theorem needsBlock_of_asks {cap : Nat} {f : PortFrame} (asks : Asks cap f) : needsBlock cap f = true := by
  obtain ⟨uncut, full, below⟩ := asks
  unfold needsBlock
  rw [uncut, full]
  simp only [Bool.not_false, Bool.true_and, Bool.and_eq_true, decide_eq_true_eq]
  exact ⟨full ▸ below, Nat.le_refl _⟩

section
variable {l : Line} {f : PortFrame} {s : State} (asks : Asks (s.settings.captureLen l) f) (b : Byte)
include asks

theorem storeByte_asks : storeByte l f b s =
    if s.path.hasBlock then
      setFrame l { f with bytes := f.bytes ++ [b], blocks := f.blocks + 1, stored := f.stored + 1 }
        (modPath (fun _ => Path.grantBlock) s)
    else
      modLineCounters l (fun k => { k with cut := countUp k.cut })
        (setFrame l { f with bytes := f.bytes ++ [b], cut := true } s) := by
  obtain ⟨uncut, full, below⟩ := id asks
  have stores : ¬ (f.cut || decide (s.settings.captureLen l ≤ f.stored)) = true := by
    rw [uncut, Bool.false_or, decide_eq_true_eq]; omega
  unfold storeByte
  dsimp only
  rw [if_neg stores, if_pos (needsBlock_of_asks asks)]

theorem storeByte_granted (room : 0 < s.path.store.free) : storeByte l f b s =
    setFrame l { f with bytes := f.bytes ++ [b], blocks := f.blocks + 1, stored := f.stored + 1 }
      (modPath (fun _ => Path.grantBlock) s) := by
  have granted : s.path.hasBlock = true := decide_eq_true room
  rw [storeByte_asks asks, granted, if_pos rfl]

theorem storeByte_cut (full : s.path.store.free = 0) : storeByte l f b s =
    modLineCounters l (fun k => { k with cut := countUp k.cut })
      (setFrame l { f with bytes := f.bytes ++ [b], cut := true } s) := by
  have refused : s.path.hasBlock = false := decide_eq_false (by omega)
  rw [storeByte_asks asks, refused]; rfl

end

theorem takeByte_below {l : Line} {f : PortFrame} {s : State} (below : f.bytes.length + 1 ≤ s.settings.ceiling l)
    (b : Byte) : takeByte l f b s = storeByte l f b s := if_neg (Nat.not_lt.2 below)

/-- A run of bytes is fed as its bytes but the last, and then the last. -/
theorem feed_concat {l : Line} {bs : List Byte} {b : Byte} {s u : State} {f : PortFrame}
    (start : feed l bs s = u) (capturing : (u.lines[l]).reception = .capturing f) :
    feed l (bs ++ [b]) s = takeByte l f b u := by
  rw [feed_append, start, feed_cons capturing]; rfl

theorem setFrame_reception (l : Line) (f : PortFrame) (s : State) :
    ((setFrame l f s).lines[l]).reception = .capturing f := by rw [setFrame_get, if_pos rfl]

/-- The first part of the obligation, on the state that the last byte finds. -/
theorem takeByte_asks {l : Line} {f : PortFrame} {s : State} (asks : Asks (s.settings.captureLen l) f)
    (below : f.bytes.length + 1 ≤ s.settings.ceiling l) (b : Byte) {t : State} (eq : takeByte l f b s = t) :
    (∀ k : Line, k ≠ l → t.lines[k] = s.lines[k]) ∧ t.path.merge = s.path.merge
      ∧ (0 < s.path.store.free →
          t.lines[l] = { s.lines[l] with reception := (.capturing
            { f with bytes := f.bytes ++ [b], stored := f.stored + 1, blocks := f.blocks + 1 }) }
          ∧ t.path.store = ⟨s.path.store.free - 1, min s.path.store.lowWater (s.path.store.free - 1)⟩)
      ∧ (s.path.store.free = 0 →
          t.lines[l] = { s.lines[l] with
            reception := (.capturing { f with bytes := f.bytes ++ [b], cut := true }),
            counters := { (s.lines[l]).counters with cut := countUp (s.lines[l]).counters.cut } }
          ∧ t.path.store = s.path.store) := by
  subst eq
  rw [takeByte_below below]
  rcases Nat.eq_zero_or_pos s.path.store.free with full | room
  · rw [storeByte_cut asks b full]
    refine ⟨fun k other => ?_, rfl, fun room => absurd full (Nat.pos_iff_ne_zero.1 room), fun _ => ⟨?_, rfl⟩⟩
    · rw [modLineCounters_get, if_neg other, setFrame_get, if_neg other]
    · rw [modLineCounters_get, if_pos rfl, setFrame_get, if_pos rfl]
  · rw [storeByte_granted asks b room]
    refine ⟨fun k other => ?_, rfl, fun _ => ⟨?_, rfl⟩, fun full => absurd full (Nat.pos_iff_ne_zero.1 room)⟩
    · rw [setFrame_get, if_neg other, modPath_get]
    · rw [setFrame_get, if_pos rfl, modPath_get]

/-! ## A frame that passes its ceiling (R77, R86) -/

/-- In `t` the frame that line `l` received in `s` is ended and its `blocks` have returned; `k` are the line's counters
and `low` the low-water mark. -/
structure EndedOversize (l : Line) (s : State) (blocks : Nat) (k : LineCounters) (low : Nat) (t : State) : Prop where
  others : ∀ j : Line, j ≠ l → t.lines[j] = s.lines[j]
  port : t.lines[l] = { s.lines[l] with reception := .skipping, counters := k }
  inFlight : t.path.merge.inFlight[l] = none
  othersInFlight : ∀ j : Line, j ≠ l → t.path.merge.inFlight[j] = s.path.merge.inFlight[j]
  downstream : t.path.downstreamBlocks = s.path.downstreamBlocks + blocks
  free : s.path.merge.pending = [] → t.path.store.free = s.path.store.free + blocks
  lowWater : t.path.store.lowWater = low

/-- The counters once OVERSIZE is counted. -/
def countOversize (k : LineCounters) : LineCounters := { k with oversize := countUp k.oversize }

theorem dropFrame_downstream (e : Env) (l : Line) (n : Nat) (p : Path) :
    (Path.dropFrame e l n p).downstreamBlocks = p.downstreamBlocks + n := by
  have moved := (Path.dropFrame_moves e l n p).blocks
  omega

theorem endOversize_ended (l : Line) (f : PortFrame) (s : State) :
    EndedOversize l s f.blocks (countOversize (s.lines[l]).counters) s.path.store.lowWater (endOversize l f s) := by
  unfold endOversize
  obtain ⟨lowWater, free⟩ := dropFrame_store s.env l f.blocks s.path
  refine ⟨fun j other => ?_, ?_, (Path.dropFrame_inFlight s.env l l f.blocks s.path).trans (if_pos rfl),
    fun j other => (Path.dropFrame_inFlight s.env l j f.blocks s.path).trans (if_neg other),
    dropFrame_downstream s.env l f.blocks s.path, free, lowWater⟩
  · rw [modPath_get, modLineCounters_get, if_neg other, modLine_get, if_neg other]
  · rw [modPath_get, modLineCounters_get, if_pos rfl, modLine_get, if_pos rfl]; rfl

section
variable {l : Line} {s t : State} {n : Nat} {k : LineCounters} {low : Nat}

theorem EndedOversize.served (h : EndedOversize l s n k low t) : EndedOversize l s n k low t.served where
  others := h.others
  port := h.port
  inFlight := by rw [served_merge]; exact h.inFlight
  othersInFlight := by rw [served_merge]; exact h.othersInFlight
  downstream := (Path.Moves.downstreamBlocks_eq (Path.serve_moves t.env t.path)).trans h.downstream
  free := by rw [served_store]; exact h.free
  lowWater := by rw [served_store]; exact h.lowWater

/-- The end of a frame in `s`, told from an earlier state `r` whose other ports and merge are the same. -/
theorem EndedOversize.since {r : State} {m : Nat} (h : EndedOversize l s n k low t)
    (others : ∀ j : Line, j ≠ l → s.lines[j] = r.lines[j])
    (port : { s.lines[l] with reception := .skipping, counters := k }
      = { r.lines[l] with reception := .skipping, counters := k })
    (merge : s.path.merge = r.path.merge)
    (downstream : s.path.downstreamBlocks + n = r.path.downstreamBlocks + m)
    (free : s.path.store.free + n = r.path.store.free + m) : EndedOversize l r m k low t where
  others j other := (h.others j other).trans (others j other)
  port := h.port.trans port
  inFlight := h.inFlight
  othersInFlight j other := (h.othersInFlight j other).trans (by rw [merge])
  downstream := h.downstream.trans downstream
  free empty := (h.free (by rw [merge]; exact empty)).trans free
  lowWater := h.lowWater

end

/-! ## The byte that passes the ceiling (R77) -/

section
variable {l : Line} {f : PortFrame} {s : State} (past : s.settings.ceiling l < f.bytes.length + 1) (b : Byte)

include past in
theorem takeByte_past
    (first : needsBlock (s.settings.captureLen l) f = false ∨ Config.oversizeFirst s.path.draws = true) :
    takeByte l f b s = endOversize l f s := by
  unfold takeByte
  rw [if_pos past, if_neg]
  rcases first with h | h <;> rw [h] <;> simp

include past in
theorem takeByte_past_stores {f1 : PortFrame} (asks : Asks (s.settings.captureLen l) f)
    (first : Config.oversizeFirst s.path.draws = false)
    (stored : ((storeByte l f b s.drawn).lines[l]).reception = .capturing f1) :
    takeByte l f b s = endOversize l f1 (storeByte l f b s.drawn) := by
  have stores : (needsBlock (s.settings.captureLen l) f && !Config.oversizeFirst s.path.draws) = true := by
    rw [needsBlock_of_asks asks, first]; rfl
  unfold takeByte
  rw [if_pos past, if_pos stores]
  show (match ((storeByte l f b s.drawn).lines[l]).reception with
    | .capturing f1 => endOversize l f1 (storeByte l f b s.drawn)
    | .idle => storeByte l f b s.drawn
    | .skipping => storeByte l f b s.drawn) = _
  rw [stored]

include past in
/-- The request first, and a block granted: it returns with the others. -/
theorem takeByte_past_granted (asks : Asks (s.settings.captureLen l) f)
    (first : Config.oversizeFirst s.path.draws = false) (room : 0 < s.path.store.free) :
    EndedOversize l s f.blocks (countOversize (s.lines[l]).counters)
      (min s.path.store.lowWater (s.path.store.free - 1)) (takeByte l f b s) := by
  have stored := storeByte_granted (s := s.drawn) asks b room
  have capturing := setFrame_reception l { f with bytes := f.bytes ++ [b], blocks := f.blocks + 1, stored := f.stored + 1 }
    (modPath (fun _ => Path.grantBlock) s.drawn)
  rw [← stored] at capturing
  rw [takeByte_past_stores past b asks first capturing]
  have ended := endOversize_ended l { f with bytes := f.bytes ++ [b], blocks := f.blocks + 1, stored := f.stored + 1 }
    (storeByte l f b s.drawn)
  rw [stored] at ended ⊢
  have port : ((setFrame l { f with bytes := f.bytes ++ [b], blocks := f.blocks + 1, stored := f.stored + 1 }
      (modPath (fun _ => Path.grantBlock) s.drawn)).lines[l]).counters = (s.lines[l]).counters := by
    rw [setFrame_get, if_pos rfl, modPath_get]; rfl
  rw [port] at ended
  refine ended.since (fun j other => ?_) ?_ rfl ?_ ?_
  · rw [setFrame_get, if_neg other, modPath_get]; rfl
  · rw [setFrame_get, if_pos rfl, modPath_get]; rfl
  · have moved := (Path.grantBlock_moves s.path (decide_eq_true room)).blocks
    show (Path.grantBlock s.drawn.path).downstreamBlocks + (f.blocks + 1) = _
    rw [show (Path.grantBlock s.drawn.path).downstreamBlocks = (Path.grantBlock s.path).downstreamBlocks from rfl]
    omega
  · show s.path.store.free - 1 + (f.blocks + 1) = _
    omega

include past in
/-- The request first, and no block free: the frame is counted CUT too. -/
theorem takeByte_past_cut (asks : Asks (s.settings.captureLen l) f)
    (first : Config.oversizeFirst s.path.draws = false) (full : s.path.store.free = 0) :
    EndedOversize l s f.blocks
      { countOversize (s.lines[l]).counters with cut := countUp (s.lines[l]).counters.cut }
      s.path.store.lowWater (takeByte l f b s) := by
  have stored := storeByte_cut (s := s.drawn) asks b full
  have capturing : ((storeByte l f b s.drawn).lines[l]).reception =
      .capturing { f with bytes := f.bytes ++ [b], cut := true } := by
    rw [stored, modLineCounters_get, if_pos rfl]; exact setFrame_reception l _ _
  rw [takeByte_past_stores past b asks first capturing]
  have ended := endOversize_ended l { f with bytes := f.bytes ++ [b], cut := true } (storeByte l f b s.drawn)
  rw [stored] at ended ⊢
  have port : (modLineCounters l (fun k => { k with cut := countUp k.cut })
      (setFrame l { f with bytes := f.bytes ++ [b], cut := true } s.drawn)).lines[l] =
      { s.lines[l] with
        reception := (.capturing { f with bytes := f.bytes ++ [b], cut := true }),
        counters := { (s.lines[l]).counters with cut := countUp (s.lines[l]).counters.cut } } := by
    rw [modLineCounters_get, if_pos rfl, setFrame_get, if_pos rfl]; rfl
  rw [port] at ended
  refine ended.since (fun j other => ?_) ?_ rfl rfl rfl
  · rw [modLineCounters_get, if_neg other, setFrame_get, if_neg other]; rfl
  · rw [port]

end

/-! ## The two runs of bytes (R76, R77) -/

section
variable {l : Line} {f : PortFrame} {s : State} {bs : List Byte} (capturing : (s.lines[l]).reception = .capturing f)

/-- What a run leaves that asks for no block and passes no ceiling: bytes received, `n` of them stored. -/
def received (f : PortFrame) (bs : List Byte) (n : Nat) : PortFrame := { f with bytes := f.bytes ++ bs, stored := n }

include capturing in
theorem feed_concat_stored (uncut : f.cut = false) (fits : f.stored + bs.length ≤ 128 * f.blocks)
    (below : f.stored + bs.length ≤ s.settings.captureLen l) (ceiling : f.bytes.length + bs.length ≤ s.settings.ceiling l)
    (b : Byte) : feed l (bs ++ [b]) s =
      takeByte l (received f bs (f.stored + bs.length)) b (setFrame l (received f bs (f.stored + bs.length)) s) :=
  feed_concat (feed_stored l bs f s capturing uncut fits below ceiling) (setFrame_reception ..)

/-- The end of a frame told from before its last bytes. -/
theorem EndedOversize.ofSetFrame {g : PortFrame} {n low : Nat} {k : LineCounters} {t : State}
    (h : EndedOversize l (setFrame l g s) n k low t) : EndedOversize l s n k low t := by
  refine h.since (fun j other => ?_) ?_ rfl rfl rfl
  · rw [setFrame_get, if_neg other]
  · rw [setFrame_get, if_pos rfl]

theorem setFrame_counters (g : PortFrame) : ((setFrame l g s).lines[l]).counters = (s.lines[l]).counters := by
  rw [setFrame_get, if_pos rfl]

include capturing in
/-- The frame is ended without its last byte having asked. -/
theorem feed_past_quiet (full : f.bytes.length + bs.length = s.settings.ceiling l)
    (quiet : f.cut = true ∨ min (f.stored + bs.length) (s.settings.captureLen l) ≤ 128 * f.blocks)
    (silent : ¬ (f.cut = false ∧ f.stored + bs.length = 128 * f.blocks ∧ f.stored + bs.length < s.settings.captureLen l))
    (b : Byte) : EndedOversize l s f.blocks (countOversize (s.lines[l]).counters) s.path.store.lowWater
      (feed l (bs ++ [b]) s) := by
  obtain ⟨n, fed, stored⟩ := feed_quiet l bs f s capturing (Nat.le_of_eq full) quiet
  have noBlock : needsBlock (s.settings.captureLen l) (received f bs n) = false := by
    unfold needsBlock received Config.blockBytes
    by_contra needs
    simp only [Bool.not_eq_false, Bool.and_eq_true, Bool.not_eq_eq_eq_not, Bool.not_true, decide_eq_true_eq] at needs
    obtain ⟨⟨uncut, below⟩, held⟩ := needs
    rw [uncut] at stored quiet
    simp only [Bool.false_eq_true, false_or] at stored quiet
    exact silent ⟨uncut, by omega, by omega⟩
  have past : s.settings.ceiling l < (received f bs n).bytes.length + 1 := by
    unfold received; rw [List.length_append]; omega
  rw [feed_concat fed (setFrame_reception ..)]
  have ends := takeByte_past (s := setFrame l (received f bs n) s) past b (.inl noBlock)
  have ended := endOversize_ended l (received f bs n) (setFrame l (received f bs n) s)
  rw [← ends, setFrame_counters] at ended
  exact ended.ofSetFrame

include capturing in
/-- The last byte asks and passes: which comes first is open. -/
theorem feed_past_asks (full : f.bytes.length + bs.length = s.settings.ceiling l) (uncut : f.cut = false)
    (held : f.stored + bs.length = 128 * f.blocks) (below : f.stored + bs.length < s.settings.captureLen l)
    (b : Byte) : ∃ k low, EndedOversize l s f.blocks k low (feed l (bs ++ [b]) s)
      ∧ (low = s.path.store.lowWater ∨ low = min s.path.store.lowWater (s.path.store.free - 1))
      ∧ (0 < s.path.store.free → k = countOversize (s.lines[l]).counters)
      ∧ (s.path.store.free = 0 → low = s.path.store.lowWater ∧ (k = countOversize (s.lines[l]).counters
          ∨ k = { countOversize (s.lines[l]).counters with cut := countUp (s.lines[l]).counters.cut })) := by
  rw [feed_concat_stored capturing uncut (Nat.le_of_eq held) (Nat.le_of_lt below) (Nat.le_of_eq full) b]
  have past : (setFrame l (received f bs (f.stored + bs.length)) s).settings.ceiling l <
      (received f bs (f.stored + bs.length)).bytes.length + 1 := by
    unfold received
    rw [List.length_append]
    exact Nat.lt_succ_of_le (Nat.le_of_eq full.symm)
  have asks : Asks ((setFrame l (received f bs (f.stored + bs.length)) s).settings.captureLen l)
      (received f bs (f.stored + bs.length)) := ⟨uncut, held, below⟩
  have counters := setFrame_counters (l := l) (s := s) (received f bs (f.stored + bs.length))
  cases first : Config.oversizeFirst s.path.draws with
  | true =>
    have ends := takeByte_past (s := setFrame l (received f bs (f.stored + bs.length)) s) past b (.inr first)
    have ended := endOversize_ended l (received f bs (f.stored + bs.length))
      (setFrame l (received f bs (f.stored + bs.length)) s)
    rw [← ends, counters] at ended
    exact ⟨_, _, ended.ofSetFrame, .inl rfl, fun _ => rfl, fun _ => ⟨rfl, .inl rfl⟩⟩
  | false =>
    rcases Nat.eq_zero_or_pos s.path.store.free with none | room
    · have ended := takeByte_past_cut past b asks first none
      rw [counters] at ended
      exact ⟨_, _, ended.ofSetFrame, .inl rfl, fun room => absurd none (Nat.pos_iff_ne_zero.1 room),
        fun _ => ⟨rfl, .inr rfl⟩⟩
    · have ended := takeByte_past_granted past b asks first room
      rw [counters] at ended
      exact ⟨_, _, ended.ofSetFrame, .inr rfl, fun _ => rfl, fun none => absurd none (Nat.pos_iff_ne_zero.1 room)⟩

end

end State

open State

/-- Settles O55: every byte but the last is stored in the blocks held, and the last asks, passes, or does both. -/
theorem bytesAskForBlocksAndPassTheCeiling : Obligations.BytesAskForBlocksAndPassTheCeiling := by
  unfold Obligations.BytesAskForBlocksAndPassTheCeiling
  intro l f bs b s running capturing
  refine ⟨fun uncut full below ceiling => ?_, fun full quiet => ?_⟩
  · have fed := feed_concat_stored capturing uncut (Nat.le_of_eq full) (Nat.le_of_lt below) (by omega) b
    have asks : Asks (s.settings.captureLen l) (received f bs (f.stored + bs.length)) := ⟨uncut, full, below⟩
    obtain ⟨others, merge, granted, refused⟩ := takeByte_asks (s := setFrame l (received f bs (f.stored + bs.length)) s)
      asks (by unfold received; rw [List.length_append]; exact ceiling) b fed.symm
    rw [setFrame_get, if_pos rfl] at granted refused
    refine ⟨_, answer_of_running _ running, fun k other => ?_, ?_, fun room => ?_, fun none => ?_⟩
    · exact (others k other).trans ((setFrame_get ..).trans (if_neg other))
    · rw [served_merge]; exact merge
    · rw [served_store]; exact granted room
    · rw [served_store]; exact refused none
  · intro asks k counted
    refine ⟨_, answer_of_running _ running, ?_⟩
    by_cases last : asks
    · obtain ⟨uncut, held, below⟩ := id last
      obtain ⟨k', low, ended, lowWater, room, none⟩ := feed_past_asks capturing full uncut held below b
      have t := ended.served
      refine ⟨t.others, ?_, fun free => ?_, fun _ empty => ?_, t.inFlight, t.othersInFlight, t.downstream, t.free,
        fun free => ?_, fun _ => ?_⟩
      · rw [t.port]
      · rw [t.port]; exact room (free.resolve_left (not_not_intro last))
      · rw [t.port]; exact (none empty).2
      · rw [t.lowWater]; exact (none (free.resolve_left (not_not_intro last))).1
      · rw [t.lowWater]; exact lowWater
    · have t := (feed_past_quiet capturing full quiet last b).served
      refine ⟨t.others, ?_, fun _ => ?_, fun asked => absurd asked last, t.inFlight, t.othersInFlight, t.downstream,
        t.free, fun _ => t.lowWater, fun asked => absurd asked last⟩
      · rw [t.port]
      · rw [t.port]; rfl

end Sys2Proof.Machine
end

section
/-!
SUPPORT. The end of a frame (R78, R79, R90, R97, R104 to R107): the bytes fed, the verdict on the frame, and what each
verdict leaves of the port and of the merge.
-/
namespace Sys2Proof.Machine

namespace Path

/-! ## The pending set (R104, R105, R106) -/

/-- A record stands behind those that are not later. -/
theorem insertPending_eq (r : Classified) (l : List Classified) : insertPending r l =
    l.takeWhile (fun g => !r.key.earlier g.key) ++ r :: l.dropWhile (fun g => !r.key.earlier g.key) := by
  induction l with
  | nil => rfl
  | cons g l ih =>
    unfold insertPending
    cases later : r.key.earlier g.key with
    | true =>
      rw [if_pos rfl, List.takeWhile_cons_of_neg (by simp [later]), List.dropWhile_cons_of_neg (by simp [later])]
      rfl
    | false =>
      rw [if_neg Bool.false_ne_true, List.takeWhile_cons_of_pos (by simp [later]),
        List.dropWhile_cons_of_pos (by simp [later]), ih]
      rfl

theorem dropFrame_pending (e : Env) (l : Line) (n : Nat) (p : Path) : (dropFrame e l n p).merge.pending =
    p.merge.pending.dropWhile (releasable (leaveInFlight l p).inFlightKeys) := by
  unfold dropFrame
  rw [releaseAndOffer_merge]
  rfl

theorem arrive_full {e : Env} {f : Classified} {p : Path} (full : 512 ≤ p.merge.pending.length) :
    arrive e f p = dropFrame e f.line f.blocks p := by
  have closed : p.pendingFull = true := decide_eq_true full
  unfold arrive
  dsimp only
  rw [closed, if_pos rfl]
  rfl

theorem arrive_open {e : Env} {f : Classified} {p : Path} (room : p.merge.pending.length < 512) :
    arrive e f p = releaseAndOffer e (leaveInFlight f.line (addPending f p)) := by
  have opened : p.pendingFull = false := decide_eq_false (Nat.not_le.2 room)
  unfold arrive
  dsimp only
  rw [opened, if_neg Bool.false_ne_true]

theorem arrive_pending {e : Env} {f : Classified} {p : Path} (room : p.merge.pending.length < 512) :
    (arrive e f p).merge.pending =
      (insertPending f p.merge.pending).dropWhile (releasable (leaveInFlight f.line p).inFlightKeys) := by
  rw [arrive_open room, releaseAndOffer_merge]
  rfl

end Path

namespace State

/-! ## What the bytes of a frame leave (R76, R77) -/

/-- From `s` to `t` line `l` has received: its state and the other ports, the clock and the settings stay. -/
structure Receives (l : Line) (s t : State) : Prop where
  others : ∀ k : Line, k ≠ l → t.lines[k] = s.lines[k]
  state : (t.lines[l]).state = (s.lines[l]).state
  stamp : SameStamp s t

theorem Receives.refl (l : Line) (s : State) : Receives l s s := ⟨fun _ _ => rfl, rfl, .refl s⟩

theorem Receives.trans {l : Line} {s t u : State} (h : Receives l s t) (k : Receives l t u) : Receives l s u :=
  ⟨fun j other => (k.others j other).trans (h.others j other), k.state.trans h.state, h.stamp.trans k.stamp⟩

theorem modPath_receives (l : Line) (f : Env → Path → Path) (s : State) : Receives l s (modPath f s) :=
  ⟨fun _ _ => rfl, rfl, ⟨rfl, rfl, rfl⟩⟩

theorem modLine_receives (l : Line) {f : LinePort → LinePort} (s : State)
    (keeps : ∀ p : LinePort, (f p).state = p.state) : Receives l s (modLine l f s) where
  others k other := (modLine_get l k f s).trans (if_neg other)
  state := by rw [modLine_get, if_pos rfl, keeps]
  stamp := ⟨rfl, rfl, rfl⟩

theorem modLineCounters_receives (l : Line) (f : LineCounters → LineCounters) (s : State) :
    Receives l s (modLineCounters l f s) := modLine_receives l s fun _ => rfl

theorem setFrame_receives (l : Line) (f : PortFrame) (s : State) : Receives l s (setFrame l f s) :=
  modLine_receives l s fun _ => rfl

theorem storeByte_receives (l : Line) (f : PortFrame) (b : Byte) (s : State) : Receives l s (storeByte l f b s) := by
  unfold storeByte
  dsimp only
  split
  · exact setFrame_receives l _ s
  · split
    · split
      · exact (modPath_receives l _ s).trans (setFrame_receives l _ _)
      · exact (setFrame_receives l _ s).trans (modLineCounters_receives l _ _)
    · exact setFrame_receives l _ s

theorem endOversize_receives (l : Line) (f : PortFrame) (s : State) : Receives l s (endOversize l f s) := by
  unfold endOversize
  have skipping := modLine_receives l (f := fun p => { p with reception := .skipping }) s fun _ => rfl
  exact (skipping.trans (modLineCounters_receives l _ _)).trans (modPath_receives l _ _)

theorem takeByte_receives (l : Line) (f : PortFrame) (b : Byte) (s : State) : Receives l s (takeByte l f b s) := by
  have stores := storeByte_receives l f b s.drawn
  have drawn : Receives l s s.drawn := ⟨fun _ _ => rfl, rfl, ⟨rfl, rfl, rfl⟩⟩
  unfold takeByte
  split
  · split
    · show Receives l s (match ((storeByte l f b s.drawn).lines[l]).reception with
        | .capturing f1 => endOversize l f1 (storeByte l f b s.drawn)
        | .idle => storeByte l f b s.drawn
        | .skipping => storeByte l f b s.drawn)
      split
      · exact (drawn.trans stores).trans (endOversize_receives l _ _)
      · exact drawn.trans stores
      · exact drawn.trans stores
    · exact endOversize_receives l f s
  · exact storeByte_receives l f b s

theorem feed_receives (l : Line) (bs : List Byte) (s : State) : Receives l s (feed l bs s) := by
  induction bs generalizing s with
  | nil => exact .refl l s
  | cons b bs ih =>
    by_cases capturing : ∃ f, (s.lines[l]).reception = .capturing f
    · obtain ⟨f, frame⟩ := capturing
      rw [feed_cons frame]
      exact (takeByte_receives l f b s).trans (ih _)
    · rw [feed_stopped (not_exists.1 capturing)]
      exact .refl l s

/-! ## What the end of a frame leaves (R79, R106, R107) -/

/-- In `t` the frame of line `l` in `s` has ended: `k` are the line's counters, and of the set `pending` the records
are left that something in flight holds back. -/
structure FrameEnded (l : Line) (s : State) (k : LineCounters) (pending : List Classified) (t : State) : Prop where
  others : ∀ j : Line, j ≠ l → t.lines[j] = s.lines[j]
  port : t.lines[l] = { s.lines[l] with reception := .idle, counters := k }
  inFlight : t.path.merge.inFlight[l] = none
  othersInFlight : ∀ j : Line, j ≠ l → t.path.merge.inFlight[j] = s.path.merge.inFlight[j]
  pending : t.path.merge.pending = pending.dropWhile (Path.releasable (Path.leaveInFlight l s.path).inFlightKeys)

theorem FrameEnded.served {l : Line} {s t : State} {k : LineCounters} {pending : List Classified}
    (h : FrameEnded l s k pending t) : FrameEnded l s k pending t.served where
  others := h.others
  port := h.port
  inFlight := by rw [served_merge]; exact h.inFlight
  othersInFlight := by rw [served_merge]; exact h.othersInFlight
  pending := by rw [served_merge]; exact h.pending

/-- The port is idle and its counters change. -/
def idled (l : Line) (f : LineCounters → LineCounters) (s : State) : State :=
  modLineCounters l f (modLine l (fun p => { p with reception := .idle }) s)

theorem idled_get (l k : Line) (f : LineCounters → LineCounters) (s : State) : (idled l f s).lines[k] =
    if k = l then { s.lines[l] with reception := .idle, counters := f (s.lines[l]).counters } else s.lines[k] := by
  unfold idled
  rw [modLineCounters_get, modLine_get, modLine_get]
  by_cases same : k = l
  · rw [if_pos same, if_pos same, if_pos rfl]
  · rw [if_neg same, if_neg same, if_neg same]

theorem modLineCounters_idled (l : Line) (f g : LineCounters → LineCounters) (s : State) :
    modLineCounters l g (idled l f s) = idled l (fun k => g (f k)) s := by
  unfold idled modLineCounters modLine updAt
  simp only [Vector.set_set]
  congr 1
  simp

/-- A frame that is discarded: counted, its blocks returned, its place in flight left. -/
theorem discard_ended {l : Line} {f : LineCounters → LineCounters} {n : Nat} {s u : State}
    (lines : u.lines = (idled l f s).lines) (merge : u.path.merge = s.path.merge) :
    FrameEnded l s (f (s.lines[l]).counters) s.path.merge.pending (modPath (fun e => Path.dropFrame e l n) u) where
  others j other := by rw [modPath_get, lines, idled_get, if_neg other]
  port := by rw [modPath_get, lines, idled_get, if_pos rfl]
  inFlight := (Path.dropFrame_inFlight u.env l l n u.path).trans (if_pos rfl)
  othersInFlight j other := (Path.dropFrame_inFlight u.env l j n u.path).trans ((if_neg other).trans (by rw [merge]))
  pending := by
    have keys : (Path.leaveInFlight l u.path).inFlightKeys = (Path.leaveInFlight l s.path).inFlightKeys :=
      Path.inFlightKeys_congr (by unfold Path.leaveInFlight; rw [merge])
    exact (Path.dropFrame_pending u.env l n u.path).trans (by rw [keys, merge])

/-- A frame whose record is taken into the pending set. -/
theorem arrive_ended {l : Line} {f : LineCounters → LineCounters} {r : Classified} {s u : State} (line : r.line = l)
    (lines : u.lines = (idled l f s).lines) (merge : u.path.merge = s.path.merge)
    (room : s.path.merge.pending.length < 512) :
    FrameEnded l s (f (s.lines[l]).counters) (insertPending r s.path.merge.pending)
      (modPath (fun e => Path.arrive e r) u) where
  others j other := by rw [modPath_get, lines, idled_get, if_neg other]
  port := by rw [modPath_get, lines, idled_get, if_pos rfl]
  inFlight := (Path.arrive_inFlight u.env r l u.path).trans (if_pos line.symm)
  othersInFlight j other :=
    (Path.arrive_inFlight u.env r j u.path).trans ((if_neg (by rw [line]; exact other)).trans (by rw [merge]))
  pending := by
    have keys : (Path.leaveInFlight l u.path).inFlightKeys = (Path.leaveInFlight l s.path).inFlightKeys :=
      Path.inFlightKeys_congr (by unfold Path.leaveInFlight; rw [merge])
    have taken := Path.arrive_pending (e := u.env) (f := r) (p := u.path) (by rw [merge]; exact room)
    rw [line, keys, merge] at taken
    exact taken

/-- The counters of the verdicts. -/
def countRunts (k : LineCounters) : LineCounters := { k with runts := countUp k.runts }

def countFcs (k : LineCounters) : LineCounters := { k with fcsErrors := countUp k.fcsErrors }

def countCaptured (k : LineCounters) : LineCounters := { k with captured := countUp k.captured }

def countUnmatched (k : LineCounters) : LineCounters := { k with unmatched := countUp k.unmatched }

def countMergeFull (k : LineCounters) : LineCounters := { k with mergeFull := countUp k.mergeFull }

/-! ## The verdict on a frame (R78, R79, R90, R97, R104, R105) -/

section
variable {l : Line} {f : PortFrame} {clean : Bool} {s : State}
  (capturing : (s.lines[l]).reception = .capturing f)
include capturing

theorem frameEndAt_capturing : frameEndAt l clean s =
    if f.bytes.length < 64 then
      modPath (fun e => Path.dropFrame e l f.blocks) (idled l countRunts s)
    else if !clean || !fcsPasses f.bytes then
      modPath (fun e => Path.dropFrame e l f.blocks) (idled l countFcs s)
    else goodFrame l f (modLine l (fun p => { p with reception := .idle }) s) := by
  unfold frameEndAt
  rw [capturing]
  rfl

theorem frameEndAt_runt (short : f.bytes.length < 64) : frameEndAt l clean s =
    modPath (fun e => Path.dropFrame e l f.blocks) (idled l countRunts s) :=
  (frameEndAt_capturing capturing).trans (if_pos short)

theorem frameEndAt_broken (long : 64 ≤ f.bytes.length) (broken : clean = false ∨ fcsPasses f.bytes = false) :
    frameEndAt l clean s = modPath (fun e => Path.dropFrame e l f.blocks)
      (idled l countFcs s) := by
  rw [frameEndAt_capturing capturing, if_neg (Nat.not_lt.2 long), if_pos]
  rcases broken with h | h <;> rw [h] <;> simp

theorem frameEndAt_good (long : 64 ≤ f.bytes.length) (unbroken : clean = true) (passes : fcsPasses f.bytes = true) :
    frameEndAt l clean s = goodFrame l f (modLine l (fun p => { p with reception := .idle }) s) := by
  rw [frameEndAt_capturing capturing, if_neg (Nat.not_lt.2 long), if_neg]
  rw [unbroken, passes]; simp

end

section
variable {l : Line} {f : PortFrame} {s : State} {r : Classified}

/-- A good frame once CAPTURED is counted. -/
def counted (l : Line) (s : State) : State := idled l countCaptured s

/-- And once the blocks that the trim frees have returned. -/
def trimmed (l : Line) (n : Nat) (s : State) : State := modPath (fun _ => Path.returnBlocks n) (counted l s)

/-- The frame as the classifier sees it: the port is idle, and CAPTURED counted. -/
theorem goodFrame_eq (l : Line) (f : PortFrame) (s : State) :
    goodFrame l f (modLine l (fun p => { p with reception := .idle }) s) =
      match classify s.settings l (s.lines[l]).legB f with
      | some r =>
        modPath (fun e => Path.arrive e r)
          (if (trimmed l (f.blocks - r.blocks) s).path.pendingFull then
            modLineCounters l countMergeFull (trimmed l (f.blocks - r.blocks) s)
          else trimmed l (f.blocks - r.blocks) s)
      | none =>
        modPath (fun e => Path.dropFrame e l f.blocks)
          (modLineCounters l countUnmatched (counted l s)) := by
  have leg : ((modLine l (fun p => { p with reception := .idle }) s).lines[l]).legB = (s.lines[l]).legB := by
    rw [modLine_get, if_pos rfl]
  unfold goodFrame
  rw [leg]
  rfl

theorem goodFrame_unmatched (unmatched : classify s.settings l (s.lines[l]).legB f = none) :
    goodFrame l f (modLine l (fun p => { p with reception := .idle }) s) =
      modPath (fun e => Path.dropFrame e l f.blocks)
        (modLineCounters l countUnmatched (counted l s)) := by
  rw [goodFrame_eq, unmatched]

theorem goodFrame_full (matched : classify s.settings l (s.lines[l]).legB f = some r)
    (full : 512 ≤ s.path.merge.pending.length) :
    goodFrame l f (modLine l (fun p => { p with reception := .idle }) s) =
      modPath (fun e => Path.dropFrame e l r.blocks)
        (modLineCounters l countMergeFull (trimmed l (f.blocks - r.blocks) s)) := by
  have closed : (trimmed l (f.blocks - r.blocks) s).path.pendingFull = true := decide_eq_true full
  have line := (classify_line _ _ _ _ matched).1
  rw [goodFrame_eq, matched]
  dsimp only
  rw [closed, if_pos rfl]
  have refused : ∀ u : State, 512 ≤ u.path.merge.pending.length →
      modPath (fun e => Path.arrive e r) u = modPath (fun e => Path.dropFrame e l r.blocks) u := fun u held => by
    unfold modPath; dsimp only; rw [Path.arrive_full held, line]
  exact refused _ full

theorem goodFrame_taken (matched : classify s.settings l (s.lines[l]).legB f = some r)
    (room : s.path.merge.pending.length < 512) :
    goodFrame l f (modLine l (fun p => { p with reception := .idle }) s) =
      modPath (fun e => Path.arrive e r) (trimmed l (f.blocks - r.blocks) s) := by
  have opened : (trimmed l (f.blocks - r.blocks) s).path.pendingFull = false := decide_eq_false (Nat.not_le.2 room)
  rw [goodFrame_eq, matched]
  dsimp only
  rw [opened, if_neg Bool.false_ne_true]

end

/-! ## The end of a captured frame, by its verdict -/

section
variable {l : Line} {f : PortFrame} {clean : Bool} {s : State} {r : Classified}
  (capturing : (s.lines[l]).reception = .capturing f)
include capturing

theorem runt_ends (short : f.bytes.length < 64) : FrameEnded l s
    (countRunts (s.lines[l]).counters) s.path.merge.pending
    (frameEndAt l clean s) := by
  rw [frameEndAt_runt capturing short]
  exact discard_ended (f := countRunts) rfl rfl

theorem broken_ends (long : 64 ≤ f.bytes.length) (broken : clean = false ∨ fcsPasses f.bytes = false) :
    FrameEnded l s (countFcs (s.lines[l]).counters)
      s.path.merge.pending (frameEndAt l clean s) := by
  rw [frameEndAt_broken capturing long broken]
  exact discard_ended (f := countFcs) rfl rfl

variable (long : 64 ≤ f.bytes.length) (unbroken : clean = true) (passes : fcsPasses f.bytes = true)
include long unbroken passes

theorem unmatched_ends (unmatched : classify s.settings l (s.lines[l]).legB f = none) : FrameEnded l s
    (countUnmatched (countCaptured (s.lines[l]).counters))
    s.path.merge.pending (frameEndAt l clean s) := by
  rw [frameEndAt_good capturing long unbroken passes, goodFrame_unmatched unmatched]
  unfold counted
  rw [modLineCounters_idled]
  exact discard_ended (f := fun k => countUnmatched (countCaptured k)) rfl rfl

theorem full_ends (matched : classify s.settings l (s.lines[l]).legB f = some r)
    (full : 512 ≤ s.path.merge.pending.length) : FrameEnded l s
    (countMergeFull (countCaptured (s.lines[l]).counters))
    s.path.merge.pending (frameEndAt l clean s) := by
  rw [frameEndAt_good capturing long unbroken passes, goodFrame_full matched full]
  have lines : (modLineCounters l countMergeFull
      (trimmed l (f.blocks - r.blocks) s)).lines =
      (modLineCounters l countMergeFull (counted l s)).lines := rfl
  unfold counted at lines
  rw [modLineCounters_idled] at lines
  exact discard_ended (f := fun k => countMergeFull (countCaptured k)) lines rfl

theorem taken_ends (matched : classify s.settings l (s.lines[l]).legB f = some r)
    (room : s.path.merge.pending.length < 512) : FrameEnded l s
    (countCaptured (s.lines[l]).counters)
    (insertPending r s.path.merge.pending) (frameEndAt l clean s) := by
  rw [frameEndAt_good capturing long unbroken passes, goodFrame_taken matched room]
  exact arrive_ended (f := countCaptured) (classify_line _ _ _ _ matched).1 rfl rfl room

theorem taken_peak (matched : classify s.settings l (s.lines[l]).legB f = some r)
    (room : s.path.merge.pending.length < 512) :
    (frameEndAt l clean s).path.merge.peak = max s.path.merge.peak (s.path.merge.pending.length + 1) := by
  rw [frameEndAt_good capturing long unbroken passes, goodFrame_taken matched room]
  exact (arrive_peak _ r _).trans (if_pos room)

end

end State

end Sys2Proof.Machine
end

section
/-!
SUPPORT. FRAME_END over all verdicts (R78, R79, R97, R104 to R107).
-/
namespace Sys2Proof.Machine

namespace State

section
variable {l : Line} {clean : Bool} {s : State}

/-- The end of a captured frame, whatever the verdict: the records that wait are those of the set before, or with the
frame's own record among them. -/
theorem frameEndAt_ended {f : PortFrame} (capturing : (s.lines[l]).reception = .capturing f) :
    ∃ k pending, FrameEnded l s k pending (frameEndAt l clean s) := by
  by_cases short : f.bytes.length < 64
  · exact ⟨_, _, runt_ends capturing short⟩
  have long := Nat.not_lt.1 short
  by_cases broken : clean = false ∨ fcsPasses f.bytes = false
  · exact ⟨_, _, broken_ends capturing long broken⟩
  obtain ⟨unbroken, passes⟩ : clean = true ∧ fcsPasses f.bytes = true := by
    simpa only [not_or, Bool.not_eq_false] using broken
  cases verdict : classify s.settings l (s.lines[l]).legB f with
  | none => exact ⟨_, _, unmatched_ends capturing long unbroken passes verdict⟩
  | some r =>
    rcases Nat.lt_or_ge s.path.merge.pending.length 512 with room | full
    · exact ⟨_, _, taken_ends capturing long unbroken passes verdict room⟩
    · exact ⟨_, _, full_ends capturing long unbroken passes verdict full⟩

/-- The verdicts that leave the pending set without a record of the frame. -/
theorem frameEndAt_discards {f : PortFrame} (capturing : (s.lines[l]).reception = .capturing f)
    (discarded : f.bytes.length < 64 ∨ clean = false ∨ fcsPasses f.bytes = false
      ∨ classify s.settings l (s.lines[l]).legB f = none ∨ s.path.merge.pending.length = 512) :
    ∃ k, FrameEnded l s k s.path.merge.pending (frameEndAt l clean s) := by
  by_cases short : f.bytes.length < 64
  · exact ⟨_, runt_ends capturing short⟩
  have long := Nat.not_lt.1 short
  by_cases broken : clean = false ∨ fcsPasses f.bytes = false
  · exact ⟨_, broken_ends capturing long broken⟩
  obtain ⟨unbroken, passes⟩ : clean = true ∧ fcsPasses f.bytes = true := by
    simpa only [not_or, Bool.not_eq_false] using broken
  cases verdict : classify s.settings l (s.lines[l]).legB f with
  | none => exact ⟨_, unmatched_ends capturing long unbroken passes verdict⟩
  | some r =>
    have full : s.path.merge.pending.length = 512 := by
      rw [verdict, unbroken, passes] at discarded
      simpa [short] using discarded
    exact ⟨_, full_ends capturing long unbroken passes verdict (Nat.le_of_eq full.symm)⟩

/-- Where no frame is captured the end only makes the port idle. -/
theorem frameEndAt_free (free : ∀ f, (s.lines[l]).reception ≠ .capturing f) :
    Receives l s (frameEndAt l clean s) ∧ ((frameEndAt l clean s).lines[l]).reception = .idle
      ∧ ((frameEndAt l clean s).lines[l]).counters = (s.lines[l]).counters
      ∧ (frameEndAt l clean s).path.merge = s.path.merge := by
  unfold frameEndAt
  cases reception : (s.lines[l]).reception with
  | idle => exact ⟨.refl l s, reception, rfl, rfl⟩
  | skipping =>
    dsimp only
    exact ⟨modLine_receives l s fun _ => rfl, by rw [modLine_get, if_pos rfl], by rw [modLine_get, if_pos rfl], rfl⟩
  | capturing f => exact absurd reception (free f)

/-- What every frame end leaves of the ports. -/
theorem frameEndAt_port : ((frameEndAt l clean s).lines[l]).reception = .idle
    ∧ ((frameEndAt l clean s).lines[l]).state = (s.lines[l]).state
    ∧ ∀ j : Line, j ≠ l → (frameEndAt l clean s).lines[j] = s.lines[j] := by
  by_cases captured : ∃ f, (s.lines[l]).reception = .capturing f
  · obtain ⟨f, capturing⟩ := captured
    obtain ⟨k, pending, ended⟩ := frameEndAt_ended (clean := clean) capturing
    rw [ended.port]
    exact ⟨rfl, rfl, ended.others⟩
  · obtain ⟨receives, idle, _⟩ := frameEndAt_free (clean := clean) (not_exists.1 captured)
    exact ⟨idle, receives.state, receives.others⟩

end

end State

open State

/-- Settles O56, by the verdict on the frame as its last bytes leave it. -/
theorem frameEndJudgesInOrder : Obligations.FrameEndJudgesInOrder := by
  unfold Obligations.FrameEndJudgesInOrder
  intro l bytes clean s running s1 p k keys leaves
  have fed : Receives l s s1 := feed_receives l bytes s
  have ends : exec (.frameEnd l bytes clean) s = .next (frameEndAt l clean s1).served := answer_of_running _ running
  have settings : s.settings = s1.settings := fed.stamp.settings.symm
  obtain ⟨idle, state, others⟩ := frameEndAt_port (l := l) (clean := clean) (s := s1)
  refine ⟨_, ends, idle, state.trans fed.state, fun j other => (others j other).trans (fed.others j other),
    fun free => ?_, fun f capturing => ?_⟩
  · obtain ⟨_, _, counters, merge⟩ := frameEndAt_free (clean := clean) free
    refine ⟨counters, ?_⟩
    rw [served_merge]; exact merge
  · obtain ⟨_, _, ended⟩ := frameEndAt_ended (clean := clean) capturing
    rw [settings, served_lines]
    refine ⟨ended.served.inFlight, ended.served.othersInFlight, fun discarded => ?_, fun short => ?_,
      fun long broken => ?_, fun long unbroken passes verdict => ?_, fun r long unbroken passes verdict full => ?_,
      fun r long unbroken passes verdict room => ?_⟩
    · obtain ⟨_, discards⟩ := frameEndAt_discards capturing discarded
      exact discards.served.pending
    · rw [(runt_ends capturing short).port]; rfl
    · rw [(broken_ends capturing long broken).port]; rfl
    · rw [(unmatched_ends capturing long unbroken passes verdict).port]; rfl
    · rw [(full_ends capturing long unbroken passes verdict (Nat.le_of_eq full.symm)).port]; rfl
    · have taken := taken_ends capturing long unbroken passes verdict room
      rw [taken.port, served_merge, taken_peak capturing long unbroken passes verdict room, taken.pending,
        Path.insertPending_eq]
      exact ⟨rfl, rfl, rfl⟩

end Sys2Proof.Machine
end

section
/-!
SUPPORT. GAP_DECLARATION (R110, R116, R128, R129): the horizon offered, one declaration, and the same made again.
-/
namespace Sys2Proof.Machine

namespace Path

theorem raiseTime_of_le {t : Nat} {p : Path} (reached : t ≤ p.arb.time) : raiseTime t p = p := by
  unfold raiseTime
  rw [max_eq_left reached]

theorem horizon_congr (now : Nat) {p q : Path} (same : p.merge = q.merge) : horizon now p = horizon now q := by
  have keys : p.inFlightKeys = q.inFlightKeys := inFlightKeys_congr (by rw [same])
  unfold horizon
  rw [keys, same]

/-- A window that tracks, with a deadline before `t`. -/
theorem passed_of_deadline {w : SeqWindow} {d t : Nat} (tracking : w.tracking = true) (deadline : w.deadline = some d)
    (before : d < t) : w.passed t = true := by
  unfold SeqWindow.passed
  rw [tracking, deadline]
  exact decide_eq_true before

theorem not_passed_of_deadline {w : SeqWindow} {t : Nat}
    (present : w.deadline = none ∨ ∃ d, w.deadline = some d ∧ t ≤ d) : w.passed t = false := by
  unfold SeqWindow.passed
  rcases present with absent | ⟨d, deadline, after⟩
  · rw [absent, Bool.and_false]
  · rw [deadline]
    show (w.tracking && decide (d < t)) = false
    rw [decide_eq_false (Nat.not_lt.2 after), Bool.and_false]

end Path

namespace State

/-- The path once the horizon of this instant is offered. -/
def offeredPath (s : State) : Path := Path.raiseTime (Path.horizon s.now s.path) s.path

theorem offeredPath_eq (s : State) :
    s.offeredPath = { s.path with arb := { s.path.arb with time := s.offeredTime } } := rfl

section
variable {st : Stream} {s : State} (running : s.resetLow = false)
include running

theorem gapDeclaration_eq : exec (.gapDeclaration st) s =
    .next { s with path := Path.serve s.env (Path.declareWindow s.env st s.offeredPath) } :=
  answer_of_running _ running

/-- From a path that differs in what a declaration of this instant changes, the command goes on from there. -/
theorem gapDeclaration_from {q : Path} (merge : q.merge = s.path.merge) (time : q.arb.time = s.offeredTime) :
    exec (.gapDeclaration st) { s with path := q } =
      .next { s with path := Path.serve s.env (Path.declareWindow s.env st q) } := by
  have horizon : Path.horizon s.now q ≤ q.arb.time := by
    rw [Path.horizon_congr s.now merge, time]; exact Nat.le_max_right _ _
  have offered : ({ s with path := q } : State).offeredPath = q := Path.raiseTime_of_le horizon
  rw [gapDeclaration_eq (s := { s with path := q }) running, offered]
  rfl

end

/-! ## One declaration (R128) -/

/-- The path once the window of a stream has declared a run of `lost` numbers in a GAP record. -/
def gapTold (s : State) (st : Stream) (v : SeqWindow) (gap : Record) (lost : Nat) : Path :=
  Path.offer s.env (s.settings.channelOf st) gap
    { s.path with arb := { s.path.arb with
        time := s.offeredTime
        windows := updAt s.path.arb.windows st (fun _ => v)
        counters := updAt s.path.arb.counters st
          (fun x => { x with lost := addSat x.lost lost, gaps := countUp x.gaps }) } }

section
variable {st : Stream} {s : State} {d k h : Nat}

theorem declareOnce_offered (deadline : (s.path.arb.windows[st]).deadline = some d)
    (since : (s.path.arb.windows[st]).holeSince = some h)
    (lowest : SeqWindow.firstAhead (s.settings.seqBits st) s.path.arb.windows[st] = some k) :
    Path.declareOnce s.env st s.offeredPath =
      s.gapTold st (SeqWindow.declared (s.settings.seqBits st) d k s.path.arb.windows[st])
        (.gap st (s.path.arb.windows[st]).n k h d (oneLegged s.settings s.path.arb.view st)) k := by
  rw [Path.declareOnce_eq (e := s.env) (p := s.offeredPath) deadline lowest]
  unfold gapTold
  show Path.offer s.env (s.settings.channelOf st)
    (.gap st (s.path.arb.windows[st]).n k ((s.path.arb.windows[st]).holeSince.getD 0) d
      (oneLegged s.settings s.path.arb.view st)) _ = _
  rw [since]
  rfl

/-- A declaration and the command made again are the command (R129). -/
theorem gapDeclaration_again (running : s.resetLow = false) (width : SeqWindow.Width (s.settings.seqBits st))
    (tracking : (s.path.arb.windows[st]).tracking = true) (law : (s.path.arb.windows[st]).Law (s.settings.seqBits st))
    (deadline : (s.path.arb.windows[st]).deadline = some d) (before : d < s.offeredTime)
    (since : (s.path.arb.windows[st]).holeSince = some h)
    (lowest : SeqWindow.firstAhead (s.settings.seqBits st) s.path.arb.windows[st] = some k) :
    exec (.gapDeclaration st) s = exec (.gapDeclaration st)
      { s with
        path := s.gapTold st (SeqWindow.declared (s.settings.seqBits st) d k s.path.arb.windows[st])
          (.gap st (s.path.arb.windows[st]).n k h d (oneLegged s.settings s.path.arb.view st)) k } := by
  have passed : (s.offeredPath.arb.windows[st]).passed s.offeredPath.arb.time = true :=
    Path.passed_of_deadline (w := s.path.arb.windows[st]) tracking deadline before
  have again := (Path.declareWindow_again width (e := s.env) rfl s.offeredPath fun _ => law).1 passed
  rw [gapDeclaration_eq running, again, declareOnce_offered deadline since lowest, gapDeclaration_from running]
  · unfold gapTold; rw [Path.offer_merge]
  · unfold gapTold; rw [Path.offer_arb]

end

end State

open State SeqWindow

/-- Settles O60: what a declaration makes of the window is `declared_slots`; with no passed deadline the horizon alone
is offered. -/
theorem gapDeclarationLosesTheRun : Obligations.GapDeclarationLosesTheRun := by
  unfold Obligations.GapDeclarationLosesTheRun
  intro st s running bits w isFirst told width tracking law
  have hb := width_of width
  refine ⟨fun d deadline before => ?_, fun present => ?_⟩
  · have passed := Path.passed_of_deadline tracking deadline before
    obtain ⟨d', k, _, _, same, _, lowest⟩ := Path.passed_first hb (fun _ => law) passed
    obtain rfl : d' = d := Option.some.inj (same.symm.trans deadline)
    obtain ⟨h, since⟩ : ∃ h, w.holeSince = some h := by
      obtain ⟨_, _, _, _, follows⟩ := law
      rw [follows] at deadline
      obtain ⟨h, since, _⟩ := Option.map_eq_some_iff.1 deadline
      exact ⟨h, since⟩
    have slot : ∀ i, SeqWindow.isFirst (w.slotAt (w.ahead bits i)) = SeqWindow.isFirst (w.off i) := fun i => by
      rw [ahead_off hb]
    obtain ⟨pos, far, found, below⟩ := firstAhead_some hb w lowest
    obtain ⟨lawful, timeout, tracks, j, next, top, run, stops, n, slots, hole, filled⟩ :=
      declared_slots hb w d' law lowest
    refine ⟨h, k, j, declared bits d' k w, since, pos, far, (slot k).trans found, fun i low high => ?_, next, top,
      fun i low high => (slot i).trans (run i low high), fun high => ?_, lawful, tracks.trans tracking, timeout, n,
      fun i low => ?_, fun ⟨i, low, high, first⟩ => hole ⟨i, low, high, (slot i).symm.trans first⟩,
      fun none => filled fun i low high => ?_, gapDeclaration_again running hb tracking law deadline before since lowest⟩
    · exact Bool.eq_false_iff.1 ((slot i).trans (below i low high))
    · exact Bool.eq_false_iff.1 ((slot j).trans (stops high))
    · have number : w.ahead bits i % 256 = (w.n + i) % 256 := hb.mod _
      rw [slotAt_congr _ number, slots i low, slotAt_congr w number]
    · exact (slot i).symm.trans (Bool.eq_false_iff.2 (none i low high))
  · have still : Path.declareWindow s.env st s.offeredPath = s.offeredPath :=
      Path.declareWindow_of_notPassed (Path.not_passed_of_deadline (w := w) present)
    have offers := gapDeclaration_eq (st := st) running
    rw [still] at offers
    refine ⟨_, offers, Path.serve_arb _ _, Path.serve_merge _ _, Path.serve_store _ _, Path.serve_writer _ _,
      fun c => ?_⟩
    have judged := Path.serve_get s.env c s.offeredPath
    obtain ⟨queue, tally, _⟩ := Path.judgedChan_fixed (s.offeredPath.busy c) s.offeredPath.chans[c]
    exact ⟨(congrArg Channel.queue judged).trans queue, (congrArg Channel.tally judged).trans tally,
      fun ready => judged.trans (Path.judgedChan_of_ready ready _)⟩

end Sys2Proof.Machine
end

section
/-!
SUPPORT. The naming of a numbered record (R120 to R126): where its number stands from N, what each name makes of the
window, and the law of the window kept.
-/
namespace Sys2Proof.Machine

namespace SeqWindow

/-! ## Where a number stands (R115, log 29) -/

section
variable {bits : Nat} (hb : Width bits) {w : SeqWindow} {s : Nat} (fits : s < 2 ^ bits) (start : w.n < 2 ^ bits)
include hb fits start

theorem number_at (now : modDist bits w.n s = 0) : s = w.n := by
  have number := ahead_of_modDist hb start fits (d := 0) now
  rwa [Nat.add_zero, Nat.mod_eq_of_lt start] at number

theorem number_ahead (low : 1 ≤ modDist bits w.n s) (high : modDist bits w.n s ≤ 127) :
    ∃ d, 1 ≤ d ∧ d ≤ 127 ∧ s % 256 = (w.n + d) % 256 := by
  have number := ahead_of_modDist hb start fits (d := (modDist bits w.n s).toNat) (by omega)
  refine ⟨(modDist bits w.n s).toNat, by omega, by omega, ?_⟩
  rw [number, hb.mod, ← number]

theorem number_behind (low : -128 ≤ modDist bits w.n s) (high : modDist bits w.n s ≤ -1) :
    ∃ d, 1 ≤ d ∧ d ≤ 128 ∧ (s + d) % 256 = w.n % 256 := by
  have number := behind_of_modDist hb start fits (d := (-modDist bits w.n s).toNat) (by omega) (by omega)
  exact ⟨(-modDist bits w.n s).toNat, by omega, by omega, number⟩

end

/-! ## A number behind N (R124) -/

section
variable {bits : Nat} (hb : Width bits) {w : SeqWindow} (law : w.Law bits) {s d : Nat}
include hb law

/-- A slot behind N may become anything. -/
theorem setSlot_behind_law (x : Slot) (low : 1 ≤ d) (high : d ≤ 128) (behind : (s + d) % 256 = w.n % 256) :
    (setSlot s x w).Law bits := by
  have same : ∀ i, i ≤ 127 → (setSlot s x w).off i = w.off i := fun i near => by
    show (setSlot s x w).slotAt (w.n + i) = _
    rw [setSlot_slotAt, if_neg (by omega)]
    rfl
  obtain ⟨n, now, ahead, hole, deadline⟩ := (law_iff hb w).1 law
  refine (law_iff hb _).2 ⟨n, (same 0 (by omega)).trans now, fun i near far => ?_, hole.trans ?_, deadline⟩
  · rw [same i far]; exact ahead i near far
  · constructor
    · rintro ⟨i, near, far, first⟩; exact ⟨i, near, far, by rw [same i far]; exact first⟩
    · rintro ⟨i, near, far, first⟩; exact ⟨i, near, far, by rw [← same i far]; exact first⟩

/-! ## A number ahead of N (R123) -/

/-- A FIRST ahead of N, with a hole open. -/
theorem markAhead_law (b : Bool) (t : Nat) (low : 1 ≤ d) (high : d ≤ 127) (place : s % 256 = (w.n + d) % 256) :
    (markAhead s b t w).Law bits := by
  have slots : ∀ i, i ≤ 127 → (markAhead s b t w).off i = if i = d then .first b t else w.off i := fun i near => by
    show (setSlot s (.first b t) w).slotAt (w.n + i) = _
    rw [setSlot_slotAt]
    by_cases same : i = d
    · rw [if_pos (by omega), if_pos same]
    · rw [if_neg (by omega), if_neg same]; rfl
  obtain ⟨n, now, ahead, _, _⟩ := (law_iff hb w).1 law
  refine (law_iff hb _).2 ⟨n, ?_, fun i near far => ?_, ⟨fun _ => ⟨d, low, high, ?_⟩, fun _ => rfl⟩, rfl⟩
  · rw [slots 0 (by omega), if_neg (by omega)]; exact now
  · rw [slots i far]
    split
    · exact .inr rfl
    · exact ahead i near far
  · rw [slots d high, if_pos rfl]; rfl

end

theorem setSlot_same (s : Nat) (x : Slot) (w : SeqWindow) : (setSlot s x w).slotAt s = x := by
  rw [setSlot_slotAt, if_pos rfl]

theorem markAhead_since (s : Nat) (b : Bool) (t : Nat) (w : SeqWindow) : (markAhead s b t w).holeSince =
    some (match w.holeSince with
      | some h => h
      | none => t) := by
  show some (w.holeSince.getD t) = _
  cases w.holeSince <;> rfl

/-! ## The number N (R122) -/

/-- The window once the slot at N is FIRST and N has moved past it and the FIRST slots that follow. -/
def ranOn (bits : Nat) (b : Bool) (t : Nat) (w : SeqWindow) : SeqWindow :=
  runOn bits 256 (stepN bits (setSlot w.n (.first b t) w))

theorem advance_since (bits : Nat) (b : Bool) (t : Nat) (w : SeqWindow) : (w.advance bits b t).holeSince =
    if (firstAhead bits (ranOn bits b t w)).isSome then some t else none := rfl

section
variable {bits : Nat} (hb : Width bits) (b : Bool) (t : Nat) (w : SeqWindow)
include hb

/-- Where N comes to: past `k` numbers, each FIRST before or by this record. -/
theorem ranOn_moved : ∃ k, 1 ≤ k ∧ k ≤ 128 ∧ Moved bits k (setSlot w.n (.first b t) w) (ranOn bits b t w)
    ∧ (∀ i, 1 ≤ i → i < k → isFirst (w.off i) = true) ∧ (k ≤ 127 → isFirst (w.off k) = false) := by
  have own : isFirst ((setSlot w.n (.first b t) w).off 0) = true := by
    rw [show (setSlot w.n (.first b t) w).off 0 = .first b t from setSlot_same w.n _ w]; rfl
  have still : Moved bits 0 (setSlot w.n (.first b t) w) (setSlot w.n (.first b t) w) :=
    ⟨rfl, fun i _ => by rw [if_neg (by omega)], rfl, rfl⟩
  obtain ⟨k, low, high, moved, first, stop⟩ := runOn_moved hb (setSlot w.n (.first b t) w) 256 1 _
    (still.step hb (by omega)) (by omega) (by omega) fun i near => by
      obtain rfl : i = 0 := by omega
      exact own
  refine ⟨k, low, high, moved, fun i near far => ?_, fun far => ?_⟩
  · rw [← setSlot_off (.first b t) w near (by omega)]; exact first i far
  · rw [← setSlot_off (.first b t) w low (by omega)]; exact stop far

end

/-- Behind the new N the slots stand as they were, and what it uncovers is UNSEEN. -/
theorem ranOn_off {bits k : Nat} (hb : Width bits) {b : Bool} {t : Nat} {w : SeqWindow}
    (moved : Moved bits k (setSlot w.n (.first b t) w) (ranOn bits b t w)) (pos : 1 ≤ k) {d : Nat}
    (low : 1 ≤ d) (high : d ≤ 127) (short : k ≤ 128) :
    (ranOn bits b t w).off d = if k + d ≤ 127 then w.off (k + d) else .unseen := by
  have place : (ranOn bits b t w).off d = (ranOn bits b t w).slotAt (w.n + (k + d)) :=
    slotAt_congr _ ((moved.n_mod hb d).trans (by rw [show (setSlot w.n (.first b t) w).n = w.n from rfl]; omega))
  have slots := moved.slots (k + d) (by omega)
  rw [show (setSlot w.n (.first b t) w).n = w.n from rfl] at slots
  rw [place, slots]
  by_cases near : k + d ≤ 127
  · rw [if_neg (by omega), if_pos near]
    exact setSlot_off _ w (by omega) (by omega)
  · rw [if_pos (by omega), if_neg near]

end SeqWindow

open SeqWindow

/-! ## The branches of naming -/

section
variable {bits s : Nat} {b : Bool} {t : Nat} {w : SeqWindow}

theorem nameRecord_unseeded (unseeded : w.tracking = false) :
    nameRecord bits s b t w = (w.seed bits s b t, .first) := by
  unfold nameRecord; rw [unseeded]; rfl

variable (tracking : w.tracking = true)
include tracking

theorem nameRecord_now (now : modDist bits w.n s = 0) : nameRecord bits s b t w = (w.advance bits b t, .first) := by
  unfold nameRecord
  dsimp only
  rw [if_pos tracking, if_pos now]

theorem nameRecord_ahead (low : 1 ≤ modDist bits w.n s) (high : modDist bits w.n s ≤ 127) :
    nameRecord bits s b t w =
      match w.slotAt s with
      | .first b' t' => (w, .shadow (lagOf t t') b')
      | .unseen => (w.markAhead s b t, .first)
      | .lost _ => (w.markAhead s b t, .first)
      | .late _ _ => (w.markAhead s b t, .first) := by
  unfold nameRecord
  dsimp only
  rw [if_pos tracking, if_neg (by omega)]
  exact if_pos ⟨low, high⟩

theorem nameRecord_behind (low : -128 ≤ modDist bits w.n s) (high : modDist bits w.n s ≤ -1) :
    nameRecord bits s b t w =
      match w.slotAt s with
      | .first b' t' => (w, .shadow (lagOf t t') b')
      | .late b' t' => (w, .shadow (lagOf t t') b')
      | .lost t' => (w.setSlot s (.late b t), .late (lagOf t t'))
      | .unseen => (w.setSlot s (.first b t), .first) := by
  unfold nameRecord
  dsimp only
  rw [if_pos tracking, if_neg (by omega), if_neg (by omega)]
  exact if_pos ⟨low, high⟩

theorem nameRecord_far (far : modDist bits w.n s < -128 ∨ 127 < modDist bits w.n s) :
    nameRecord bits s b t w = (w.seed bits s b t, .reseed w.n) := by
  unfold nameRecord
  dsimp only
  rw [if_pos tracking, if_neg (by omega), if_neg (by omega), if_neg (by omega)]

end

/-! ## The law kept (R114, R122, R123, R127) -/

section
variable {bits s : Nat} {w : SeqWindow} (hb : Width bits) (fits : s < 2 ^ bits)
include hb fits

/-- Naming leaves a tracking window under its law. -/
theorem nameRecord_lawful (b : Bool) (t : Nat) (law : w.tracking = true → w.Law bits) :
    (nameRecord bits s b t w).1.tracking = true ∧ (nameRecord bits s b t w).1.Law bits
      ∧ (nameRecord bits s b t w).1.timeout = w.timeout := by
  cases tracking : w.tracking with
  | false => rw [nameRecord_unseeded tracking]; exact ⟨rfl, seed_law hb s b t w, rfl⟩
  | true =>
    have law := law tracking
    obtain ⟨start, _⟩ := id law
    rcases lt_trichotomy (modDist bits w.n s) 0 with neg | now | pos
    · by_cases low : -128 ≤ modDist bits w.n s
      · obtain ⟨d, near, far, behind⟩ := number_behind hb fits start low (by omega)
        rw [nameRecord_behind tracking low (by omega)]
        cases w.slotAt s with
        | first b' t' => exact ⟨tracking, law, rfl⟩
        | late b' t' => exact ⟨tracking, law, rfl⟩
        | lost t' => exact ⟨tracking, setSlot_behind_law hb law _ near far behind, rfl⟩
        | unseen => exact ⟨tracking, setSlot_behind_law hb law _ near far behind, rfl⟩
      · rw [nameRecord_far tracking (.inl (by omega))]; exact ⟨rfl, seed_law hb s b t w, rfl⟩
    · rw [nameRecord_now tracking now]
      obtain ⟨lawful, timeout, tracks⟩ := advance_law hb b t w law
      exact ⟨tracks.trans tracking, lawful, timeout⟩
    · by_cases high : modDist bits w.n s ≤ 127
      · obtain ⟨d, near, far, place⟩ := number_ahead hb fits start (by omega) high
        have marked := markAhead_law hb law b t near far place
        rw [nameRecord_ahead tracking (by omega) high]
        cases w.slotAt s with
        | first b' t' => exact ⟨tracking, law, rfl⟩
        | late b' t' => exact ⟨tracking, marked, rfl⟩
        | lost t' => exact ⟨tracking, marked, rfl⟩
        | unseen => exact ⟨tracking, marked, rfl⟩
      · rw [nameRecord_far tracking (.inr (by omega))]; exact ⟨rfl, seed_law hb s b t w, rfl⟩

/-- A number whose slot is FIRST is a SHADOW. -/
theorem nameRecord_shadow {b b' : Bool} {t t' : Nat} (tracking : w.tracking = true) (law : w.Law bits)
    (low : -128 ≤ modDist bits w.n s) (high : modDist bits w.n s ≤ 127) (first : w.slotAt s = .first b' t') :
    nameRecord bits s b t w = (w, .shadow (lagOf t t') b') := by
  obtain ⟨start, unseen, _⟩ := id law
  rcases lt_trichotomy (modDist bits w.n s) 0 with neg | now | pos
  · rw [nameRecord_behind tracking low (by omega), first]
  · rw [number_at hb fits start now, unseen] at first
    cases first
  · rw [nameRecord_ahead tracking (by omega) high, first]

end

/-- What a record at N makes of the window (R122). -/
theorem advance_follows {bits : Nat} (hb : Width bits) (b : Bool) (t : Nat) {w : SeqWindow} (law : w.Law bits) :
    (w.advance bits b t).slotAt w.n = .first b t
      ∧ ∃ k, 1 ≤ k ∧ k ≤ 128 ∧ (w.advance bits b t).n = (w.n + k) % 2 ^ bits
        ∧ (∀ i, 1 ≤ i → i < k → SeqWindow.isFirst (w.slotAt (w.ahead bits i)) = true
            ∧ (w.advance bits b t).slotAt (w.ahead bits i) = w.slotAt (w.ahead bits i))
        ∧ (k ≤ 127 → SeqWindow.isFirst (w.slotAt (w.ahead bits k)) = false)
        ∧ (w.advance bits b t).slotAt (w.advance bits b t).n = .unseen
        ∧ ((∃ i, k < i ∧ i ≤ 127 ∧ SeqWindow.isFirst (w.slotAt (w.ahead bits i)) = true) →
            (w.advance bits b t).holeSince = some t)
        ∧ ((∀ i, k < i → i ≤ 127 → SeqWindow.isFirst (w.slotAt (w.ahead bits i)) = false) →
            (w.advance bits b t).holeSince = none) := by
  obtain ⟨_, unseen, _⟩ := (advance_law hb b t w law).1
  obtain ⟨k, pos, short, moved, first, stop⟩ := ranOn_moved hb b t w
  have slots : ∀ i, i ≤ 127 → (w.advance bits b t).slotAt (w.n + i) = (setSlot w.n (.first b t) w).slotAt (w.n + i) :=
    fun i near => (moved.slots i (by omega)).trans (if_neg (by omega))
  have slot : ∀ i, w.slotAt (w.ahead bits i) = w.off i := ahead_off hb w
  refine ⟨(slots 0 (by omega)).trans (setSlot_same ..), k, pos, short, moved.n.trans (if_neg (by omega)),
    fun i near far => ⟨?_, ?_⟩, fun near => ?_, unseen, fun ⟨i, near, far, found⟩ => ?_, fun none => ?_⟩
  · rw [slot]; exact first i near far
  · have place : w.ahead bits i % 256 = (w.n + i) % 256 := hb.mod _
    rw [slot, slotAt_congr _ place, slots i (by omega)]
    exact setSlot_off _ w near (by omega)
  · rw [slot]; exact stop near
  · rw [slot] at found
    rw [advance_since, if_pos]
    refine (firstAhead_isSome hb _).2 ⟨i - k, by omega, by omega, ?_⟩
    rw [ranOn_off hb moved pos (by omega) (by omega) short, if_pos (by omega), Nat.add_sub_of_le (Nat.le_of_lt near)]
    exact found
  · rw [advance_since, if_neg]
    rw [firstAhead_isSome hb]
    rintro ⟨d, low, high, found⟩
    rw [ranOn_off hb moved pos low high short] at found
    by_cases near : k + d ≤ 127
    · rw [if_pos near, ← slot, none _ (by omega) near] at found; cases found
    · rw [if_neg near] at found; cases found

/-- What a seed makes of the window (R121, R125). -/
theorem seed_follows (bits s : Nat) (b : Bool) (t : Nat) (w : SeqWindow) :
    (w.seed bits s b t).n = (s + 1) % 2 ^ bits ∧ (w.seed bits s b t).slotAt s = .first b t
      ∧ (∀ i, i % 256 ≠ s % 256 → (w.seed bits s b t).slotAt i = .unseen) ∧ (w.seed bits s b t).holeSince = none
      ∧ (w.seed bits s b t).deadline = none :=
  ⟨rfl, (seed_slotAt ..).trans (if_pos rfl), fun _ other => (seed_slotAt ..).trans (if_neg other), rfl, rfl⟩

/-- Settles O58, by where the number stands from N and what its slot is. -/
theorem namingFollowsTheWindow : Obligations.NamingFollowsTheWindow := by
  unfold Obligations.NamingFollowsTheWindow
  intro bits n legB tick w width fits lawful out d
  have hb := width_of width
  obtain ⟨tracks, law, timeout⟩ := nameRecord_lawful hb fits legB tick lawful
  refine ⟨tracks, law, timeout, fun unseeded => ?_, fun tracking => ?_⟩
  · have named : out = _ := nameRecord_unseeded unseeded
    rw [named]
    exact ⟨rfl, seed_follows bits n legB tick w⟩
  have start := (lawful tracking).1
  refine ⟨fun now => ?_, fun low high unseen => ?_,
    fun b t low high first => nameRecord_shadow hb fits tracking (lawful tracking) low high first,
    fun b t low high late => ?_, fun t low high lost => ?_, fun low high unseen => ?_, fun far => ?_⟩
  · have named : out = _ := nameRecord_now tracking now
    rw [named, number_at hb fits start now]
    exact ⟨rfl, advance_follows hb legB tick (lawful tracking)⟩
  · have named : out = _ := nameRecord_ahead tracking low high
    rw [unseen] at named
    rw [named]
    exact ⟨rfl, rfl, setSlot_same .., markAhead_since ..⟩
  · have named : out = _ := nameRecord_behind tracking low high
    rw [late] at named
    exact named
  · have named : out = _ := nameRecord_behind tracking low high
    rw [lost] at named
    rw [named]
    exact ⟨rfl, setSlot_same .., rfl, rfl, rfl⟩
  · have named : out = _ := nameRecord_behind tracking low high
    rw [unseen] at named
    rw [named]
    exact ⟨rfl, setSlot_same .., rfl, rfl, rfl⟩
  · have named : out = _ := nameRecord_far tracking far
    rw [named]
    exact ⟨rfl, seed_follows bits n legB tick w⟩

end Sys2Proof.Machine
end

section
/-!
SUPPORT. What becomes of a released record (R106, R107, R110, R116, R119, R120, R125, R126, R131, R132, R136).
-/
namespace Sys2Proof.Machine

namespace Path

/-! ## The leading records leave (R106) -/

theorem releasable_iff (keys : List OrderKey) (f : Classified) :
    releasable keys f = true ↔ ∀ k ∈ keys, f.key.earlier k = true := by
  unfold releasable; exact List.all_eq_true

theorem release_of_split {e : Env} {p : Path} {out rest : List Classified} (pending : p.merge.pending = out ++ rest)
    (leave : ∀ f ∈ out, ∀ k ∈ p.inFlightKeys, f.key.earlier k = true)
    (stays : ∀ f, rest.head? = some f → ∃ k ∈ p.inFlightKeys, f.key.earlier k = false) :
    release e p = out.foldl (fun p f => takeRecord e f p)
      { p with merge := { p.merge with pending := rest, released := addSat p.merge.released out.length } } := by
  have goes : ∀ f ∈ out, releasable p.inFlightKeys f = true := fun f member =>
    (releasable_iff _ f).2 (leave f member)
  have kept : rest.takeWhile (releasable p.inFlightKeys) = [] ∧ rest.dropWhile (releasable p.inFlightKeys) = rest := by
    cases rest with
    | nil => exact ⟨rfl, rfl⟩
    | cons f l =>
      obtain ⟨k, inFlight, later⟩ := stays f rfl
      have held : ¬ releasable p.inFlightKeys f = true := fun all => by
        rw [(releasable_iff _ f).1 all k inFlight] at later; cases later
      exact ⟨List.takeWhile_cons_of_neg held, List.dropWhile_cons_of_neg held⟩
  have taken : p.merge.pending.takeWhile (releasable p.inFlightKeys) = out := by
    rw [pending, List.takeWhile_append_of_pos goes, kept.1, List.append_nil]
  have left : p.merge.pending.dropWhile (releasable p.inFlightKeys) = rest := by
    rw [pending, List.dropWhile_append_of_pos goes, kept.2]
  unfold release
  dsimp only
  rw [taken, left]

/-! ## Offers and the arbiter's counters -/

/-- An arbiter in place of another. -/
def withArb (a : Arbiter) (p : Path) : Path := { p with arb := a }

theorem trySend_withArb (e : Env) (a : Arbiter) (p : Path) :
    trySend e (withArb a p) = withArb a (trySend e p) := by
  have same : (withArb a p).sendDue = p.sendDue := rfl
  have message : (withArb a p).att.message = p.att.message := rfl
  unfold trySend
  dsimp only
  rw [same, message]
  by_cases due : p.sendDue = true
  · rw [if_pos due, if_pos due]
    cases p.att.message <;> rfl
  · rw [if_neg due, if_neg due]

theorem setCause_withArb (e : Env) (c : Cause) (a : Arbiter) (p : Path) :
    setCause e c (withArb a p) = withArb a (setCause e c p) :=
  trySend_withArb e a { p with att := { p.att with causes := p.att.causes ||| c.mask } }

/-- An offer does not look at the arbiter. -/
theorem offer_withArb (e : Env) (c : Chan) (r : Record) (a : Arbiter) (p : Path) :
    offer e c r (withArb a p) = withArb a (offer e c r p) := by
  unfold offer
  dsimp only
  show (if accepts p.chans[c] then _ else if (p.chans[c]).tally.isNone then _ else _) = _
  by_cases room : accepts p.chans[c] = true
  · rw [if_pos room, if_pos room]; rfl
  · rw [if_neg room, if_neg room]
    by_cases first : (p.chans[c]).tally.isNone = true
    · rw [if_pos first, if_pos first]
      exact setCause_withArb e .loss a (returnBlocks r.blocks (modChan c (fun ch => refused ch r) p))
    · rw [if_neg first, if_neg first]; rfl

theorem modStream_offer (e : Env) (c : Chan) (r : Record) (st : Stream) (g : StreamCounters → StreamCounters) (p : Path) :
    modStream st g (offer e c r p) = offer e c r (modStream st g p) := by
  have arb := offer_arb e c r p
  have moved := offer_withArb e c r { p.arb with counters := updAt p.arb.counters st g } p
  refine Eq.trans ?_ moved.symm
  unfold modStream withArb
  rw [arb]

theorem modStream_modStream (st : Stream) (f g : StreamCounters → StreamCounters) (p : Path) :
    modStream st g (modStream st f p) = modStream st (fun k => g (f k)) p := by
  unfold modStream updAt
  simp only [Vector.set_set]
  congr 2
  simp

/-- The path with a window and counters of one stream in place. -/
def named (st : Stream) (v : SeqWindow) (n : StreamCounters) (q : Path) : Path :=
  { q with arb := { q.arb with
      windows := updAt q.arb.windows st (fun _ => v)
      counters := updAt q.arb.counters st (fun _ => n) } }

theorem modStream_modWindow (st : Stream) (v : SeqWindow) (g : StreamCounters → StreamCounters) (q : Path) :
    modStream st g (modWindow st (fun _ => v) q) = named st v (g q.arb.counters[st]) q := rfl

theorem modStream_named (st : Stream) (g : StreamCounters → StreamCounters) (q : Path) :
    modStream st g q = named st q.arb.windows[st] (g q.arb.counters[st]) q := by
  have same : updAt q.arb.windows st (fun _ => q.arb.windows[st]) = q.arb.windows :=
    State.updAt_self q.arb.windows st _ rfl
  unfold named modStream
  rw [same]
  rfl

end Path

end Sys2Proof.Machine
end

section
/-!
SUPPORT. A released record handed on (R119, R120, R125, R126, R131, R132, R136), and a good frame's own releases (R104,
R107, R110).
-/
namespace Sys2Proof.Machine

namespace Path

/-! ## Step 3 of R119, by the name -/

section
variable (e : Env) (f : Classified) (v : SeqWindow) (q : Path)

theorem handOn_first : handOn e f .first q = offer e (e.cfg.channelOf f.stream) (.first f)
    (named f.stream q.arb.windows[f.stream]
      { q.arb.counters[f.stream] with first := countUp (q.arb.counters[f.stream]).first } q) := by
  rw [← modStream_named f.stream (fun k => { k with first := countUp k.first }) q]
  rfl

theorem handOn_window_first : handOn e f .first (modWindow f.stream (fun _ => v) q) =
    offer e (e.cfg.channelOf f.stream) (.first f)
      (named f.stream v { q.arb.counters[f.stream] with first := countUp (q.arb.counters[f.stream]).first } q) := rfl

theorem handOn_shadow {lag : Nat} {winnerB : Bool} (delivers : e.cfg.suppress f.stream = false) :
    handOn e f (.shadow lag winnerB) (modWindow f.stream (fun _ => v) q) =
      offer e (e.cfg.channelOf f.stream) (.shadow f lag winnerB)
        (named f.stream v { q.arb.counters[f.stream] with
          shadowDelivered := countUp (q.arb.counters[f.stream]).shadowDelivered } q) := by
  unfold handOn
  dsimp only
  rw [delivers]
  rfl

theorem handOn_suppressed {lag : Nat} {winnerB : Bool} (suppresses : e.cfg.suppress f.stream = true) :
    handOn e f (.shadow lag winnerB) (modWindow f.stream (fun _ => v) q) =
      returnBlocks f.blocks
        (named f.stream v { q.arb.counters[f.stream] with
          shadowSuppressed := countUp (q.arb.counters[f.stream]).shadowSuppressed } q) := by
  unfold handOn
  dsimp only
  rw [suppresses]
  rfl

theorem handOn_late (lag : Nat) : handOn e f (.late lag) (modWindow f.stream (fun _ => v) q) =
    offer e (e.cfg.channelOf f.stream) (.late f lag)
      (named f.stream v { q.arb.counters[f.stream] with late := countUp (q.arb.counters[f.stream]).late } q) := rfl

theorem handOn_reseed {old s : Nat} (number : f.seq = some s) :
    handOn e f (.reseed old) (modWindow f.stream (fun _ => v) q) =
      offer e (e.cfg.channelOf f.stream) (.first f)
        (offer e (e.cfg.channelOf f.stream) (.reseed f.stream old s f.stamp.tick f.line f.legB)
          (named f.stream v { q.arb.counters[f.stream] with
            reseeds := countUp (q.arb.counters[f.stream]).reseeds
            first := countUp (q.arb.counters[f.stream]).first } q)) := by
  unfold handOn
  dsimp only
  rw [number, modStream_offer, modStream_modStream, modStream_modWindow]
  rfl

/-! ## Step 2 of R119 -/

theorem nameAndHandOn_none (unnumbered : f.seq = none) (plain : f.noSeq = false) :
    nameAndHandOn e f q = handOn e f .first q := by
  unfold nameAndHandOn
  rw [unnumbered, plain]
  rfl

theorem nameAndHandOn_noSeq (unnumbered : f.seq = none) (missing : f.noSeq = true) :
    nameAndHandOn e f q = offer e (e.cfg.channelOf f.stream) (.first f)
      (named f.stream q.arb.windows[f.stream]
        { q.arb.counters[f.stream] with noSeq := countUp (q.arb.counters[f.stream]).noSeq } q) := by
  rw [← modStream_named f.stream (fun k => { k with noSeq := countUp k.noSeq }) q]
  unfold nameAndHandOn
  rw [unnumbered, missing]
  rfl

theorem nameAndHandOn_some {s : Nat} {out : SeqWindow × Naming} (number : f.seq = some s)
    (names : nameRecord (e.cfg.seqBits f.stream) s f.legB f.stamp.tick q.arb.windows[f.stream] = out) :
    nameAndHandOn e f q = handOn e f out.2 (modWindow f.stream (fun _ => out.1) q) := by
  subst names
  unfold nameAndHandOn
  rw [number]

end

end Path

namespace State

/-! ## The releases of a good frame (R104, R106, R107, R110) -/

theorem frameEndAt_env {l : Line} {f : PortFrame} {s : State} {r : Classified}
    (capturing : (s.lines[l]).reception = .capturing f) (long : 64 ≤ f.bytes.length) (passes : fcsPasses f.bytes = true)
    (matched : classify s.settings l (s.lines[l]).legB f = some r) (room : s.path.merge.pending.length < 512) :
    (frameEndAt l true s).env = s.env := by
  rw [frameEndAt_good capturing long rfl passes, goodFrame_taken matched room]
  rfl

/-- The path of a good frame's end, its own record in place. -/
theorem frameEndAt_path {l : Line} {f : PortFrame} {s : State} {r : Classified}
    (capturing : (s.lines[l]).reception = .capturing f) (long : 64 ≤ f.bytes.length) (passes : fcsPasses f.bytes = true)
    (matched : classify s.settings l (s.lines[l]).legB f = some r) (room : s.path.merge.pending.length < 512) :
    (frameEndAt l true s).path = Path.offerHorizon s.env (Path.release s.env { s.path with
      store := { s.path.store with free := s.path.store.free + (f.blocks - r.blocks) }
      merge := { s.path.merge with
        inFlight := s.path.merge.inFlight.set l none
        pending := insertPending r s.path.merge.pending
        peak := max s.path.merge.peak (s.path.merge.pending.length + 1) } }) := by
  have line := (classify_line _ _ _ _ matched).1
  have arrives := Path.arrive_open (e := s.env) (f := r) (p := Path.returnBlocks (f.blocks - r.blocks) s.path) room
  rw [frameEndAt_good capturing long rfl passes, goodFrame_taken matched room]
  refine Eq.trans (b := Path.arrive s.env r (Path.returnBlocks (f.blocks - r.blocks) s.path)) rfl ?_
  rw [arrives, line, ← insertPending_length r s.path.merge.pending]
  rfl

end State

open State

/-- Settles O59: the leading records leave in their order, and each is named under its window and handed on. -/
theorem releasedRecordIsNamedAndHandedOn : Obligations.ReleasedRecordIsNamedAndHandedOn := by
  unfold Obligations.ReleasedRecordIsNamedAndHandedOn
  refine ⟨fun e p out rest pending leave stays => Path.release_of_split pending leave stays,
    fun l bytes s running => ?_, fun e f p => ?_⟩
  · intro s1 p f r capturing long passes matched room
    have fed : Receives l s s1 := feed_receives l bytes s
    rw [← fed.stamp.settings] at matched
    have env : s1.env = s.env := fed.stamp.env
    have path := frameEndAt_path capturing long passes matched room
    rw [env] at path
    refine ⟨_, answer_of_running _ running, ?_⟩
    show Path.serve (frameEndAt l true s1).env (frameEndAt l true s1).path = _
    rw [frameEndAt_env capturing long passes matched room, env, path]
  · intro st time raised q w k out under offered
    have declared : Path.Declared e raised q := Path.declareAll_declared e raised
    have takes : out = Path.nameAndHandOn e f q := rfl
    refine ⟨⟨declared.time, declared.view, fun x => ⟨declared.stays, declared.windows x, declared.counters x,
      fun width law => declared.ends (SeqWindow.width_of width) law⟩⟩, fun unnumbered plain => ?_,
      fun unnumbered missing => ?_, fun s number => ?_⟩
    · rw [takes, Path.nameAndHandOn_none e f q unnumbered plain, Path.handOn_first]
      rfl
    · rw [takes, Path.nameAndHandOn_noSeq e f q unnumbered missing]
      rfl
    · intro named
      have names := Path.nameAndHandOn_some e f q (out := named) number rfl
      rw [takes, names]
      refine ⟨fun first => ?_, fun lag winnerB shadow delivers => ?_, fun lag winnerB shadow suppresses => ?_,
        fun lag late => ?_, fun oldN reseeded => ?_⟩
      · rw [first, Path.handOn_window_first]; rfl
      · rw [shadow, Path.handOn_shadow e f _ q delivers]; rfl
      · rw [shadow, Path.handOn_suppressed e f _ q suppresses]; rfl
      · rw [late, Path.handOn_late]; rfl
      · rw [reseeded, Path.handOn_reseed e f _ q number]; rfl

end Sys2Proof.Machine
end

section
/-!
SUPPORT. The header parse and the sequence number of a frame (R91, R92, R93, R99), read off the parse region byte by
byte.
-/
namespace Sys2Proof.Machine

/-! ## Bytes of the region (R91) -/

/-- Byte `i` of the region, 0 outside it. -/
def byteAt (region : List Byte) (i : Nat) : Nat := (region.getD i 0).toNat

def wordAt (region : List Byte) (i : Nat) : Nat := 256 * byteAt region i + byteAt region (i + 1)

theorem byteAt_lt (region : List Byte) (i : Nat) : byteAt region i < 256 := (region.getD i 0).isLt

theorem regionByte_some {region : List Byte} {i : Nat} (inside : i < region.length) :
    regionByte region i = some (byteAt region i) := by
  unfold regionByte byteAt
  rw [List.getElem?_eq_getElem inside, List.getD_eq_getElem _ _ inside]
  rfl

theorem regionByte_eq_some {region : List Byte} {i a : Nat} (found : regionByte region i = some a) :
    i < region.length ∧ a = byteAt region i := by
  have inside : i < region.length := by
    by_contra outside
    unfold regionByte at found
    rw [List.getElem?_eq_none (Nat.not_lt.1 outside)] at found
    cases found
  rw [regionByte_some inside] at found
  exact ⟨inside, (Option.some.inj found).symm⟩

theorem regionWord_some {region : List Byte} {i : Nat} (inside : i + 1 < region.length) :
    regionWord region i = some (wordAt region i) := by
  unfold regionWord wordAt
  rw [regionByte_some (by omega), regionByte_some inside, Nat.mul_comm 256]
  rfl

theorem regionWord_eq_some {region : List Byte} {i a : Nat} (found : regionWord region i = some a) :
    i + 1 < region.length ∧ a = wordAt region i := by
  obtain ⟨x, first, second⟩ := Option.bind_eq_some_iff.1 found
  obtain ⟨y, last, _⟩ := Option.map_eq_some_iff.1 second
  have inside := (regionByte_eq_some last).1
  rw [regionWord_some inside] at found
  exact ⟨inside, (Option.some.inj found).symm⟩

/-! ## The headers (R91, R92, R93) -/

/-- Where the UDP header starts, the network header starting at `n`. -/
def udpAt (region : List Byte) (n : Nat) : Nat := n + 4 * (byteAt region n % 16)

/-- An IPv4 and a UDP header from byte `n`, both whole within the region. -/
def Parses (region : List Byte) (n : Nat) : Prop :=
  ((n = 14 ∧ wordAt region 12 = 0x0800) ∨ (n = 18 ∧ wordAt region 12 = 0x8100 ∧ wordAt region 16 = 0x0800))
    ∧ byteAt region n / 16 = 4 ∧ 5 ≤ byteAt region n % 16 ∧ byteAt region (n + 6) / 32 % 2 = 0
    ∧ wordAt region (n + 6) % 8192 = 0 ∧ byteAt region (n + 9) = 17 ∧ udpAt region n + 8 ≤ region.length

def headersAt (region : List Byte) (n : Nat) : Headers :=
  ⟨wordAt region (n + 16) * 65536 + wordAt region (n + 18), wordAt region (udpAt region n + 2), udpAt region n + 8⟩

/-- The bit that says more fragments follow. -/
theorem wordAt_testBit (region : List Byte) (i : Nat) :
    (wordAt region i).testBit 13 = false ↔ byteAt region i / 32 % 2 = 0 := by
  have low := byteAt_lt region (i + 1)
  rw [Nat.testBit_eq_decide_div_mod_eq, decide_eq_false_iff_not]
  unfold wordAt
  norm_num only
  omega

theorem networkStart_of {region : List Byte} {n : Nat} (room : n ≤ region.length)
    (type : (n = 14 ∧ wordAt region 12 = 0x0800)
      ∨ (n = 18 ∧ wordAt region 12 = 0x8100 ∧ wordAt region 16 = 0x0800)) : networkStart region = some n := by
  unfold networkStart
  rcases type with ⟨rfl, plain⟩ | ⟨rfl, tagged, inner⟩
  · rw [regionWord_some (by omega), plain]; rfl
  · rw [regionWord_some (by omega), regionWord_some (by omega), tagged, inner]; rfl

theorem networkStart_eq_some {region : List Byte} {n : Nat} (found : networkStart region = some n) :
    (n = 14 ∧ wordAt region 12 = 0x0800) ∨ (n = 18 ∧ wordAt region 12 = 0x8100 ∧ wordAt region 16 = 0x0800) := by
  unfold networkStart at found
  cases outer : regionWord region 12 with
  | none => rw [outer] at found; cases found
  | some t =>
    obtain ⟨_, type⟩ := regionWord_eq_some outer
    rw [outer] at found
    dsimp only at found
    rw [← type]
    by_cases tagged : t = 0x8100
    · rw [if_pos tagged] at found
      cases inner : regionWord region 16 with
      | none => rw [inner] at found; cases found
      | some t' =>
        obtain ⟨_, proper⟩ := regionWord_eq_some inner
        rw [inner] at found
        dsimp only at found
        by_cases ip : t' = 0x0800
        · rw [if_pos ip] at found
          exact .inr ⟨(Option.some.inj found).symm, tagged, proper.symm.trans ip⟩
        · rw [if_neg ip] at found; cases found
    · rw [if_neg tagged] at found
      by_cases ip : t = 0x0800
      · rw [if_pos ip] at found
        exact .inl ⟨(Option.some.inj found).symm, ip⟩
      · rw [if_neg ip] at found; cases found

theorem parse_of_parses {region : List Byte} {n : Nat} (parses : Parses region n) :
    parse region = some (headersAt region n) := by
  obtain ⟨type, version, words, flags, offset, protocol, room⟩ := parses
  have start : n + 20 ≤ udpAt region n := by unfold udpAt; omega
  have onward : networkStart region = some n := networkStart_of (by omega) type
  have port : regionWord region (n + 4 * (byteAt region n % 16) + 2) = some (wordAt region (udpAt region n + 2)) :=
    regionWord_some (by show udpAt region n + 2 + 1 < _; omega)
  unfold parse
  rw [onward]
  show parseFrom region n = _
  unfold parseFrom
  rw [regionByte_some (i := n) (by omega), regionWord_some (i := n + 6) (by omega),
    regionByte_some (i := n + 9) (by omega), regionWord_some (i := n + 16) (by omega),
    regionWord_some (i := n + 18) (by omega)]
  simp only [Option.bind_eq_bind, Option.bind_some]
  rw [port]
  exact if_pos ⟨version, words, (wordAt_testBit region (n + 6)).2 flags, offset, protocol, room⟩

theorem parses_of_parse {region : List Byte} {h : Headers} (found : parse region = some h) : ∃ n, Parses region n := by
  obtain ⟨n, start, onward⟩ := Option.bind_eq_some_iff.1 found
  unfold parseFrom at onward
  simp only [Option.bind_eq_bind, Option.bind_eq_some_iff] at onward
  obtain ⟨vl, first, frag, flags, proto, protocol, _, _, _, _, _, _, rest⟩ := onward
  obtain ⟨_, rfl⟩ := regionByte_eq_some first
  obtain ⟨_, rfl⟩ := regionWord_eq_some flags
  obtain ⟨_, rfl⟩ := regionByte_eq_some protocol
  by_cases whole : byteAt region n / 16 = 4 ∧ 5 ≤ byteAt region n % 16 ∧ (wordAt region (n + 6)).testBit 13 = false
      ∧ wordAt region (n + 6) % 8192 = 0 ∧ byteAt region (n + 9) = 17
      ∧ n + 4 * (byteAt region n % 16) + 8 ≤ region.length
  · obtain ⟨version, words, more, offset, udp, room⟩ := whole
    exact ⟨n, networkStart_eq_some start, version, words, (wordAt_testBit region (n + 6)).1 more, offset, udp, room⟩
  · rw [if_neg whole] at rest; cases rest

/-! ## A run of bytes as a number (R99) -/

theorem beNumber_from (bytes : List Byte) (a : Nat) :
    bytes.foldl (fun a b => a * 256 + b.toNat) a = a * 256 ^ bytes.length + beNumber bytes := by
  unfold beNumber
  induction bytes generalizing a with
  | nil => simp
  | cons b bytes ih =>
    rw [List.foldl_cons, List.foldl_cons, ih, ih (0 * 256 + b.toNat), List.length_cons, pow_succ]
    ring

theorem beNumber_cons (b : Byte) (bytes : List Byte) :
    beNumber (b :: bytes) = b.toNat * 256 ^ bytes.length + beNumber bytes := by
  refine Eq.trans (beNumber_from bytes (0 * 256 + b.toNat)) ?_
  rw [Nat.zero_mul, Nat.zero_add]

/-- The first byte is the most significant. -/
theorem beNumber_eq_sum (bytes : List Byte) : beNumber bytes =
    ((List.range bytes.length).map fun i => byteAt bytes i * 256 ^ (bytes.length - 1 - i)).sum := by
  induction bytes with
  | nil => rfl
  | cons b bytes ih =>
    rw [beNumber_cons, ih, List.length_cons, List.range_succ_eq_map, List.map_cons, List.map_map, List.sum_cons]
    congr 1
    refine congrArg List.sum (List.map_congr_left fun i _ => ?_)
    show _ = byteAt bytes i * 256 ^ (bytes.length + 1 - 1 - (i + 1))
    rw [show bytes.length + 1 - 1 - (i + 1) = bytes.length - 1 - i by omega]

/-- With the bytes reversed the first is the least significant. -/
theorem beNumber_reverse_eq_sum (bytes : List Byte) : beNumber bytes.reverse =
    ((List.range bytes.length).map fun i => byteAt bytes i * 256 ^ i).sum := by
  induction bytes with
  | nil => rfl
  | cons b bytes ih =>
    have appended : beNumber (bytes.reverse ++ [b]) = beNumber bytes.reverse * 256 + b.toNat := by
      unfold beNumber; rw [List.foldl_append]; rfl
    have shifted : ((List.range bytes.length).map fun i => byteAt bytes i * 256 ^ (i + 1)).sum =
        ((List.range bytes.length).map fun i => byteAt bytes i * 256 ^ i).sum * 256 := by
      rw [← List.sum_map_mul_right]
      refine congrArg List.sum (List.map_congr_left fun i _ => ?_)
      rw [pow_succ, Nat.mul_assoc]
    rw [List.reverse_cons, appended, ih, List.length_cons, List.range_succ_eq_map, List.map_cons, List.map_map,
      List.sum_cons, ← shifted, Nat.add_comm]
    congr 1
    show _ = byteAt (b :: bytes) 0 * 1
    rw [Nat.mul_one]; rfl

theorem byteAt_field {region : List Byte} {start width i : Nat} (inside : i < width) :
    byteAt ((region.drop start).take width) i = byteAt region (start + i) := by
  unfold byteAt
  rw [List.getD_eq_getElem?_getD, List.getD_eq_getElem?_getD, List.getElem?_take_of_lt inside, List.getElem?_drop]

/-- The number in a sequence field, in its byte order. -/
def seqNumber (region : List Byte) (little : Bool) (start width : Nat) : Nat :=
  ((List.range width).map fun i => byteAt region (start + i) * 256 ^ (if little then i else width - 1 - i)).sum

theorem readSeq_of_le {region : List Byte} {start width : Nat} (little : Bool) (room : start + width ≤ region.length) :
    readSeq little start width region = some (seqNumber region little start width) := by
  have length : ((region.drop start).take width).length = width := by
    rw [List.length_take, List.length_drop]; omega
  unfold readSeq seqNumber
  rw [if_pos room]
  refine congrArg some ?_
  cases little with
  | true =>
    rw [if_pos rfl, beNumber_reverse_eq_sum, length]
    refine congrArg List.sum (List.map_congr_left fun i member => ?_)
    rw [byteAt_field (List.mem_range.1 member), if_pos rfl]
  | false =>
    rw [if_neg Bool.false_ne_true, beNumber_eq_sum, length]
    refine congrArg List.sum (List.map_congr_left fun i member => ?_)
    rw [byteAt_field (List.mem_range.1 member), if_neg Bool.false_ne_true]

theorem readSeq_of_lt {region : List Byte} {start width : Nat} (little : Bool) (short : region.length < start + width) :
    readSeq little start width region = none := if_neg (Nat.not_le.2 short)

end Sys2Proof.Machine
end

section
/-!
SUPPORT. The stream of a frame and its record (R93, R96, R97, R99, R100).
-/
namespace Sys2Proof.Machine

/-! ## The matching entries (R96) -/

/-- Valid, the line in its set, and key and base agree on every compared bit. -/
def Fits (c : Settings) (l : Line) (key : Nat) (e : Stream) : Prop :=
  c.valid e = true ∧ c.inLineSet e l = true
    ∧ ∀ i : Nat, i < 48 → (c.mask e).testBit i = false → key.testBit i = (c.base e).testBit i

/-- Two numbers agree wherever the mask does not hide them. -/
theorem masked_xor_eq_zero (x y m : Nat) :
    ((BitVec.ofNat 48 x ^^^ BitVec.ofNat 48 y) &&& ~~~ BitVec.ofNat 48 m) = 0 ↔
      ∀ i : Nat, i < 48 → m.testBit i = false → x.testBit i = y.testBit i := by
  have bit : ∀ i : Nat, i < 48 →
      (((BitVec.ofNat 48 x ^^^ BitVec.ofNat 48 y) &&& ~~~ BitVec.ofNat 48 m).getLsbD i =
        ((x.testBit i ^^ y.testBit i) && !m.testBit i)) := fun i inside => by
    simp only [BitVec.getLsbD_and, BitVec.getLsbD_xor, BitVec.getLsbD_not, BitVec.getLsbD_ofNat, inside, decide_true,
      Bool.true_and]
  constructor
  · intro zero i inside compared
    have clear := bit i inside
    rw [zero, compared] at clear
    simpa using clear.symm
  · intro agree
    refine BitVec.eq_of_getLsbD_eq fun i inside => ?_
    rw [bit i inside]
    cases compared : m.testBit i with
    | true => simp
    | false => simp [agree i inside compared]

theorem entryMatches_iff (c : Settings) (l : Line) (key : Nat) (e : Stream) :
    entryMatches c l key e = true ↔ Fits c l key e := by
  unfold entryMatches Fits
  rw [Bool.and_eq_true, Bool.and_eq_true, beq_iff_eq, and_assoc]
  exact and_congr_right fun _ => and_congr_right fun _ => masked_xor_eq_zero key (c.base e) (c.mask e)

/-! ## The best of them (R96) -/

/-- `e` comes before `x`: a higher masked base, or the same one and a number not higher. -/
def Beats (c : Settings) (e x : Stream) : Prop :=
  maskedBase c x < maskedBase c e ∨ (maskedBase c x = maskedBase c e ∧ e ≤ x)

/-- The one that comes before all is kept to the end. -/
theorem foldl_betterEntry {c : Settings} {e : Stream} (l : List Stream) (best : Option Stream)
    (ordered : (best.toList ++ l).Pairwise (· < ·)) (member : e ∈ best.toList ++ l)
    (beats : ∀ x ∈ best.toList ++ l, Beats c e x) : l.foldl (betterEntry c) best = some e := by
  induction l generalizing best with
  | nil =>
    cases best with
    | none => cases member
    | some b =>
      obtain rfl := List.mem_singleton.1 (by simpa using member)
      rfl
  | cons x l ih =>
    rw [List.foldl_cons]
    cases best with
    | none => exact ih (some x) ordered member beats
    | some b =>
      have pair : b < x := List.rel_of_pairwise_cons ordered List.mem_cons_self
      unfold betterEntry
      dsimp only
      by_cases better : maskedBase c b < maskedBase c x
      · rw [if_pos better]
        refine ih (some x) (List.Pairwise.of_cons ordered) ?_ fun y among => beats y (List.mem_cons_of_mem b among)
        rcases List.mem_cons.1 member with rfl | later
        · rcases beats x (List.mem_cons_of_mem _ List.mem_cons_self) with lower | ⟨same, _⟩ <;> omega
        · exact later
      · rw [if_neg better]
        have sub : ((b :: l).Sublist (b :: x :: l)) := (List.sublist_cons_self x l).cons_cons b
        refine ih (some b) (ordered.sublist sub) ?_ fun y among => beats y (sub.subset among)
        rcases List.mem_cons.1 member with rfl | later
        · exact List.mem_cons_self
        · rcases List.mem_cons.1 later with rfl | last
          · rcases beats b List.mem_cons_self with lower | ⟨_, before⟩
            · exact absurd lower better
            · exact absurd before (not_le.2 pair)
          · exact List.mem_cons_of_mem b last

theorem mem_matching (c : Settings) (l : Line) (key : Nat) (e : Stream) :
    e ∈ allStreams.filter (entryMatches c l key) ↔ Fits c l key e := by
  rw [List.mem_filter, entryMatches_iff]
  exact and_iff_right (mem_allStreams e)

theorem matchStream_none {c : Settings} {l : Line} {key : Nat} (misfit : ∀ e, ¬ Fits c l key e) :
    matchStream c l key = none := by
  have empty : allStreams.filter (entryMatches c l key) = [] :=
    List.eq_nil_iff_forall_not_mem.2 fun e member => misfit e ((mem_matching c l key e).1 member)
  unfold matchStream
  rw [empty]
  rfl

theorem matchStream_some {c : Settings} {l : Line} {key : Nat} {e : Stream} (fits : Fits c l key e)
    (beats : ∀ x, Fits c l key x → Beats c e x) : matchStream c l key = some e := by
  have ordered : allStreams.Pairwise (· < ·) := List.pairwise_lt_finRange 64
  exact foldl_betterEntry _ none (ordered.filter _) ((mem_matching c l key e).2 fits) fun x member =>
    beats x ((mem_matching c l key x).1 member)

/-! ## The record of a frame (R90, R97, R99, R100) -/

/-- The sequence field of stream `e` as its entry says (R99). -/
def seqOf (c : Settings) (e : Stream) (h : Headers) (region : List Byte) : Option Nat :=
  if c.seqWidth e = 0 then none
  else readSeq (c.littleEndian e) (h.payload + c.seqOffset e) (c.seqWidth e) region

/-- The record of a frame of stream `e`. -/
def recordOf (c : Settings) (l : Line) (legB : Bool) (f : PortFrame) (e : Stream) (seq : Option Nat) : Classified :=
  { stamp := f.stamp, line := l, legB := legB, stream := e, seq := seq,
    noSeq := decide (c.seqWidth e ≠ 0) && seq.isNone, degraded := f.degraded, cut := f.cut,
    frameLength := f.bytes.length, captured := capturedBytes c e f, blocks := blocksFor (capturedBytes c e f).length }

theorem classify_eq (c : Settings) (l : Line) (legB : Bool) (f : PortFrame) : classify c l legB f =
    (parse (parseRegion f)).bind fun h => (matchStream c l h.key).map fun e =>
      recordOf c l legB f e (seqOf c e h (parseRegion f)) := by
  unfold classify
  dsimp only
  cases parse (parseRegion f) with
  | none => rfl
  | some h =>
    rw [Option.bind_some]
    dsimp only
    cases matchStream c l h.key <;> rfl

theorem headersAt_key (region : List Byte) (n : Nat) : (headersAt region n).key =
    (65536 * wordAt region (n + 16) + wordAt region (n + 18)) * 65536 + wordAt region (udpAt region n + 2) := by
  unfold headersAt Headers.key
  rw [Nat.mul_comm 65536]

theorem seqOf_unnumbered {c : Settings} {e : Stream} (none : c.seqWidth e = 0) (h : Headers) (region : List Byte) :
    seqOf c e h region = Option.none := if_pos none

theorem seqOf_numbered {c : Settings} {e : Stream} (numbered : c.seqWidth e ≠ 0) (h : Headers) (region : List Byte) :
    seqOf c e h region = readSeq (c.littleEndian e) (h.payload + c.seqOffset e) (c.seqWidth e) region := if_neg numbered

/-- Settles O57: the parse, the match and the sequence field each as the table has them. -/
theorem classifierFollowsTheTable : Obligations.ClassifierFollowsTheTable := by
  unfold Obligations.ClassifierFollowsTheTable
  intro c l legB f region byte word udp parses key fits masked
  have classified := classify_eq c l legB f
  refine ⟨fun unparsed => ?_, fun n parsed => ?_⟩
  · have failed : parse region = none := Option.eq_none_iff_forall_ne_some.2 fun h found => by
      obtain ⟨n, parsed⟩ := parses_of_parse found
      exact unparsed n parsed
    rw [classified]
    show (parse region).bind _ = none
    rw [failed]
    rfl
  have headers : parse (parseRegion f) = some (headersAt region n) := parse_of_parses (region := region) parsed
  have keyed : (headersAt region n).key = key n := headersAt_key region n
  rw [headers, Option.bind_some, keyed] at classified
  refine ⟨fun misfit => ?_, ?_⟩
  · rw [classified, matchStream_none misfit]
    rfl
  · intro e fit best width start
    rw [matchStream_some fit best] at classified
    refine ⟨_, classified, rfl, rfl, rfl, rfl, rfl, rfl, rfl, rfl, rfl, fun none => ?_, fun numbered short => ?_,
      fun numbered room => ?_⟩
    · exact ⟨seqOf_unnumbered none _ _, Bool.and_eq_false_imp.2 fun nonzero => absurd none (of_decide_eq_true nonzero)⟩
    · have seq := (seqOf_numbered numbered (headersAt region n) region).trans (readSeq_of_lt _ short)
      exact ⟨seq, Bool.and_eq_true_iff.2 ⟨decide_eq_true numbered, congrArg Option.isNone seq⟩⟩
    · have seq := (seqOf_numbered numbered (headersAt region n) region).trans (readSeq_of_le _ room)
      exact ⟨(congrArg (fun x => _ && Option.isNone x) seq).trans (Bool.and_false _), seq⟩

end Sys2Proof.Machine
end
